-- ==== Sys2Proof/Word.lean ====
section
/-! DEFINITION. The widths the spec names: bytes, halfwords and words are bit strings
(`00_scope.md` R9; `20_memory.md` R90, R98). -/

namespace Sys2Proof

/-- The 8-bit unit of addressing (R90). -/
abbrev Byte := BitVec 8

/-- A 16-bit halfword: the unit of instruction fetch (R98, R140). -/
abbrev Half := BitVec 16

/-- A 32-bit word: every register and address (R9). -/
abbrev Word := BitVec 32

end Sys2Proof
end

