-- ==== Sys2Proof/Syntax.lean ====
section
/-! DEFINITION. One constructor for each of the 84 rows of `spec/opcode_table.json`, in the table's
order. A constructor's arguments are the row's fields, should-be bits included: by R179 a wrong
should-be bit "still selects the row and then makes the instruction UNPREDICTABLE". The two halves of a
split register number are joined (R149: `DN : Rdn`), and the 4-bit condition is a `Cond` (the values
1110 and 1111 are the UDF and SVC rows). -/

namespace Sys2Proof

/-- The fourteen conditions of R13. -/
inductive Cond where
  | eq | ne | cs | cc | mi | pl | vs | vc | hi | ls | ge | lt | gt | le
deriving DecidableEq, Repr

/-- A low register number, R0 to R7 (R162). -/
abbrev LowReg := Fin 8

/-- A 4-bit register number: 13 is SP, 14 LR, 15 PC (R162). -/
abbrev RegNum := Fin 16

/-- The instructions of R2, one constructor a row (rule numbers R200 to R335). -/
inductive Instr where
  -- 40_shift_add_sub_move_compare.md
  | lslsImm (imm5 : BitVec 5) (rm rd : LowReg)
  | lsrsImm (imm5 : BitVec 5) (rm rd : LowReg)
  | asrsImm (imm5 : BitVec 5) (rm rd : LowReg)
  | addsReg (rm rn rd : LowReg)
  | subsReg (rm rn rd : LowReg)
  | addsImm3 (imm3 : BitVec 3) (rn rd : LowReg)
  | subsImm3 (imm3 : BitVec 3) (rn rd : LowReg)
  | movsImm (rd : LowReg) (imm8 : BitVec 8)
  | cmpImm (rn : LowReg) (imm8 : BitVec 8)
  | addsImm8 (rdn : LowReg) (imm8 : BitVec 8)
  | subsImm8 (rdn : LowReg) (imm8 : BitVec 8)
  | movsReg (rm rd : LowReg)
  -- 41_data_processing.md
  | ands (rm rdn : LowReg)
  | eors (rm rdn : LowReg)
  | lslsReg (rm rdn : LowReg)
  | lsrsReg (rm rdn : LowReg)
  | asrsReg (rm rdn : LowReg)
  | adcs (rm rdn : LowReg)
  | sbcs (rm rdn : LowReg)
  | rors (rm rdn : LowReg)
  | tst (rm rn : LowReg)
  | rsbs (rn rd : LowReg)
  | cmpReg (rm rn : LowReg)
  | cmn (rm rn : LowReg)
  | orrs (rm rdn : LowReg)
  | muls (rn rdm : LowReg)
  | bics (rm rdn : LowReg)
  | mvns (rm rd : LowReg)
  -- 42_special_data_branch_exchange.md
  | addHi (rdn rm : RegNum)
  | cmpHi (rn rm : RegNum)
  | movHi (rd rm : RegNum)
  | bx (rm : RegNum) (sbz : BitVec 3)
  | blx (rm : RegNum) (sbz : BitVec 3)
  -- 43_load_store_single.md
  | ldrLit (rt : LowReg) (imm8 : BitVec 8)
  | strReg (rm rn rt : LowReg)
  | strhReg (rm rn rt : LowReg)
  | strbReg (rm rn rt : LowReg)
  | ldrsbReg (rm rn rt : LowReg)
  | ldrReg (rm rn rt : LowReg)
  | ldrhReg (rm rn rt : LowReg)
  | ldrbReg (rm rn rt : LowReg)
  | ldrshReg (rm rn rt : LowReg)
  | strImm (imm5 : BitVec 5) (rn rt : LowReg)
  | ldrImm (imm5 : BitVec 5) (rn rt : LowReg)
  | strbImm (imm5 : BitVec 5) (rn rt : LowReg)
  | ldrbImm (imm5 : BitVec 5) (rn rt : LowReg)
  | strhImm (imm5 : BitVec 5) (rn rt : LowReg)
  | ldrhImm (imm5 : BitVec 5) (rn rt : LowReg)
  | strSp (rt : LowReg) (imm8 : BitVec 8)
  | ldrSp (rt : LowReg) (imm8 : BitVec 8)
  -- 44_misc_16bit.md
  | adr (rd : LowReg) (imm8 : BitVec 8)
  | addSpImm (rd : LowReg) (imm8 : BitVec 8)
  | addSp (imm7 : BitVec 7)
  | subSp (imm7 : BitVec 7)
  | sxth (rm rd : LowReg)
  | sxtb (rm rd : LowReg)
  | uxth (rm rd : LowReg)
  | uxtb (rm rd : LowReg)
  | push (m : Bool) (list : BitVec 8)
  | cps (im : Bool) (sb : BitVec 4)
  | rev (rm rd : LowReg)
  | rev16 (rm rd : LowReg)
  | revsh (rm rd : LowReg)
  | pop (p : Bool) (list : BitVec 8)
  | bkpt (imm8 : BitVec 8)
  | nop
  | yield
  | wfe
  | wfi
  | sev
  | hintNop (opA : BitVec 4)
  -- 45_load_store_multiple.md
  | stm (rn : LowReg) (list : BitVec 8)
  | ldm (rn : LowReg) (list : BitVec 8)
  -- 46_branch_svc.md
  | bCond (cond : Cond) (imm8 : BitVec 8)
  | b (imm11 : BitVec 11)
  | udf (imm8 : BitVec 8)
  | svc (imm8 : BitVec 8)
  | bl (sgn : BitVec 1) (imm10 : BitVec 10) (j1 j2 : BitVec 1) (imm11 : BitVec 11)
  -- 47_system_32bit.md
  | msr (sbz4 : BitVec 1) (rn : RegNum) (sbz13 : BitVec 1) (sb1000 : BitVec 4) (sysm : BitVec 8)
  | mrs (sbz4 : BitVec 1) (sbo : BitVec 4) (sbz13 : BitVec 1) (rd : RegNum) (sysm : BitVec 8)
  | dsb (sbo1 : BitVec 4) (sbz13 : BitVec 1) (sbo2 : BitVec 4) (option : BitVec 4)
  | dmb (sbo1 : BitVec 4) (sbz13 : BitVec 1) (sbo2 : BitVec 4) (option : BitVec 4)
  | isb (sbo1 : BitVec 4) (sbz13 : BitVec 1) (sbo2 : BitVec 4) (option : BitVec 4)
  | udfW (imm4 : BitVec 4) (imm12 : BitVec 12)
deriving DecidableEq, Repr

end Sys2Proof
end

