-- ==== Sys2Proof/WellFormed.lean ====
section
/-! DEFINITION. `Instr.wellFormed`: the instruction is none of the UNPREDICTABLE encodings of R178
(U2 to U6, U8), and its fields are those of its own table row (the nested rows of R179: LSLS with
imm5 = 0 is the MOVS row, a hint with opA below 0101 is a named hint). -/

namespace Sys2Proof

/-- The special-register numbers MSR and MRS define (R336). -/
def sysmDefined (sysm : BitVec 8) : Bool :=
  [0, 1, 2, 3, 5, 6, 7, 8, 9, 16, 20].contains sysm.toNat

/-- The should-be bits of a barrier (R173). -/
def barrierBitsOk (sbo1 : BitVec 4) (sbz13 : BitVec 1) (sbo2 : BitVec 4) : Bool :=
  sbo1 == 0b1111#4 && sbz13 == 0#1 && sbo2 == 0b1111#4

/-- R178's list, constructor by constructor. -/
def Instr.wellFormed : Instr → Bool
  | .lslsImm imm5 _ _ => imm5 != 0#5
  | .lsrsImm _ _ _ => true
  | .asrsImm _ _ _ => true
  | .addsReg _ _ _ => true
  | .subsReg _ _ _ => true
  | .addsImm3 _ _ _ => true
  | .subsImm3 _ _ _ => true
  | .movsImm _ _ => true
  | .cmpImm _ _ => true
  | .addsImm8 _ _ => true
  | .subsImm8 _ _ => true
  | .movsReg _ _ => true
  | .ands _ _ => true
  | .eors _ _ => true
  | .lslsReg _ _ => true
  | .lsrsReg _ _ => true
  | .asrsReg _ _ => true
  | .adcs _ _ => true
  | .sbcs _ _ => true
  | .rors _ _ => true
  | .tst _ _ => true
  | .rsbs _ _ => true
  | .cmpReg _ _ => true
  | .cmn _ _ => true
  | .orrs _ _ => true
  | .muls _ _ => true
  | .bics _ _ => true
  | .mvns _ _ => true
  | .addHi rdn rm => !(rdn == 15 && rm == 15)
  | .cmpHi rn rm => !(decide (rn.val < 8) && decide (rm.val < 8)) && rn != 15 && rm != 15
  | .movHi _ _ => true
  | .bx rm sbz => rm != 15 && sbz == 0#3
  | .blx rm sbz => rm != 15 && sbz == 0#3
  | .ldrLit _ _ => true
  | .strReg _ _ _ => true
  | .strhReg _ _ _ => true
  | .strbReg _ _ _ => true
  | .ldrsbReg _ _ _ => true
  | .ldrReg _ _ _ => true
  | .ldrhReg _ _ _ => true
  | .ldrbReg _ _ _ => true
  | .ldrshReg _ _ _ => true
  | .strImm _ _ _ => true
  | .ldrImm _ _ _ => true
  | .strbImm _ _ _ => true
  | .ldrbImm _ _ _ => true
  | .strhImm _ _ _ => true
  | .ldrhImm _ _ _ => true
  | .strSp _ _ => true
  | .ldrSp _ _ => true
  | .adr _ _ => true
  | .addSpImm _ _ => true
  | .addSp _ => true
  | .subSp _ => true
  | .sxth _ _ => true
  | .sxtb _ _ => true
  | .uxth _ _ => true
  | .uxtb _ _ => true
  | .push m list => m || list != 0#8
  | .cps _ sb => sb == 0b0010#4
  | .rev _ _ => true
  | .rev16 _ _ => true
  | .revsh _ _ => true
  | .pop p list => p || list != 0#8
  | .bkpt _ => true
  | .nop => true
  | .yield => true
  | .wfe => true
  | .wfi => true
  | .sev => true
  | .hintNop opA => decide (5 ≤ opA.toNat)
  | .stm _ list => list != 0#8
  | .ldm _ list => list != 0#8
  | .bCond _ _ => true
  | .b _ => true
  | .udf _ => true
  | .svc _ => true
  | .bl _ _ _ _ _ => true
  | .msr sbz4 rn sbz13 sb1000 sysm =>
    sbz4 == 0#1 && sbz13 == 0#1 && sb1000 == 0b1000#4 && rn != 13 && rn != 15 && sysmDefined sysm
  | .mrs sbz4 sbo sbz13 rd sysm =>
    sbz4 == 0#1 && sbo == 0b1111#4 && sbz13 == 0#1 && rd != 13 && rd != 15 && sysmDefined sysm
  | .dsb sbo1 sbz13 sbo2 _ => barrierBitsOk sbo1 sbz13 sbo2
  | .dmb sbo1 sbz13 sbo2 _ => barrierBitsOk sbo1 sbz13 sbo2
  | .isb sbo1 sbz13 sbo2 _ => barrierBitsOk sbo1 sbz13 sbo2
  | .udfW _ _ => true

end Sys2Proof
end

