-- ==== Sys2Proof/Decode.lean ====
section
/-! DEFINITION. The decoder and the encoder, both written from `30_encoding.md` (formats R145 to R160,
R171 to R174; decode trees R144, R170; undefined spaces R175, R176; UNPREDICTABLE encodings R178). -/

namespace Sys2Proof

/-! ## Fields -/

/-- The 3-bit register field whose lowest bit is `lo` (R162). -/
def lowField (w : Half) (lo : Nat) : LowReg := (w.extractLsb' lo 3).toFin

/-- The 4-bit register field whose lowest bit is `lo` (R162). -/
def regField (w : Half) (lo : Nat) : RegNum := (w.extractLsb' lo 4).toFin

/-- The first register of format HIREG: hw1[7] above hw1[2:0] (R149). -/
def splitField (w : Half) : RegNum := (w.extractLsb' 7 1 ++ w.extractLsb' 0 3).toFin

/-- A one-bit field as a Bool. -/
def bitField (w : Half) (i : Nat) : Bool := w.extractLsb' i 1 == 1#1

/-- The condition a 4-bit field names (R13); 1110 and 1111 name none. -/
def condOfBits (c : BitVec 4) : Option Cond :=
  match c.toNat with
  | 0 => some .eq
  | 1 => some .ne
  | 2 => some .cs
  | 3 => some .cc
  | 4 => some .mi
  | 5 => some .pl
  | 6 => some .vs
  | 7 => some .vc
  | 8 => some .hi
  | 9 => some .ls
  | 10 => some .ge
  | 11 => some .lt
  | 12 => some .gt
  | 13 => some .le
  | _ => none

/-- The 4-bit field of a condition (R13). -/
def condToBits : Cond → BitVec 4
  | .eq => 0
  | .ne => 1
  | .cs => 2
  | .cc => 3
  | .mi => 4
  | .pl => 5
  | .vs => 6
  | .vc => 7
  | .hi => 8
  | .ls => 9
  | .ge => 10
  | .lt => 11
  | .gt => 12
  | .le => 13

/-! ## The table rows a halfword, or a pair of halfwords, selects -/

/-- hw1[15:11] = 00011: formats ADDSUB_REG and ADDSUB_IMM3 (R146). -/
def rowAddSub (w : Half) : Instr :=
  if w.extractLsb' 9 2 = 0b00#2 then .addsReg (lowField w 6) (lowField w 3) (lowField w 0)
  else if w.extractLsb' 9 2 = 0b01#2 then .subsReg (lowField w 6) (lowField w 3) (lowField w 0)
  else if w.extractLsb' 9 2 = 0b10#2 then
    .addsImm3 (w.extractLsb' 6 3) (lowField w 3) (lowField w 0)
  else .subsImm3 (w.extractLsb' 6 3) (lowField w 3) (lowField w 0)

/-- hw1[15:10] = 010000: data processing, by hw1[9:6] (R148). -/
def rowDataProcessing (w : Half) : Instr :=
  let a := lowField w 3
  let d := lowField w 0
  match (w.extractLsb' 6 4).toNat with
  | 0 => .ands a d
  | 1 => .eors a d
  | 2 => .lslsReg a d
  | 3 => .lsrsReg a d
  | 4 => .asrsReg a d
  | 5 => .adcs a d
  | 6 => .sbcs a d
  | 7 => .rors a d
  | 8 => .tst a d
  | 9 => .rsbs a d
  | 10 => .cmpReg a d
  | 11 => .cmn a d
  | 12 => .orrs a d
  | 13 => .muls a d
  | 14 => .bics a d
  | _ => .mvns a d

/-- hw1[15:10] = 010001: formats HIREG and BX (R149, R150). -/
def rowSpecial (w : Half) : Instr :=
  if w.extractLsb' 8 2 = 0b00#2 then .addHi (splitField w) (regField w 3)
  else if w.extractLsb' 8 2 = 0b01#2 then .cmpHi (splitField w) (regField w 3)
  else if w.extractLsb' 8 2 = 0b10#2 then .movHi (splitField w) (regField w 3)
  else if w.extractLsb' 7 1 = 0#1 then .bx (regField w 3) (w.extractLsb' 0 3)
  else .blx (regField w 3) (w.extractLsb' 0 3)

/-- hw1[15:12] = 0101: format LS_REG, by hw1[11:9] (R151). -/
def rowLoadStoreReg (w : Half) : Instr :=
  let m := lowField w 6
  let n := lowField w 3
  let t := lowField w 0
  match (w.extractLsb' 9 3).toNat with
  | 0 => .strReg m n t
  | 1 => .strhReg m n t
  | 2 => .strbReg m n t
  | 3 => .ldrsbReg m n t
  | 4 => .ldrReg m n t
  | 5 => .ldrhReg m n t
  | 6 => .ldrbReg m n t
  | _ => .ldrshReg m n t

/-- Format HINT (R157, R177): the five named hints, and NOP for the other values of opA. -/
def rowHint (opA : BitVec 4) : Instr :=
  if opA = 0#4 then .nop
  else if opA = 1#4 then .yield
  else if opA = 2#4 then .wfe
  else if opA = 3#4 then .wfi
  else if opA = 4#4 then .sev
  else .hintNop opA

/-- hw1[15:12] = 1011: the miscellaneous instructions, by hw1[11:8] (R144, R148, R153 to R157); none on
the undefined spaces of R175. -/
def rowMisc (w : Half) : Option Instr :=
  match (w.extractLsb' 8 4).toNat with
  | 0 =>
    if w.extractLsb' 7 1 = 0#1 then some (.addSp (w.extractLsb' 0 7))
    else some (.subSp (w.extractLsb' 0 7))
  | 2 =>
    if w.extractLsb' 6 2 = 0b00#2 then some (.sxth (lowField w 3) (lowField w 0))
    else if w.extractLsb' 6 2 = 0b01#2 then some (.sxtb (lowField w 3) (lowField w 0))
    else if w.extractLsb' 6 2 = 0b10#2 then some (.uxth (lowField w 3) (lowField w 0))
    else some (.uxtb (lowField w 3) (lowField w 0))
  | 4 => some (.push false (w.extractLsb' 0 8))
  | 5 => some (.push true (w.extractLsb' 0 8))
  | 6 =>
    if w.extractLsb' 5 3 = 0b011#3 then some (.cps (bitField w 4) (w.extractLsb' 0 4)) else none
  | 10 =>
    if w.extractLsb' 6 2 = 0b00#2 then some (.rev (lowField w 3) (lowField w 0))
    else if w.extractLsb' 6 2 = 0b01#2 then some (.rev16 (lowField w 3) (lowField w 0))
    else if w.extractLsb' 6 2 = 0b11#2 then some (.revsh (lowField w 3) (lowField w 0))
    else none
  | 12 => some (.pop false (w.extractLsb' 0 8))
  | 13 => some (.pop true (w.extractLsb' 0 8))
  | 14 => some (.bkpt (w.extractLsb' 0 8))
  | 15 => if w.extractLsb' 0 4 = 0#4 then some (rowHint (w.extractLsb' 4 4)) else none
  | _ => none

/-- hw1[15:12] = 1101: conditional branch, UDF and SVC (R156, R159). -/
def rowCondBranch (w : Half) : Instr :=
  match condOfBits (w.extractLsb' 8 4) with
  | some c => .bCond c (w.extractLsb' 0 8)
  | none =>
    if w.extractLsb' 8 4 = 0b1110#4 then .udf (w.extractLsb' 0 8) else .svc (w.extractLsb' 0 8)

/-- The row a 16-bit instruction selects, by hw1[15:11] (R144, R145, R147, R152, R158, R160); none
where no row matches (R175). -/
def row16 (w : Half) : Option Instr :=
  let n := lowField w 3
  let d := lowField w 0
  let d8 := lowField w 8
  let i5 := w.extractLsb' 6 5
  let i8 := w.extractLsb' 0 8
  match (w.extractLsb' 11 5).toNat with
  | 0b00000 => if i5 = 0#5 then some (.movsReg n d) else some (.lslsImm i5 n d)
  | 0b00001 => some (.lsrsImm i5 n d)
  | 0b00010 => some (.asrsImm i5 n d)
  | 0b00011 => some (rowAddSub w)
  | 0b00100 => some (.movsImm d8 i8)
  | 0b00101 => some (.cmpImm d8 i8)
  | 0b00110 => some (.addsImm8 d8 i8)
  | 0b00111 => some (.subsImm8 d8 i8)
  | 0b01000 => if w.extractLsb' 10 1 = 0#1 then some (rowDataProcessing w) else some (rowSpecial w)
  | 0b01001 => some (.ldrLit d8 i8)
  | 0b01010 => some (rowLoadStoreReg w)
  | 0b01011 => some (rowLoadStoreReg w)
  | 0b01100 => some (.strImm i5 n d)
  | 0b01101 => some (.ldrImm i5 n d)
  | 0b01110 => some (.strbImm i5 n d)
  | 0b01111 => some (.ldrbImm i5 n d)
  | 0b10000 => some (.strhImm i5 n d)
  | 0b10001 => some (.ldrhImm i5 n d)
  | 0b10010 => some (.strSp d8 i8)
  | 0b10011 => some (.ldrSp d8 i8)
  | 0b10100 => some (.adr d8 i8)
  | 0b10101 => some (.addSpImm d8 i8)
  | 0b10110 => rowMisc w
  | 0b10111 => rowMisc w
  | 0b11000 => some (.stm d8 i8)
  | 0b11001 => some (.ldm d8 i8)
  | 0b11010 => some (rowCondBranch w)
  | 0b11011 => some (rowCondBranch w)
  | 0b11100 => some (.b (w.extractLsb' 0 11))
  | _ => none

/-- Whether `hw1` is the first halfword of a 32-bit instruction (R142). -/
def isWide (hw1 : Half) : Bool :=
  hw1.extractLsb' 11 5 == 0b11101#5 || hw1.extractLsb' 11 5 == 0b11110#5
    || hw1.extractLsb' 11 5 == 0b11111#5

/-- The row a 32-bit instruction selects (R170 to R174); none on the undefined space of R176. -/
def row32 (hw1 hw2 : Half) : Option Instr :=
  if hw1.extractLsb' 11 5 = 0b11110#5 ∧ hw2.extractLsb' 15 1 = 1#1 then
    if hw2.extractLsb' 14 1 = 1#1 ∧ hw2.extractLsb' 12 1 = 1#1 then
      some (.bl (hw1.extractLsb' 10 1) (hw1.extractLsb' 0 10) (hw2.extractLsb' 13 1)
        (hw2.extractLsb' 11 1) (hw2.extractLsb' 0 11))
    else if hw2.extractLsb' 14 1 = 0#1 ∧ hw2.extractLsb' 12 1 = 0#1 then
      if hw1.extractLsb' 5 6 = 0b011100#6 then
        some (.msr (hw1.extractLsb' 4 1) (regField hw1 0) (hw2.extractLsb' 13 1)
          (hw2.extractLsb' 8 4) (hw2.extractLsb' 0 8))
      else if hw1.extractLsb' 5 6 = 0b011111#6 then
        some (.mrs (hw1.extractLsb' 4 1) (hw1.extractLsb' 0 4) (hw2.extractLsb' 13 1)
          (regField hw2 8) (hw2.extractLsb' 0 8))
      else if hw1.extractLsb' 4 7 = 0b0111011#7 then
        if hw2.extractLsb' 4 4 = 0b0100#4 then
          some (.dsb (hw1.extractLsb' 0 4) (hw2.extractLsb' 13 1) (hw2.extractLsb' 8 4)
            (hw2.extractLsb' 0 4))
        else if hw2.extractLsb' 4 4 = 0b0101#4 then
          some (.dmb (hw1.extractLsb' 0 4) (hw2.extractLsb' 13 1) (hw2.extractLsb' 8 4)
            (hw2.extractLsb' 0 4))
        else if hw2.extractLsb' 4 4 = 0b0110#4 then
          some (.isb (hw1.extractLsb' 0 4) (hw2.extractLsb' 13 1) (hw2.extractLsb' 8 4)
            (hw2.extractLsb' 0 4))
        else none
      else if hw1.extractLsb' 4 7 = 0b1111111#7 ∧ hw2.extractLsb' 13 1 = 1#1 then
        some (.udfW (hw1.extractLsb' 0 4) (hw2.extractLsb' 0 12))
      else none
    else none
  else none

/-! ## The decoder -/

/-- What the decoder answers: an instruction, an UNPREDICTABLE encoding of a row ("distinct from
undefined": U1), an undefined encoding (R175, R176), or too few bytes. -/
inductive Decoded where
  | instr (i : Instr)
  | unpredictable (i : Instr)
  | undefined16
  | undefined32
  | truncated
deriving DecidableEq, Repr

/-- The row an instruction's halfwords select; `hw2` is read only of a 32-bit instruction (R142). -/
def decodeRow (hw1 hw2 : Half) : Option Instr :=
  if isWide hw1 then row32 hw1 hw2 else row16 hw1

/-- Decoding of an instruction's halfwords. -/
def decode (hw1 hw2 : Half) : Decoded :=
  match decodeRow hw1 hw2 with
  | some i => if i.wellFormed then .instr i else .unpredictable i
  | none => if isWide hw1 then .undefined32 else .undefined16

/-- The halfword two bytes make, low byte first: fetch is little-endian (R93). -/
def halfOfBytes (lo hi : Byte) : Half := hi ++ lo

/-- Decoding of the bytes at an address, lowest address first (R143), with the bytes left over. -/
def decodeBytes : List Byte → Decoded × List Byte
  | b0 :: b1 :: rest =>
    if isWide (halfOfBytes b0 b1) then
      match rest with
      | b2 :: b3 :: rest' => (decode (halfOfBytes b0 b1) (halfOfBytes b2 b3), rest')
      | short => (.truncated, short)
    else (decode (halfOfBytes b0 b1) 0#16, rest)
  | short => (.truncated, short)

/-! ## The encoder -/

/-- The 3-bit field of a low register. -/
def lowBits (r : LowReg) : BitVec 3 := BitVec.ofFin r

/-- The 4-bit field of a register number. -/
def regBits (r : RegNum) : BitVec 4 := BitVec.ofFin r

/-- The bits of format HIREG below the opcode (R149): DN, Rm, Rdn. -/
def splitBits (rdn rm : RegNum) : BitVec 8 :=
  (regBits rdn).extractLsb' 3 1 ++ regBits rm ++ (regBits rdn).extractLsb' 0 3

/-- A one-bit field. -/
def boolBits (b : Bool) : BitVec 1 := BitVec.ofBool b

/-- Format DP (R148). -/
def encodeDp (opcode : BitVec 10) (m d : LowReg) : List Half := [opcode ++ lowBits m ++ lowBits d]

/-- Formats SHIFT_IMM and LS_IMM5 (R145, R152). -/
def encodeImm5 (opcode imm5 : BitVec 5) (m d : LowReg) : List Half :=
  [opcode ++ imm5 ++ lowBits m ++ lowBits d]

/-- Formats ADDSUB_REG, ADDSUB_IMM3 and LS_REG (R146, R151). -/
def encodeThree (opcode : BitVec 7) (m : BitVec 3) (n d : LowReg) : List Half :=
  [opcode ++ m ++ lowBits n ++ lowBits d]

/-- Formats IMM8 and LDMSTM (R147, R158). -/
def encodeImm8 (opcode : BitVec 5) (d : LowReg) (imm8 : BitVec 8) : List Half :=
  [opcode ++ lowBits d ++ imm8]

/-- Format BARRIER (R173). -/
def encodeBarrier (op sbo1 : BitVec 4) (sbz13 : BitVec 1) (sbo2 option : BitVec 4) : List Half :=
  [0b111100111011#12 ++ sbo1, 0b10#2 ++ sbz13 ++ 0b0#1 ++ sbo2 ++ op ++ option]

/-- The halfwords of an instruction, the first at the lower address (R143). -/
def encode : Instr → List Half
  | .lslsImm imm5 rm rd => encodeImm5 0b00000#5 imm5 rm rd
  | .lsrsImm imm5 rm rd => encodeImm5 0b00001#5 imm5 rm rd
  | .asrsImm imm5 rm rd => encodeImm5 0b00010#5 imm5 rm rd
  | .addsReg rm rn rd => encodeThree 0b0001100#7 (lowBits rm) rn rd
  | .subsReg rm rn rd => encodeThree 0b0001101#7 (lowBits rm) rn rd
  | .addsImm3 imm3 rn rd => encodeThree 0b0001110#7 imm3 rn rd
  | .subsImm3 imm3 rn rd => encodeThree 0b0001111#7 imm3 rn rd
  | .movsImm rd imm8 => encodeImm8 0b00100#5 rd imm8
  | .cmpImm rn imm8 => encodeImm8 0b00101#5 rn imm8
  | .addsImm8 rdn imm8 => encodeImm8 0b00110#5 rdn imm8
  | .subsImm8 rdn imm8 => encodeImm8 0b00111#5 rdn imm8
  | .movsReg rm rd => encodeDp 0b0000000000#10 rm rd
  | .ands rm rdn => encodeDp 0b0100000000#10 rm rdn
  | .eors rm rdn => encodeDp 0b0100000001#10 rm rdn
  | .lslsReg rm rdn => encodeDp 0b0100000010#10 rm rdn
  | .lsrsReg rm rdn => encodeDp 0b0100000011#10 rm rdn
  | .asrsReg rm rdn => encodeDp 0b0100000100#10 rm rdn
  | .adcs rm rdn => encodeDp 0b0100000101#10 rm rdn
  | .sbcs rm rdn => encodeDp 0b0100000110#10 rm rdn
  | .rors rm rdn => encodeDp 0b0100000111#10 rm rdn
  | .tst rm rn => encodeDp 0b0100001000#10 rm rn
  | .rsbs rn rd => encodeDp 0b0100001001#10 rn rd
  | .cmpReg rm rn => encodeDp 0b0100001010#10 rm rn
  | .cmn rm rn => encodeDp 0b0100001011#10 rm rn
  | .orrs rm rdn => encodeDp 0b0100001100#10 rm rdn
  | .muls rn rdm => encodeDp 0b0100001101#10 rn rdm
  | .bics rm rdn => encodeDp 0b0100001110#10 rm rdn
  | .mvns rm rd => encodeDp 0b0100001111#10 rm rd
  | .addHi rdn rm => [0b01000100#8 ++ splitBits rdn rm]
  | .cmpHi rn rm => [0b01000101#8 ++ splitBits rn rm]
  | .movHi rd rm => [0b01000110#8 ++ splitBits rd rm]
  | .bx rm sbz => [0b010001110#9 ++ regBits rm ++ sbz]
  | .blx rm sbz => [0b010001111#9 ++ regBits rm ++ sbz]
  | .ldrLit rt imm8 => encodeImm8 0b01001#5 rt imm8
  | .strReg rm rn rt => encodeThree 0b0101000#7 (lowBits rm) rn rt
  | .strhReg rm rn rt => encodeThree 0b0101001#7 (lowBits rm) rn rt
  | .strbReg rm rn rt => encodeThree 0b0101010#7 (lowBits rm) rn rt
  | .ldrsbReg rm rn rt => encodeThree 0b0101011#7 (lowBits rm) rn rt
  | .ldrReg rm rn rt => encodeThree 0b0101100#7 (lowBits rm) rn rt
  | .ldrhReg rm rn rt => encodeThree 0b0101101#7 (lowBits rm) rn rt
  | .ldrbReg rm rn rt => encodeThree 0b0101110#7 (lowBits rm) rn rt
  | .ldrshReg rm rn rt => encodeThree 0b0101111#7 (lowBits rm) rn rt
  | .strImm imm5 rn rt => encodeImm5 0b01100#5 imm5 rn rt
  | .ldrImm imm5 rn rt => encodeImm5 0b01101#5 imm5 rn rt
  | .strbImm imm5 rn rt => encodeImm5 0b01110#5 imm5 rn rt
  | .ldrbImm imm5 rn rt => encodeImm5 0b01111#5 imm5 rn rt
  | .strhImm imm5 rn rt => encodeImm5 0b10000#5 imm5 rn rt
  | .ldrhImm imm5 rn rt => encodeImm5 0b10001#5 imm5 rn rt
  | .strSp rt imm8 => encodeImm8 0b10010#5 rt imm8
  | .ldrSp rt imm8 => encodeImm8 0b10011#5 rt imm8
  | .adr rd imm8 => encodeImm8 0b10100#5 rd imm8
  | .addSpImm rd imm8 => encodeImm8 0b10101#5 rd imm8
  | .addSp imm7 => [0b101100000#9 ++ imm7]
  | .subSp imm7 => [0b101100001#9 ++ imm7]
  | .sxth rm rd => encodeDp 0b1011001000#10 rm rd
  | .sxtb rm rd => encodeDp 0b1011001001#10 rm rd
  | .uxth rm rd => encodeDp 0b1011001010#10 rm rd
  | .uxtb rm rd => encodeDp 0b1011001011#10 rm rd
  | .push m list => [0b1011010#7 ++ boolBits m ++ list]
  | .cps im sb => [0b10110110011#11 ++ boolBits im ++ sb]
  | .rev rm rd => encodeDp 0b1011101000#10 rm rd
  | .rev16 rm rd => encodeDp 0b1011101001#10 rm rd
  | .revsh rm rd => encodeDp 0b1011101011#10 rm rd
  | .pop p list => [0b1011110#7 ++ boolBits p ++ list]
  | .bkpt imm8 => [0b10111110#8 ++ imm8]
  | .nop => [0xBF00#16]
  | .yield => [0xBF10#16]
  | .wfe => [0xBF20#16]
  | .wfi => [0xBF30#16]
  | .sev => [0xBF40#16]
  | .hintNop opA => [0b10111111#8 ++ opA ++ 0b0000#4]
  | .stm rn list => encodeImm8 0b11000#5 rn list
  | .ldm rn list => encodeImm8 0b11001#5 rn list
  | .bCond cond imm8 => [0b1101#4 ++ condToBits cond ++ imm8]
  | .b imm11 => [0b11100#5 ++ imm11]
  | .udf imm8 => [0b11011110#8 ++ imm8]
  | .svc imm8 => [0b11011111#8 ++ imm8]
  | .bl sgn imm10 j1 j2 imm11 =>
    [0b11110#5 ++ sgn ++ imm10, 0b11#2 ++ j1 ++ 0b1#1 ++ j2 ++ imm11]
  | .msr sbz4 rn sbz13 sb1000 sysm =>
    [0b11110011100#11 ++ sbz4 ++ regBits rn, 0b10#2 ++ sbz13 ++ 0b0#1 ++ sb1000 ++ sysm]
  | .mrs sbz4 sbo sbz13 rd sysm =>
    [0b11110011111#11 ++ sbz4 ++ sbo, 0b10#2 ++ sbz13 ++ 0b0#1 ++ regBits rd ++ sysm]
  | .dsb sbo1 sbz13 sbo2 option => encodeBarrier 0b0100#4 sbo1 sbz13 sbo2 option
  | .dmb sbo1 sbz13 sbo2 option => encodeBarrier 0b0101#4 sbo1 sbz13 sbo2 option
  | .isb sbo1 sbz13 sbo2 option => encodeBarrier 0b0110#4 sbo1 sbz13 sbo2 option
  | .udfW imm4 imm12 => [0b111101111111#12 ++ imm4, 0b1010#4 ++ imm12]

/-- Decoding of a list of halfwords as `encode` gives them. -/
def decodeHalves : List Half → Decoded
  | [hw1] => decode hw1 0#16
  | hw1 :: hw2 :: _ => decode hw1 hw2
  | [] => .truncated

/-! ## The host's view of one instruction -/

/-- The two halfwords of the 32-bit instruction whose bits are `w`: the table numbers a 32-bit row as
`hw1 : hw2`, hw1 in bits 31 to 16 (R143, R179). Where those bits begin no 32-bit instruction, hw1 is
taken from bits 15 to 0 (log entry 9). -/
def tablePair (w : Nat) : Half × Half :=
  let hi : Half := BitVec.ofNat 16 (w / 65536)
  let lo : Half := BitVec.ofNat 16 w
  if isWide hi then (hi, lo) else (lo, hi)

/-- The first halfword of the instruction whose bits are `w`. -/
def tableHw1 (nbits w : Nat) : Half := if nbits = 32 then (tablePair w).1 else BitVec.ofNat 16 w

/-- The second halfword; 0 for a 16-bit row. -/
def tableHw2 (nbits w : Nat) : Half := if nbits = 32 then (tablePair w).2 else 0#16

/-- The bytes of the instruction as the hardware stores them (R143), four of them. -/
def tableBytes (nbits w : Nat) : List Byte :=
  [(tableHw1 nbits w).extractLsb' 0 8, (tableHw1 nbits w).extractLsb' 8 8,
    (tableHw2 nbits w).extractLsb' 0 8, (tableHw2 nbits w).extractLsb' 8 8]

/-- The instruction the decoder reads; an UNPREDICTABLE encoding still selects its row (R179). -/
def decodeTableWord (nbits w : Nat) : Option Instr :=
  match (decodeBytes (tableBytes nbits w)).1 with
  | .instr i => some i
  | .unpredictable i => some i
  | .undefined16 => none
  | .undefined32 => none
  | .truncated => none

end Sys2Proof
end

