-- ==== Sys2Proof/Config.lean ====
section
/-! DEFINITION. What an implementation or a platform fixes (`00_scope.md` R7, `92_eei_decisions.md`
D1 to D24) as ONE record of plain data, and the free values: constants with no body, so that nothing
can be proved of the value they take (`93_implementation_defined.md` U16). -/

namespace Sys2Proof

/-- The three access widths of R98. -/
inductive Width where
  | byte
  | half
  | word
deriving DecidableEq, Repr

/-- The three kinds of access `MemMap` distinguishes (D12). -/
inductive Access where
  | read
  | write
  | fetch
deriving DecidableEq, Repr

/-- What can answer an access (D12): memory, read-only memory, or a device, whose read values the platform
supplies. -/
inductive RegionKind where
  | ram
  | rom
  | device
deriving DecidableEq, Repr

/-- What answers an access of each width: none is a bus error (D12). -/
structure PerWidth where
  byte : Option RegionKind
  half : Option RegionKind
  word : Option RegionKind
deriving DecidableEq, Repr

/-- What answers an access of each level and width (D12). -/
structure PerLevel where
  privileged : PerWidth
  unprivileged : PerWidth
deriving DecidableEq, Repr

/-- The same answer at every level and width. -/
def PerLevel.uniform (k : Option RegionKind) : PerLevel := ⟨⟨k, k, k⟩, ⟨k, k, k⟩⟩

/-- One region of the platform's memory map (D12), in bytes, with its answer to an access of every kind,
level and width. An access is the affair of the first region that holds all its bytes; with no such
region nothing is mapped (log entry 3). A write answered `rom` is ignored, one answered with none is a
bus error. -/
structure Region where
  base : Nat
  size : Nat
  read : PerLevel
  write : PerLevel
  fetch : PerLevel
deriving DecidableEq, Repr

/-- `NUM_IRQ`, one of 1, 2, 4, 8, 16, 24, 32 (R7, D1). -/
inductive IrqCount where
  | one
  | two
  | four
  | eight
  | sixteen
  | twentyFour
  | thirtyTwo
deriving DecidableEq, Repr

/-- The number of external interrupt lines as a number. -/
def IrqCount.toNat : IrqCount → Nat
  | .one => 1
  | .two => 2
  | .four => 4
  | .eight => 8
  | .sixteen => 16
  | .twentyFour => 24
  | .thirtyTwo => 32

/-- The open parameters of R7. `MUL_CYCLES`, `HAS_WIC` and `IRQ_KIND` have no architectural effect
(D3, D5, D14); `HAS_MPU`, `HAS_DEBUG` are false and `HAS_UNPRIV` true by decision (D6, D8, D9).
`SYST_HAS_REFCLK` is the complement of NOREF, bit 31 of `SYST_CALIB_VALUE` (R474). -/
structure Config where
  numIrq : IrqCount
  hasSysTick : Bool
  systCalib : Word
  bigEndian : Bool
  hasVtor : Bool
  cpuid : Word
  memMap : List Region
deriving DecidableEq, Repr

/-- DESIGN CHOICE (log entry 2): the configuration `State.reset` carries. The memory map is the test
platform of `95_test_vectors.md`, NUM_IRQ is 32 (D1 "may fix 32"), BIGEND and HAS_VTOR have the spec's
defaults (D4, D7), CPUID is R451's example. -/
def Config.testPlatform : Config where
  numIrq := .thirtyTwo
  hasSysTick := true
  systCalib := 0x00000000#32
  bigEndian := false
  hasVtor := false
  cpuid := 0x410CC601#32
  memMap :=
    [ { base := 0x00000000
        size := 0x10000
        read := .uniform (some .rom)
        write := .uniform none
        fetch := .uniform (some .rom) },
      { base := 0x20000000
        size := 0x10000
        read := .uniform (some .ram)
        write := .uniform (some .ram)
        fetch := .uniform (some .ram) } ]

/-- A free word: the value of the k-th UNKNOWN word drawn in a run (U10, U14, U16; log entry 5), a device's
read value that no input has supplied among them (D12; log entry 18). -/
opaque Config.freeWord : Nat → Word

/-- A free choice between two outcomes the spec admits (R312, D24; log entries 5 to 7). -/
opaque Config.freeBit : Nat → Bool

end Sys2Proof
end

