-- ==== Sys2Proof/Machine/State.lean ====
section
/-! DEFINITION. The state of the machine (`10_state.md` R30), as plain data, the reasons a step can
stop, and the state right after reset (R65, R501). -/

namespace Sys2Proof.Machine

open Sys2Proof

/-- Memory (R90): (address, byte) pairs in canonical form, addresses strictly rising and no byte equal
to what an unlisted address reads as. -/
abbrev Memory := List Host.Cell

/-- What a byte of memory that nothing has written reads as. DESIGN CHOICE (log entry 4): the contents
are the platform's (R65, D12); the test platform of `95_test_vectors.md` has memory all zero. -/
def Memory.unlisted : Byte := 0x00#8

/-- The exceptions that can be pending or active (R60, R401). -/
inductive Exc where
  | nmi
  | hardFault
  | svcall
  | pendsv
  | systick
  | irq (n : Fin 32)
deriving DecidableEq, Repr

/-- One bit for each exception: the shape of `Pending` and of `Active` (R60). -/
structure ExcBits where
  nmi : Bool
  hardFault : Bool
  svcall : Bool
  pendsv : Bool
  systick : Bool
  irq : BitVec 32
deriving DecidableEq, Repr

/-- No bit set. -/
def ExcBits.none : ExcBits := ⟨false, false, false, false, false, 0#32⟩

/-- The APSR flags (R50). -/
structure Flags where
  n : Bool
  z : Bool
  c : Bool
  v : Bool
deriving DecidableEq, Repr

/-- The programmable priorities (R60, R403): two bits each, 0 the highest. -/
structure Priorities where
  svcall : BitVec 2
  pendsv : BitVec 2
  systick : BitVec 2
  irq : Vector (BitVec 2) 32
deriving DecidableEq, Repr

/-- The SysTick registers (R471 to R473): SYST_CSR's four bits, RELOAD and CURRENT. -/
structure SysTick where
  countFlag : Bool
  clkSource : Bool
  tickInt : Bool
  enable : Bool
  reload : BitVec 24
  current : BitVec 24
deriving DecidableEq, Repr

/-- The three bits of SCR (R455). -/
structure Scr where
  sevOnPend : Bool
  sleepDeep : Bool
  sleepOnExit : Bool
deriving DecidableEq, Repr

/-- The Sleeping flag (R62) with the kind of sleep, which decides the wake-up events (R480, R481). -/
inductive Sleep where
  | awake
  | waitInterrupt
  | waitEvent
deriving DecidableEq, Repr

/-- What the environment or the SysTick clock does (R400). -/
inductive Event where
  /-- The environment drives interrupt line `n` (R440). -/
  | irqLine (n : Fin 32) (level : Bool)
  /-- The environment drives the NMI line (R425). -/
  | nmiLine (level : Bool)
  /-- The external event input is pulsed (R481). -/
  | rxev
  /-- One tick of the SysTick clock (R475). -/
  | tick
  /-- The platform supplies the value of a device read to come (D12, R103). -/
  | deviceValue (v : Word)
deriving DecidableEq, Repr

/-- The events that happen in the middle of a multiple transfer (R312, R400): `gaps[j]` after its access
`j`, counted from 0. An occasion that the instruction does not reach does not arise. -/
abbrev Gaps := List (List Event)

/-- How the core makes its next step where the spec leaves it a choice (D13, D15; R312). -/
inductive Choice where
  /-- What the core may defer it does at once. -/
  | run
  /-- The core defers what the spec lets it defer: a takeable exception, a wake-up without cause. -/
  | delay
  /-- The core defers what it may and starts the instruction at the pc; the events of `gaps` happen
  between its accesses, and it runs to its end (R312 item 5). -/
  | amid (gaps : Gaps)
  /-- The instruction at the pc makes as many accesses as `gaps` is long, with the events of `gaps` after
  them; an exception that is takeable then is taken by abandoning the instruction (R312). -/
  | abandon (gaps : Gaps)
deriving DecidableEq, Repr

/-- What happens next (R400): a step of the core, or an event or a reset between two of them. A step takes
the first of `State.inputs`; with none left it is the reset that software has requested (D18), else
`core .run` (log entry 8). -/
inductive Input where
  /-- The core steps. -/
  | core (c : Choice)
  /-- An event between two steps of the core (R400). -/
  | outside (e : Event)
  /-- The reset input, between two instructions (R500). -/
  | reset
  /-- The reset input, in the middle of the core step that choice `c` would make (R500): an instruction
  that `abandon` cuts off has made its accesses, an exception entry has stored the frame words of
  `frame` (log entry 16). -/
  | resetDuring (c : Choice) (frame : BitVec 8)
deriving DecidableEq, Repr

/-- One access the core has made to a device of the platform (R103): its kind, width and address, and the
value read or written, zero-extended. -/
structure DeviceAccess where
  access : Access
  width : Width
  address : Word
  value : Word
deriving DecidableEq, Repr

/-- The label of a HardFault (R421): "this spec's label only", nothing records it (R420). -/
inductive FaultCause where
  | undefinedInstruction
  | invalidState
  | unaligned
  | busError
  | executeNever
  | breakpoint
  | svcEscalated
deriving DecidableEq, Repr

/-- Why the machine stops with a fault. -/
inductive Fault where
  /-- Raised by a step in Lockup when neither reset nor NMI leaves it (R428, D17: "a stuck/fault
  outcome"). Safe: the hardware executes nothing either. -/
  | lockup
deriving DecidableEq, Repr

/-- Why the machine refuses to give an execution a meaning. Each is safe: the hardware does something,
and nothing is claimed of it. -/
inductive Refusal where
  /-- Raised by an arm of `exec` whose instruction has no meaning yet. Safe. -/
  | notModelled (mnemonic : String)
  /-- Raised by a meaning whose encoding is UNPREDICTABLE (R178, U2 to U6, U8). Safe. -/
  | unpredictableEncoding
  /-- Raised by an inconsistent exception return (R415, R416, U7). Safe. -/
  | unpredictableReturn
  /-- Raised by exception entry or return when one of its accesses faults (R427, U12). Safe. -/
  | entryOrReturnAccess
  /-- Raised when sequential execution would carry the pc past 0xFFFFFFFF (R40, U8). Safe. -/
  | pcWrap
  /-- Raised by a multi-word transfer that crosses from 0xFFFFFFFC to 0 (R104, U8). Safe. -/
  | transferWrap
  /-- Raised by an access to a reserved or debug address of the PPB (R111, R459, R460, U9). Safe. -/
  | reservedPpb
  /-- Raised by a byte or halfword access to the System Control Space (R461, U9). Safe. -/
  | scsWidth
  /-- Raised by a system-register write the architecture calls UNPREDICTABLE (R452 to R454, U15). Safe. -/
  | unpredictableSysWrite
deriving DecidableEq, Repr

/-- The complete state (R30). The fields from `inputs` on are the model's own bookkeeping (R400, D13, D24,
the devices and the free values); `cfg` holds the open parameters of R7, which no step changes. -/
structure State where
  /-- The open parameters (R7). -/
  cfg : Config
  /-- R0 to R12 (R31). -/
  r : Vector Word 13
  /-- SP_main (R32). -/
  spMain : Word
  /-- SP_process (R32). -/
  spProcess : Word
  /-- R14 (R33). -/
  lr : Word
  /-- The address of the instruction being executed (R38). -/
  pc : Word
  /-- APSR (R50). -/
  flags : Flags
  /-- IPSR[5:0] (R52). -/
  ipsr : BitVec 6
  /-- EPSR.T (R53). -/
  t : Bool
  /-- PRIMASK.PM (R55). -/
  primask : Bool
  /-- CONTROL.nPRIV (R56). -/
  npriv : Bool
  /-- CONTROL.SPSEL (R56). -/
  spsel : Bool
  /-- Pending[e] (R60). -/
  pending : ExcBits
  /-- Active[e] (R60). -/
  active : ExcBits
  /-- Enabled[16+n] (R60). -/
  enabled : BitVec 32
  /-- Priority[e] (R60). -/
  pri : Priorities
  /-- The event register (R61). -/
  event : Bool
  /-- Lockup (R62). -/
  lockup : Bool
  /-- Sleeping (R62). -/
  sleep : Sleep
  /-- SCR (R455). -/
  scr : Scr
  /-- VTOR[31:7] (R453); 0 and unused when the configuration has no VTOR. -/
  vtor : BitVec 25
  /-- The request AIRCR.SYSRESETREQ makes (R454, D18). -/
  resetRequest : Bool
  /-- The SysTick registers (R470). -/
  syst : SysTick
  /-- IRQ_LINE[n], owned by the environment (R440). -/
  irqLine : BitVec 32
  /-- NMI_LINE, owned by the environment (R425). -/
  nmiLine : Bool
  /-- Memory (R90). -/
  mem : Memory
  /-- What the environment does next and what the core chooses, first to last (log entry 8). -/
  inputs : List Input
  /-- The values the platform has ready for the next device reads, first to last (D12; log entry 18). -/
  deviceIn : List Word
  /-- The accesses the core has made to devices, first to last (R103, R120 item 2). -/
  deviceLog : List DeviceAccess
  /-- The reset input acts in the middle of this step, an exception entry having stored these words of
  its frame (R500; log entry 16). None between steps. -/
  resetIn : Option (BitVec 8)
  /-- The set `Dirty` of D24, each address with the byte it held at the last synchronisation. -/
  dirty : List Host.Cell
  /-- An ISB, exception entry or return has just completed with an exception takeable: the next core
  step is an entry (R407, D13). -/
  mustTake : Bool
  /-- How many free values have been drawn (log entry 5). -/
  free : Nat
deriving DecidableEq, Repr

/-- What an operation that can raise HardFault answers (R10, R420): a value and the next state, or the
state the fault is raised in, or no meaning. -/
inductive Eff (α : Type) where
  | ok (a : α) (s : State)
  | hardFault (cause : FaultCause) (s : State)
  | refuse (r : Refusal)
deriving DecidableEq, Repr

/-- The SysTick registers after reset (R65, R471): CLKSOURCE reads 1 when there is no reference clock,
that is when NOREF (SYST_CALIB[31]) is 1. -/
def SysTick.atReset (cfg : Config) (reload current : BitVec 24) : SysTick where
  countFlag := false
  clkSource := cfg.systCalib.msb
  tickInt := false
  enable := false
  reload := reload
  current := current

/-- The machine right after reset (R65, R501), memory with nothing listed. The words at 0 and 4 that
the reset sequence reads are then zero, so SP_main, pc and T are zero. The registers R65 leaves UNKNOWN
are zero here: DESIGN CHOICE, log entry 1. -/
def State.reset : State where
  cfg := Config.testPlatform
  r := Vector.replicate 13 0#32
  spMain := 0#32
  spProcess := 0#32
  lr := 0#32
  pc := 0#32
  flags := ⟨false, false, false, false⟩
  ipsr := 0#6
  t := false
  primask := false
  npriv := false
  spsel := false
  pending := ExcBits.none
  active := ExcBits.none
  enabled := 0#32
  pri := ⟨0#2, 0#2, 0#2, Vector.replicate 32 0#2⟩
  event := false
  lockup := false
  sleep := .awake
  scr := ⟨false, false, false⟩
  vtor := 0#25
  resetRequest := false
  syst := SysTick.atReset Config.testPlatform 0#24 0#24
  irqLine := 0#32
  nmiLine := false
  mem := []
  inputs := []
  deviceIn := []
  deviceLog := []
  resetIn := none
  dirty := []
  mustTake := false
  free := 0

end Sys2Proof.Machine
end

