-- ==== Sys2Proof/Machine/Memory.lean ====
section
/-! DEFINITION. Memory as bytes (`20_memory.md` R90), the two byte orders of a data access (R91, R92) and
the platform's map (D12). -/

namespace Sys2Proof

/-- The number of bytes an access moves (R98). -/
def Width.bytes : Width → Nat
  | .byte => 1
  | .half => 2
  | .word => 4

/-! ## The platform's map -/

/-- The answer for one width. -/
def PerWidth.answer (p : PerWidth) : Width → Option RegionKind
  | .byte => p.byte
  | .half => p.half
  | .word => p.word

/-- The answer for one level. -/
def PerLevel.level (p : PerLevel) (priv : Bool) : PerWidth := if priv then p.privileged else p.unprivileged

/-- The answer for one kind of access. -/
def Region.access (r : Region) : Access → PerLevel
  | .read => r.read
  | .write => r.write
  | .fetch => r.fetch

/-- What answers an access at `a` (D12, R114): none is a bus error. -/
def Config.target (cfg : Config) (acc : Access) (priv : Bool) (w : Width) (a : Nat) :
    Option RegionKind :=
  match cfg.memMap.find? fun r => decide (r.base ≤ a) && decide (a + w.bytes ≤ r.base + r.size) with
  | none => none
  | some r => ((r.access acc).level priv).answer w

end Sys2Proof

namespace Sys2Proof.Machine

open Sys2Proof

/-! ## One byte -/

/-- The byte at an address. -/
def Memory.read : Memory → Nat → Byte
  | [], _ => Memory.unlisted
  | (k, x) :: rest, a => if k = a then x else Memory.read rest a

/-- The entries at other addresses. -/
def Memory.erase (m : Memory) (a : Nat) : Memory := m.filter fun cell => cell.1 != a

/-- An entry put before the first larger address. -/
def Memory.insert : Memory → Nat → Byte → Memory
  | [], a, v => [(a, v)]
  | (k, x) :: rest, a, v =>
    if a < k then (a, v) :: (k, x) :: rest else (k, x) :: Memory.insert rest a v

/-- The write of one byte; the byte an unlisted address reads as leaves no entry. -/
def Memory.write (m : Memory) (a : Nat) (v : Byte) : Memory :=
  if v = Memory.unlisted then m.erase a else (m.erase a).insert a v

/-- Every address of the list is at least `lo` and below 2^32, they rise strictly, and no entry is what
an unlisted address reads as. -/
def Memory.wfFrom : Nat → Memory → Bool
  | _, [] => true
  | lo, (k, x) :: rest =>
    decide (lo ≤ k) && decide (k < 2 ^ 32) && x != Memory.unlisted && Memory.wfFrom (k + 1) rest

/-- The canonical form. -/
def Memory.wf (m : Memory) : Bool := Memory.wfFrom 0 m

/-! ## Wider accesses -/

/-- Byte `i` of a value of width `w` as it lies in memory: the byte stored at the access's address plus
`i` (R95). -/
def byteOf (big : Bool) (w : Width) (v : Word) (i : Nat) : Byte :=
  v.extractLsb' (8 * (if big then w.bytes - 1 - i else i)) 8

/-- The bytes of `bs` at `a`, `a + 1`, and so on. -/
def Memory.writeBytes : Memory → Nat → List Byte → Memory
  | m, _, [] => m
  | m, a, b :: bs => Memory.writeBytes (m.write a b) (a + 1) bs

/-- A value of width `w` stored at `a` (R91, R92). -/
def Memory.store (big : Bool) (w : Width) (m : Memory) (a : Nat) (v : Word) : Memory :=
  m.writeBytes a ((List.range w.bytes).map (byteOf big w v))

/-- The value of width `w` at `a`, zero-extended (R91, R92). -/
def Memory.value (big : Bool) (w : Width) (m : Memory) (a : Nat) : Word :=
  match w with
  | .byte => (m.read a).setWidth 32
  | .half =>
    if big then (m.read a ++ m.read (a + 1)).setWidth 32
    else (m.read (a + 1) ++ m.read a).setWidth 32
  | .word =>
    if big then m.read a ++ m.read (a + 1) ++ m.read (a + 2) ++ m.read (a + 3)
    else m.read (a + 3) ++ m.read (a + 2) ++ m.read (a + 1) ++ m.read a

/-! ## Fixed ranges -/

/-- The Private Peripheral Bus, 0xE0000000 to 0xE00FFFFF (R110). -/
def inPpb (a : Word) : Bool := a.extractLsb' 20 12 == 0xE00#12

/-- The System Control Space, 0xE000E000 to 0xE000EFFF (R111). -/
def inScs (a : Word) : Bool := a.extractLsb' 12 20 == 0xE000E#20

/-- Execute-Never: 0x40000000 to 0x5FFFFFFF and 0xA0000000 to 0xFFFFFFFF (R112). -/
def executeNever (a : Word) : Bool :=
  a.extractLsb' 29 3 == 0b010#3 || decide (0xA0000000#32 ≤ a)

/-! ## The set Dirty (D24) -/

/-- The bytes at `a` to `a + n - 1` are about to be stored to: each not yet in Dirty enters it with the
byte it holds now. -/
def markDirty (m : Memory) : Nat → Nat → List Host.Cell → List Host.Cell
  | _, 0, dirty => dirty
  | a, n + 1, dirty =>
    if dirty.any fun cell => cell.1 == a then markDirty m (a + 1) n dirty
    else markDirty m (a + 1) n ((a, m.read a) :: dirty)

/-- The byte an address held at the last synchronisation. -/
def oldByte (dirty : List Host.Cell) (m : Memory) (a : Nat) : Byte :=
  match dirty.find? fun cell => cell.1 == a with
  | some cell => cell.2
  | none => m.read a

/-- Whether a fetch of the halfword at `a` touches Dirty. -/
def touchesDirty (dirty : List Host.Cell) (a : Nat) : Bool :=
  dirty.any fun cell => cell.1 == a || cell.1 == a + 1

end Sys2Proof.Machine
end

