-- ==== Sys2Proof/Machine/Flags.lean ====
section
/-! DEFINITION. Arithmetic with flags (`00_scope.md` R11 to R13) and the writes of the APSR that
`10_state.md` R51 lists. -/

namespace Sys2Proof.Machine

open Sys2Proof

/-- What AddWithCarry returns (R11). -/
structure AddResult where
  result : Word
  carry : Bool
  overflow : Bool
deriving DecidableEq, Repr

/-- `AddWithCarry(x, y, cin)` (R11): both sums exact, then narrowed. -/
def addWithCarry (x y : Word) (cin : Bool) : AddResult :=
  let unsignedSum := x.toNat + y.toNat + cin.toNat
  let signedSum := x.toInt + y.toInt + (cin.toNat : Int)
  let result := BitVec.ofNat 32 unsignedSum
  { result := result
    carry := result.toNat != unsignedSum
    overflow := result.toInt != signedSum }

/-- What a shift returns (R12). -/
structure ShiftResult where
  result : Word
  carry : Bool
deriving DecidableEq, Repr

/-- `LSL_C(x, n)`, n at least 1 (R12). -/
def lslC (x : Word) (n : Nat) : ShiftResult :=
  { result := BitVec.ofNat 32 (x.toNat * 2 ^ n)
    carry := (x.toNat * 2 ^ n).testBit 32 }

/-- `LSR_C(x, n)`, n at least 1 (R12). -/
def lsrC (x : Word) (n : Nat) : ShiftResult :=
  { result := BitVec.ofNat 32 (x.toNat / 2 ^ n)
    carry := if n ≤ 32 then x.getLsbD (n - 1) else false }

/-- `ASR_C(x, n)`, n at least 1 (R12); the division rounds toward minus infinity. -/
def asrC (x : Word) (n : Nat) : ShiftResult :=
  { result := BitVec.ofInt 32 (x.toInt / 2 ^ n)
    carry := if n ≤ 32 then x.getLsbD (n - 1) else x.msb }

/-- `ROR_C(x, n)`, n at least 1 (R12). -/
def rorC (x : Word) (n : Nat) : ShiftResult :=
  let m := n % 32
  let result := if m = 0 then x else (x >>> m) ||| (x <<< (32 - m))
  { result := result, carry := result.msb }

/-- The four shift types of R12. -/
inductive ShiftKind where
  | lsl
  | lsr
  | asr
  | ror
deriving DecidableEq, Repr

/-- `Shift_C(x, type, n, cin)` (R12). -/
def shiftC (x : Word) (k : ShiftKind) (n : Nat) (cin : Bool) : ShiftResult :=
  if n = 0 then { result := x, carry := cin }
  else
    match k with
    | .lsl => lslC x n
    | .lsr => lsrC x n
    | .asr => asrC x n
    | .ror => rorC x n

/-- `ConditionPassed(cond)` (R13). -/
def conditionPassed (c : Cond) (f : Flags) : Bool :=
  match c with
  | .eq => f.z
  | .ne => !f.z
  | .cs => f.c
  | .cc => !f.c
  | .mi => f.n
  | .pl => !f.n
  | .vs => f.v
  | .vc => !f.v
  | .hi => f.c && !f.z
  | .ls => !f.c || f.z
  | .ge => f.n == f.v
  | .lt => f.n != f.v
  | .gt => !f.z && f.n == f.v
  | .le => f.z || f.n != f.v

/-- N and Z of a result; C and V unchanged (R51, third row). -/
def Flags.withNZ (f : Flags) (result : Word) : Flags :=
  { f with n := result.msb, z := result == 0#32 }

/-- N, Z and C; V unchanged (R51, second row). -/
def Flags.withNZC (f : Flags) (r : ShiftResult) : Flags :=
  { f with n := r.result.msb, z := r.result == 0#32, c := r.carry }

/-- N, Z, C and V of an addition (R51, first row). -/
def Flags.ofAdd (r : AddResult) : Flags where
  n := r.result.msb
  z := r.result == 0#32
  c := r.carry
  v := r.overflow

/-- N, Z, C, V from bits 31 to 28 of a word (R330, R416). -/
def Flags.ofWord (v : Word) : Flags where
  n := v.getLsbD 31
  z := v.getLsbD 30
  c := v.getLsbD 29
  v := v.getLsbD 28

/-- N : Z : C : V as the four bits they occupy (R50). -/
def Flags.bits (f : Flags) : BitVec 4 :=
  BitVec.ofBool f.n ++ BitVec.ofBool f.z ++ BitVec.ofBool f.c ++ BitVec.ofBool f.v

end Sys2Proof.Machine
end

