-- ==== Sys2Proof/Machine/Registers.lean ====
section
/-! DEFINITION. Register access (`10_state.md` R34 to R45), mode and privilege (R57), the words a
program sees of the status registers (R54, R336). -/

namespace Sys2Proof.Machine

open Sys2Proof

/-- CurrentMode() is Handler exactly when IPSR is not 0 (R57). -/
def State.handlerMode (s : State) : Bool := s.ipsr != 0#6

/-- CurrentModeIsPrivileged() (R57). -/
def State.privileged (s : State) : Bool := s.handlerMode || !s.npriv

/-- UseProcessStack() (R37). -/
def State.useProcess (s : State) : Bool := s.spsel && !s.handlerMode

/-- Bits 1 and 0 dropped: what a stack pointer keeps of a written value (R32). -/
def alignWord (v : Word) : Word := v.extractLsb' 2 30 ++ 0#2

/-- Bit 0 dropped: `a[31:1] : '0'` (R42). -/
def alignHalf (v : Word) : Word := v.extractLsb' 1 31 ++ 0#1

/-- Bit 0 set: `a[31:1] : '1'` (R244, R324). -/
def withBit0 (v : Word) : Word := v.extractLsb' 1 31 ++ 1#1

/-- `Align(v, 4)` (R10). -/
def align4 (v : Word) : Word := BitVec.ofNat 32 (4 * (v.toNat / 4))

/-- x[13]: the current stack pointer (R34, R37). -/
def State.sp (s : State) : Word := if s.useProcess then s.spProcess else s.spMain

/-- x[15]: "the current instruction address plus four" (R34). -/
def State.pcRead (s : State) : Word := s.pc + 4#32

/-- Register read x[i] (R34). -/
def State.reg (s : State) (i : RegNum) : Word :=
  if h : i.val < 13 then s.r[i.val]
  else if i = 13 then s.sp
  else if i = 14 then s.lr
  else s.pcRead

/-- The read of a low register. -/
def State.low (s : State) (i : LowReg) : Word := s.r[i.val]

/-- The write of the current stack pointer, `x[13] <- v` (R35). -/
def State.setSp (s : State) (v : Word) : State :=
  { s with
    spProcess := if s.useProcess then alignWord v else s.spProcess
    spMain := if s.useProcess then s.spMain else alignWord v }

/-- The write of a low register. -/
def State.setLow (s : State) (i : LowReg) (v : Word) : State :=
  { s with r := s.r.set i.val v }

/-- Register write `x[i] <- v`, i at most 14 (R35). Register 15 is never written this way: nothing
changes. -/
def State.setReg (s : State) (i : RegNum) (v : Word) : State :=
  if h : i.val < 13 then { s with r := s.r.set i.val v }
  else if i = 13 then s.setSp v
  else if i = 14 then { s with lr := v }
  else s

/-- The APSR is replaced. -/
def State.setFlags (s : State) (f : Flags) : State := { s with flags := f }

/-- `BranchWritePC(a)` (R41, R42): bit 0 ignored, T unchanged. -/
def State.branchTo (s : State) (a : Word) : State := { s with pc := alignHalf a }

/-- `BLXWritePC(a)` (R44), and the branch `BXWritePC` makes when it is no exception return (R43). -/
def State.exchangeTo (s : State) (a : Word) : State :=
  { s with pc := alignHalf a, t := a.getLsbD 0 }

/-- The pc moves past an instruction of `len` bytes (R39); past 0xFFFFFFFF is UNPREDICTABLE (R40). -/
def advance (len : Nat) (s : State) : Host.Outcome State Fault Refusal :=
  if s.pc.toNat + len < 2 ^ 32 then .next { s with pc := s.pc + BitVec.ofNat 32 len }
  else .refused .pcWrap

/-- The xPSR as exception entry stacks it (R54, R412): `align` is bit 9. -/
def State.xpsr (s : State) (align : Bool) : Word :=
  s.flags.bits ++ 0#3 ++ BitVec.ofBool s.t ++ 0#14 ++ BitVec.ofBool align ++ 0#3 ++ s.ipsr

end Sys2Proof.Machine
end

