-- ==== Sys2Proof/Machine/Nvic.lean ====
section
/-! DEFINITION. Exception numbers, priorities and the pending logic (`60_exceptions.md` R401 to R407, R425,
R440), wake-up conditions (R480, R481), the events of the environment and of SysTick (R400). -/

namespace Sys2Proof.Machine

open Sys2Proof

/-! ## Exceptions -/

/-- The exception number (R401). -/
def Exc.number : Exc → Nat
  | .nmi => 2
  | .hardFault => 3
  | .svcall => 11
  | .pendsv => 14
  | .systick => 15
  | .irq n => 16 + n.val

/-- The exception with a number that IPSR holds; none for the reserved numbers (R402). -/
def excOfNumber (n : BitVec 6) : Option Exc :=
  if n = 2#6 then some .nmi
  else if n = 3#6 then some .hardFault
  else if n = 11#6 then some .svcall
  else if n = 14#6 then some .pendsv
  else if n = 15#6 then some .systick
  else if h : 16 ≤ n.toNat ∧ n.toNat < 48 then some (.irq ⟨n.toNat - 16, by omega⟩)
  else none

/-- All exceptions, in the order of their numbers. -/
def Exc.all : List Exc :=
  [.nmi, .hardFault, .svcall, .pendsv, .systick] ++ (List.finRange 32).map Exc.irq

/-- The bit of an exception. -/
def ExcBits.get (b : ExcBits) : Exc → Bool
  | .nmi => b.nmi
  | .hardFault => b.hardFault
  | .svcall => b.svcall
  | .pendsv => b.pendsv
  | .systick => b.systick
  | .irq n => b.irq.getLsbD n.val

/-- A bit vector with bit `n` set to `v`. -/
def setBit (x : BitVec 32) (n : Fin 32) (v : Bool) : BitVec 32 :=
  if v then x ||| BitVec.twoPow 32 n.val else x &&& ~~~(BitVec.twoPow 32 n.val)

/-- The bits with that of one exception changed. -/
def ExcBits.set (b : ExcBits) (e : Exc) (v : Bool) : ExcBits :=
  match e with
  | .nmi => { b with nmi := v }
  | .hardFault => { b with hardFault := v }
  | .svcall => { b with svcall := v }
  | .pendsv => { b with pendsv := v }
  | .systick => { b with systick := v }
  | .irq n => { b with irq := setBit b.irq n v }

/-- How many exceptions have their bit set. -/
def ExcBits.count (b : ExcBits) : Nat := (Exc.all.filter b.get).length

/-- Whether `new` has a bit that `old` has not. -/
def ExcBits.anyNew (old new : ExcBits) : Bool :=
  (new.nmi && !old.nmi) || (new.hardFault && !old.hardFault) || (new.svcall && !old.svcall)
    || (new.pendsv && !old.pendsv) || (new.systick && !old.systick)
    || (new.irq &&& ~~~old.irq) != 0#32

/-! ## What exists (R401, D1, D2) -/

/-- The interrupt lines that exist, as a mask. -/
def State.irqMask (s : State) : BitVec 32 := BitVec.ofNat 32 (2 ^ s.cfg.numIrq.toNat - 1)

/-- Whether an exception exists in this configuration. -/
def State.hasExc (s : State) : Exc → Bool
  | .nmi => true
  | .hardFault => true
  | .svcall => true
  | .pendsv => true
  | .systick => s.cfg.hasSysTick
  | .irq n => decide (n.val < s.cfg.numIrq.toNat)

/-! ## Priorities (R403, R404) -/

/-- Prio(e) (R403). -/
def State.prio (s : State) : Exc → Int
  | .nmi => -2
  | .hardFault => -1
  | .svcall => s.pri.svcall.toNat
  | .pendsv => s.pri.pendsv.toNat
  | .systick => s.pri.systick.toNat
  | .irq n => s.pri.irq[n.val].toNat

/-- ExecutionPriority() with PRIMASK at a given value (R404, R480). -/
def State.executionPriorityWith (s : State) (primask : Bool) : Int :=
  let p := (Exc.all.filter s.active.get).foldr (fun e p => min (s.prio e) p) 4
  if primask then min p 0 else p

/-- ExecutionPriority() (R404). -/
def State.executionPriority (s : State) : Int := s.executionPriorityWith s.primask

/-! ## Which exception is taken (R405, R406) -/

/-- Whether an exception is enabled (R405). -/
def State.isEnabled (s : State) : Exc → Bool
  | .nmi => true
  | .hardFault => true
  | .svcall => true
  | .pendsv => true
  | .systick => true
  | .irq n => s.enabled.getLsbD n.val

/-- Whether an exception exists, is pending and is enabled. -/
def State.requested (s : State) (e : Exc) : Bool :=
  s.hasExc e && s.pending.get e && s.isEnabled e

/-- Takeable() with PRIMASK at a given value (R406, R480). -/
def State.takeableWith (s : State) (primask : Bool) (e : Exc) : Bool :=
  s.requested e && decide (s.prio e < s.executionPriorityWith primask)

/-- Takeable() (R406). -/
def State.takeable (s : State) (e : Exc) : Bool := s.takeableWith s.primask e

/-- Of the exceptions `p` holds of, the one of least priority value; of equals, the least number. -/
def State.highest (s : State) (p : Exc → Bool) : Option Exc :=
  Exc.all.foldl
    (fun best e =>
      if p e then
        match best with
        | none => some e
        | some b => if s.prio e < s.prio b then some e else some b
      else best)
    none

/-- Best() (R406). -/
def State.best (s : State) : Option Exc := s.highest s.takeable

/-! ## The pending logic (R425, R440, R455) -/

/-- The pending bits change; one going from not pending to pending sets the event register while
SEVONPEND is set (R455, R481). -/
def State.withPending (s : State) (p : ExcBits) : State :=
  { s with
    pending := p
    event := s.event || (s.scr.sevOnPend && ExcBits.anyNew s.pending p) }

/-- A line that is high while its exception is not active makes it pending (R440 item 2, R425). -/
def State.resample (s : State) : State :=
  s.withPending
    { s.pending with
      nmi := s.pending.nmi || (s.nmiLine && !s.active.nmi)
      irq := s.pending.irq ||| (s.irqLine &&& s.irqMask &&& ~~~s.active.irq) }

/-- The environment drives an interrupt line; a rising edge makes the interrupt pending (R440 items 1
and 2). A line that does not exist changes nothing (D1). -/
def State.driveIrq (s : State) (n : Fin 32) (level : Bool) : State :=
  if n.val < s.cfg.numIrq.toNat then
    let s1 :=
      if level && !s.irqLine.getLsbD n.val then s.withPending (s.pending.set (.irq n) true) else s
    { s1 with irqLine := setBit s.irqLine n level }.resample
  else s

/-- The environment drives the NMI line (R425). -/
def State.driveNmi (s : State) (level : Bool) : State :=
  let s1 := if level && !s.nmiLine then s.withPending (s.pending.set .nmi true) else s
  { s1 with nmiLine := level }.resample

/-! ## Synchronisation, sleep and Lockup -/

/-- What ISB, exception entry and exception return do beside their own effect (R334, R411, R415): Dirty
is emptied, and if an exception is takeable the next step is its entry (R407). -/
def State.synchronise (s : State) : State :=
  { s with dirty := [], mustTake := s.best.isSome }

/-- R480 item 1: an exception that would be takeable were PRIMASK 0. -/
def State.wakesWfi (s : State) : Bool := Exc.all.any (s.takeableWith false)

/-- The WFE wake-up events of R481 that are visible in the state. -/
def State.wakesWfe (s : State) : Bool := s.event || s.best.isSome

/-- WFI: sleep, unless the wake-up condition holds already (R298, R480). -/
def State.waitForInterrupt (s : State) : State :=
  if s.wakesWfi then s else { s with sleep := .waitInterrupt }

/-- Lockup (R428): "the pc reads 0xFFFFFFFE", nothing else changes. -/
def State.enterLockup (s : State) : State := { s with lockup := true, pc := 0xFFFFFFFE#32 }

/-- One tick of the SysTick clock (R475), when there is a SysTick and it is enabled. -/
def State.sysTickStep (s : State) : State :=
  if s.cfg.hasSysTick && s.syst.enable then
    if s.syst.current = 0#24 then { s with syst := { s.syst with current := s.syst.reload } }
    else
      let c := s.syst.current - 1#24
      if c = 0#24 then
        let s1 := { s with syst := { s.syst with current := c, countFlag := true } }
        if s.syst.tickInt then s1.withPending (s1.pending.set .systick true) else s1
      else { s with syst := { s.syst with current := c } }
  else s

/-! ## Events (R400) -/

/-- What an event of the environment or of the SysTick clock does. -/
def State.afterEvent (s : State) : Event → State
  | .irqLine n level => s.driveIrq n level
  | .nmiLine level => s.driveNmi level
  | .rxev => { s with event := true }
  | .tick => s.sysTickStep
  | .deviceValue v => { s with deviceIn := s.deviceIn ++ [v] }

/-- The state after some events, one by one. -/
def State.afterEvents (s : State) (es : List Event) : State := es.foldl State.afterEvent s

end Sys2Proof.Machine
end

