-- ==== Sys2Proof/Machine/SysRegs.lean ====
section
/-! DEFINITION. The memory-mapped system registers (`20_memory.md` R111): NVIC (`60_exceptions.md` R441 to
R445), system control block (R450 to R460) and SysTick (R471 to R474). -/

namespace Sys2Proof.Machine

open Sys2Proof

/-- The registers of R111 that software may access (R460, R461; U9). -/
inductive SysReg where
  | actlr
  | systCsr
  | systRvr
  | systCvr
  | systCalib
  | nvicIser
  | nvicIcer
  | nvicIspr
  | nvicIcpr
  | nvicIpr (k : Fin 8)
  | cpuid
  | icsr
  | vtor
  | aircr
  | scr
  | ccr
  | shpr2
  | shpr3
  | mpuType
deriving DecidableEq, Repr

/-- The register at an address (R111); none at the reserved, debug and debugger-only ones. -/
def sysRegAt (a : Word) : Option SysReg :=
  if a = 0xE000E008#32 then some .actlr
  else if a = 0xE000E010#32 then some .systCsr
  else if a = 0xE000E014#32 then some .systRvr
  else if a = 0xE000E018#32 then some .systCvr
  else if a = 0xE000E01C#32 then some .systCalib
  else if a = 0xE000E100#32 then some .nvicIser
  else if a = 0xE000E180#32 then some .nvicIcer
  else if a = 0xE000E200#32 then some .nvicIspr
  else if a = 0xE000E280#32 then some .nvicIcpr
  else if a.extractLsb' 5 27 = 0x7000720#27 ∧ a.extractLsb' 0 2 = 0#2 then
    some (.nvicIpr (a.extractLsb' 2 3).toFin)
  else if a = 0xE000ED00#32 then some .cpuid
  else if a = 0xE000ED04#32 then some .icsr
  else if a = 0xE000ED08#32 then some .vtor
  else if a = 0xE000ED0C#32 then some .aircr
  else if a = 0xE000ED10#32 then some .scr
  else if a = 0xE000ED14#32 then some .ccr
  else if a = 0xE000ED1C#32 then some .shpr2
  else if a = 0xE000ED20#32 then some .shpr3
  else if a = 0xE000ED90#32 then some .mpuType
  else none

/-! ## Reads -/

/-- SYST_CSR (R471): CLKSOURCE reads 1 when there is no reference clock. -/
def State.readSystCsr (s : State) : Word :=
  0#15 ++ BitVec.ofBool s.syst.countFlag ++ 0#13
    ++ BitVec.ofBool (s.syst.clkSource || s.cfg.systCalib.msb)
    ++ BitVec.ofBool s.syst.tickInt ++ BitVec.ofBool s.syst.enable

/-- The priority byte of IRQ `n` (R445): two bits at the top; 0 for a line that does not exist. -/
def State.priByte (s : State) (n : Fin 32) : Byte :=
  if n.val < s.cfg.numIrq.toNat then s.pri.irq[n.val] ++ 0#6 else 0#8

/-- NVIC_IPRk (R445). -/
def State.readIpr (s : State) (k : Fin 8) : Word :=
  s.priByte ⟨4 * k.val + 3, by omega⟩ ++ s.priByte ⟨4 * k.val + 2, by omega⟩
    ++ s.priByte ⟨4 * k.val + 1, by omega⟩ ++ s.priByte ⟨4 * k.val, by omega⟩

/-- VECTPENDING (R452): the pending and enabled exception of highest priority, PRIMASK and the active
exceptions left out of account; 0 if none. -/
def State.vectPending (s : State) : BitVec 6 :=
  match s.highest s.requested with
  | some e => BitVec.ofNat 6 e.number
  | none => 0#6

/-- ICSR (R452); ISRPREEMPT and ISRPENDING, bits 23 and 22, are UNKNOWN: `unknown` supplies them. -/
def State.readIcsr (s : State) (unknown : Word) : Word :=
  BitVec.ofBool s.pending.nmi ++ 0#2 ++ BitVec.ofBool s.pending.pendsv ++ 0#1
    ++ BitVec.ofBool (s.cfg.hasSysTick && s.pending.systick) ++ 0#2
    ++ unknown.extractLsb' 22 2 ++ 0#4 ++ s.vectPending ++ 0#6 ++ s.ipsr

/-- AIRCR (R454); VECTKEY reads UNKNOWN (D22): `unknown` supplies bits 31 to 16. -/
def State.readAircr (s : State) (unknown : Word) : Word :=
  unknown.extractLsb' 16 16 ++ BitVec.ofBool s.cfg.bigEndian ++ 0#15

/-- SCR (R455). -/
def State.readScr (s : State) : Word :=
  0#27 ++ BitVec.ofBool s.scr.sevOnPend ++ 0#1 ++ BitVec.ofBool s.scr.sleepDeep
    ++ BitVec.ofBool s.scr.sleepOnExit ++ 0#1

/-- VectorTableBase (R115, R453). -/
def State.vectorBase (s : State) : Word := if s.cfg.hasVtor then s.vtor ++ 0#7 else 0#32

/-- SHPR3 (R458); PRI_15 is RAZ without SysTick. -/
def State.readShpr3 (s : State) : Word :=
  (if s.cfg.hasSysTick then s.pri.systick else 0#2) ++ 0#6 ++ s.pri.pendsv ++ 0#22

/-- The read of a system register. Only the read of SYST_CSR changes state of the machine (R461,
R471); a read with an UNKNOWN part draws a free word. Without SysTick its four registers are RAZ
(R470). -/
def readSys (reg : SysReg) (s : State) : Word × State :=
  match reg with
  | .actlr => (0#32, s)
  | .systCsr =>
    if s.cfg.hasSysTick then (s.readSystCsr, { s with syst := { s.syst with countFlag := false } })
    else (0#32, s)
  | .systRvr => (if s.cfg.hasSysTick then s.syst.reload.setWidth 32 else 0#32, s)
  | .systCvr => (if s.cfg.hasSysTick then s.syst.current.setWidth 32 else 0#32, s)
  | .systCalib => (if s.cfg.hasSysTick then s.cfg.systCalib else 0#32, s)
  | .nvicIser => (s.enabled &&& s.irqMask, s)
  | .nvicIcer => (s.enabled &&& s.irqMask, s)
  | .nvicIspr => (s.pending.irq &&& s.irqMask, s)
  | .nvicIcpr => (s.pending.irq &&& s.irqMask, s)
  | .nvicIpr k => (s.readIpr k, s)
  | .cpuid => (s.cfg.cpuid, s)
  | .icsr => (s.readIcsr (Config.freeWord s.free), { s with free := s.free + 1 })
  | .vtor => (s.vectorBase, s)
  | .aircr => (s.readAircr (Config.freeWord s.free), { s with free := s.free + 1 })
  | .scr => (s.readScr, s)
  | .ccr => (0x00000208#32, s)
  | .shpr2 => (s.pri.svcall ++ 0#30, s)
  | .shpr3 => (s.readShpr3, s)
  | .mpuType => (0#32, s)

/-! ## Writes -/

/-- SYST_CSR (R471): CLKSOURCE ignores writes when there is no reference clock. -/
def State.writeSystCsr (s : State) (v : Word) : State :=
  { s with
    syst := { s.syst with
      clkSource := if s.cfg.systCalib.msb then s.syst.clkSource else v.getLsbD 2
      tickInt := v.getLsbD 1
      enable := v.getLsbD 0 } }

/-- One priority of an NVIC_IPRk write: the top two bits of byte `j` (R445). -/
def State.writePri (s : State) (n : Fin 32) (v : Word) (j : Nat) : State :=
  if n.val < s.cfg.numIrq.toNat then
    { s with pri := { s.pri with irq := s.pri.irq.set n.val (v.extractLsb' (8 * j + 6) 2) } }
  else s

/-- NVIC_IPRk (R445). -/
def State.writeIpr (s : State) (k : Fin 8) (v : Word) : State :=
  (((s.writePri ⟨4 * k.val, by omega⟩ v 0).writePri ⟨4 * k.val + 1, by omega⟩ v 1).writePri
    ⟨4 * k.val + 2, by omega⟩ v 2).writePri ⟨4 * k.val + 3, by omega⟩ v 3

/-- ICSR (R452): the pending bits after a write; the SysTick pair is reserved without SysTick. -/
def State.icsrPending (s : State) (v : Word) : ExcBits :=
  { s.pending with
    nmi := s.pending.nmi || v.getLsbD 31
    pendsv := (s.pending.pendsv || v.getLsbD 28) && !v.getLsbD 27
    systick :=
      if s.cfg.hasSysTick then (s.pending.systick || v.getLsbD 26) && !v.getLsbD 25
      else s.pending.systick }

/-- ICSR (R452): writing 1 to both bits of a pair is UNPREDICTABLE (U15). -/
def State.writeIcsr (s : State) (v : Word) : Eff Unit :=
  if (v.getLsbD 28 && v.getLsbD 27) || (s.cfg.hasSysTick && v.getLsbD 26 && v.getLsbD 25) then
    .refuse .unpredictableSysWrite
  else .ok () (s.withPending (s.icsrPending v))

/-- The alignment of the vector table (R453): the least power of two not below 4 * (16 + NUM_IRQ) and
not below 128. -/
def State.tableAlign (s : State) : Nat := if s.cfg.numIrq.toNat ≤ 16 then 128 else 256

/-- VTOR (R453): a base not aligned to the table's size is UNPREDICTABLE. -/
def State.writeVtor (s : State) (v : Word) : Eff Unit :=
  if !s.cfg.hasVtor then .ok () s
  else if (128 * (v.toNat / 128)) % s.tableAlign ≠ 0 then .refuse .unpredictableSysWrite
  else .ok () { s with vtor := v.extractLsb' 7 25 }

/-- AIRCR (R454): ignored without the key; VECTCLRACTIVE is UNPREDICTABLE (U15); SYSRESETREQ asks for a
reset (D18). -/
def State.writeAircr (s : State) (v : Word) : Eff Unit :=
  if v.extractLsb' 16 16 ≠ 0x05FA#16 then .ok () s
  else if v.getLsbD 1 then .refuse .unpredictableSysWrite
  else .ok () { s with resetRequest := s.resetRequest || v.getLsbD 2 }

/-- SCR (R455). -/
def State.writeScr (s : State) (v : Word) : State :=
  { s with scr := ⟨v.getLsbD 4, v.getLsbD 2, v.getLsbD 1⟩ }

/-- SHPR3 (R458). -/
def State.writeShpr3 (s : State) (v : Word) : State :=
  { s with
    pri := { s.pri with
      systick := if s.cfg.hasSysTick then v.extractLsb' 30 2 else s.pri.systick
      pendsv := v.extractLsb' 22 2 } }

/-- The write of a system register; its effect is immediate (R121, R461). Writes to read-only registers
are ignored (R451, R456; log entry 12), a write to MPU_TYPE is refused (R460). -/
def writeSys (reg : SysReg) (v : Word) (s : State) : Eff Unit :=
  match reg with
  | .actlr => .ok () s
  | .systCsr => .ok () (if s.cfg.hasSysTick then s.writeSystCsr v else s)
  | .systRvr =>
    .ok () (if s.cfg.hasSysTick then { s with syst := { s.syst with reload := v.extractLsb' 0 24 } }
      else s)
  | .systCvr =>
    .ok () (if s.cfg.hasSysTick then
        { s with syst := { s.syst with current := 0#24, countFlag := false } }
      else s)
  | .systCalib => .ok () s
  | .nvicIser => .ok () { s with enabled := s.enabled ||| (v &&& s.irqMask) }
  | .nvicIcer => .ok () { s with enabled := s.enabled &&& ~~~(v &&& s.irqMask) }
  | .nvicIspr =>
    .ok () (s.withPending { s.pending with irq := s.pending.irq ||| (v &&& s.irqMask) })
  | .nvicIcpr =>
    .ok () { s with
      pending := { s.pending with irq := s.pending.irq &&& ~~~(v &&& s.irqMask) } }.resample
  | .nvicIpr k => .ok () (s.writeIpr k v)
  | .cpuid => .ok () s
  | .icsr => s.writeIcsr v
  | .vtor => s.writeVtor v
  | .aircr => s.writeAircr v
  | .scr => .ok () (s.writeScr v)
  | .ccr => .ok () s
  | .shpr2 => .ok () { s with pri := { s.pri with svcall := v.extractLsb' 30 2 } }
  | .shpr3 => .ok () (s.writeShpr3 v)
  | .mpuType => .refuse .reservedPpb

end Sys2Proof.Machine
end

