-- ==== Sys2Proof/Machine/Ops.lean ====
section
/-! DEFINITION. The operations every instruction shares: memory access (`20_memory.md` R100, R101, R104),
devices (R103), multiple transfers (`45_load_store_multiple.md` R310 to R312), taking an exception
(`60_exceptions.md` R410 to R413), raising HardFault (R420), returning from an exception (R414 to R416), reset
(`70_reset_and_hazards.md` R501), which can cut an entry off (R500). -/

namespace Sys2Proof.Machine

open Sys2Proof

/-! ## Answers in sequence -/

/-- An operation, then another on its value and state. -/
def Eff.andThen {α β : Type} (e : Eff α) (f : α → State → Eff β) : Eff β :=
  match e with
  | .ok a s => f a s
  | .hardFault c s => .hardFault c s
  | .refuse r => .refuse r

/-! ## Devices of the platform (D12, R103, R120 item 2) -/

/-- The bytes an access of width `w` moves, zero-extended. -/
def widthLow (w : Width) (v : Word) : Word :=
  match w with
  | .byte => (v.extractLsb' 0 8).setWidth 32
  | .half => (v.extractLsb' 0 16).setWidth 32
  | .word => v

/-- The value a device gives a read of width `w`: the next the platform supplies, a free value where it
supplies none (log entry 18). -/
def State.deviceWord (s : State) (w : Width) : Word := widthLow w (s.deviceIn.headD (Config.freeWord s.free))

/-- A read or fetch made of a device: performed once, noted with its value. -/
def State.deviceRead (s : State) (acc : Access) (w : Width) (a : Word) : State :=
  { s with
    deviceIn := s.deviceIn.tail
    deviceLog := s.deviceLog ++ [⟨acc, w, a, s.deviceWord w⟩]
    free := if s.deviceIn.isEmpty then s.free + 1 else s.free }

/-- A write made to a device: performed once. -/
def State.deviceWrite (s : State) (w : Width) (a v : Word) : State :=
  { s with deviceLog := s.deviceLog ++ [⟨.write, w, a, widthLow w v⟩] }

/-! ## Memory access -/

/-- `MemRead(addr, n)` made with the given privilege (R100), zero-extended. -/
def memRead (priv : Bool) (w : Width) (a : Word) (s : State) : Eff Word :=
  if a.toNat % w.bytes ≠ 0 then .hardFault .unaligned s
  else if inPpb a then
    if !priv then .hardFault .busError s
    else if inScs a && w != .word then .refuse .scsWidth
    else
      match sysRegAt a with
      | none => .refuse .reservedPpb
      | some reg => .ok (readSys reg s).1 (readSys reg s).2
  else
    match s.cfg.target .read priv w a.toNat with
    | none => .hardFault .busError s
    | some .device => .ok (s.deviceWord w) (s.deviceRead .read w a)
    | some .ram => .ok (s.mem.value s.cfg.bigEndian w a.toNat) s
    | some .rom => .ok (s.mem.value s.cfg.bigEndian w a.toNat) s

/-- The store of an aligned value in memory, the bytes noted in Dirty (D24). -/
def State.storeAt (s : State) (w : Width) (a : Nat) (v : Word) : State :=
  { s with
    mem := s.mem.store s.cfg.bigEndian w a v
    dirty := markDirty s.mem a w.bytes s.dirty }

/-- `MemWrite(addr, n, v)` made with the given privilege (R101). -/
def memWrite (priv : Bool) (w : Width) (a v : Word) (s : State) : Eff Unit :=
  if a.toNat % w.bytes ≠ 0 then .hardFault .unaligned s
  else if inPpb a then
    if !priv then .hardFault .busError s
    else if inScs a && w != .word then .refuse .scsWidth
    else
      match sysRegAt a with
      | none => .refuse .reservedPpb
      | some reg => writeSys reg v s
  else
    match s.cfg.target .write priv w a.toNat with
    | none => .hardFault .busError s
    | some .device => .ok () (s.deviceWrite w a v)
    | some .rom => .ok () s
    | some .ram => .ok () (s.storeAt w a.toNat v)

/-! ## Multiple transfers -/

/-- Whether `n` words from `a` would cross from 0xFFFFFFFC to 0 (R104). -/
def crossesTop (a : Word) (n : Nat) : Bool := decide (2 ^ 32 < a.toNat + 4 * n)

/-- Words written at rising addresses, the events of `gaps` after them; on a fault the earlier ones stay
written (R312). -/
def storeWords (priv : Bool) : Gaps → List Word → Word → State → Eff Unit
  | _, [], _, s => .ok () s
  | gaps, v :: vs, a, s =>
    (memWrite priv .word a v s).andThen fun _ s' =>
      storeWords priv gaps.tail vs (a + 4#32) (s'.afterEvents (gaps.headD []))

/-- `n` words read from rising addresses, the events of `gaps` after them: those read before a fault, and
how the reads ended. -/
def readWords (priv : Bool) : Gaps → Nat → Word → State → List Word × Eff Unit
  | _, 0, _, s => ([], .ok () s)
  | gaps, n + 1, a, s =>
    match memRead priv .word a s with
    | .ok v s' =>
      let rest := readWords priv gaps.tail n (a + 4#32) (s'.afterEvents (gaps.headD []))
      (v :: rest.1, rest.2)
    | .hardFault c s' => ([], .hardFault c s')
    | .refuse r => ([], .refuse r)

/-- The registers of a list, in ascending order (R162). -/
def listRegs (list : BitVec 8) : List LowReg :=
  (List.finRange 8).filter fun i => list.getLsbD i.val

/-- The registers take the loaded words (R311). -/
def State.setLows (s : State) : List (LowReg × Word) → State
  | [] => s
  | (r, v) :: rest => (s.setLow r v).setLows rest

/-- After a fault or an abandonment each register loaded so far, the base excepted, holds its old or its
loaded value: a free choice for each (R312 items 2 and 3; log entry 6). -/
def State.setSomeLows (s : State) (base : Option LowReg) : List (LowReg × Word) → State
  | [] => s
  | (r, v) :: rest =>
    if base = some r then s.setSomeLows base rest
    else
      let s' := { s with free := s.free + 1 }
      (if Config.freeBit s.free then s'.setLow r v else s').setSomeLows base rest

/-! ## Reset -/

/-- The state TakeReset leaves before it reads the vector table (R501): the UNKNOWN values are drawn,
memory, the lines, the devices and Dirty stay (log entry 16). -/
def State.resetRegisters (s : State) : State :=
  { s with
    r := Vector.ofFn fun i => Config.freeWord (s.free + i.val)
    lr := Config.freeWord (s.free + 13)
    flags := Flags.ofWord (Config.freeWord (s.free + 14))
    spProcess := alignWord (Config.freeWord (s.free + 15))
    ipsr := 0#6
    primask := false
    npriv := false
    spsel := false
    pending := ExcBits.none
    active := ExcBits.none
    enabled := 0#32
    pri := ⟨0#2, 0#2, 0#2, Vector.replicate 32 0#2⟩
    event := false
    lockup := false
    sleep := .awake
    scr := ⟨false, false, false⟩
    vtor := 0#25
    resetRequest := false
    syst := SysTick.atReset s.cfg ((Config.freeWord (s.free + 16)).extractLsb' 0 24)
      ((Config.freeWord (s.free + 17)).extractLsb' 0 24)
    resetIn := none
    mustTake := false
    free := s.free + 18 }

/-- The reads of the vector table's first two words and what they set (R501). -/
def resetVector (s : State) : Eff Unit :=
  (memRead true .word 0#32 s).andThen fun w0 s1 =>
    (memRead true .word 4#32 s1).andThen fun w1 s2 =>
      .ok () { s2 with spMain := alignWord w0, t := w1.getLsbD 0, pc := alignHalf w1 }

/-- `TakeReset()` (R501): a bus error on either vector read is Lockup; a line that is high pends its
interrupt again at once (R440 item 2; log entry 22). -/
def takeReset (s : State) : Host.Outcome State Fault Refusal :=
  match resetVector s.resetRegisters with
  | .ok _ s1 => .next s1.resample
  | .hardFault _ s1 => .next s1.enterLockup.resample
  | .refuse r => .refused r

/-! ## Taking an exception -/

/-- The eight words of a frame, lowest address first (R410, R412). -/
def State.frameWords (s : State) (ret : Word) : List Word :=
  [s.r[0], s.r[1], s.r[2], s.r[3], s.r[12], s.lr, ret, s.xpsr (s.sp.getLsbD 2)]

/-- Where the frame goes: 32 bytes down, then down to a multiple of 8 (R410). -/
def State.framePtr (s : State) : Word := (s.sp - 0x20#32) &&& 0xFFFFFFF8#32

/-- The EXC_RETURN value an exception entry leaves in LR (R410, R414). -/
def State.excReturn (s : State) : Word :=
  if s.handlerMode then 0xFFFFFFF1#32
  else if s.spsel then 0xFFFFFFFD#32
  else 0xFFFFFFF9#32

/-- `PushStack(ret)` (R410), with the privilege of the interrupted code. -/
def pushStack (ret : Word) (s : State) : Eff Unit :=
  if crossesTop s.framePtr 8 then .refuse .transferWrap
  else
    (storeWords s.privileged [] (s.frameWords ret) s.framePtr s).andThen fun _ s1 =>
      .ok () { s1.setSp s.framePtr with lr := s.excReturn }

/-- R0 to R3 and R12 as a handler sees them: UNKNOWN (R411). -/
def State.scratchRegs (s : State) : Vector Word 13 :=
  ((((s.r.set 0 (Config.freeWord s.free)).set 1 (Config.freeWord (s.free + 1))).set 2
    (Config.freeWord (s.free + 2))).set 3 (Config.freeWord (s.free + 3))).set 12
    (Config.freeWord (s.free + 4))

/-- `ExceptionTaken(e)` (R411). -/
def exceptionTaken (e : Exc) (s : State) : Eff Unit :=
  (memRead true .word (s.vectorBase + BitVec.ofNat 32 (4 * e.number)) s).andThen fun v s1 =>
    .ok () (State.synchronise { s1 with
      r := s1.scratchRegs
      flags := Flags.ofWord (Config.freeWord (s1.free + 5))
      free := s1.free + 6
      pc := alignHalf v
      t := v.getLsbD 0
      ipsr := BitVec.ofNat 6 e.number
      spsel := false
      active := s1.active.set e true
      pending := s1.pending.set e false
      event := true
      lockup := false
      sleep := .awake })

/-- The words of a list that are marked, each written at its own place among rising addresses. -/
def storeMarked (priv : Bool) : List (Bool × Word) → Word → State → Eff Unit
  | [], _, s => .ok () s
  | (false, _) :: vs, a, s => storeMarked priv vs (a + 4#32) s
  | (true, v) :: vs, a, s =>
    (memWrite priv .word a v s).andThen fun _ s' => storeMarked priv vs (a + 4#32) s'

/-- The stacking of a frame of which a reset lets the words of `frame` be stored: R410 gives the eight
stores no order (R99, R500; log entry 16). -/
def pushMarked (frame : BitVec 8) (ret : Word) (s : State) : Eff Unit :=
  if crossesTop s.framePtr 8 then .refuse .transferWrap
  else
    storeMarked s.privileged (((List.range 8).map frame.getLsbD).zip (s.frameWords ret)) s.framePtr s

/-- `ExceptionEntry(e, ret)` (R410); a fault in it is refused (R427, U12). Where the reset input acts in
the middle of it, part of the frame is stored and the reset is taken (R500). -/
def exceptionEntry (e : Exc) (ret : Word) (s : State) : Host.Outcome State Fault Refusal :=
  match s.resetIn with
  | none =>
    match (pushStack ret s).andThen fun _ s1 => exceptionTaken e s1 with
    | .ok _ s2 => .next s2
    | .hardFault _ _ => .refused .entryOrReturnAccess
    | .refuse r => .refused r
  | some frame =>
    match pushMarked frame ret s with
    | .ok _ s1 => takeReset s1
    | .hardFault _ _ => .refused .entryOrReturnAccess
    | .refuse r => .refused r

/-- `raise HardFault(cause)` (R420); the cause is a label nothing records. -/
def raiseHardFault (_cause : FaultCause) (s : State) : Host.Outcome State Fault Refusal :=
  if s.executionPriority ≤ -1 then .next s.enterLockup else exceptionEntry .hardFault s.pc s

/-- The end of an instruction that sets the pc itself or takes an exception. -/
def Eff.finish (e : Eff Unit) : Host.Outcome State Fault Refusal :=
  match e with
  | .ok _ s => .next s
  | .hardFault c s => raiseHardFault c s
  | .refuse r => .refused r

/-- The end of an instruction of `len` bytes that does not branch (R39). -/
def Eff.finishAt (e : Eff Unit) (len : Nat) : Host.Outcome State Fault Refusal :=
  match e with
  | .ok _ s => advance len s
  | .hardFault c s => raiseHardFault c s
  | .refuse r => .refused r

/-! ## Returning from an exception -/

/-- Where an EXC_RETURN value returns to (R414). -/
inductive ReturnTo where
  | handler
  | threadMain
  | threadProcess
deriving DecidableEq, Repr

/-- The meaning of an EXC_RETURN value (R414, R415): bits 27 to 4 all ones, bits 3 to 0 one of three. -/
def returnTo (v : Word) : Option ReturnTo :=
  if v.extractLsb' 4 24 ≠ 0xFFFFFF#24 then none
  else if v.extractLsb' 0 4 = 0b0001#4 then some .handler
  else if v.extractLsb' 0 4 = 0b1001#4 then some .threadMain
  else if v.extractLsb' 0 4 = 0b1101#4 then some .threadProcess
  else none

/-- The checks R415 makes before it unstacks: the returning exception is active, and is the only active
one exactly when the return is to Thread mode. -/
def State.mayReturn (s : State) (dest : ReturnTo) (r : Exc) : Bool :=
  s.active.get r && ((s.active.count == 1) == (dest != .handler))

/-- The stack the frame is on (R414). -/
def State.returnFrame (s : State) (dest : ReturnTo) : Word :=
  if dest = .threadProcess then s.spProcess else s.spMain

/-- The privilege of the unstacking reads (R415). -/
def State.returnPrivilege (s : State) (dest : ReturnTo) : Bool := dest == .handler || !s.npriv

/-- The stack pointer after the frame at `frame` with stacked xPSR `psr` is removed (R416). -/
def poppedSp (frame psr : Word) : Word :=
  (frame + 0x20#32) ||| (BitVec.ofBool (psr.getLsbD 9) ++ 0#2).setWidth 32

/-- The state after the eight words of the frame are loaded (R415, R416). -/
def State.unstacked (s : State) (dest : ReturnTo) (r : Exc) (frame r0 r1 r2 r3 r12 lr ra psr : Word) :
    State :=
  let s1 := { s with
    r := ((((s.r.set 0 r0).set 1 r1).set 2 r2).set 3 r3).set 12 r12
    lr := lr
    pc := ra
    flags := Flags.ofWord psr
    t := psr.getLsbD 24
    ipsr := psr.extractLsb' 0 6
    spMain := if dest == ReturnTo.threadProcess then s.spMain else poppedSp frame psr
    spProcess := if dest == ReturnTo.threadProcess then poppedSp frame psr else s.spProcess
    spsel := match dest with
      | .handler => s.spsel
      | .threadMain => false
      | .threadProcess => true
    active := s.active.set r false
    event := true }
  let s2 := s1.resample.synchronise
  if dest != .handler && s2.scr.sleepOnExit then s2.waitForInterrupt else s2

/-- Whether a stacked exception number agrees with the mode returned to (R415, U7): 0 for Thread mode, for
Handler mode the number of an exception that exists (R402: IPSR never holds a reserved number, R500:
nor 1; log entry 19). -/
def State.numberReturnable (s : State) (dest : ReturnTo) (n : BitVec 6) : Bool :=
  match dest with
  | .handler => (excOfNumber n).any s.hasExc
  | .threadMain => n == 0#6
  | .threadProcess => n == 0#6

/-- The checks R416 and R415 make of the loaded frame. -/
def State.frameReturnable (s : State) (dest : ReturnTo) (ra psr : Word) : Bool :=
  !ra.getLsbD 0 && s.numberReturnable dest (psr.extractLsb' 0 6)

/-- `PopStack` and the rest of `ExceptionReturn` (R415, R416). -/
def popStack (dest : ReturnTo) (r : Exc) (s : State) : Host.Outcome State Fault Refusal :=
  if crossesTop (s.returnFrame dest) 8 then .refused .transferWrap
  else
    match readWords (s.returnPrivilege dest) [] 8 (s.returnFrame dest) s with
    | ([r0, r1, r2, r3, r12, lr, ra, psr], .ok _ s1) =>
      if s.frameReturnable dest ra psr then
        .next (s1.unstacked dest r (s.returnFrame dest) r0 r1 r2 r3 r12 lr ra psr)
      else .refused .unpredictableReturn
    | (_, .refuse e) => .refused e
    | (_, _) => .refused .entryOrReturnAccess

/-- `ExceptionReturn(v)` (R415); every UNPREDICTABLE case is refused (U7). -/
def exceptionReturn (v : Word) (s : State) : Host.Outcome State Fault Refusal :=
  match returnTo v, excOfNumber s.ipsr with
  | some dest, some r => if s.mayReturn dest r then popStack dest r s else .refused .unpredictableReturn
  | _, _ => .refused .unpredictableReturn

/-- `BXWritePC(a)` and `LoadWritePC(a)` (R43, R45). -/
def bxWritePc (a : Word) (s : State) : Host.Outcome State Fault Refusal :=
  if s.handlerMode && a.extractLsb' 28 4 == 0xF#4 then exceptionReturn a s else .next (s.exchangeTo a)

end Sys2Proof.Machine
end

