-- ==== Sys2Proof/Machine/Operands.lean ====
section
/-! DEFINITION. Operand forms: immediates (`30_encoding.md` R161), addressing modes
(`43_load_store_single.md` R267), destinations with their flags (`10_state.md` R51), special-register
numbers (`47_system_32bit.md` R336). -/

namespace Sys2Proof.Machine

open Sys2Proof

/-! ## Immediates (R161) -/

/-- `zext_32(imm)`. -/
def zeroExt {w : Nat} (v : BitVec w) : Word := v.setWidth 32

/-- `zext_32(imm : '0')`. -/
def zeroExt2 {w : Nat} (v : BitVec w) : Word := (v ++ 0#1).setWidth 32

/-- `zext_32(imm : '00')`. -/
def zeroExt4 {w : Nat} (v : BitVec w) : Word := (v ++ 0#2).setWidth 32

/-- `sext_32(imm : '0')`. -/
def signExt2 {w : Nat} (v : BitVec w) : Word := (v ++ 0#1).signExtend 32

/-- The amount of an immediate right shift: 0 encodes 32 (R201, R202). -/
def rightShiftAmount (imm5 : BitVec 5) : Nat := if imm5 = 0#5 then 32 else imm5.toNat

/-- The offset of BL (R324): `sext_32(S : I1 : I2 : imm10 : imm11 : '0')`. -/
def blOffset (sgn : BitVec 1) (imm10 : BitVec 10) (j1 j2 : BitVec 1) (imm11 : BitVec 11) : Word :=
  (sgn ++ ~~~(j1 ^^^ sgn) ++ ~~~(j2 ^^^ sgn) ++ imm10 ++ imm11 ++ 0#1).signExtend 32

/-- The amount of a register shift: the bottom byte (R222). -/
def registerShiftAmount (v : Word) : Nat := (v.extractLsb' 0 8).toNat

/-! ## Addresses (R267) -/

/-- Register offset. -/
def State.addrReg (s : State) (rm rn : LowReg) : Word := s.low rn + s.low rm

/-- Immediate offset. -/
def State.addrImm (s : State) (rn : LowReg) (offset : Word) : Word := s.low rn + offset

/-- SP-relative. -/
def State.addrSp (s : State) (imm8 : BitVec 8) : Word := s.sp + zeroExt4 imm8

/-- PC-relative (R250, R280). -/
def State.addrPc (s : State) (imm8 : BitVec 8) : Word := align4 s.pcRead + zeroExt4 imm8

/-! ## Extensions -/

/-- `sext_32(v[7:0])`. -/
def signByte (v : Word) : Word := (v.extractLsb' 0 8).signExtend 32

/-- `sext_32(v[15:0])`. -/
def signHalf (v : Word) : Word := (v.extractLsb' 0 16).signExtend 32

/-- `zext_32(v[7:0])`. -/
def zeroByte (v : Word) : Word := (v.extractLsb' 0 8).setWidth 32

/-- `zext_32(v[15:0])`. -/
def zeroHalf (v : Word) : Word := (v.extractLsb' 0 16).setWidth 32

/-! ## Results with flags (R51) -/

/-- A low register and N, Z, C, V take a sum (first row of R51). -/
def State.putSum (s : State) (rd : LowReg) (r : AddResult) : State :=
  (s.setLow rd r.result).setFlags (Flags.ofAdd r)

/-- N, Z, C, V take a sum whose result is discarded. -/
def State.putCompare (s : State) (r : AddResult) : State := s.setFlags (Flags.ofAdd r)

/-- A low register, N, Z and C take a shift (second row of R51). -/
def State.putShift (s : State) (rd : LowReg) (r : ShiftResult) : State :=
  (s.setLow rd r.result).setFlags (s.flags.withNZC r)

/-- A low register, N and Z take a result (third row of R51). -/
def State.putLogic (s : State) (rd : LowReg) (v : Word) : State :=
  (s.setLow rd v).setFlags (s.flags.withNZ v)

/-- N and Z take a result that is discarded. -/
def State.putTest (s : State) (v : Word) : State := s.setFlags (s.flags.withNZ v)

/-! ## One register to or from memory -/

/-- A store of one register, the access made with the current privilege (R101). -/
def storeReg (w : Width) (a v : Word) (s : State) : Host.Outcome State Fault Refusal :=
  (memWrite s.privileged w a v s).finishAt 2

/-- A load of one register, its value extended by `ext` (R100). -/
def loadReg (w : Width) (ext : Word → Word) (rt : LowReg) (a : Word) (s : State) :
    Host.Outcome State Fault Refusal :=
  ((memRead s.privileged w a s).andThen fun v s' => .ok () (s'.setLow rt (ext v))).finishAt 2

/-! ## Special registers (R336) -/

/-- The special-register numbers MSR and MRS define. -/
def specialDefined (sysm : BitVec 8) : Bool :=
  sysm == 0#8 || sysm == 1#8 || sysm == 2#8 || sysm == 3#8 || sysm == 5#8 || sysm == 6#8
    || sysm == 7#8 || sysm == 8#8 || sysm == 9#8 || sysm == 16#8 || sysm == 20#8

/-- What MRS reads of the xPSR group (R331): IPSR when SYSm[0], the flags when not SYSm[2], EPSR as 0. -/
def State.readPsr (s : State) (sysm : BitVec 8) : Word :=
  (if sysm.getLsbD 2 then 0#4 else s.flags.bits) ++ 0#22
    ++ (if sysm.getLsbD 0 then s.ipsr else 0#6)

/-- What MRS reads (R331). -/
def State.readSpecial (s : State) (sysm : BitVec 8) : Word :=
  if sysm.extractLsb' 3 5 = 0b00000#5 then s.readPsr sysm
  else if sysm = 8#8 then if s.privileged then s.spMain else 0#32
  else if sysm = 9#8 then if s.privileged then s.spProcess else 0#32
  else if sysm = 16#8 then if s.privileged then (BitVec.ofBool s.primask).setWidth 32 else 0#32
  else if sysm = 20#8 then (BitVec.ofBool s.spsel ++ BitVec.ofBool s.npriv).setWidth 32
  else 0#32

/-- What MSR writes (R330); the privileged registers are unchanged by unprivileged code. -/
def State.writeSpecial (s : State) (sysm : BitVec 8) (v : Word) : State :=
  if sysm.extractLsb' 3 5 = 0b00000#5 then
    if sysm.getLsbD 2 then s else s.setFlags (Flags.ofWord v)
  else if !s.privileged then s
  else if sysm = 8#8 then { s with spMain := alignWord v }
  else if sysm = 9#8 then { s with spProcess := alignWord v }
  else if sysm = 16#8 then { s with primask := v.getLsbD 0 }
  else if sysm = 20#8 then
    { s with
      npriv := v.getLsbD 0
      spsel := if s.handlerMode then s.spsel else v.getLsbD 1 }
  else s

end Sys2Proof.Machine
end

