-- ==== Sys2Proof/Machine/Branch.lean ====
section
/-! DEFINITION. The instructions of `46_branch_svc.md`, one definition a rule. -/

namespace Sys2Proof.Machine

open Sys2Proof

/-- R320. -/
def execBCond (cond : Cond) (imm8 : BitVec 8) (s : State) : Host.Outcome State Fault Refusal :=
  if conditionPassed cond s.flags then .next (s.branchTo (s.pcRead + signExt2 imm8)) else advance 2 s

/-- R321. -/
def execB (imm11 : BitVec 11) (s : State) : Host.Outcome State Fault Refusal :=
  .next (s.branchTo (s.pcRead + signExt2 imm11))

/-- R322. -/
def execUdf (_imm8 : BitVec 8) (s : State) : Host.Outcome State Fault Refusal :=
  raiseHardFault .undefinedInstruction s

/-- R323, R423. -/
def execSvc (_imm8 : BitVec 8) (s : State) : Host.Outcome State Fault Refusal :=
  if s.prio .svcall < s.executionPriority then exceptionEntry .svcall (s.pc + 2#32) s
  else raiseHardFault .svcEscalated s

/-- R324. -/
def execBl (sgn : BitVec 1) (imm10 : BitVec 10) (j1 j2 : BitVec 1) (imm11 : BitVec 11) (s : State) :
    Host.Outcome State Fault Refusal :=
  .next ({ s with lr := withBit0 (s.pc + 4#32) }.branchTo
    (s.pcRead + blOffset sgn imm10 j1 j2 imm11))

end Sys2Proof.Machine
end

