-- ==== Sys2Proof/Machine/DataProcessing.lean ====
section
/-! DEFINITION. The instructions of `41_data_processing.md`, one definition a rule. -/

namespace Sys2Proof.Machine

open Sys2Proof

/-- R220. -/
def execAnds (rm rdn : LowReg) (s : State) : Host.Outcome State Fault Refusal :=
  advance 2 (s.putLogic rdn (s.low rdn &&& s.low rm))

/-- R221. -/
def execEors (rm rdn : LowReg) (s : State) : Host.Outcome State Fault Refusal :=
  advance 2 (s.putLogic rdn (s.low rdn ^^^ s.low rm))

/-- R222. -/
def execLslsReg (rm rdn : LowReg) (s : State) : Host.Outcome State Fault Refusal :=
  advance 2 (s.putShift rdn
    (shiftC (s.low rdn) .lsl (registerShiftAmount (s.low rm)) s.flags.c))

/-- R223. -/
def execLsrsReg (rm rdn : LowReg) (s : State) : Host.Outcome State Fault Refusal :=
  advance 2 (s.putShift rdn
    (shiftC (s.low rdn) .lsr (registerShiftAmount (s.low rm)) s.flags.c))

/-- R224. -/
def execAsrsReg (rm rdn : LowReg) (s : State) : Host.Outcome State Fault Refusal :=
  advance 2 (s.putShift rdn
    (shiftC (s.low rdn) .asr (registerShiftAmount (s.low rm)) s.flags.c))

/-- R225. -/
def execAdcs (rm rdn : LowReg) (s : State) : Host.Outcome State Fault Refusal :=
  advance 2 (s.putSum rdn (addWithCarry (s.low rdn) (s.low rm) s.flags.c))

/-- R226. -/
def execSbcs (rm rdn : LowReg) (s : State) : Host.Outcome State Fault Refusal :=
  advance 2 (s.putSum rdn (addWithCarry (s.low rdn) (~~~(s.low rm)) s.flags.c))

/-- R227. -/
def execRors (rm rdn : LowReg) (s : State) : Host.Outcome State Fault Refusal :=
  advance 2 (s.putShift rdn
    (shiftC (s.low rdn) .ror (registerShiftAmount (s.low rm)) s.flags.c))

/-- R228. -/
def execTst (rm rn : LowReg) (s : State) : Host.Outcome State Fault Refusal :=
  advance 2 (s.putTest (s.low rn &&& s.low rm))

/-- R229. -/
def execRsbs (rn rd : LowReg) (s : State) : Host.Outcome State Fault Refusal :=
  advance 2 (s.putSum rd (addWithCarry (~~~(s.low rn)) 0#32 true))

/-- R230. -/
def execCmpReg (rm rn : LowReg) (s : State) : Host.Outcome State Fault Refusal :=
  advance 2 (s.putCompare (addWithCarry (s.low rn) (~~~(s.low rm)) true))

/-- R231. -/
def execCmn (rm rn : LowReg) (s : State) : Host.Outcome State Fault Refusal :=
  advance 2 (s.putCompare (addWithCarry (s.low rn) (s.low rm) false))

/-- R232. -/
def execOrrs (rm rdn : LowReg) (s : State) : Host.Outcome State Fault Refusal :=
  advance 2 (s.putLogic rdn (s.low rdn ||| s.low rm))

/-- R233: the product as an unbounded integer, narrowed. -/
def execMuls (rn rdm : LowReg) (s : State) : Host.Outcome State Fault Refusal :=
  advance 2 (s.putLogic rdm (BitVec.ofNat 32 ((s.low rn).toNat * (s.low rdm).toNat)))

/-- R234. -/
def execBics (rm rdn : LowReg) (s : State) : Host.Outcome State Fault Refusal :=
  advance 2 (s.putLogic rdn (s.low rdn &&& ~~~(s.low rm)))

/-- R235. -/
def execMvns (rm rd : LowReg) (s : State) : Host.Outcome State Fault Refusal :=
  advance 2 (s.putLogic rd (~~~(s.low rm)))

end Sys2Proof.Machine
end

