-- ==== Sys2Proof/Machine/LoadStore.lean ====
section
/-! DEFINITION. The instructions of `43_load_store_single.md`, one definition a rule. -/

namespace Sys2Proof.Machine

open Sys2Proof

/-- R250. -/
def execLdrLit (rt : LowReg) (imm8 : BitVec 8) (s : State) : Host.Outcome State Fault Refusal :=
  loadReg .word id rt (s.addrPc imm8) s

/-- R251. -/
def execStrReg (rm rn rt : LowReg) (s : State) : Host.Outcome State Fault Refusal :=
  storeReg .word (s.addrReg rm rn) (s.low rt) s

/-- R252. -/
def execStrhReg (rm rn rt : LowReg) (s : State) : Host.Outcome State Fault Refusal :=
  storeReg .half (s.addrReg rm rn) (s.low rt) s

/-- R253. -/
def execStrbReg (rm rn rt : LowReg) (s : State) : Host.Outcome State Fault Refusal :=
  storeReg .byte (s.addrReg rm rn) (s.low rt) s

/-- R254. -/
def execLdrsbReg (rm rn rt : LowReg) (s : State) : Host.Outcome State Fault Refusal :=
  loadReg .byte signByte rt (s.addrReg rm rn) s

/-- R255. -/
def execLdrReg (rm rn rt : LowReg) (s : State) : Host.Outcome State Fault Refusal :=
  loadReg .word id rt (s.addrReg rm rn) s

/-- R256. -/
def execLdrhReg (rm rn rt : LowReg) (s : State) : Host.Outcome State Fault Refusal :=
  loadReg .half zeroHalf rt (s.addrReg rm rn) s

/-- R257. -/
def execLdrbReg (rm rn rt : LowReg) (s : State) : Host.Outcome State Fault Refusal :=
  loadReg .byte zeroByte rt (s.addrReg rm rn) s

/-- R258. -/
def execLdrshReg (rm rn rt : LowReg) (s : State) : Host.Outcome State Fault Refusal :=
  loadReg .half signHalf rt (s.addrReg rm rn) s

/-- R259. -/
def execStrImm (imm5 : BitVec 5) (rn rt : LowReg) (s : State) : Host.Outcome State Fault Refusal :=
  storeReg .word (s.addrImm rn (zeroExt4 imm5)) (s.low rt) s

/-- R260. -/
def execLdrImm (imm5 : BitVec 5) (rn rt : LowReg) (s : State) : Host.Outcome State Fault Refusal :=
  loadReg .word id rt (s.addrImm rn (zeroExt4 imm5)) s

/-- R261. -/
def execStrbImm (imm5 : BitVec 5) (rn rt : LowReg) (s : State) : Host.Outcome State Fault Refusal :=
  storeReg .byte (s.addrImm rn (zeroExt imm5)) (s.low rt) s

/-- R262. -/
def execLdrbImm (imm5 : BitVec 5) (rn rt : LowReg) (s : State) : Host.Outcome State Fault Refusal :=
  loadReg .byte zeroByte rt (s.addrImm rn (zeroExt imm5)) s

/-- R263. -/
def execStrhImm (imm5 : BitVec 5) (rn rt : LowReg) (s : State) : Host.Outcome State Fault Refusal :=
  storeReg .half (s.addrImm rn (zeroExt2 imm5)) (s.low rt) s

/-- R264. -/
def execLdrhImm (imm5 : BitVec 5) (rn rt : LowReg) (s : State) : Host.Outcome State Fault Refusal :=
  loadReg .half zeroHalf rt (s.addrImm rn (zeroExt2 imm5)) s

/-- R265. -/
def execStrSp (rt : LowReg) (imm8 : BitVec 8) (s : State) : Host.Outcome State Fault Refusal :=
  storeReg .word (s.addrSp imm8) (s.low rt) s

/-- R266. -/
def execLdrSp (rt : LowReg) (imm8 : BitVec 8) (s : State) : Host.Outcome State Fault Refusal :=
  loadReg .word id rt (s.addrSp imm8) s

end Sys2Proof.Machine
end

