-- ==== Sys2Proof/Machine/Misc.lean ====
section
/-! DEFINITION. The instructions of `44_misc_16bit.md` but PUSH and POP, one definition a rule. -/

namespace Sys2Proof.Machine

open Sys2Proof

/-- R280. -/
def execAdr (rd : LowReg) (imm8 : BitVec 8) (s : State) : Host.Outcome State Fault Refusal :=
  advance 2 (s.setLow rd (s.addrPc imm8))

/-- R281. -/
def execAddSpImm (rd : LowReg) (imm8 : BitVec 8) (s : State) : Host.Outcome State Fault Refusal :=
  advance 2 (s.setLow rd (s.addrSp imm8))

/-- R282. -/
def execAddSp (imm7 : BitVec 7) (s : State) : Host.Outcome State Fault Refusal :=
  advance 2 (s.setSp (s.sp + zeroExt4 imm7))

/-- R283. -/
def execSubSp (imm7 : BitVec 7) (s : State) : Host.Outcome State Fault Refusal :=
  advance 2 (s.setSp (s.sp - zeroExt4 imm7))

/-- R284. -/
def execSxth (rm rd : LowReg) (s : State) : Host.Outcome State Fault Refusal :=
  advance 2 (s.setLow rd (signHalf (s.low rm)))

/-- R285. -/
def execSxtb (rm rd : LowReg) (s : State) : Host.Outcome State Fault Refusal :=
  advance 2 (s.setLow rd (signByte (s.low rm)))

/-- R286. -/
def execUxth (rm rd : LowReg) (s : State) : Host.Outcome State Fault Refusal :=
  advance 2 (s.setLow rd (zeroHalf (s.low rm)))

/-- R287. -/
def execUxtb (rm rd : LowReg) (s : State) : Host.Outcome State Fault Refusal :=
  advance 2 (s.setLow rd (zeroByte (s.low rm)))

/-- Byte `i` of a register's value. -/
def byteAt (v : Word) (i : Nat) : Byte := v.extractLsb' (8 * i) 8

/-- R290. -/
def execRev (rm rd : LowReg) (s : State) : Host.Outcome State Fault Refusal :=
  let v := s.low rm
  advance 2 (s.setLow rd (byteAt v 0 ++ byteAt v 1 ++ byteAt v 2 ++ byteAt v 3))

/-- R291. -/
def execRev16 (rm rd : LowReg) (s : State) : Host.Outcome State Fault Refusal :=
  let v := s.low rm
  advance 2 (s.setLow rd (byteAt v 2 ++ byteAt v 3 ++ byteAt v 0 ++ byteAt v 1))

/-- R292. -/
def execRevsh (rm rd : LowReg) (s : State) : Host.Outcome State Fault Refusal :=
  let v := s.low rm
  advance 2 (s.setLow rd ((byteAt v 0 ++ byteAt v 1).signExtend 32))

/-- R289: ignored when unprivileged. -/
def execCps (im : Bool) (sb : BitVec 4) (s : State) : Host.Outcome State Fault Refusal :=
  if sb ≠ 0b0010#4 then .refused .unpredictableEncoding
  else advance 2 (if s.privileged then { s with primask := im } else s)

/-- R294: no debugger is attached (D9). -/
def execBkpt (_imm8 : BitVec 8) (s : State) : Host.Outcome State Fault Refusal :=
  raiseHardFault .breakpoint s

/-- R295. -/
def execNop (s : State) : Host.Outcome State Fault Refusal := advance 2 s

/-- R296. -/
def execYield (s : State) : Host.Outcome State Fault Refusal := advance 2 s

/-- R297. -/
def execWfe (s : State) : Host.Outcome State Fault Refusal :=
  if s.event then advance 2 { s with event := false } else advance 2 { s with sleep := .waitEvent }

/-- R298. -/
def execWfi (s : State) : Host.Outcome State Fault Refusal := advance 2 s.waitForInterrupt

/-- R299. -/
def execSev (s : State) : Host.Outcome State Fault Refusal := advance 2 { s with event := true }

/-- R300. -/
def execHintNop (_opA : BitVec 4) (s : State) : Host.Outcome State Fault Refusal := advance 2 s

end Sys2Proof.Machine
end

