-- ==== Sys2Proof/Machine/Multiple.lean ====
section
/-! DEFINITION. The multiple transfers: STM and LDM (`45_load_store_multiple.md` R310, R311), PUSH and POP
(`44_misc_16bit.md` R288, R293), and the part of one that an abandonment leaves done (R312). -/

namespace Sys2Proof.Machine

open Sys2Proof

/-! ## What is transferred -/

/-- Whether STM stores an UNKNOWN word for its base: listed, but not the lowest listed (R310, U10). -/
def stmBaseUnknown (rn : LowReg) (list : BitVec 8) : Bool :=
  list.getLsbD rn.val && (listRegs list).head? != some rn

/-- The words STM stores, lowest address first (R310). -/
def State.stmWords (s : State) (rn : LowReg) (list : BitVec 8) : List Word :=
  (listRegs list).map fun i =>
    if stmBaseUnknown rn list && i == rn then Config.freeWord s.free else s.low i

/-- The state STM stores from: the UNKNOWN word is drawn. -/
def State.stmDrawn (s : State) (rn : LowReg) (list : BitVec 8) : State :=
  if stmBaseUnknown rn list then { s with free := s.free + 1 } else s

/-- The words PUSH stores, lowest address first (R288). -/
def State.pushWords (s : State) (m : Bool) (list : BitVec 8) : List Word :=
  (listRegs list).map s.low ++ if m then [s.lr] else []

/-- How many words PUSH or POP transfers. -/
def stackCount (extra : Bool) (list : BitVec 8) : Nat := (listRegs list).length + extra.toNat

/-- The lowest address PUSH stores to (R288). -/
def State.pushBase (s : State) (m : Bool) (list : BitVec 8) : Word :=
  s.sp - BitVec.ofNat 32 (4 * stackCount m list)

/-- The address after `n` words. -/
def pastWords (a : Word) (n : Nat) : Word := a + BitVec.ofNat 32 (4 * n)

/-- The occasions for events between the accesses of a transfer of `n` words: after all but the last. -/
def gapsWithin (gaps : Gaps) (n : Nat) : Gaps := gaps.take (n - 1)

/-! ## The transfers, with events between their accesses (R312, R400) -/

/-- STM (R310). -/
def stmAmid (gaps : Gaps) (rn : LowReg) (list : BitVec 8) (s : State) :
    Host.Outcome State Fault Refusal :=
  if list = 0#8 then .refused .unpredictableEncoding
  else if (s.low rn).toNat % 4 ≠ 0 then raiseHardFault .unaligned s
  else if crossesTop (s.low rn) (listRegs list).length then .refused .transferWrap
  else
    ((storeWords s.privileged (gapsWithin gaps (listRegs list).length) (s.stmWords rn list) (s.low rn)
      (s.stmDrawn rn list)).andThen
      fun _ s1 => .ok () (s1.setLow rn (pastWords (s.low rn) (listRegs list).length))).finishAt 2

/-- The loaded registers of LDM, with the write-back when the base is not listed (R311). -/
def State.ldmLoaded (s : State) (rn : LowReg) (list : BitVec 8) (base : Word) (vs : List Word) :
    State :=
  if list.getLsbD rn.val then s.setLows ((listRegs list).zip vs)
  else (s.setLows ((listRegs list).zip vs)).setLow rn (pastWords base (listRegs list).length)

/-- LDM (R311); on a fault R312 item 3. -/
def ldmAmid (gaps : Gaps) (rn : LowReg) (list : BitVec 8) (s : State) :
    Host.Outcome State Fault Refusal :=
  if list = 0#8 then .refused .unpredictableEncoding
  else if (s.low rn).toNat % 4 ≠ 0 then raiseHardFault .unaligned s
  else if crossesTop (s.low rn) (listRegs list).length then .refused .transferWrap
  else
    match readWords s.privileged (gapsWithin gaps (listRegs list).length) (listRegs list).length
      (s.low rn) s with
    | (vs, .ok _ s1) => advance 2 (s1.ldmLoaded rn list (s.low rn) vs)
    | (vs, .hardFault c s1) =>
      raiseHardFault c (s1.setSomeLows (some rn) ((listRegs list).zip vs))
    | (_, .refuse r) => .refused r

/-- PUSH (R288): the stack pointer is written last. -/
def pushAmid (gaps : Gaps) (m : Bool) (list : BitVec 8) (s : State) : Host.Outcome State Fault Refusal :=
  if !m && list == 0#8 then .refused .unpredictableEncoding
  else if crossesTop (s.pushBase m list) (stackCount m list) then .refused .transferWrap
  else
    ((storeWords s.privileged (gapsWithin gaps (stackCount m list)) (s.pushWords m list)
      (s.pushBase m list) s).andThen
      fun _ s1 => .ok () (s1.setSp (s.pushBase m list))).finishAt 2

/-- POP (R293): the stack pointer is updated before the pc is written; on a fault R312 item 3. -/
def popAmid (gaps : Gaps) (p : Bool) (list : BitVec 8) (s : State) : Host.Outcome State Fault Refusal :=
  if !p && list == 0#8 then .refused .unpredictableEncoding
  else if crossesTop s.sp (stackCount p list) then .refused .transferWrap
  else
    match readWords s.privileged (gapsWithin gaps (stackCount p list)) (stackCount p list) s.sp s with
    | (vs, .ok _ s1) =>
      let s2 := (s1.setLows ((listRegs list).zip vs)).setSp (pastWords s.sp (stackCount p list))
      if p then bxWritePc (vs.getD (listRegs list).length 0#32) s2 else advance 2 s2
    | (vs, .hardFault c s1) => raiseHardFault c (s1.setSomeLows none ((listRegs list).zip vs))
    | (_, .refuse r) => .refused r

/-! ## The instructions -/

/-- R310. -/
def execStm (rn : LowReg) (list : BitVec 8) (s : State) : Host.Outcome State Fault Refusal :=
  stmAmid [] rn list s

/-- R311. -/
def execLdm (rn : LowReg) (list : BitVec 8) (s : State) : Host.Outcome State Fault Refusal :=
  ldmAmid [] rn list s

/-- R288. -/
def execPush (m : Bool) (list : BitVec 8) (s : State) : Host.Outcome State Fault Refusal :=
  pushAmid [] m list s

/-- R293. -/
def execPop (p : Bool) (list : BitVec 8) (s : State) : Host.Outcome State Fault Refusal :=
  popAmid [] p list s

/-! ## Abandonment (R312) -/

/-- The first accesses of a load multiple, as many as `gaps` is long, each register holding its old or its
loaded value (R312 item 2). -/
def abandonLoad (base : Option LowReg) (list : BitVec 8) (gaps : Gaps) (a : Word) (s : State) :
    Eff Unit :=
  match readWords s.privileged gaps gaps.length a s with
  | (vs, .ok _ s1) => .ok () (s1.setSomeLows base ((listRegs list).zip vs))
  | (vs, .hardFault c s1) => .hardFault c (s1.setSomeLows base ((listRegs list).zip vs))
  | (_, .refuse r) => .refuse r

/-- The first accesses of a store multiple, as many as `gaps` is long. -/
def abandonStore (gaps : Gaps) (ws : List Word) (a : Word) (s : State) : Eff Unit :=
  storeWords s.privileged gaps (ws.take gaps.length) a s

/-- What an abandonment leaves done after as many accesses as `gaps` is long, at most all but one: none
where the instruction cannot be abandoned (R312 items 1 and 2). -/
def abandoned (i : Instr) (gaps : Gaps) (s : State) : Option (Eff Unit) :=
  match i with
  | .muls _ _ => some (.ok () s)
  | .stm rn list =>
    if crossesTop (s.low rn) (listRegs list).length then none
    else
      some (abandonStore (gapsWithin gaps (listRegs list).length) (s.stmWords rn list) (s.low rn)
        (s.stmDrawn rn list))
  | .push m list =>
    if crossesTop (s.pushBase m list) (stackCount m list) then none
    else
      some (abandonStore (gapsWithin gaps (stackCount m list)) (s.pushWords m list)
        (s.pushBase m list) s)
  | .ldm rn list =>
    if crossesTop (s.low rn) (listRegs list).length then none
    else
      some (abandonLoad (some rn) list (gapsWithin gaps (listRegs list).length) (s.low rn) s)
  | .pop p list =>
    if crossesTop s.sp (stackCount p list) then none
    else some (abandonLoad none list (gapsWithin gaps (stackCount p list)) s.sp s)
  | _ => none

end Sys2Proof.Machine
end

