-- ==== Sys2Proof/Machine/ShiftAddMove.lean ====
section
/-! DEFINITION. The instructions of `40_shift_add_sub_move_compare.md`, one definition a rule. -/

namespace Sys2Proof.Machine

open Sys2Proof

/-- R200. -/
def execLslsImm (imm5 : BitVec 5) (rm rd : LowReg) (s : State) : Host.Outcome State Fault Refusal :=
  advance 2 (s.putShift rd (shiftC (s.low rm) .lsl imm5.toNat s.flags.c))

/-- R201. -/
def execLsrsImm (imm5 : BitVec 5) (rm rd : LowReg) (s : State) : Host.Outcome State Fault Refusal :=
  advance 2 (s.putShift rd (shiftC (s.low rm) .lsr (rightShiftAmount imm5) s.flags.c))

/-- R202. -/
def execAsrsImm (imm5 : BitVec 5) (rm rd : LowReg) (s : State) : Host.Outcome State Fault Refusal :=
  advance 2 (s.putShift rd (shiftC (s.low rm) .asr (rightShiftAmount imm5) s.flags.c))

/-- R203. -/
def execAddsReg (rm rn rd : LowReg) (s : State) : Host.Outcome State Fault Refusal :=
  advance 2 (s.putSum rd (addWithCarry (s.low rn) (s.low rm) false))

/-- R204. -/
def execSubsReg (rm rn rd : LowReg) (s : State) : Host.Outcome State Fault Refusal :=
  advance 2 (s.putSum rd (addWithCarry (s.low rn) (~~~(s.low rm)) true))

/-- R205. -/
def execAddsImm3 (imm3 : BitVec 3) (rn rd : LowReg) (s : State) :
    Host.Outcome State Fault Refusal :=
  advance 2 (s.putSum rd (addWithCarry (s.low rn) (zeroExt imm3) false))

/-- R206. -/
def execSubsImm3 (imm3 : BitVec 3) (rn rd : LowReg) (s : State) :
    Host.Outcome State Fault Refusal :=
  advance 2 (s.putSum rd (addWithCarry (s.low rn) (~~~(zeroExt imm3)) true))

/-- R207. -/
def execMovsImm (rd : LowReg) (imm8 : BitVec 8) (s : State) : Host.Outcome State Fault Refusal :=
  advance 2 (s.putLogic rd (zeroExt imm8))

/-- R208. -/
def execCmpImm (rn : LowReg) (imm8 : BitVec 8) (s : State) : Host.Outcome State Fault Refusal :=
  advance 2 (s.putCompare (addWithCarry (s.low rn) (~~~(zeroExt imm8)) true))

/-- R209. -/
def execAddsImm8 (rdn : LowReg) (imm8 : BitVec 8) (s : State) : Host.Outcome State Fault Refusal :=
  advance 2 (s.putSum rdn (addWithCarry (s.low rdn) (zeroExt imm8) false))

/-- R210. -/
def execSubsImm8 (rdn : LowReg) (imm8 : BitVec 8) (s : State) : Host.Outcome State Fault Refusal :=
  advance 2 (s.putSum rdn (addWithCarry (s.low rdn) (~~~(zeroExt imm8)) true))

/-- R211. -/
def execMovsReg (rm rd : LowReg) (s : State) : Host.Outcome State Fault Refusal :=
  advance 2 (s.putLogic rd (s.low rm))

end Sys2Proof.Machine
end

