-- ==== Sys2Proof/Machine/Special.lean ====
section
/-! DEFINITION. The instructions of `42_special_data_branch_exchange.md`, one definition a rule. -/

namespace Sys2Proof.Machine

open Sys2Proof

/-- A 4-bit register takes a result; register 15 is written as a branch, T unchanged (R240, R242). -/
def State.putHigh (s : State) (rd : RegNum) (v : Word) : Host.Outcome State Fault Refusal :=
  if rd = 15 then .next (s.branchTo v) else advance 2 (s.setReg rd v)

/-- R240. -/
def execAddHi (rdn rm : RegNum) (s : State) : Host.Outcome State Fault Refusal :=
  if rdn = 15 ∧ rm = 15 then .refused .unpredictableEncoding
  else s.putHigh rdn (s.reg rdn + s.reg rm)

/-- R241. -/
def execCmpHi (rn rm : RegNum) (s : State) : Host.Outcome State Fault Refusal :=
  if rn.val < 8 ∧ rm.val < 8 then .refused .unpredictableEncoding
  else if rn = 15 ∨ rm = 15 then .refused .unpredictableEncoding
  else advance 2 (s.putCompare (addWithCarry (s.reg rn) (~~~(s.reg rm)) true))

/-- R242. -/
def execMovHi (rd rm : RegNum) (s : State) : Host.Outcome State Fault Refusal :=
  s.putHigh rd (s.reg rm)

/-- R243. -/
def execBx (rm : RegNum) (sbz : BitVec 3) (s : State) : Host.Outcome State Fault Refusal :=
  if rm = 15 ∨ sbz ≠ 0#3 then .refused .unpredictableEncoding else bxWritePc (s.reg rm) s

/-- R244: the target is read before LR is written. -/
def execBlx (rm : RegNum) (sbz : BitVec 3) (s : State) : Host.Outcome State Fault Refusal :=
  if rm = 15 ∨ sbz ≠ 0#3 then .refused .unpredictableEncoding
  else .next ({ s with lr := withBit0 (s.pc + 2#32) }.exchangeTo (s.reg rm))

end Sys2Proof.Machine
end

