-- ==== Sys2Proof/Machine/System.lean ====
section
/-! DEFINITION. The instructions of `47_system_32bit.md`, one definition a rule. -/

namespace Sys2Proof.Machine

open Sys2Proof

/-- R330. -/
def execMsr (sbz4 : BitVec 1) (rn : RegNum) (sbz13 : BitVec 1) (sb1000 : BitVec 4)
    (sysm : BitVec 8) (s : State) : Host.Outcome State Fault Refusal :=
  if sbz4 ≠ 0#1 ∨ sbz13 ≠ 0#1 ∨ sb1000 ≠ 0b1000#4 then .refused .unpredictableEncoding
  else if rn = 13 ∨ rn = 15 then .refused .unpredictableEncoding
  else if specialDefined sysm then advance 4 (s.writeSpecial sysm (s.reg rn))
  else .refused .unpredictableEncoding

/-- R331. -/
def execMrs (sbz4 : BitVec 1) (sbo : BitVec 4) (sbz13 : BitVec 1) (rd : RegNum) (sysm : BitVec 8)
    (s : State) : Host.Outcome State Fault Refusal :=
  if sbz4 ≠ 0#1 ∨ sbo ≠ 0b1111#4 ∨ sbz13 ≠ 0#1 then .refused .unpredictableEncoding
  else if rd = 13 ∨ rd = 15 then .refused .unpredictableEncoding
  else if specialDefined sysm then advance 4 (s.setReg rd (s.readSpecial sysm))
  else .refused .unpredictableEncoding

/-- Whether a should-be bit of a barrier is wrong (R173, R178, U8). -/
def barrierWrong (sbo1 : BitVec 4) (sbz13 : BitVec 1) (sbo2 : BitVec 4) : Bool :=
  sbo1 != 0b1111#4 || sbz13 != 0#1 || sbo2 != 0b1111#4

/-- R332: every option acts as SY; no state changes (D19). -/
def execDsb (sbo1 : BitVec 4) (sbz13 : BitVec 1) (sbo2 _option : BitVec 4) (s : State) :
    Host.Outcome State Fault Refusal :=
  if barrierWrong sbo1 sbz13 sbo2 then .refused .unpredictableEncoding else advance 4 s

/-- R333: every option acts as SY; no state changes (D19). -/
def execDmb (sbo1 : BitVec 4) (sbz13 : BitVec 1) (sbo2 _option : BitVec 4) (s : State) :
    Host.Outcome State Fault Refusal :=
  if barrierWrong sbo1 sbz13 sbo2 then .refused .unpredictableEncoding else advance 4 s

/-- R334: the delay of a takeable exception ends and Dirty is emptied. -/
def execIsb (sbo1 : BitVec 4) (sbz13 : BitVec 1) (sbo2 _option : BitVec 4) (s : State) :
    Host.Outcome State Fault Refusal :=
  if barrierWrong sbo1 sbz13 sbo2 then .refused .unpredictableEncoding
  else advance 4 s.synchronise

/-- R335. -/
def execUdfW (_imm4 : BitVec 4) (_imm12 : BitVec 12) (s : State) :
    Host.Outcome State Fault Refusal :=
  raiseHardFault .undefinedInstruction s

end Sys2Proof.Machine
end

