-- ==== Sys2Proof/Machine/Dispatch.lean ====
section
/-! DEFINITION. The meaning of every instruction: one arm per constructor, one direct call per arm. -/

namespace Sys2Proof.Machine

open Sys2Proof

def exec (i : Instr) (s : State) : Host.Outcome State Fault Refusal :=
  match i with
  | .lslsImm imm5 rm rd => Sys2Proof.Machine.execLslsImm imm5 rm rd s
  | .lsrsImm imm5 rm rd => Sys2Proof.Machine.execLsrsImm imm5 rm rd s
  | .asrsImm imm5 rm rd => Sys2Proof.Machine.execAsrsImm imm5 rm rd s
  | .addsReg rm rn rd => Sys2Proof.Machine.execAddsReg rm rn rd s
  | .subsReg rm rn rd => Sys2Proof.Machine.execSubsReg rm rn rd s
  | .addsImm3 imm3 rn rd => Sys2Proof.Machine.execAddsImm3 imm3 rn rd s
  | .subsImm3 imm3 rn rd => Sys2Proof.Machine.execSubsImm3 imm3 rn rd s
  | .movsImm rd imm8 => Sys2Proof.Machine.execMovsImm rd imm8 s
  | .cmpImm rn imm8 => Sys2Proof.Machine.execCmpImm rn imm8 s
  | .addsImm8 rdn imm8 => Sys2Proof.Machine.execAddsImm8 rdn imm8 s
  | .subsImm8 rdn imm8 => Sys2Proof.Machine.execSubsImm8 rdn imm8 s
  | .movsReg rm rd => Sys2Proof.Machine.execMovsReg rm rd s
  | .ands rm rdn => Sys2Proof.Machine.execAnds rm rdn s
  | .eors rm rdn => Sys2Proof.Machine.execEors rm rdn s
  | .lslsReg rm rdn => Sys2Proof.Machine.execLslsReg rm rdn s
  | .lsrsReg rm rdn => Sys2Proof.Machine.execLsrsReg rm rdn s
  | .asrsReg rm rdn => Sys2Proof.Machine.execAsrsReg rm rdn s
  | .adcs rm rdn => Sys2Proof.Machine.execAdcs rm rdn s
  | .sbcs rm rdn => Sys2Proof.Machine.execSbcs rm rdn s
  | .rors rm rdn => Sys2Proof.Machine.execRors rm rdn s
  | .tst rm rn => Sys2Proof.Machine.execTst rm rn s
  | .rsbs rn rd => Sys2Proof.Machine.execRsbs rn rd s
  | .cmpReg rm rn => Sys2Proof.Machine.execCmpReg rm rn s
  | .cmn rm rn => Sys2Proof.Machine.execCmn rm rn s
  | .orrs rm rdn => Sys2Proof.Machine.execOrrs rm rdn s
  | .muls rn rdm => Sys2Proof.Machine.execMuls rn rdm s
  | .bics rm rdn => Sys2Proof.Machine.execBics rm rdn s
  | .mvns rm rd => Sys2Proof.Machine.execMvns rm rd s
  | .addHi rdn rm => Sys2Proof.Machine.execAddHi rdn rm s
  | .cmpHi rn rm => Sys2Proof.Machine.execCmpHi rn rm s
  | .movHi rd rm => Sys2Proof.Machine.execMovHi rd rm s
  | .bx rm sbz => Sys2Proof.Machine.execBx rm sbz s
  | .blx rm sbz => Sys2Proof.Machine.execBlx rm sbz s
  | .ldrLit rt imm8 => Sys2Proof.Machine.execLdrLit rt imm8 s
  | .strReg rm rn rt => Sys2Proof.Machine.execStrReg rm rn rt s
  | .strhReg rm rn rt => Sys2Proof.Machine.execStrhReg rm rn rt s
  | .strbReg rm rn rt => Sys2Proof.Machine.execStrbReg rm rn rt s
  | .ldrsbReg rm rn rt => Sys2Proof.Machine.execLdrsbReg rm rn rt s
  | .ldrReg rm rn rt => Sys2Proof.Machine.execLdrReg rm rn rt s
  | .ldrhReg rm rn rt => Sys2Proof.Machine.execLdrhReg rm rn rt s
  | .ldrbReg rm rn rt => Sys2Proof.Machine.execLdrbReg rm rn rt s
  | .ldrshReg rm rn rt => Sys2Proof.Machine.execLdrshReg rm rn rt s
  | .strImm imm5 rn rt => Sys2Proof.Machine.execStrImm imm5 rn rt s
  | .ldrImm imm5 rn rt => Sys2Proof.Machine.execLdrImm imm5 rn rt s
  | .strbImm imm5 rn rt => Sys2Proof.Machine.execStrbImm imm5 rn rt s
  | .ldrbImm imm5 rn rt => Sys2Proof.Machine.execLdrbImm imm5 rn rt s
  | .strhImm imm5 rn rt => Sys2Proof.Machine.execStrhImm imm5 rn rt s
  | .ldrhImm imm5 rn rt => Sys2Proof.Machine.execLdrhImm imm5 rn rt s
  | .strSp rt imm8 => Sys2Proof.Machine.execStrSp rt imm8 s
  | .ldrSp rt imm8 => Sys2Proof.Machine.execLdrSp rt imm8 s
  | .adr rd imm8 => Sys2Proof.Machine.execAdr rd imm8 s
  | .addSpImm rd imm8 => Sys2Proof.Machine.execAddSpImm rd imm8 s
  | .addSp imm7 => Sys2Proof.Machine.execAddSp imm7 s
  | .subSp imm7 => Sys2Proof.Machine.execSubSp imm7 s
  | .sxth rm rd => Sys2Proof.Machine.execSxth rm rd s
  | .sxtb rm rd => Sys2Proof.Machine.execSxtb rm rd s
  | .uxth rm rd => Sys2Proof.Machine.execUxth rm rd s
  | .uxtb rm rd => Sys2Proof.Machine.execUxtb rm rd s
  | .push m list => Sys2Proof.Machine.execPush m list s
  | .cps im sb => Sys2Proof.Machine.execCps im sb s
  | .rev rm rd => Sys2Proof.Machine.execRev rm rd s
  | .rev16 rm rd => Sys2Proof.Machine.execRev16 rm rd s
  | .revsh rm rd => Sys2Proof.Machine.execRevsh rm rd s
  | .pop p list => Sys2Proof.Machine.execPop p list s
  | .bkpt imm8 => Sys2Proof.Machine.execBkpt imm8 s
  | .nop => Sys2Proof.Machine.execNop s
  | .yield => Sys2Proof.Machine.execYield s
  | .wfe => Sys2Proof.Machine.execWfe s
  | .wfi => Sys2Proof.Machine.execWfi s
  | .sev => Sys2Proof.Machine.execSev s
  | .hintNop opA => Sys2Proof.Machine.execHintNop opA s
  | .stm rn list => Sys2Proof.Machine.execStm rn list s
  | .ldm rn list => Sys2Proof.Machine.execLdm rn list s
  | .bCond cond imm8 => Sys2Proof.Machine.execBCond cond imm8 s
  | .b imm11 => Sys2Proof.Machine.execB imm11 s
  | .udf imm8 => Sys2Proof.Machine.execUdf imm8 s
  | .svc imm8 => Sys2Proof.Machine.execSvc imm8 s
  | .bl sgn imm10 j1 j2 imm11 => Sys2Proof.Machine.execBl sgn imm10 j1 j2 imm11 s
  | .msr sbz4 rn sbz13 sb1000 sysm => Sys2Proof.Machine.execMsr sbz4 rn sbz13 sb1000 sysm s
  | .mrs sbz4 sbo sbz13 rd sysm => Sys2Proof.Machine.execMrs sbz4 sbo sbz13 rd sysm s
  | .dsb sbo1 sbz13 sbo2 option => Sys2Proof.Machine.execDsb sbo1 sbz13 sbo2 option s
  | .dmb sbo1 sbz13 sbo2 option => Sys2Proof.Machine.execDmb sbo1 sbz13 sbo2 option s
  | .isb sbo1 sbz13 sbo2 option => Sys2Proof.Machine.execIsb sbo1 sbz13 sbo2 option s
  | .udfW imm4 imm12 => Sys2Proof.Machine.execUdfW imm4 imm12 s

end Sys2Proof.Machine
end

