-- ==== Sys2Proof/Machine/Cycle.lean ====
section
/-! DEFINITION. Instruction fetch (`20_memory.md` R102), the instruction cycle (`10_state.md` R46), when
asynchronous exceptions are taken (`60_exceptions.md` R407, R428, R480, R481), the steps of the
environment and of SysTick (R400), and the placing of one instruction where the next step fetches. -/

namespace Sys2Proof.Machine

open Sys2Proof

/-! ## Fetch and decode -/

/-- The halfword at `a` as memory holds it now; fetch is little-endian (R93). -/
def State.newHalf (s : State) (a : Nat) : Half := halfOfBytes (s.mem.read a) (s.mem.read (a + 1))

/-- The halfword at `a` as it was at the last synchronisation (D24). -/
def State.oldHalf (s : State) (a : Nat) : Half :=
  halfOfBytes (oldByte s.dirty s.mem a) (oldByte s.dirty s.mem (a + 1))

/-- `InstrFetch(addr)` (R102). A fetch that touches Dirty returns the old or the new halfword, a free
choice (R126, D24; log entry 7); one that a device answers, what the platform supplies (D12; log entry
18). -/
def fetchHalf (a : Word) (s : State) : Eff Half :=
  if executeNever a then .hardFault .executeNever s
  else
    match s.cfg.target .fetch s.privileged .half a.toNat with
    | none => .hardFault .busError s
    | some .device => .ok ((s.deviceWord .half).setWidth 16) (s.deviceRead .fetch .half a)
    | some _ =>
      if touchesDirty s.dirty a.toNat then
        .ok (if Config.freeBit s.free then s.newHalf a.toNat else s.oldHalf a.toNat)
          { s with free := s.free + 1 }
      else .ok (s.newHalf a.toNat) s

/-- The state in which a fault on the fetch of a second halfword is raised: its return address is "the
address whose fetch faulted" (R102, R413). A first halfword of which every second makes an undefined
encoding raises the HardFault of that encoding, whether its second is fetched or not: its return address
is the first's (R176; log entry 10). -/
def State.atSecondHalf (s : State) (hw1 : Half) : State :=
  if hw1.extractLsb' 11 5 = 0b11110#5 then { s with pc := s.pc + 2#32 } else s

/-- The instruction at the pc (R46, R142): with T = 0 there is none (R53); the second halfword is
fetched only of a 32-bit instruction. -/
def fetchInstr (s : State) : Eff Decoded :=
  if !s.t then .hardFault .invalidState s
  else
    (fetchHalf s.pc s).andThen fun hw1 s1 =>
      if isWide hw1 then
        match fetchHalf (s1.pc + 2#32) s1 with
        | .ok hw2 s2 => .ok (decode hw1 hw2) s2
        | .hardFault c s2 => .hardFault c (s2.atSecondHalf hw1)
        | .refuse r => .refuse r
      else .ok (decode hw1 0#16) s1

/-- The instruction `i`, the events of `gaps` between the accesses of a multiple transfer (R312, R400). -/
def execAmid (gaps : Gaps) (i : Instr) (s : State) : Host.Outcome State Fault Refusal :=
  match i with
  | .stm rn list => stmAmid gaps rn list s
  | .ldm rn list => ldmAmid gaps rn list s
  | .push m list => pushAmid gaps m list s
  | .pop p list => popAmid gaps p list s
  | _ => exec i s

/-- One instruction (R46). An encoding that is UNPREDICTABLE reaches its own meaning, which refuses it
(R178); an undefined one raises HardFault (R175, R176). -/
def runInstruction (s : State) : Host.Outcome State Fault Refusal :=
  match fetchInstr s with
  | .hardFault c s1 => raiseHardFault c s1
  | .refuse r => .refused r
  | .ok (.instr i) s1 => exec i s1
  | .ok (.unpredictable i) s1 => exec i s1
  | .ok .undefined16 s1 => raiseHardFault .undefinedInstruction s1
  | .ok .undefined32 s1 => raiseHardFault .undefinedInstruction s1
  | .ok .truncated s1 => raiseHardFault .undefinedInstruction s1

/-! ## The core's step -/

/-- A step at an instruction boundary that defers nothing (R46): a takeable exception is entered, else the
instruction at the pc runs. -/
def boundaryStep (s : State) : Host.Outcome State Fault Refusal :=
  match s.best with
  | some e => exceptionEntry e s.pc s
  | none => runInstruction s

/-- The instruction at the pc is started, exceptions deferred, and runs to its end, the events of `gaps`
between its accesses (R312 item 5). -/
def amidStep (gaps : Gaps) (s : State) : Host.Outcome State Fault Refusal :=
  match fetchInstr s with
  | .ok (.instr i) s1 => execAmid gaps i s1
  | _ => runInstruction s

/-- The instruction at the pc is cut off after as many accesses as `gaps` is long (R312): an exception that
is then takeable, by the accesses themselves or the events of `gaps` if not before, is entered with the
instruction's own address as return address; a reset that acts in the middle of this step is taken
(R500); with neither the instruction completes, with the same events. One that cannot be cut off is not
started where an exception is takeable. -/
def abandonStep (gaps : Gaps) (s : State) : Host.Outcome State Fault Refusal :=
  match fetchInstr s with
  | .ok (.instr i) s1 =>
    match abandoned i gaps s1 with
    | none => boundaryStep s
    | some (.ok _ s2) =>
      match s2.best with
      | some e => exceptionEntry e s2.pc s2
      | none => if s2.resetIn.isSome then takeReset s2 else execAmid gaps i s1
    | some (.hardFault c s2) => raiseHardFault c s2
    | some (.refuse r) => .refused r
  | _ => boundaryStep s

/-- A step in Lockup (R428, D17): NMI leaves it when it happened at priority -1. -/
def lockupStep (c : Choice) (s : State) : Host.Outcome State Fault Refusal :=
  if s.requested .nmi && s.executionPriority == -1 then
    if c = .delay then .next s else exceptionEntry .nmi 0xFFFFFFFE#32 s
  else if s.resetRequest then .next s
  else .fault .lockup

/-- Whether a sleeping core must wake (R480, R481). -/
def State.mustWake (s : State) : Bool :=
  match s.sleep with
  | .awake => true
  | .waitInterrupt => s.wakesWfi
  | .waitEvent => s.wakesWfe

/-- A step asleep (R480, R481, D15): a takeable exception is entered; otherwise the core wakes when it
must, and may at any time. -/
def sleepStep (c : Choice) (s : State) : Host.Outcome State Fault Refusal :=
  match s.best with
  | some e => exceptionEntry e s.pc s
  | none => if s.mustWake || c != .delay then .next { s with sleep := .awake } else .next s

/-- `CoreStep()` (R46). A requested reset does not enter into it: "the core keeps executing until then"
(D18), and the reset comes as an input or when none is left (`machineStep`; log entry 8). -/
def coreStep (c : Choice) (s : State) : Host.Outcome State Fault Refusal :=
  if s.lockup then lockupStep c s
  else if s.sleep != .awake then sleepStep c s
  else if s.mustTake && s.best.isSome then boundaryStep s
  else
    match c with
    | .run => boundaryStep s
    | .delay => runInstruction s
    | .amid gaps => amidStep gaps s
    | .abandon gaps => abandonStep gaps s

/-! ## The step of the machine -/

/-- Reset in the middle of the core step that choice `c` makes (R500, R99): an exception entry that the
step comes to is cut off with the frame words of `frame` stored, an instruction that `abandon` cuts off
keeps the accesses it has made; any other step has completed or done nothing. -/
def resetMidway (c : Choice) (frame : BitVec 8) (s : State) : Host.Outcome State Fault Refusal :=
  match coreStep c { s with resetIn := some frame } with
  | .next t => if t.resetIn.isSome then takeReset t else .next t
  | .fault _ => takeReset s
  | .refused r => .refused r

/-- What one element of `State.inputs` does (R400). -/
def actOn (i : Input) (s : State) : Host.Outcome State Fault Refusal :=
  match i with
  | .core c => coreStep c s
  | .outside e => .next (s.afterEvent e)
  | .reset => takeReset s
  | .resetDuring c frame => resetMidway c frame s

/-- One step: the next input; when none is left, the reset that software has requested (D18: "after a
finite delay"), else a step of the core. -/
def machineStep (s : State) : Host.Outcome State Fault Refusal :=
  match s.inputs with
  | [] => if s.resetRequest then takeReset s else coreStep .run s
  | i :: rest => actOn i { s with inputs := rest }

/-! ## Placing one instruction -/

/-- Bytes placed at an address from outside, the address arithmetic modulo 2^32. -/
def placeBytes : List Byte → Word → Memory → Memory
  | [], _, m => m
  | b :: bs, a, m => placeBytes bs (a + 1#32) (m.write a.toNat b)

/-- An instruction placed at the pc, and all that its fetch by the next step needs: T set, the core awake
and not in Lockup, no input and no request before it, a takeable exception delayed, nothing in Dirty
(log entry 20). -/
def placeInstruction (s : State) (nbits w : Nat) : State :=
  { s with
    mem := placeBytes (tableBytes nbits w) s.pc s.mem
    t := true
    lockup := false
    sleep := .awake
    resetRequest := false
    inputs := if s.best.isSome then [.core .delay] else []
    resetIn := none
    mustTake := false
    dirty := [] }

end Sys2Proof.Machine
end

