-- ==== Sys2Proof/Machine/Step.lean ====
section
/-! DEFINITION. The step of the machine and the host's placing of one instruction. -/

namespace Sys2Proof.Machine

open Sys2Proof

/-- One step of the machine (`machineStep`). -/
def step (s : State) : Host.Outcome State Fault Refusal := machineStep s

/-- The state whose next step runs the instruction with the given bits (`placeInstruction`). -/
def State.withFetchWord (s : State) (nbits w : Nat) : State := placeInstruction s nbits w

end Sys2Proof.Machine
end

