-- ==== Sys2Proof/Safety.lean ====
section
/-! DEFINITION. The terms the claims use: flags of exact sums and differences, accesses that reach memory, a
state whose next step runs an instruction, what an exception entry leaves, the invariant of the machine. -/

namespace Sys2Proof.Machine

open Sys2Proof

/-! ## Exact arithmetic (R236) -/

/-- A carry as a word. -/
def carryWord (c : Bool) : Word := if c then 1#32 else 0#32

/-- Whether an exact signed result is no 32-bit signed value. -/
def outOfRange (v : Int) : Bool := decide (v < -2 ^ 31 ∨ 2 ^ 31 ≤ v)

/-- N, Z, C, V of `x + y + c`: C is an exact unsigned sum of 2^32 or more, V an exact signed sum out of
range (R236 item 3). -/
def sumFlags (x y : Word) (c : Bool) : Flags where
  n := (x + y + carryWord c).msb
  z := x + y + carryWord c == 0#32
  c := decide (2 ^ 32 ≤ x.toNat + y.toNat + c.toNat)
  v := outOfRange (x.toInt + y.toInt + (c.toNat : Int))

/-- N, Z, C, V of `x - y - b`: C is no borrow, V an exact signed difference out of range (R236 item 3). -/
def differenceFlags (x y : Word) (b : Bool) : Flags where
  n := (x - y - carryWord b).msb
  z := x - y - carryWord b == 0#32
  c := decide (y.toNat + b.toNat ≤ x.toNat)
  v := outOfRange (x.toInt - y.toInt - (b.toNat : Int))

/-- N and Z of a result, C and V as before. -/
def resultFlags (f : Flags) (v : Word) : Flags := { f with n := v.msb, z := v == 0#32 }

/-- N and Z of a result, C given, V as before. -/
def shiftFlags (f : Flags) (v : Word) (c : Bool) : Flags := { f with n := v.msb, z := v == 0#32, c := c }

/-! ## Accesses -/

/-- The pc does not pass 0xFFFFFFFF in `len` bytes (R40). -/
abbrev State.roomFor (s : State) (len : Nat) : Prop := s.pc.toNat + len < 2 ^ 32

/-- A read of width `w` at `a` reaches memory. -/
abbrev State.readable (s : State) (priv : Bool) (w : Width) (a : Word) : Prop :=
  a.toNat % w.bytes = 0 ∧ inPpb a = false ∧
    (s.cfg.target .read priv w a.toNat = some .ram ∨ s.cfg.target .read priv w a.toNat = some .rom)

/-- A write of width `w` at `a` reaches RAM. -/
abbrev State.writable (s : State) (priv : Bool) (w : Width) (a : Word) : Prop :=
  a.toNat % w.bytes = 0 ∧ inPpb a = false ∧ s.cfg.target .write priv w a.toNat = some .ram

/-- An access of width `w` at `a` is aligned and answered with a bus error: an unprivileged access to the
PPB (R113), or nothing mapped (R114). -/
abbrev State.busErrorAt (s : State) (acc : Access) (w : Width) (a : Word) : Prop :=
  a.toNat % w.bytes = 0 ∧
    ((inPpb a = true ∧ s.privileged = false) ∨
      (inPpb a = false ∧ s.cfg.target acc s.privileged w a.toNat = none))

/-- The address of word `k` from `a`. -/
abbrev wordAt (a : Word) (k : Nat) : Word := a + BitVec.ofNat 32 (4 * k)

/-- `n` words from `a` can be read from memory, without a crossing of the top (R104). -/
abbrev State.readableWords (s : State) (priv : Bool) (a : Word) (n : Nat) : Prop :=
  a.toNat + 4 * n ≤ 2 ^ 32 ∧ ∀ k < n, s.readable priv .word (wordAt a k)

/-- `n` words from `a` can be written to RAM, without a crossing of the top (R104). -/
abbrev State.writableWords (s : State) (priv : Bool) (a : Word) (n : Nat) : Prop :=
  a.toNat + 4 * n ≤ 2 ^ 32 ∧ ∀ k < n, s.writable priv .word (wordAt a k)

/-- The `n` words of memory from `a`, in the data byte order. -/
def State.wordsAt (s : State) (a : Word) (n : Nat) : List Word :=
  (List.range n).map fun k => s.mem.value s.cfg.bigEndian .word (a.toNat + 4 * k)

/-- Memory `m'` is `m` with the words `vs` stored from `a`, byte for byte. -/
def wordsStored (big : Bool) (m m' : Memory) (a : Word) (vs : List Word) : Prop :=
  ∀ x, m'.read x =
    if a.toNat ≤ x ∧ x < a.toNat + 4 * vs.length then
      byteOf big .word (vs.getD ((x - a.toNat) / 4) 0#32) ((x - a.toNat) % 4)
    else m.read x

/-- `t` is `s` but for memory and the set Dirty. -/
abbrev onlyMemory (s t : State) : Prop := t = { s with mem := t.mem, dirty := t.dirty }

/-- `n` bytes from `a` have been stored to between `s` and `t`: they are in the set Dirty, with what was
there before, and every address keeps the byte it held at the last synchronisation (D24). -/
def storesNoted (s t : State) (a n : Nat) : Prop :=
  ∀ x, (t.dirty.any fun cell => cell.1 == x) =
      ((s.dirty.any fun cell => cell.1 == x) || decide (a ≤ x ∧ x < a + n)) ∧
    oldByte t.dirty t.mem x = oldByte s.dirty s.mem x

/-- The bytes an access of width `w` moves, zero-extended. -/
def lowBytes (w : Width) (v : Word) : Word := BitVec.ofNat 32 (v.toNat % 2 ^ (8 * w.bytes))

/-- An access of width `w` at `a` reaches a device of the platform (D12). -/
abbrev State.deviceAt (s : State) (priv : Bool) (acc : Access) (w : Width) (a : Word) : Prop :=
  a.toNat % w.bytes = 0 ∧ inPpb a = false ∧ s.cfg.target acc priv w a.toNat = some .device

/-- The state after a device has given the words `vs` to reads from `a` up, as far as the device sees it:
the platform's values taken, one access noted for each (R103). -/
def State.afterDevice (s : State) (a : Word) (vs : List Word) : State :=
  { s with
    deviceIn := s.deviceIn.drop vs.length
    deviceLog := s.deviceLog ++
      (List.range vs.length).map fun k => ⟨.read, .word, wordAt a k, vs.getD k 0#32⟩
    free := s.free + (vs.length - s.deviceIn.length) }

/-! ## Loads and stores of one register -/

/-- A load or store of one register as a claim sees it: the instruction, the width, the address its
addressing mode gives (R267), and what a load does to the value read. -/
structure AccessForm where
  instr : Instr
  width : Width
  address : Word
  extend : Word → Word := id

/-- The stores of one register (R251, R252, R253, R259, R261, R263, R265 of `43_load_store_single.md`). -/
def State.storeForms (s : State) (rm rn rt : LowReg) (imm5 : BitVec 5) (imm8 : BitVec 8) :
    List AccessForm :=
  [ ⟨.strReg rm rn rt, .word, s.low rn + s.low rm, id⟩,
    ⟨.strhReg rm rn rt, .half, s.low rn + s.low rm, id⟩,
    ⟨.strbReg rm rn rt, .byte, s.low rn + s.low rm, id⟩,
    ⟨.strImm imm5 rn rt, .word, s.low rn + BitVec.ofNat 32 (4 * imm5.toNat), id⟩,
    ⟨.strhImm imm5 rn rt, .half, s.low rn + BitVec.ofNat 32 (2 * imm5.toNat), id⟩,
    ⟨.strbImm imm5 rn rt, .byte, s.low rn + BitVec.ofNat 32 imm5.toNat, id⟩,
    ⟨.strSp rt imm8, .word, s.sp + BitVec.ofNat 32 (4 * imm8.toNat), id⟩ ]

/-- The loads of one register (the other rules of `43_load_store_single.md`); the base of a literal load
is pc + 4 with bits 1 and 0 cleared. -/
def State.loadForms (s : State) (rm rn rt : LowReg) (imm5 : BitVec 5) (imm8 : BitVec 8) :
    List AccessForm :=
  [ ⟨.ldrReg rm rn rt, .word, s.low rn + s.low rm, id⟩,
    ⟨.ldrhReg rm rn rt, .half, s.low rn + s.low rm, id⟩,
    ⟨.ldrbReg rm rn rt, .byte, s.low rn + s.low rm, id⟩,
    ⟨.ldrshReg rm rn rt, .half, s.low rn + s.low rm, fun v => (v.setWidth 16).signExtend 32⟩,
    ⟨.ldrsbReg rm rn rt, .byte, s.low rn + s.low rm, fun v => (v.setWidth 8).signExtend 32⟩,
    ⟨.ldrImm imm5 rn rt, .word, s.low rn + BitVec.ofNat 32 (4 * imm5.toNat), id⟩,
    ⟨.ldrhImm imm5 rn rt, .half, s.low rn + BitVec.ofNat 32 (2 * imm5.toNat), id⟩,
    ⟨.ldrbImm imm5 rn rt, .byte, s.low rn + BitVec.ofNat 32 imm5.toNat, id⟩,
    ⟨.ldrSp rt imm8, .word, s.sp + BitVec.ofNat 32 (4 * imm8.toNat), id⟩,
    ⟨.ldrLit rt imm8, .word,
      ((s.pc + 4#32) &&& 0xFFFFFFFC#32) + BitVec.ofNat 32 (4 * imm8.toNat), id⟩ ]

/-! ## Steps that run an instruction -/

/-- The next input is a step of the core. -/
def startsWithCore : List Input → Bool
  | [] => true
  | .core _ :: _ => true
  | _ => false

/-- The next step is a step of the core, not in Lockup: the next input says so, or none is left and no
reset is requested. -/
abbrev State.coreTurn (s : State) : Prop :=
  s.lockup = false ∧ startsWithCore s.inputs = true ∧ (s.inputs = [] → s.resetRequest = false)

/-- The next step is a step of the core, awake. -/
abbrev State.coreNext (s : State) : Prop := s.coreTurn ∧ s.sleep = .awake

/-- The state after the first input is taken. -/
abbrev State.afterInput (s : State) : State := { s with inputs := s.inputs.tail }

/-- The next core step defers nothing: it is `run`, by an input or for want of one. -/
def runsNext : List Input → Bool
  | [] => true
  | .core .run :: _ => true
  | _ => false

/-- The next step runs the instruction at the pc: no exception is takeable and the step does not abandon,
or the step defers what is takeable. -/
abbrev State.readyToRun (s : State) : Prop :=
  s.coreNext ∧ ((s.best = none ∧ runsNext s.inputs = true) ∨
    (s.inputs.head? = some (.core .delay) ∧ (s.mustTake = true → s.best = none)))

/-- The events that the next step may have in the middle of an instruction (R400, R312). -/
def State.nextGaps (s : State) : Gaps :=
  match s.inputs with
  | .core (.amid gaps) :: _ => gaps
  | .core (.abandon gaps) :: _ => gaps
  | _ => []

/-- The halfword at `a` can be fetched, and no store since the last synchronisation touches it (R102,
R126). -/
abbrev State.fetchable (s : State) (a : Word) : Prop :=
  executeNever a = false ∧
    (s.cfg.target .fetch s.privileged .half a.toNat = some .ram ∨
      s.cfg.target .fetch s.privileged .half a.toNat = some .rom) ∧
    touchesDirty s.dirty a.toNat = false

/-- The halfwords at the pc are fetchable and are `hw1` and, of a 32-bit instruction, `hw2`. -/
abbrev State.fetches (s : State) (hw1 hw2 : Half) : Prop :=
  s.t = true ∧ s.fetchable s.pc ∧ s.newHalf s.pc.toNat = hw1 ∧
    (isWide hw1 = true →
      s.fetchable (s.pc + 2#32) ∧ s.newHalf (s.pc + 2#32).toNat = hw2)

/-! ## Exception entry -/

/-- The entry of `e` completes: its frame can be stored and its vector read (R427), and no reset acts in
the middle of it. -/
abbrev State.entryReady (s : State) (e : Exc) : Prop :=
  s.resetIn = none ∧ s.writableWords s.privileged s.framePtr 8 ∧
    s.readable true .word (s.vectorBase + BitVec.ofNat 32 (4 * e.number))

/-- `t` is what the entry of `e` with return address `ret` leaves of `s` (R410 to R412): the frame stored,
LR, the stack pointer in use, the pc and T from the vector, IPSR, SPSEL, Active, Pending and the event
register as the rules say; R4 to R11 and everything else unchanged; R0 to R3, R12 and the flags
UNKNOWN. -/
def EnteredFrom (s t : State) (e : Exc) (ret : Word) : Prop :=
  wordsStored s.cfg.bigEndian s.mem t.mem s.framePtr
      [s.r[0], s.r[1], s.r[2], s.r[3], s.r[12], s.lr, ret, s.xpsr (s.sp.getLsbD 2)] ∧
    (∀ i : Fin 13, 4 ≤ i.val → i.val ≤ 11 → t.r[i.val] = s.r[i.val]) ∧
    t.pc = alignHalf (t.mem.value s.cfg.bigEndian .word
      (s.vectorBase + BitVec.ofNat 32 (4 * e.number)).toNat) ∧
    t.t = (t.mem.value s.cfg.bigEndian .word
      (s.vectorBase + BitVec.ofNat 32 (4 * e.number)).toNat).getLsbD 0 ∧
    t = { s with
      r := t.r
      flags := t.flags
      free := t.free
      pc := t.pc
      t := t.t
      mem := t.mem
      dirty := []
      mustTake := t.best.isSome
      lr := if s.ipsr ≠ 0#6 then 0xFFFFFFF1#32 else if s.spsel then 0xFFFFFFFD#32 else 0xFFFFFFF9#32
      spMain := if s.spsel = true ∧ s.ipsr = 0#6 then s.spMain else s.framePtr
      spProcess := if s.spsel = true ∧ s.ipsr = 0#6 then s.framePtr else s.spProcess
      ipsr := BitVec.ofNat 6 e.number
      spsel := false
      active := s.active.set e true
      pending := s.pending.set e false
      event := true
      lockup := false
      sleep := .awake }

/-! ## Exception return -/

/-- The frame of a return to `dest` can be loaded, with the privilege R415 gives the loads. -/
abbrev State.frameReadable (s : State) (dest : ReturnTo) : Prop :=
  s.readableWords (dest == .handler || !s.npriv) (if dest = .threadProcess then s.spProcess else s.spMain) 8

/-- Word `k` of the frame of a return to `dest` (R416). -/
def State.frameWord (s : State) (dest : ReturnTo) (k : Nat) : Word :=
  s.mem.value s.cfg.bigEndian .word
    ((if dest = .threadProcess then s.spProcess else s.spMain).toNat + 4 * k)

/-- The stack pointer past the frame and its padding (R416). -/
def State.afterFrame (s : State) (dest : ReturnTo) : Word :=
  ((if dest = .threadProcess then s.spProcess else s.spMain) + 0x20#32) |||
    (if (s.frameWord dest 7).getLsbD 9 then 4#32 else 0#32)

/-- `t` is what the return from `r` to `dest` leaves of `s` (R415, R416, R440 item 2, R482): the frame
loaded, its stack pointer past it, SPSEL, Active and the event register as the rules say, high lines
pended again, Sleeping with sleep-on-exit; everything else unchanged. -/
def ReturnedFrom (s t : State) (dest : ReturnTo) (r : Exc) : Prop :=
  t = { s with
    r := ((((s.r.set 0 (s.frameWord dest 0)).set 1 (s.frameWord dest 1)).set 2
      (s.frameWord dest 2)).set 3 (s.frameWord dest 3)).set 12 (s.frameWord dest 4)
    lr := s.frameWord dest 5
    pc := s.frameWord dest 6
    flags := ⟨(s.frameWord dest 7).getLsbD 31, (s.frameWord dest 7).getLsbD 30,
      (s.frameWord dest 7).getLsbD 29, (s.frameWord dest 7).getLsbD 28⟩
    t := (s.frameWord dest 7).getLsbD 24
    ipsr := (s.frameWord dest 7).extractLsb' 0 6
    spMain := if dest = .threadProcess then s.spMain else s.afterFrame dest
    spProcess := if dest = .threadProcess then s.afterFrame dest else s.spProcess
    spsel := if dest = .handler then s.spsel else dest == .threadProcess
    active := s.active.set r false
    pending := { s.pending with
      nmi := s.pending.nmi || (s.nmiLine && !(s.active.set r false).nmi)
      irq := s.pending.irq ||| (s.irqLine &&& s.irqMask &&& ~~~(s.active.set r false).irq) }
    event := true
    dirty := []
    mustTake := t.best.isSome
    sleep :=
      if dest ≠ .handler ∧ s.scr.sleepOnExit = true ∧
          ∀ e ∈ Exc.all, State.takeable { t with primask := false } e = false
      then .waitInterrupt else s.sleep }

/-! ## Reset -/

/-- The vector table's first two words can be read at a reset (R501, R504). -/
abbrev State.resetReady (s : State) : Prop :=
  s.readable true .word 0#32 ∧ s.readable true .word 4#32

/-- `t` is what a reset leaves of `s` (R65, R501), with the given SP_main, pc, T and Lockup: privileged
Thread mode on the main stack, nothing pending but what a high line pends (log entry 22), nothing active
or enabled, every priority 0, memory, the lines and what the environment does next as before; the
registers R501 calls UNKNOWN are left open. -/
def ResetTo (s t : State) (sp pc : Word) (thumb lockup : Bool) : Prop :=
  t.spProcess &&& 3#32 = 0#32 ∧
    t = { s with
      r := t.r
      lr := t.lr
      flags := t.flags
      spProcess := t.spProcess
      free := t.free
      spMain := sp
      pc := pc
      t := thumb
      ipsr := 0#6
      primask := false
      npriv := false
      spsel := false
      pending := { ExcBits.none with nmi := s.nmiLine, irq := s.irqLine &&& s.irqMask }
      active := ExcBits.none
      enabled := 0#32
      pri := ⟨0#2, 0#2, 0#2, Vector.replicate 32 0#2⟩
      event := false
      lockup := lockup
      sleep := .awake
      scr := ⟨false, false, false⟩
      vtor := 0#25
      resetRequest := false
      resetIn := none
      mustTake := false
      syst := ⟨false, s.cfg.systCalib.msb, false, false, t.syst.reload, t.syst.current⟩ }

/-- `t` is what a reset with a readable vector table leaves of `s`: SP_main, pc and T from the words at 0
and 4 (R501). -/
def ResetFrom (s t : State) : Prop :=
  ResetTo s t (s.mem.value s.cfg.bigEndian .word 0 &&& 0xFFFFFFFC#32)
    (s.mem.value s.cfg.bigEndian .word 4 &&& 0xFFFFFFFE#32)
    ((s.mem.value s.cfg.bigEndian .word 4).getLsbD 0) false

/-! ## The invariant -/

/-- The line of an interrupt that is high while the interrupt is not active has made it pending (R440
item 2, R425). -/
abbrev State.linesPending (s : State) : Prop :=
  (s.nmiLine = true → s.active.nmi = false → s.pending.nmi = true) ∧
    s.irqLine &&& s.irqMask &&& ~~~s.active.irq &&& ~~~s.pending.irq = 0#32

/-- IPSR holds 0 or the number of an exception that exists: never 1 (R500), never a reserved number
(R402). -/
abbrev State.numberExists (s : State) : Prop := s.ipsr = 0#6 ∨ (excOfNumber s.ipsr).any s.hasExc = true

/-- No exception that does not exist is pending or active (R401, R470, D1). -/
abbrev State.onlyExisting (s : State) : Prop :=
  ∀ e ∈ Exc.all, s.hasExc e = false → s.pending.get e = false ∧ s.active.get e = false

/-- The invariant: memory is in canonical form, both stack pointers are multiples of 4 (R32), the pc is
even (R38), SPSEL is set in Thread mode only (R37), Thread mode is the mode in which no exception is
active (R52, R417), IPSR, Pending and Active name exceptions that exist (R401, R402, R500), a high line
has pended its interrupt (R440), no reset is in the middle of a step. -/
abbrev State.Inv (s : State) : Prop :=
  s.mem.wf = true ∧
    s.spMain.extractLsb' 0 2 = 0#2 ∧
    s.spProcess.extractLsb' 0 2 = 0#2 ∧
    s.pc.getLsbD 0 = false ∧
    (s.spsel = true → s.ipsr = 0#6) ∧
    (s.ipsr = 0#6 ↔ s.active = ExcBits.none) ∧
    s.numberExists ∧
    s.onlyExisting ∧
    s.linesPending ∧
    s.resetIn = none

/-! ## Priorities (R403) -/

/-- `best` is the exception of least priority value that `p` holds of, of equals the one of least number;
none where `p` holds of none (R406). -/
def IsHighest (s : State) (p : Exc → Prop) (best : Option Exc) : Prop :=
  (best = none ↔ ∀ e, ¬p e) ∧
    ∀ b, best = some b → p b ∧
      ∀ e, p e → s.prio b < s.prio e ∨ (s.prio b = s.prio e ∧ b.number ≤ e.number)

/-! ## Privilege -/

/-- Nothing that only privileged code may change differs between `s` and `t` (R431). -/
abbrev sameSystem (s t : State) : Prop :=
  t.primask = s.primask ∧ t.npriv = s.npriv ∧ t.spsel = s.spsel ∧ t.ipsr = s.ipsr ∧
    t.pending = s.pending ∧ t.active = s.active ∧ t.enabled = s.enabled ∧ t.pri = s.pri ∧
    t.scr = s.scr ∧ t.vtor = s.vtor ∧ t.resetRequest = s.resetRequest ∧ t.syst = s.syst ∧
    (if s.spsel then t.spMain = s.spMain else t.spProcess = s.spProcess)

end Sys2Proof.Machine
end

