-- ==== Sys2Proof/Certificates/Slice0/Obligations.lean ====
section
/-! DEFINITION. The statements for the provers, file by file of the spec's numbered rules. -/

open Sys2Proof Sys2Proof.Machine

/-! ## Encoding (30_encoding.md) -/

/-- Decoding the halfwords `encode` gives of a well-formed instruction gives the instruction back, every
operand at every value its encoding admits. -/
def Obligations.DecodeOfEncode : Prop :=
  ∀ i : Instr, i.wellFormed = true → decodeHalves (encode i) = .instr i

/-- Whatever halfwords decode to an instruction, UNPREDICTABLE encodings included, `encode` gives back:
no bit of an encoding is dropped. -/
def Obligations.EncodeOfDecode : Prop :=
  ∀ (hw1 hw2 : Half) (i : Instr), decodeRow hw1 hw2 = some i →
    encode i = if isWide hw1 then [hw1, hw2] else [hw1]

/-- Words written out from the encodings of spec/ decode to the instructions they stand for. -/
def Obligations.SpecWordsDecode : Prop :=
  decode 0x0048#16 0#16 = .instr (.lslsImm 1#5 1 0) ∧
    decode 0x1888#16 0#16 = .instr (.addsReg 2 1 0) ∧
    decode 0x4348#16 0#16 = .instr (.muls 1 0) ∧
    decode 0x44F8#16 0#16 = .instr (.addHi 8 15) ∧
    decode 0x5088#16 0#16 = .instr (.strReg 2 1 0) ∧
    decode 0xB510#16 0#16 = .instr (.push true 0x10#8) ∧
    decode 0xC006#16 0#16 = .instr (.stm 0 0x06#8) ∧
    decode 0xD1FE#16 0#16 = .instr (.bCond .ne 0xFE#8) ∧
    decode 0xF7FF#16 0xFFFE#16 = .instr (.bl 1#1 0x3FF#10 1#1 1#1 0x7FE#11) ∧
    decode 0xF380#16 0x8809#16 = .instr (.msr 0#1 0 0#1 8#4 9#8) ∧
    decode 0xF3BF#16 0x8F6F#16 = .instr (.isb 15#4 0#1 15#4 15#4)

/-- R175: the undefined halfwords are exactly those of its list (but UDF, a named instruction). -/
def Obligations.UndefinedHalfwords : Prop :=
  ∀ hw1 hw2 : Half, decode hw1 hw2 = .undefined16 ↔
    (hw1.extractLsb' 8 8 = 0xB1#8 ∨ hw1.extractLsb' 8 8 = 0xB3#8 ∨
      hw1.extractLsb' 8 8 = 0xB9#8 ∨ hw1.extractLsb' 8 8 = 0xBB#8 ∨
      (hw1.extractLsb' 8 8 = 0xB6#8 ∧ hw1.extractLsb' 5 3 ≠ 0b011#3) ∨
      hw1.extractLsb' 8 8 = 0xB7#8 ∨ hw1.extractLsb' 8 8 = 0xB8#8 ∨
      hw1.extractLsb' 6 10 = 0b1011101010#10 ∨
      (hw1.extractLsb' 8 8 = 0xBF#8 ∧ hw1.extractLsb' 0 4 ≠ 0#4))

/-- R142: an instruction is 32 bits long exactly when hw1[15:11] is 11101, 11110 or 11111, its second
halfword at pc + 2; the bytes of each halfword lie low byte first. -/
def Obligations.InstructionLength : Prop :=
  ∀ (hw1 hw2 : Half) (rest : List Byte),
    decodeBytes (hw1.extractLsb' 0 8 :: hw1.extractLsb' 8 8 ::
        hw2.extractLsb' 0 8 :: hw2.extractLsb' 8 8 :: rest) =
      if hw1.extractLsb' 11 5 = 0b11101#5 ∨ hw1.extractLsb' 11 5 = 0b11110#5 ∨
          hw1.extractLsb' 11 5 = 0b11111#5
      then (decode hw1 hw2, rest)
      else (decode hw1 0#16, hw2.extractLsb' 0 8 :: hw2.extractLsb' 8 8 :: rest)

/-- R178: every UNPREDICTABLE encoding of its list is refused, in every state. -/
def Obligations.UnpredictableEncodingsRefused : Prop :=
  ∀ s : State,
    (∀ (rm : RegNum) (z : BitVec 3), rm = 15 ∨ z ≠ 0#3 →
      exec (.bx rm z) s = .refused .unpredictableEncoding ∧
        exec (.blx rm z) s = .refused .unpredictableEncoding) ∧
    (∀ (im : Bool) (sb : BitVec 4), sb ≠ 0b0010#4 →
      exec (.cps im sb) s = .refused .unpredictableEncoding) ∧
    (∀ rn rm : RegNum, (rn.val < 8 ∧ rm.val < 8) ∨ rn = 15 ∨ rm = 15 →
      exec (.cmpHi rn rm) s = .refused .unpredictableEncoding) ∧
    exec (.addHi 15 15) s = .refused .unpredictableEncoding ∧
    exec (.push false 0#8) s = .refused .unpredictableEncoding ∧
    exec (.pop false 0#8) s = .refused .unpredictableEncoding ∧
    (∀ rn : LowReg, exec (.ldm rn 0#8) s = .refused .unpredictableEncoding ∧
      exec (.stm rn 0#8) s = .refused .unpredictableEncoding) ∧
    (∀ (z4 : BitVec 1) (rn : RegNum) (z13 : BitVec 1) (sb : BitVec 4) (sysm : BitVec 8),
      z4 ≠ 0#1 ∨ z13 ≠ 0#1 ∨ sb ≠ 0b1000#4 ∨ rn = 13 ∨ rn = 15 ∨
          sysm.toNat ∉ [0, 1, 2, 3, 5, 6, 7, 8, 9, 16, 20] →
        exec (.msr z4 rn z13 sb sysm) s = .refused .unpredictableEncoding) ∧
    (∀ (z4 : BitVec 1) (o : BitVec 4) (z13 : BitVec 1) (rd : RegNum) (sysm : BitVec 8),
      z4 ≠ 0#1 ∨ o ≠ 0b1111#4 ∨ z13 ≠ 0#1 ∨ rd = 13 ∨ rd = 15 ∨
          sysm.toNat ∉ [0, 1, 2, 3, 5, 6, 7, 8, 9, 16, 20] →
        exec (.mrs z4 o z13 rd sysm) s = .refused .unpredictableEncoding) ∧
    (∀ (o1 : BitVec 4) (z13 : BitVec 1) (o2 option : BitVec 4),
      o1 ≠ 0b1111#4 ∨ z13 ≠ 0#1 ∨ o2 ≠ 0b1111#4 →
        exec (.dsb o1 z13 o2 option) s = .refused .unpredictableEncoding ∧
          exec (.dmb o1 z13 o2 option) s = .refused .unpredictableEncoding ∧
          exec (.isb o1 z13 o2 option) s = .refused .unpredictableEncoding)

/-! ## The instruction cycle (10_state.md R46) -/

/-- A step runs the decoded instruction: where the halfwords at the pc decode to `i`, well formed or
UNPREDICTABLE, and nothing is taken before it, `step` is `exec i` after the input is taken (the schedule
of inputs is the model's: log entry 8). -/
def Obligations.StepRunsDecodedInstruction : Prop :=
  ∀ (s : State) (hw1 hw2 : Half) (i : Instr),
    s.readyToRun → s.fetches hw1 hw2 →
      decode hw1 hw2 = .instr i ∨ decode hw1 hw2 = .unpredictable i →
      step s = exec i s.afterInput

/-- Where no instruction can be run at the pc, HardFault is raised there, as UDF raises it: T is 0 (R53),
the fetch is from an Execute-Never region (R112) or an address with nothing mapped (R114), the halfwords
are undefined (R175, R176). Where the fetch of the second halfword faults, it is raised at the address
whose fetch faulted, pc + 2 (R102, R413), but at the pc where the first halfword is 11101 or 11111 in
bits 15 to 11, undefined with any second (R176; the model's reading: log entry 10). -/
def Obligations.StepRaisesHardFault : Prop :=
  ∀ s : State, s.readyToRun →
    (s.t = false → step s = exec (.udf 0#8) s.afterInput) ∧
    (s.t = true → executeNever s.pc = true → step s = exec (.udf 0#8) s.afterInput) ∧
    (s.t = true → executeNever s.pc = false →
      s.cfg.target .fetch s.privileged .half s.pc.toNat = none →
        step s = exec (.udf 0#8) s.afterInput) ∧
    (s.t = true → s.fetchable s.pc → (s.newHalf s.pc.toNat).extractLsb' 11 5 = 0b11110#5 →
      executeNever (s.pc + 2#32) = true ∨
          s.cfg.target .fetch s.privileged .half (s.pc + 2#32).toNat = none →
        step s = exec (.udf 0#8) { s.afterInput with pc := s.pc + 2#32 }) ∧
    (s.t = true → s.fetchable s.pc → (s.newHalf s.pc.toNat).extractLsb' 11 5 = 0b11101#5 ∨
        (s.newHalf s.pc.toNat).extractLsb' 11 5 = 0b11111#5 →
      executeNever (s.pc + 2#32) = true ∨
          s.cfg.target .fetch s.privileged .half (s.pc + 2#32).toNat = none →
        step s = exec (.udf 0#8) s.afterInput) ∧
    (∀ hw1 hw2 : Half, s.fetches hw1 hw2 →
      decode hw1 hw2 = .undefined16 ∨ decode hw1 hw2 = .undefined32 →
        step s = exec (.udf 0#8) s.afterInput)

/-- R126, D24: after a store and before the next synchronisation, a fetch of a halfword the store wrote to
gives the new halfword or the old one, and which of them is a free choice (of the outcomes D24 leaves
open the model admits both: log entry 7); a fetch of any other halfword gives that halfword; after the
synchronisation a fetch gives the new one. -/
def Obligations.FetchAfterStore : Prop :=
  ∀ (s t : State) (w : Width) (x : Nat) (v : Word) (a : Word),
    s.dirty = [] → s.fetchable a → t = s.storeAt w x v →
      (a.toNat < x + w.bytes → x < a.toNat + 2 →
        fetchHalf a t =
          .ok (if Config.freeBit s.free then t.newHalf a.toNat else s.newHalf a.toNat)
            { t with free := s.free + 1 }) ∧
      (x + w.bytes ≤ a.toNat ∨ a.toNat + 2 ≤ x → fetchHalf a t = .ok (s.newHalf a.toNat) t) ∧
      fetchHalf a t.synchronise = .ok (t.newHalf a.toNat) t.synchronise

/-! ## Registers (10_state.md) -/

/-- R34, R35: what a read of each register gives and what a write leaves; register 13 is the stack pointer
in use and keeps a multiple of 4; a write to register 15 is a branch, by MOV and by ADD. -/
def Obligations.RegisterAccess : Prop :=
  ∀ (s : State) (v : Word),
    (∀ (i : RegNum) (h : i.val < 13),
      s.reg i = s.r[i.val] ∧ s.setReg i v = { s with r := s.r.set i.val v }) ∧
    (s.spsel = true ∧ s.ipsr = 0#6 →
      s.reg 13 = s.spProcess ∧ s.setReg 13 v = { s with spProcess := v.extractLsb' 2 30 ++ 0#2 }) ∧
    (¬(s.spsel = true ∧ s.ipsr = 0#6) →
      s.reg 13 = s.spMain ∧ s.setReg 13 v = { s with spMain := v.extractLsb' 2 30 ++ 0#2 }) ∧
    s.reg 14 = s.lr ∧ s.setReg 14 v = { s with lr := v } ∧ s.reg 15 = s.pc + 4#32 ∧
    (∀ rm : RegNum, exec (.movHi 15 rm) s = .next (s.branchTo (s.reg rm)) ∧
      (rm ≠ 15 → exec (.addHi 15 rm) s = .next (s.branchTo (s.reg 15 + s.reg rm))))

/-- R13: the fourteen conditions by their numbers and when each holds; 1110 and 1111 are no conditions, and
in the place of the conditional branch select UDF and SVC. -/
def Obligations.ConditionTable : Prop :=
  (∀ f : Flags, ∀ p ∈ [(0b0000#4, f.z = true), (0b0001#4, f.z = false), (0b0010#4, f.c = true),
      (0b0011#4, f.c = false), (0b0100#4, f.n = true), (0b0101#4, f.n = false),
      (0b0110#4, f.v = true), (0b0111#4, f.v = false), (0b1000#4, f.c = true ∧ f.z = false),
      (0b1001#4, f.c = false ∨ f.z = true), (0b1010#4, f.n = f.v), (0b1011#4, f.n ≠ f.v),
      (0b1100#4, f.z = false ∧ f.n = f.v), (0b1101#4, f.z = true ∨ f.n ≠ f.v)],
    ∃ c : Cond, condOfBits p.1 = some c ∧ (conditionPassed c f = true ↔ p.2) ∧
      ∀ (imm8 : BitVec 8) (hw2 : Half),
        decode (0b1101#4 ++ p.1 ++ imm8) hw2 = .instr (.bCond c imm8)) ∧
    condOfBits 0b1110#4 = none ∧ condOfBits 0b1111#4 = none ∧
    ∀ (imm8 : BitVec 8) (hw2 : Half),
      decode (0b11011110#8 ++ imm8) hw2 = .instr (.udf imm8) ∧
        decode (0b11011111#8 ++ imm8) hw2 = .instr (.svc imm8)

/-! ## Shift, add, subtract, move, compare; data processing (40, 41) -/

/-- ADDS (three forms), ADCS and CMN: the sum, the flags of the exact sum, nothing else. -/
def Obligations.SumInstructions : Prop :=
  ∀ (s : State) (rm rn rd : LowReg) (imm3 : BitVec 3) (imm8 : BitVec 8), s.roomFor 2 →
    exec (.addsReg rm rn rd) s = .next { s with
      r := s.r.set rd.val (s.low rn + s.low rm)
      flags := sumFlags (s.low rn) (s.low rm) false
      pc := s.pc + 2#32 } ∧
    exec (.addsImm3 imm3 rn rd) s = .next { s with
      r := s.r.set rd.val (s.low rn + imm3.setWidth 32)
      flags := sumFlags (s.low rn) (imm3.setWidth 32) false
      pc := s.pc + 2#32 } ∧
    exec (.addsImm8 rd imm8) s = .next { s with
      r := s.r.set rd.val (s.low rd + imm8.setWidth 32)
      flags := sumFlags (s.low rd) (imm8.setWidth 32) false
      pc := s.pc + 2#32 } ∧
    exec (.adcs rm rd) s = .next { s with
      r := s.r.set rd.val (s.low rd + s.low rm + carryWord s.flags.c)
      flags := sumFlags (s.low rd) (s.low rm) s.flags.c
      pc := s.pc + 2#32 } ∧
    exec (.cmn rm rn) s = .next { s with
      flags := sumFlags (s.low rn) (s.low rm) false
      pc := s.pc + 2#32 }

/-- SUBS (three forms), RSBS, SBCS and CMP (three forms): the difference, the flags of the exact
difference with C meaning no borrow, nothing else. -/
def Obligations.DifferenceInstructions : Prop :=
  ∀ (s : State) (rm rn rd : LowReg) (imm3 : BitVec 3) (imm8 : BitVec 8) (hn hm : RegNum),
    s.roomFor 2 →
    exec (.subsReg rm rn rd) s = .next { s with
      r := s.r.set rd.val (s.low rn - s.low rm)
      flags := differenceFlags (s.low rn) (s.low rm) false
      pc := s.pc + 2#32 } ∧
    exec (.subsImm3 imm3 rn rd) s = .next { s with
      r := s.r.set rd.val (s.low rn - imm3.setWidth 32)
      flags := differenceFlags (s.low rn) (imm3.setWidth 32) false
      pc := s.pc + 2#32 } ∧
    exec (.subsImm8 rd imm8) s = .next { s with
      r := s.r.set rd.val (s.low rd - imm8.setWidth 32)
      flags := differenceFlags (s.low rd) (imm8.setWidth 32) false
      pc := s.pc + 2#32 } ∧
    exec (.rsbs rn rd) s = .next { s with
      r := s.r.set rd.val (-(s.low rn))
      flags := differenceFlags 0#32 (s.low rn) false
      pc := s.pc + 2#32 } ∧
    exec (.sbcs rm rd) s = .next { s with
      r := s.r.set rd.val (s.low rd - s.low rm - carryWord (!s.flags.c))
      flags := differenceFlags (s.low rd) (s.low rm) (!s.flags.c)
      pc := s.pc + 2#32 } ∧
    exec (.cmpImm rn imm8) s = .next { s with
      flags := differenceFlags (s.low rn) (imm8.setWidth 32) false
      pc := s.pc + 2#32 } ∧
    exec (.cmpReg rm rn) s = .next { s with
      flags := differenceFlags (s.low rn) (s.low rm) false
      pc := s.pc + 2#32 } ∧
    (8 ≤ hn.val ∨ 8 ≤ hm.val → hn ≠ 15 → hm ≠ 15 →
      exec (.cmpHi hn hm) s = .next { s with
        flags := differenceFlags (s.reg hn) (s.reg hm) false
        pc := s.pc + 2#32 })

/-- R230: after CMP of two low registers the conditions say how the registers compare, unsigned and
signed. -/
def Obligations.CompareThenCondition : Prop :=
  ∀ (s t : State) (rm rn : LowReg), exec (.cmpReg rm rn) s = .next t →
    (conditionPassed .eq t.flags = true ↔ s.low rn = s.low rm) ∧
    (conditionPassed .cs t.flags = true ↔ (s.low rm).toNat ≤ (s.low rn).toNat) ∧
    (conditionPassed .hi t.flags = true ↔ (s.low rm).toNat < (s.low rn).toNat) ∧
    (conditionPassed .ge t.flags = true ↔ (s.low rm).toInt ≤ (s.low rn).toInt) ∧
    (conditionPassed .gt t.flags = true ↔ (s.low rm).toInt < (s.low rn).toInt)

/-- ANDS, EORS, ORRS, BICS, MVNS, MOVS (two forms), MULS and TST: the result, N and Z, C and V as before,
nothing else. -/
def Obligations.LogicInstructions : Prop :=
  ∀ (s : State) (rm rd : LowReg) (imm8 : BitVec 8), s.roomFor 2 →
    (∀ p ∈ [(Instr.ands rm rd, s.low rd &&& s.low rm), (.eors rm rd, s.low rd ^^^ s.low rm),
        (.orrs rm rd, s.low rd ||| s.low rm), (.bics rm rd, s.low rd &&& ~~~s.low rm),
        (.mvns rm rd, ~~~s.low rm), (.movsReg rm rd, s.low rm),
        (.movsImm rd imm8, imm8.setWidth 32), (.muls rm rd, s.low rm * s.low rd)],
      exec p.1 s = .next { s with
        r := s.r.set rd.val p.2
        flags := resultFlags s.flags p.2
        pc := s.pc + 2#32 }) ∧
    exec (.tst rm rd) s = .next { s with
      flags := resultFlags s.flags (s.low rd &&& s.low rm)
      pc := s.pc + 2#32 }

/-- LSLS, LSRS and ASRS by an immediate (0 encodes 32 for the right shifts): the shifted value, C the last
bit shifted out, V as before, nothing else. -/
def Obligations.ImmediateShifts : Prop :=
  ∀ (s : State) (rm rd : LowReg) (imm5 : BitVec 5), s.roomFor 2 →
    (imm5 ≠ 0#5 →
      exec (.lslsImm imm5 rm rd) s = .next { s with
        r := s.r.set rd.val (s.low rm <<< imm5.toNat)
        flags := shiftFlags s.flags (s.low rm <<< imm5.toNat) ((s.low rm).getLsbD (32 - imm5.toNat))
        pc := s.pc + 2#32 }) ∧
    (∀ n : Nat, n = (if imm5 = 0#5 then 32 else imm5.toNat) →
      exec (.lsrsImm imm5 rm rd) s = .next { s with
        r := s.r.set rd.val (s.low rm >>> n)
        flags := shiftFlags s.flags (s.low rm >>> n) ((s.low rm).getLsbD (n - 1))
        pc := s.pc + 2#32 } ∧
      exec (.asrsImm imm5 rm rd) s = .next { s with
        r := s.r.set rd.val ((s.low rm).sshiftRight n)
        flags := shiftFlags s.flags ((s.low rm).sshiftRight n) ((s.low rm).getLsbD (n - 1))
        pc := s.pc + 2#32 })

/-- LSLS, LSRS, ASRS and RORS by the bottom byte of a register, 0 to 255: the shifted value, C unchanged
for 0 and else as the rules say, V as before, nothing else. -/
def Obligations.RegisterShifts : Prop :=
  ∀ (s : State) (rm rd : LowReg) (n : Nat), s.roomFor 2 → n = (s.low rm).toNat % 256 →
    exec (.lslsReg rm rd) s = .next { s with
      r := s.r.set rd.val (s.low rd <<< n)
      flags := shiftFlags s.flags (s.low rd <<< n)
        (if n = 0 then s.flags.c else if n ≤ 32 then (s.low rd).getLsbD (32 - n) else false)
      pc := s.pc + 2#32 } ∧
    exec (.lsrsReg rm rd) s = .next { s with
      r := s.r.set rd.val (s.low rd >>> n)
      flags := shiftFlags s.flags (s.low rd >>> n)
        (if n = 0 then s.flags.c else if n ≤ 32 then (s.low rd).getLsbD (n - 1) else false)
      pc := s.pc + 2#32 } ∧
    exec (.asrsReg rm rd) s = .next { s with
      r := s.r.set rd.val ((s.low rd).sshiftRight n)
      flags := shiftFlags s.flags ((s.low rd).sshiftRight n)
        (if n = 0 then s.flags.c else if n ≤ 32 then (s.low rd).getLsbD (n - 1) else (s.low rd).msb)
      pc := s.pc + 2#32 } ∧
    exec (.rors rm rd) s = .next { s with
      r := s.r.set rd.val ((s.low rd).rotateRight n)
      flags := shiftFlags s.flags ((s.low rd).rotateRight n)
        (if n = 0 then s.flags.c else ((s.low rd).rotateRight n).msb)
      pc := s.pc + 2#32 }

/-! ## Special data, branches (42, 46) -/

/-- ADD and MOV of 4-bit registers: a register other than 15 takes the value, no flag changes; register 15
is a branch with bit 0 dropped and T unchanged. -/
def Obligations.HighRegisterInstructions : Prop :=
  ∀ (s : State) (rd rm : RegNum),
    (rd ≠ 15 → s.roomFor 2 →
      exec (.movHi rd rm) s = .next { s.setReg rd (s.reg rm) with pc := s.pc + 2#32 } ∧
      exec (.addHi rd rm) s = .next { s.setReg rd (s.reg rd + s.reg rm) with pc := s.pc + 2#32 }) ∧
    exec (.movHi 15 rm) s = .next { s with pc := s.reg rm &&& 0xFFFFFFFE#32 } ∧
    (rm ≠ 15 →
      exec (.addHi 15 rm) s =
        .next { s with pc := (s.pc + 4#32 + s.reg rm) &&& 0xFFFFFFFE#32 })

/-- B and B<c>: the target is pc + 4 plus twice the signed immediate; a condition that fails only advances
the pc; no flag changes. BL: for every offset, twice a signed 24-bit number `d` (S = d[23], I1 = d[22],
I2 = d[21], so J1 = NOT(I1) EOR S and J2 = NOT(I2) EOR S), it goes to pc + 4 plus the offset, with LR
the next instruction's address, bit 0 set. -/
def Obligations.Branches : Prop :=
  ∀ (s : State) (cond : Cond) (imm8 : BitVec 8) (imm11 : BitVec 11) (d : BitVec 24),
    exec (.b imm11) s =
      .next { s with pc := (s.pc + 4#32 + imm11.signExtend 32 * 2#32) &&& 0xFFFFFFFE#32 } ∧
    (conditionPassed cond s.flags = true →
      exec (.bCond cond imm8) s =
        .next { s with pc := (s.pc + 4#32 + imm8.signExtend 32 * 2#32) &&& 0xFFFFFFFE#32 }) ∧
    (conditionPassed cond s.flags = false → s.roomFor 2 →
      exec (.bCond cond imm8) s = .next { s with pc := s.pc + 2#32 }) ∧
    exec (.bl (d.extractLsb' 23 1) (d.extractLsb' 11 10)
        (~~~(d.extractLsb' 22 1) ^^^ d.extractLsb' 23 1)
        (~~~(d.extractLsb' 21 1) ^^^ d.extractLsb' 23 1) (d.extractLsb' 0 11)) s =
      .next { s with
        lr := (s.pc + 4#32) ||| 1#32
        pc := (s.pc + 4#32 + d.signExtend 32 * 2#32) &&& 0xFFFFFFFE#32 }

/-- BX outside Handler mode or with a value whose top four bits are not all ones, and BLX always: bit 0 of
the target becomes T, the rest the pc; BLX leaves the next address with bit 0 set in LR, the target
being read first. -/
def Obligations.BranchExchange : Prop :=
  ∀ (s : State) (rm : RegNum), rm ≠ 15 →
    (s.ipsr = 0#6 ∨ (s.reg rm).extractLsb' 28 4 ≠ 0xF#4 →
      exec (.bx rm 0#3) s = .next { s with
        pc := s.reg rm &&& 0xFFFFFFFE#32
        t := (s.reg rm).getLsbD 0 }) ∧
    exec (.blx rm 0#3) s = .next { s with
      lr := (s.pc + 2#32) ||| 1#32
      pc := s.reg rm &&& 0xFFFFFFFE#32
      t := (s.reg rm).getLsbD 0 }

/-! ## Loads and stores of one register (43) -/

/-- Every load of one register: an aligned access that reaches memory gives the register the value at the
address the addressing mode gives, zero- or sign-extended; nothing else changes. -/
def Obligations.LoadInstructions : Prop :=
  ∀ (s : State) (rm rn rt : LowReg) (imm5 : BitVec 5) (imm8 : BitVec 8), s.roomFor 2 →
    ∀ f ∈ s.loadForms rm rn rt imm5 imm8, s.readable s.privileged f.width f.address →
      exec f.instr s = .next { s with
        r := s.r.set rt.val (f.extend (s.mem.value s.cfg.bigEndian f.width f.address.toNat))
        pc := s.pc + 2#32 }

/-- Every store of one register: an aligned access that reaches RAM stores the register's low bytes at the
address the addressing mode gives, and no other byte of memory, no register and no flag changes, and the
stored bytes enter Dirty with what they held (D24); one that the map answers as read-only memory is
ignored (D12; the form of the memory map is the model's: log entry 3). -/
def Obligations.StoreInstructions : Prop :=
  ∀ (s : State) (rm rn rt : LowReg) (imm5 : BitVec 5) (imm8 : BitVec 8), s.roomFor 2 →
    ∀ f ∈ s.storeForms rm rn rt imm5 imm8,
      (s.writable s.privileged f.width f.address →
        ∃ t, exec f.instr s = .next t ∧ onlyMemory { s with pc := s.pc + 2#32 } t ∧
          storesNoted s t f.address.toNat f.width.bytes ∧
          ∀ x, t.mem.read x =
            if f.address.toNat ≤ x ∧ x < f.address.toNat + f.width.bytes then
              byteOf s.cfg.bigEndian f.width (s.low rt) (x - f.address.toNat)
            else s.mem.read x) ∧
      (f.address.toNat % f.width.bytes = 0 → inPpb f.address = false →
        s.cfg.target .write s.privileged f.width f.address.toNat = some .rom →
          exec f.instr s = .next { s with pc := s.pc + 2#32 })

/-- R96, R113, R114: a misaligned word or halfword access, an access answered with a bus error
(unprivileged accesses to the PPB among them), and LDM or STM from a base that is no multiple of 4 raise
HardFault with no register and no memory changed, as UDF raises it. -/
def Obligations.FaultingAccesses : Prop :=
  ∀ (s : State) (rm rn rt : LowReg) (imm5 : BitVec 5) (imm8 list : BitVec 8),
    (∀ f ∈ s.storeForms rm rn rt imm5 imm8,
      f.address.toNat % f.width.bytes ≠ 0 ∨ s.busErrorAt .write f.width f.address →
        exec f.instr s = exec (.udf 0#8) s) ∧
    (∀ f ∈ s.loadForms rm rn rt imm5 imm8,
      f.address.toNat % f.width.bytes ≠ 0 ∨ s.busErrorAt .read f.width f.address →
        exec f.instr s = exec (.udf 0#8) s) ∧
    ((s.low rn).toNat % 4 ≠ 0 → list ≠ 0#8 →
      exec (.ldm rn list) s = exec (.udf 0#8) s ∧ exec (.stm rn list) s = exec (.udf 0#8) s)

/-- Where loads and stores are refused: a privileged byte or halfword access to the System Control Space
(R461), a privileged access to an address of the PPB that holds no register (R111, R460, U9; which
addresses those are is in part the model's reading: log entry 12), and a multiple transfer whose
addresses cross from 0xFFFFFFFC to 0 (R104). -/
def Obligations.AccessStops : Prop :=
  ∀ (s : State) (rm rn rt : LowReg) (imm5 : BitVec 5) (imm8 list : BitVec 8) (x : Bool) (n : Nat),
    (∀ f ∈ s.storeForms rm rn rt imm5 imm8, f.address.toNat % f.width.bytes = 0 →
      (s.privileged = true → inScs f.address = true → f.width ≠ .word →
        exec f.instr s = .refused .scsWidth) ∧
      (s.privileged = true → inPpb f.address = true → inScs f.address = false ∨ f.width = .word →
        sysRegAt f.address = none → exec f.instr s = .refused .reservedPpb)) ∧
    (∀ f ∈ s.loadForms rm rn rt imm5 imm8, f.address.toNat % f.width.bytes = 0 →
      (s.privileged = true → inScs f.address = true → f.width ≠ .word →
        exec f.instr s = .refused .scsWidth) ∧
      (s.privileged = true → inPpb f.address = true → inScs f.address = false ∨ f.width = .word →
        sysRegAt f.address = none → exec f.instr s = .refused .reservedPpb)) ∧
    (n = ((List.finRange 8).filter fun i => list.getLsbD i.val).length →
      (list ≠ 0#8 → (s.low rn).toNat % 4 = 0 → 2 ^ 32 < (s.low rn).toNat + 4 * n →
        exec (.ldm rn list) s = .refused .transferWrap ∧
          exec (.stm rn list) s = .refused .transferWrap) ∧
      (x = true ∨ list ≠ 0#8 →
        (2 ^ 32 < s.sp.toNat + 4 * (n + x.toNat) →
          exec (.pop x list) s = .refused .transferWrap) ∧
        (s.sp ≠ 0#32 → s.sp.toNat < 4 * (n + x.toNat) →
          exec (.push x list) s = .refused .transferWrap)))

/-- R103, R120 item 2, D12: an aligned load that a device answers completes with the value the platform
supplies, a store to a device completes; each makes one access, at the instruction's size, noted after
those before it, and changes nothing else. STM, LDM, PUSH and POP whose words a device answers make one
word access for each register, in the order of the addresses; a pc that POP loads so is used as one
loaded from memory (R45). (That the platform's values stand in the list `deviceIn`, a
value not in it is free, and the accesses are noted in `deviceLog`, is the model's form: log entry 18.) -/
def Obligations.DeviceAccesses : Prop :=
  ∀ (s : State) (rm rn rt : LowReg) (imm5 : BitVec 5) (imm8 : BitVec 8) (m : Bool)
    (list : BitVec 8) (regs : List LowReg) (ws vs : List Word) (base : Word) (n : Nat), s.roomFor 2 →
    regs = (List.finRange 8).filter (fun i => list.getLsbD i.val) →
    vs = (List.range n).map (fun k =>
      s.deviceIn.getD k (Config.freeWord (s.free + (k - s.deviceIn.length)))) →
    (∀ f ∈ s.loadForms rm rn rt imm5 imm8, s.deviceAt s.privileged .read f.width f.address →
      ∃ v, exec f.instr s = .next { s with
          r := s.r.set rt.val (f.extend (lowBytes f.width v))
          deviceIn := s.deviceIn.tail
          deviceLog := s.deviceLog ++ [⟨.read, f.width, f.address, lowBytes f.width v⟩]
          free := if s.deviceIn = [] then s.free + 1 else s.free
          pc := s.pc + 2#32 } ∧
        (∀ x rest, s.deviceIn = x :: rest → v = x) ∧
        (s.deviceIn = [] → v = Config.freeWord s.free)) ∧
    (∀ f ∈ s.storeForms rm rn rt imm5 imm8, s.deviceAt s.privileged .write f.width f.address →
      exec f.instr s = .next { s with
        deviceLog := s.deviceLog ++ [⟨.write, f.width, f.address, lowBytes f.width (s.low rt)⟩]
        pc := s.pc + 2#32 }) ∧
    (m = true ∨ list ≠ 0#8 → ws = regs.map s.low ++ (if m then [s.lr] else []) →
      base = s.sp - BitVec.ofNat 32 (4 * ws.length) → base.toNat + 4 * ws.length ≤ 2 ^ 32 →
      (∀ k < ws.length, s.deviceAt s.privileged .write .word (wordAt base k)) →
        exec (.push m list) s = .next { s.setReg 13 base with
          deviceLog := s.deviceLog ++
            (List.range ws.length).map fun k => ⟨.write, .word, wordAt base k, ws.getD k 0#32⟩
          pc := s.pc + 2#32 }) ∧
    (list ≠ 0#8 → base = s.low rn → base.toNat + 4 * regs.length ≤ 2 ^ 32 →
      (list.getLsbD rn.val = true → regs.head? = some rn) →
      (∀ k < regs.length, s.deviceAt s.privileged .write .word (wordAt base k)) →
        exec (.stm rn list) s = .next { s with
          r := s.r.set rn.val (wordAt base regs.length)
          deviceLog := s.deviceLog ++
            (List.range regs.length).map fun k =>
              ⟨.write, .word, wordAt base k, (regs.map s.low).getD k 0#32⟩
          pc := s.pc + 2#32 }) ∧
    (list ≠ 0#8 → base = s.low rn → n = regs.length → base.toNat + 4 * n ≤ 2 ^ 32 →
      (∀ k < n, s.deviceAt s.privileged .read .word (wordAt base k)) →
        ∃ t : State,
          exec (.ldm rn list) s = .next { s.afterDevice base vs with r := t.r, pc := s.pc + 2#32 } ∧
          (∀ k (h : k < regs.length), t.low regs[k] = vs.getD k 0#32) ∧
          (rn ∉ regs → t.low rn = wordAt base n) ∧
          ∀ i : Fin 13, i.val ≠ rn.val → (∀ r ∈ regs, r.val ≠ i.val) → t.r[i.val] = s.r[i.val]) ∧
    (m = true ∨ list ≠ 0#8 → n = regs.length + m.toNat → s.sp.toNat + 4 * n ≤ 2 ^ 32 →
      (∀ k < n, s.deviceAt s.privileged .read .word (wordAt s.sp k)) →
        ∃ (u : State) (last : Word), last = vs.getD regs.length 0#32 ∧
          u = { (s.afterDevice s.sp vs).setReg 13 (wordAt s.sp n) with r := u.r } ∧
          (∀ k (h : k < regs.length), u.low regs[k] = vs.getD k 0#32) ∧
          (∀ i : Fin 13, (∀ r ∈ regs, r.val ≠ i.val) → u.r[i.val] = s.r[i.val]) ∧
          (m = false → exec (.pop m list) s = .next { u with pc := s.pc + 2#32 }) ∧
          (m = true → s.ipsr = 0#6 ∨ last.extractLsb' 28 4 ≠ 0xF#4 →
            exec (.pop m list) s =
              .next { u with pc := last &&& 0xFFFFFFFE#32, t := last.getLsbD 0 }) ∧
          (m = true → s.ipsr ≠ 0#6 → last.extractLsb' 28 4 = 0xF#4 →
            exec (.pop m list) s = exceptionReturn last u))

/-- R95: a word stored at A and read back as bytes gives byte k of the value at A + k little-endian and at
A + 3 - k big-endian, a halfword likewise with 1 in place of 3; a wider access is exactly its byte
accesses, of a store and of a load, so that a value read back is the value. -/
def Obligations.MixedWidthAccess : Prop :=
  ∀ (m : Memory) (a : Nat) (v : Word) (b : Nat → Byte), (∀ k, b k = v.extractLsb' (8 * k) 8) →
    (∀ k < 4, (m.store false .word a v).read (a + k) = b k ∧
      (m.store true .word a v).read (a + 3 - k) = b k) ∧
    (∀ k < 2, (m.store false .half a v).read (a + k) = b k ∧
      (m.store true .half a v).read (a + 1 - k) = b k) ∧
    m.store false .word a v =
      (((m.write a (b 0)).write (a + 1) (b 1)).write (a + 2) (b 2)).write (a + 3) (b 3) ∧
    m.store true .word a v =
      (((m.write a (b 3)).write (a + 1) (b 2)).write (a + 2) (b 1)).write (a + 3) (b 0) ∧
    m.store false .half a v = (m.write a (b 0)).write (a + 1) (b 1) ∧
    m.store true .half a v = (m.write a (b 1)).write (a + 1) (b 0) ∧
    m.value false .word a = m.read (a + 3) ++ m.read (a + 2) ++ m.read (a + 1) ++ m.read a ∧
    m.value true .word a = m.read a ++ m.read (a + 1) ++ m.read (a + 2) ++ m.read (a + 3) ∧
    m.value false .half a = (m.read (a + 1) ++ m.read a).setWidth 32 ∧
    m.value true .half a = (m.read a ++ m.read (a + 1)).setWidth 32 ∧
    (∀ big, (m.store big .word a v).value big .word a = v ∧
      (m.store big .half a v).value big .half a = (v.setWidth 16).setWidth 32 ∧
      (m.store big .byte a v).value big .byte a = (v.setWidth 8).setWidth 32)

/-! ## Addresses, SP arithmetic, extend, reverse, stack, hints (44) -/

/-- ADR, ADD Rd, SP, ADD SP and SUB SP: the sums; the stack pointer in use keeps a multiple of 4; no flag
changes. -/
def Obligations.AddressAndStackArithmetic : Prop :=
  ∀ (s : State) (rd : LowReg) (imm8 : BitVec 8) (imm7 : BitVec 7), s.roomFor 2 →
    exec (.adr rd imm8) s = .next { s with
      r := s.r.set rd.val
        (((s.pc + 4#32) &&& 0xFFFFFFFC#32) + BitVec.ofNat 32 (4 * imm8.toNat))
      pc := s.pc + 2#32 } ∧
    exec (.addSpImm rd imm8) s = .next { s with
      r := s.r.set rd.val (s.sp + BitVec.ofNat 32 (4 * imm8.toNat))
      pc := s.pc + 2#32 } ∧
    (∀ p ∈ [(Instr.addSp imm7, s.sp + BitVec.ofNat 32 (4 * imm7.toNat)),
        (.subSp imm7, s.sp - BitVec.ofNat 32 (4 * imm7.toNat))],
      exec p.1 s = .next { s with
        spMain :=
          if s.spsel = true ∧ s.ipsr = 0#6 then s.spMain else p.2 &&& 0xFFFFFFFC#32
        spProcess :=
          if s.spsel = true ∧ s.ipsr = 0#6 then p.2 &&& 0xFFFFFFFC#32 else s.spProcess
        pc := s.pc + 2#32 })

/-- SXTH, SXTB, UXTH, UXTB, REV, REV16 and REVSH: the register's new value, no flag, nothing else. -/
def Obligations.ExtendsAndReverses : Prop :=
  ∀ (s : State) (rm rd : LowReg) (v : Word), s.roomFor 2 → v = s.low rm →
    (∀ p ∈ [(Instr.sxth rm rd, (v.setWidth 16).signExtend 32),
        (.sxtb rm rd, (v.setWidth 8).signExtend 32),
        (.uxth rm rd, v &&& 0x0000FFFF#32),
        (.uxtb rm rd, v &&& 0x000000FF#32),
        (.rev rm rd, v <<< 24 ||| (v <<< 8 &&& 0x00FF0000#32) ||| (v >>> 8 &&& 0x0000FF00#32)
          ||| v >>> 24),
        (.rev16 rm rd, (v <<< 8 &&& 0xFF00FF00#32) ||| (v >>> 8 &&& 0x00FF00FF#32)),
        (.revsh rm rd, ((v <<< 24).sshiftRight 16) ||| (v >>> 8 &&& 0x000000FF#32))],
      exec p.1 s = .next { s with r := s.r.set rd.val p.2, pc := s.pc + 2#32 })

/-- PUSH: the listed low registers in ascending order and then LR go to rising addresses that end below the
old stack pointer and enter Dirty; the stack pointer in use moves down past them; nothing else
changes. -/
def Obligations.PushStores : Prop :=
  ∀ (s : State) (m : Bool) (list : BitVec 8) (ws : List Word) (base : Word),
    m = true ∨ list ≠ 0#8 → s.roomFor 2 →
    ws = ((List.finRange 8).filter fun i => list.getLsbD i.val).map s.low
      ++ (if m then [s.lr] else []) →
    base = s.sp - BitVec.ofNat 32 (4 * ws.length) →
    s.writableWords s.privileged base ws.length →
      ∃ t, exec (.push m list) s = .next t ∧
        wordsStored s.cfg.bigEndian s.mem t.mem base ws ∧
        storesNoted s t base.toNat (4 * ws.length) ∧
        onlyMemory { s with
          spMain := if s.spsel = true ∧ s.ipsr = 0#6 then s.spMain else base
          spProcess := if s.spsel = true ∧ s.ipsr = 0#6 then base else s.spProcess
          pc := s.pc + 2#32 } t

/-- POP: the words from the stack pointer up go to the listed low registers in ascending order, each other
register keeping its value; the stack pointer in use moves past them; without the PC nothing else
changes; with it bit 0 of the last word becomes T and the rest the pc, or, in Handler mode and with top
four bits ones, that word is the EXC_RETURN value of an exception return from the state with the
registers loaded and the stack pointer moved (R45, R414). -/
def Obligations.PopLoads : Prop :=
  ∀ (s : State) (p : Bool) (list : BitVec 8) (regs : List LowReg) (n : Nat) (vs : List Word)
    (sp last : Word),
    p = true ∨ list ≠ 0#8 →
    regs = (List.finRange 8).filter (fun i => list.getLsbD i.val) →
    n = regs.length + p.toNat → s.readableWords s.privileged s.sp n → vs = s.wordsAt s.sp n →
    sp = s.sp + BitVec.ofNat 32 (4 * n) → last = vs.getD regs.length 0#32 →
      ∃ u, (∀ k (h : k < regs.length), u.low regs[k] = vs.getD k 0#32) ∧
        (∀ i : Fin 13, (∀ r ∈ regs, r.val ≠ i.val) → u.r[i.val] = s.r[i.val]) ∧
        u = { s with
          r := u.r
          spMain := if s.spsel = true ∧ s.ipsr = 0#6 then s.spMain else sp
          spProcess := if s.spsel = true ∧ s.ipsr = 0#6 then sp else s.spProcess } ∧
        (p = false → s.roomFor 2 → exec (.pop p list) s = .next { u with pc := s.pc + 2#32 }) ∧
        (p = true → s.ipsr = 0#6 ∨ last.extractLsb' 28 4 ≠ 0xF#4 →
          exec (.pop p list) s =
            .next { u with pc := last &&& 0xFFFFFFFE#32, t := last.getLsbD 0 }) ∧
        (p = true → s.ipsr ≠ 0#6 → last.extractLsb' 28 4 = 0xF#4 →
          exec (.pop p list) s = exceptionReturn last u)

/-- NOP, YIELD, the unallocated hints, DSB and DMB with any option only advance the pc; CPS writes PRIMASK
when privileged and does nothing when not (R289). -/
def Obligations.HintsBarriersAndCps : Prop :=
  ∀ (s : State) (opA option : BitVec 4) (im : Bool),
    (s.roomFor 2 →
      exec .nop s = .next { s with pc := s.pc + 2#32 } ∧
      exec .yield s = .next { s with pc := s.pc + 2#32 } ∧
      exec (.hintNop opA) s = .next { s with pc := s.pc + 2#32 } ∧
      (s.privileged = true →
        exec (.cps im 0b0010#4) s = .next { s with primask := im, pc := s.pc + 2#32 }) ∧
      (s.privileged = false → exec (.cps im 0b0010#4) s = .next { s with pc := s.pc + 2#32 })) ∧
    (s.roomFor 4 →
      exec (.dsb 0b1111#4 0#1 0b1111#4 option) s = .next { s with pc := s.pc + 4#32 } ∧
      exec (.dmb 0b1111#4 0#1 0b1111#4 option) s = .next { s with pc := s.pc + 4#32 })

/-- R297 to R299: SEV sets the event register; WFE clears it if it is set and sleeps if not; WFI sleeps
unless an exception would be taken were PRIMASK 0 (R480). A step asleep with a takeable exception is
that exception's entry; otherwise it changes at most Sleeping, and it wakes when a wake-up event of
R480 or R481 is there (when it wakes without cause is the model's choice: log entry 13). -/
def Obligations.SleepAndEvents : Prop :=
  ∀ s : State,
    (s.roomFor 2 →
      exec .sev s = .next { s with event := true, pc := s.pc + 2#32 } ∧
      (s.event = true → exec .wfe s = .next { s with event := false, pc := s.pc + 2#32 }) ∧
      (s.event = false → exec .wfe s = .next { s with sleep := .waitEvent, pc := s.pc + 2#32 }) ∧
      ((∃ e, State.takeable { s with primask := false } e = true) →
        exec .wfi s = .next { s with pc := s.pc + 2#32 }) ∧
      ((∀ e, State.takeable { s with primask := false } e = false) →
        exec .wfi s = .next { s with sleep := .waitInterrupt, pc := s.pc + 2#32 })) ∧
    (s.sleep ≠ .awake → s.coreTurn →
      (∀ e, s.best = some e → step s = exceptionEntry e s.pc s.afterInput) ∧
      (s.best = none →
        (step s = .next s.afterInput ∨ step s = .next { s.afterInput with sleep := .awake }) ∧
        (s.sleep = .waitEvent → s.event = true →
          step s = .next { s.afterInput with sleep := .awake }) ∧
        (s.sleep = .waitInterrupt → (∃ e, State.takeable { s with primask := false } e = true) →
          step s = .next { s.afterInput with sleep := .awake })))

/-! ## Load and store multiple (45) -/

/-- STM: the listed registers in ascending order go to rising addresses from the base, the original base
where the base is the lowest listed, and enter Dirty; the base moves past them; nothing else changes.
Where the base is listed and not lowest, the word stored for it is UNKNOWN (R310, U10): nothing is said
of that word. -/
def Obligations.StoreMultiple : Prop :=
  ∀ (s : State) (rn : LowReg) (list : BitVec 8) (regs : List LowReg) (base : Word),
    list ≠ 0#8 → s.roomFor 2 → base = s.low rn →
    regs = (List.finRange 8).filter (fun i => list.getLsbD i.val) →
    s.writableWords s.privileged base regs.length →
      ∃ t ws, exec (.stm rn list) s = .next t ∧ ws.length = regs.length ∧
        wordsStored s.cfg.bigEndian s.mem t.mem base ws ∧
        storesNoted s t base.toNat (4 * regs.length) ∧
        (∀ k (h : k < regs.length), k = 0 ∨ regs[k] ≠ rn → ws.getD k 0#32 = s.low regs[k]) ∧
        t = { s with
          r := s.r.set rn.val (base + BitVec.ofNat 32 (4 * regs.length))
          mem := t.mem
          dirty := t.dirty
          free := t.free
          pc := s.pc + 2#32 }

/-- LDM: the words from the base up go to the listed registers in ascending order; a base that is not
listed moves past them; nothing else changes. -/
def Obligations.LoadMultiple : Prop :=
  ∀ (s : State) (rn : LowReg) (list : BitVec 8) (regs : List LowReg) (base : Word),
    list ≠ 0#8 → s.roomFor 2 → base = s.low rn →
    regs = (List.finRange 8).filter (fun i => list.getLsbD i.val) →
    s.readableWords s.privileged base regs.length →
      ∃ t, exec (.ldm rn list) s = .next t ∧
        (∀ k (h : k < regs.length),
          t.low regs[k] = (s.wordsAt base regs.length).getD k 0#32) ∧
        (rn ∉ regs → t.low rn = base + BitVec.ofNat 32 (4 * regs.length)) ∧
        (∀ i : Fin 13, i.val ≠ rn.val → (∀ r ∈ regs, r.val ≠ i.val) → t.r[i.val] = s.r[i.val]) ∧
        t = { s with r := t.r, pc := s.pc + 2#32 }

/-- R312 item 3, for LDM, POP, STM and PUSH: where word `k` is answered with a bus error, HardFault is
raised (as UDF raises it). A load leaves the base, the stack pointer, the pc and every register but the
first `k` listed as before, and each of those holds its old or its loaded value (log entry 6); a store
leaves every register as before and the first `k` words written (the word of a base listed and not
lowest is UNKNOWN: R310, U10). -/
def Obligations.MultipleTransferFaults : Prop :=
  ∀ (s : State) (rn : LowReg) (x : Bool) (list : BitVec 8) (regs : List LowReg) (base : Word)
    (ws : List Word) (k : Nat),
    x = true ∨ list ≠ 0#8 →
    regs = (List.finRange 8).filter (fun i => list.getLsbD i.val) →
    ws = regs.map s.low ++ (if x then [s.lr] else []) →
    base.toNat + 4 * ws.length ≤ 2 ^ 32 → k < ws.length →
    ((∀ j < k, s.readable s.privileged .word (wordAt base j)) →
      s.busErrorAt .read .word (wordAt base k) →
      ∀ i, (i = Instr.ldm rn list ∧ x = false ∧ base = s.low rn) ∨ (i = .pop x list ∧ base = s.sp) →
        ∃ u, exec i s = exec (.udf 0#8) u ∧ u = { s with r := u.r, free := u.free } ∧
          (i = .ldm rn list → u.low rn = base) ∧
          (∀ q : Fin 13, (∀ r ∈ regs.take k, r.val ≠ q.val) → u.r[q.val] = s.r[q.val]) ∧
          (∀ j (h : j < regs.length), j < k →
            u.low regs[j] = s.low regs[j] ∨ u.low regs[j] = (s.wordsAt base k).getD j 0#32)) ∧
    ((∀ j < k, s.writable s.privileged .word (wordAt base j)) →
      s.busErrorAt .write .word (wordAt base k) →
        (x = false → base = s.low rn →
          ∃ u vs, exec (.stm rn list) s = exec (.udf 0#8) u ∧ vs.length = k ∧
            u = { s with mem := u.mem, dirty := u.dirty, free := u.free } ∧
            wordsStored s.cfg.bigEndian s.mem u.mem base vs ∧
            ∀ j (h : j < regs.length), j < k → j = 0 ∨ regs[j] ≠ rn →
              vs.getD j 0#32 = s.low regs[j]) ∧
        (base = s.sp - BitVec.ofNat 32 (4 * ws.length) →
          ∃ u, exec (.push x list) s = exec (.udf 0#8) u ∧ onlyMemory s u ∧
            wordsStored s.cfg.bigEndian s.mem u.mem base (ws.take k)))

/-- R312 items 1, 2 and 5, R400: events between the accesses of the instruction at the pc, those of `gaps`
after its first accesses, fewer than all (that a step has them, and whether it may abandon the
instruction after them, is an input of the model's schedule: log entry 14). PUSH and STM have made their
stores so far; where the step may abandon them and an exception is then takeable, by the stores or the
events if not before, it is entered with the instruction's own address as return address; where none is,
and where the step does not abandon, the instruction completes. Stores to RAM are made as without the
events, the events done too. LDM and POP of memory, abandoned, leave each register listed so far, the
base excepted, with its old or its loaded value (log entry 6) and everything else as the events leave
it; not abandoned they complete as after the events, and an LDM that reads system registers or devices
has the values of the moments it reads them. MULS leaves everything as before. -/
def Obligations.AbandonedTransfers : Prop :=
  ∀ (s : State) (rn rd : LowReg) (x : Bool) (list : BitVec 8) (regs : List LowReg) (base : Word)
    (ws : List Word) (gaps : Gaps) (rest : List Input) (hw1 hw2 : Half) (i : Instr),
    s.coreNext → (s.mustTake = true → s.best = none) → s.resetIn = none → s.roomFor 2 →
    s.fetches hw1 hw2 → decode hw1 hw2 = .instr i →
    regs = (List.finRange 8).filter (fun r => list.getLsbD r.val) →
    (∀ e, s.inputs = .core (.abandon gaps) :: rest → s.best = some e → i = .muls rn rd →
      step s = exceptionEntry e s.pc s.afterInput) ∧
    (base.toNat + 4 * ws.length ≤ 2 ^ 32 → gaps.length < ws.length →
      (i = .push x list ∧ ws = regs.map s.low ++ (if x then [s.lr] else []) ∧
          base = s.sp - BitVec.ofNat 32 (4 * ws.length)) ∨
        (i = .stm rn list ∧ base = s.low rn ∧ (list.getLsbD rn.val = true → regs.head? = some rn) ∧
          ws = regs.map s.low) →
      (∀ u e, s.inputs = .core (.abandon gaps) :: rest →
        storeWords s.privileged gaps (ws.take gaps.length) base s.afterInput = .ok () u →
        u.best = some e → step s = exceptionEntry e s.pc u) ∧
      (∀ v, s.inputs = .core (.amid gaps) :: rest ∨
          (s.inputs = .core (.abandon gaps) :: rest ∧
            ∃ u, storeWords s.privileged gaps (ws.take gaps.length) base s.afterInput = .ok () u ∧
              u.best = none) →
        storeWords s.privileged gaps ws base s.afterInput = .ok () v →
          (i = .push x list → step s = .next { v.setReg 13 base with pc := s.pc + 2#32 }) ∧
          (i = .stm rn list → step s = .next { v with
            r := v.r.set rn.val (wordAt base ws.length), pc := s.pc + 2#32 })) ∧
      (s.writableWords s.privileged base ws.length → ∀ vs, vs = ws ∨ vs = ws.take gaps.length →
        ∃ u, storeWords s.privileged gaps vs base s.afterInput = .ok () u ∧
          onlyMemory (s.afterInput.afterEvents gaps.flatten) u ∧
          wordsStored s.cfg.bigEndian s.mem u.mem base vs)) ∧
    ((i = .ldm rn list ∧ base = s.low rn ∧ x = false) ∨ (i = .pop x list ∧ base = s.sp) →
      gaps.length < regs.length + x.toNat →
      (s.readableWords s.privileged base (regs.length + x.toNat) →
        (∀ e, s.inputs = .core (.abandon gaps) :: rest →
          (s.afterInput.afterEvents gaps.flatten).best = some e →
            ∃ u, step s = exceptionEntry e s.pc u ∧
              u = { s.afterInput.afterEvents gaps.flatten with r := u.r, free := u.free } ∧
              (i = .ldm rn list → u.low rn = base) ∧
              (∀ q : Fin 13, (∀ r ∈ regs.take gaps.length, r.val ≠ q.val) → u.r[q.val] = s.r[q.val]) ∧
              ∀ j (h : j < regs.length), j < gaps.length →
                u.low regs[j] = s.low regs[j] ∨
                  u.low regs[j] = (s.wordsAt base gaps.length).getD j 0#32) ∧
        (s.inputs = .core (.amid gaps) :: rest →
          step s = exec i (s.afterInput.afterEvents gaps.flatten))) ∧
      (∀ v vs, s.inputs = .core (.amid gaps) :: rest → i = .ldm rn list → base.toNat % 4 = 0 →
        base.toNat + 4 * regs.length ≤ 2 ^ 32 →
        readWords s.privileged gaps regs.length base s.afterInput = (vs, .ok () v) →
          ∃ t, step s = .next t ∧ t = { v with r := t.r, pc := s.pc + 2#32 } ∧
            ∀ j (h : j < regs.length), t.low regs[j] = vs.getD j 0#32))

/-! ## Special registers and ISB (47) -/

/-- R330: what MSR writes for every SYSm; unprivileged writes to MSP, PSP, PRIMASK and CONTROL do nothing,
and SPSEL is written in Thread mode only. -/
def Obligations.MoveToSpecial : Prop :=
  ∀ (s : State) (rn : RegNum) (v : Word), s.roomFor 4 → rn ≠ 13 → rn ≠ 15 → v = s.reg rn →
    (∀ m ∈ [0#8, 1#8, 2#8, 3#8], exec (.msr 0#1 rn 0#1 8#4 m) s = .next { s with
      flags := ⟨v.getLsbD 31, v.getLsbD 30, v.getLsbD 29, v.getLsbD 28⟩
      pc := s.pc + 4#32 }) ∧
    (∀ m ∈ [5#8, 6#8, 7#8], exec (.msr 0#1 rn 0#1 8#4 m) s = .next { s with pc := s.pc + 4#32 }) ∧
    (s.privileged = false → ∀ m ∈ [8#8, 9#8, 16#8, 20#8],
      exec (.msr 0#1 rn 0#1 8#4 m) s = .next { s with pc := s.pc + 4#32 }) ∧
    (s.privileged = true →
      exec (.msr 0#1 rn 0#1 8#4 8#8) s =
        .next { s with spMain := v &&& 0xFFFFFFFC#32, pc := s.pc + 4#32 } ∧
      exec (.msr 0#1 rn 0#1 8#4 9#8) s =
        .next { s with spProcess := v &&& 0xFFFFFFFC#32, pc := s.pc + 4#32 } ∧
      exec (.msr 0#1 rn 0#1 8#4 16#8) s =
        .next { s with primask := v.getLsbD 0, pc := s.pc + 4#32 } ∧
      exec (.msr 0#1 rn 0#1 8#4 20#8) s = .next { s with
        npriv := v.getLsbD 0
        spsel := if s.ipsr = 0#6 then v.getLsbD 1 else s.spsel
        pc := s.pc + 4#32 })

/-- R331: what MRS reads for every SYSm, as the sum of the fields' weights; the T bit reads 0, and MSP,
PSP and PRIMASK read 0 when unprivileged. -/
def Obligations.MoveFromSpecial : Prop :=
  ∀ (s : State) (rd : RegNum) (apsr ipsr : Word), s.roomFor 4 → rd ≠ 13 → rd ≠ 15 →
    apsr = BitVec.ofNat 32 (2 ^ 31 * s.flags.n.toNat + 2 ^ 30 * s.flags.z.toNat
      + 2 ^ 29 * s.flags.c.toNat + 2 ^ 28 * s.flags.v.toNat) →
    ipsr = BitVec.ofNat 32 s.ipsr.toNat →
    (∀ p ∈ [(0#8, apsr), (1#8, apsr + ipsr), (2#8, apsr), (3#8, apsr + ipsr), (5#8, ipsr),
        (6#8, 0#32), (7#8, ipsr),
        (8#8, if s.privileged then s.spMain else 0#32),
        (9#8, if s.privileged then s.spProcess else 0#32),
        (16#8, if s.privileged ∧ s.primask then 1#32 else 0#32),
        (20#8, BitVec.ofNat 32 (2 * s.spsel.toNat + s.npriv.toNat))],
      exec (.mrs 0#1 0b1111#4 0#1 rd p.1) s =
        .next { s.setReg rd p.2 with pc := s.pc + 4#32 })

/-- R334, R407: ISB empties Dirty and changes nothing else but the pc; an exception takeable when it
completes is entered by the next step of the core, whatever that step would choose (the field `mustTake`
is the model's: log entry 15). -/
def Obligations.InstructionBarrier : Prop :=
  ∀ (s : State) (option : BitVec 4), s.roomFor 4 →
    exec (.isb 0b1111#4 0#1 0b1111#4 option) s =
      .next { s with dirty := [], mustTake := s.best.isSome, pc := s.pc + 4#32 } ∧
    ∀ (t : State) (e : Exc), exec (.isb 0b1111#4 0#1 0b1111#4 option) s = .next t →
      s.coreNext → s.best = some e → step t = exceptionEntry e t.pc t.afterInput

/-! ## Exceptions (60) -/

/-- R410 to R412: an exception entry whose accesses succeed is a next state, as those rules describe it
(the field `mustTake` is the model's: log entry 15). -/
def Obligations.ExceptionEntryState : Prop :=
  ∀ (s : State) (e : Exc) (ret : Word), s.entryReady e →
    ∃ t, exceptionEntry e ret s = .next t ∧ EnteredFrom s t e ret

/-- R323, R423: SVC of a priority above the execution priority enters SVCall with return address pc + 2;
otherwise it raises HardFault, as UDF raises it. R294, R322, R335, R420: BKPT, UDF and UDF.W enter
HardFault with their own address as return address. -/
def Obligations.SynchronousExceptions : Prop :=
  ∀ (s : State) (imm8 : BitVec 8) (imm4 : BitVec 4) (imm12 : BitVec 12),
    ((s.pri.svcall.toNat : Int) < s.executionPriority → s.entryReady .svcall →
      ∃ t, exec (.svc imm8) s = .next t ∧ EnteredFrom s t .svcall (s.pc + 2#32)) ∧
    (s.executionPriority ≤ (s.pri.svcall.toNat : Int) → exec (.svc imm8) s = exec (.udf 0#8) s) ∧
    (-1 < s.executionPriority → s.entryReady .hardFault →
      ∃ t, EnteredFrom s t .hardFault s.pc ∧ exec (.bkpt imm8) s = .next t ∧
        exec (.udf imm8) s = .next t ∧ exec (.udfW imm4 imm12) s = .next t)

/-- R428: a fault at execution priority -1 or -2 is Lockup: the flag and the pc, nothing else. A step of
the core in Lockup is no next state, unless NMI is pending and the priority is -1: then NMI is entered
with return address 0xFFFFFFFE, by a step that does not defer it; while a reset is requested such a step
changes nothing (that entering Lockup is a next state and a later step of the core a fault is the
model's reading: log entry 11). -/
def Obligations.Lockup : Prop :=
  ∀ (s : State) (imm8 : BitVec 8),
    (s.executionPriority ≤ -1 →
      exec (.udf imm8) s = .next { s with lockup := true, pc := 0xFFFFFFFE#32 } ∧
      exec (.bkpt imm8) s = .next { s with lockup := true, pc := 0xFFFFFFFE#32 } ∧
      exec (.svc imm8) s = .next { s with lockup := true, pc := 0xFFFFFFFE#32 }) ∧
    (s.lockup = true → startsWithCore s.inputs = true → (s.inputs = [] → s.resetRequest = false) →
      (s.pending.nmi = false ∨ s.executionPriority ≠ -1 →
        step s = if s.resetRequest then .next s.afterInput else .fault .lockup) ∧
      (s.pending.nmi = true → s.executionPriority = -1 →
        step s = if s.inputs.head? = some (.core .delay) then .next s.afterInput
          else exceptionEntry .nmi 0xFFFFFFFE#32 s.afterInput))

/-- R414 to R416 after R410 to R412: an exception entry, and then in its handler, with the frame untouched,
BX of LR or of any register that holds LR's value, gives back R0 to R12, LR, both stack pointers, the
pc, the flags, T, IPSR, SPSEL and the active exceptions. -/
def Obligations.EntryThenReturnRestores : Prop :=
  ∀ (s t : State) (e : Exc) (ret : Word) (rm : RegNum), s.Inv → s.active.get e = false →
    ret.getLsbD 0 = false → s.entryReady e → s.readableWords s.privileged s.framePtr 8 →
    exceptionEntry e ret s = .next t → rm ≠ 15 → t.reg rm = t.lr →
      ∃ u, exec (.bx rm 0#3) t = .next u ∧ u.r = s.r ∧ u.lr = s.lr ∧ u.spMain = s.spMain ∧
        u.spProcess = s.spProcess ∧ u.pc = ret ∧ u.flags = s.flags ∧ u.t = s.t ∧
        u.ipsr = s.ipsr ∧ u.spsel = s.spsel ∧ u.npriv = s.npriv ∧ u.primask = s.primask ∧
        u.active = s.active ∧ u.event = true ∧ u.mem = t.mem

/-- R414 to R416, R482: in Handler mode BX of a register that holds one of the three EXC_RETURN values (and
POP of one: `PopLoads`) is an exception return; it completes where the returning exception is active,
returns to Thread mode exactly from the last active exception, and its frame can be read, has an even
return address and a number of the mode returned to (for Handler mode: of an exception that exists, the
model's reading of R402 and U7, log entry 19). Then all the rules say of the state after it holds, with
sleep-on-exit. -/
def Obligations.ExceptionReturnState : Prop :=
  ∀ (s : State) (v : Word) (dest : ReturnTo) (r : Exc) (n : BitVec 6),
    (v, dest) ∈ [(0xFFFFFFF1#32, ReturnTo.handler), (0xFFFFFFF9#32, .threadMain),
      (0xFFFFFFFD#32, .threadProcess)] →
    excOfNumber s.ipsr = some r → s.active.get r = true → (s.active.count = 1 ↔ dest ≠ .handler) →
    s.frameReadable dest → (s.frameWord dest 6).getLsbD 0 = false →
    n = (s.frameWord dest 7).extractLsb' 0 6 →
    (dest = .handler → ∃ e, excOfNumber n = some e ∧ s.hasExc e = true) →
    (dest ≠ .handler → n = 0#6) →
      ∃ t, exceptionReturn v s = .next t ∧ ReturnedFrom s t dest r ∧
        ∀ rm : RegNum, rm ≠ 15 → s.reg rm = v → exec (.bx rm 0#3) s = .next t

/-- R414 to R416, U7: in Handler mode BX of any register, and POP, of a value with top four bits ones is an
exception return (of POP: `PopLoads`), and is refused where the rules call it UNPREDICTABLE: a value
that is none of the three, a returning exception that is not active, a return to Thread mode that is not
from the last active exception, a return to Handler mode that is, a frame whose return address is odd
or whose exception number is not of the mode returned to (a number of no exception among them: the
model's reading, log entry 19). -/
def Obligations.InconsistentReturnsRefused : Prop :=
  ∀ (s : State) (v : Word) (r : Exc), v.extractLsb' 28 4 = 0xF#4 → excOfNumber s.ipsr = some r →
    ((v ≠ 0xFFFFFFF1#32 ∧ v ≠ 0xFFFFFFF9#32 ∧ v ≠ 0xFFFFFFFD#32) ∨ s.active.get r = false ∨
        (v = 0xFFFFFFF1#32 ∧ s.active.count = 1) ∨ (v ≠ 0xFFFFFFF1#32 ∧ s.active.count ≠ 1) ∨
        (∃ dest, (v, dest) ∈ [(0xFFFFFFF1#32, ReturnTo.handler), (0xFFFFFFF9#32, .threadMain),
            (0xFFFFFFFD#32, .threadProcess)] ∧ s.frameReadable dest ∧
          ((s.frameWord dest 6).getLsbD 0 = true ∨
            (dest = .handler ∧
              ∀ e, excOfNumber ((s.frameWord dest 7).extractLsb' 0 6) = some e → s.hasExc e = false) ∨
            (dest ≠ .handler ∧ (s.frameWord dest 7).extractLsb' 0 6 ≠ 0#6))) →
      exceptionReturn v s = .refused .unpredictableReturn) ∧
    (∀ rm : RegNum, rm ≠ 15 → s.reg rm = v → exec (.bx rm 0#3) s = exceptionReturn v s)

/-- R403: Prio(e) is -2 for NMI, -1 for HardFault and the two programmed bits for every other exception.
R404: ExecutionPriority() is the least of 4, the priorities of the active exceptions, and 0 while
PRIMASK is set; an exception that is pending and enabled can preempt exactly when its priority is
strictly less, so never a handler of equal priority, its own included. -/
def Obligations.ExecutionPriorityIsLeast : Prop :=
  ∀ s : State,
    s.prio .nmi = -2 ∧ s.prio .hardFault = -1 ∧ s.prio .svcall = s.pri.svcall.toNat ∧
    s.prio .pendsv = s.pri.pendsv.toNat ∧ s.prio .systick = s.pri.systick.toNat ∧
    (∀ n : Fin 32, s.prio (.irq n) = s.pri.irq[n.val].toNat) ∧
    s.executionPriority ≤ 4 ∧
    (∀ e, s.active.get e = true → s.executionPriority ≤ s.prio e) ∧
    (s.primask = true → s.executionPriority ≤ 0) ∧
    (s.executionPriority = 4 ∨ (∃ e, s.active.get e = true ∧ s.executionPriority = s.prio e) ∨
      (s.primask = true ∧ s.executionPriority = 0)) ∧
    (∀ e, s.requested e = true → (s.takeable e = true ↔ s.prio e < s.executionPriority)) ∧
    (∀ e a, s.active.get a = true → s.prio e = s.prio a → s.takeable e = false)

/-- R406: Takeable() holds the exceptions that exist, are pending, are enabled and have a priority below
ExecutionPriority(); Best() is the one of least priority value, among equals the one of least number;
there is none exactly when nothing is takeable. -/
def Obligations.BestIsLeast : Prop :=
  ∀ s : State,
    (∀ e, s.takeable e = true ↔ s.hasExc e = true ∧ s.pending.get e = true ∧
      s.isEnabled e = true ∧ s.prio e < s.executionPriority) ∧
    (s.best = none ↔ ∀ e, s.takeable e = false) ∧
    (∀ b, s.best = some b → s.takeable b = true ∧
      ∀ e, s.takeable e = true →
        s.prio b < s.prio e ∨ (s.prio b = s.prio e ∧ b.number ≤ e.number))

/-- R407: at an instruction boundary a core step that does not defer enters the best takeable exception,
with the pc as return address; so does every core step, deferring or not, while `mustTake` is set, the
model's field that an ISB, an exception entry or a return sets (log entry 15). A reset that software has
requested changes nothing of this while it is delayed (D18; the schedule of inputs is the model's: log
entry 8). -/
def Obligations.AsynchronousEntry : Prop :=
  ∀ (s : State) (e : Exc), s.coreNext → s.best = some e →
    (s.inputs = [] ∨ s.inputs.head? = some (.core .run) ∨ s.mustTake = true) →
      step s = exceptionEntry e s.pc s.afterInput

/-- R440, R425: a rising edge of a line pends its interrupt, active or not, and nothing else (the event
register is set with SEVONPEND where the interrupt was not pending, R455); a line that stays high or
falls changes no pending bit. The NMI line acts the same on NMI. A pulse of the external event input sets
the event register and nothing else (R481). A line at or above NUM_IRQ (D1) changes nothing: the model's
choice, log entry 26. -/
def Obligations.InterruptLines : Prop :=
  ∀ (s : State) (n : Fin 32) (rest : List Input) (level : Bool), s.Inv →
    (s.inputs = .outside (.irqLine n level) :: rest → n.val < s.cfg.numIrq.toNat →
      ∃ t, step s = .next t ∧
        (∀ k < 32, t.irqLine.getLsbD k = if k = n.val then level else s.irqLine.getLsbD k) ∧
        t = if level = true ∧ s.irqLine.getLsbD n.val = false then
          { s with
            pending := s.pending.set (.irq n) true
            event := s.event || (s.scr.sevOnPend && !s.pending.irq.getLsbD n.val)
            irqLine := t.irqLine
            inputs := rest }
          else { s with irqLine := t.irqLine, inputs := rest }) ∧
    (s.inputs = .outside (.irqLine n level) :: rest → s.cfg.numIrq.toNat ≤ n.val →
      step s = .next { s with inputs := rest }) ∧
    (s.inputs = .outside (.nmiLine level) :: rest →
      step s = .next (if level = true ∧ s.nmiLine = false then
          { s with
            pending := { s.pending with nmi := true }
            event := s.event || (s.scr.sevOnPend && !s.pending.nmi)
            nmiLine := true
            inputs := rest }
        else { s with nmiLine := level, inputs := rest })) ∧
    (s.inputs = .outside .rxev :: rest → step s = .next { s with event := true, inputs := rest })

/-! ## System registers (60) -/

/-- R100, R101, R121, R461: a privileged word store to a system register, with any addressing mode, has
that register's write effect and advances the pc, and is refused where the write is (a write of MPU_TYPE,
log entry 12, or a value R452 to R454 call UNPREDICTABLE); a privileged word load gives its value. -/
def Obligations.SystemRegisterAccess : Prop :=
  ∀ (s : State) (rm rn rt : LowReg) (imm5 : BitVec 5) (imm8 : BitVec 8) (reg : SysReg),
    s.privileged = true → s.roomFor 2 →
    (∀ f ∈ s.storeForms rm rn rt imm5 imm8, f.width = .word → sysRegAt f.address = some reg →
      (∃ u, writeSys reg (s.low rt) s = .ok () u ∧
          exec f.instr s = .next { u with pc := s.pc + 2#32 }) ∨
        ∃ r, writeSys reg (s.low rt) s = .refuse r ∧ exec f.instr s = .refused r) ∧
    (∀ f ∈ s.loadForms rm rn rt imm5 imm8, f.width = .word → sysRegAt f.address = some reg →
      exec f.instr s = .next { (readSys reg s).2 with
        r := s.r.set rt.val (readSys reg s).1
        pc := s.pc + 2#32 })

/-- R441 to R444, bit for bit: a 1 written to NVIC_ISER or NVIC_ICER enables or disables the interrupt,
one written to NVIC_ISPR pends it, one written to NVIC_ICPR clears its pending bit unless its line is
high and it is not active; a 0, and a bit for a line that does not exist, changes nothing. A pending bit
that NVIC_ISPR sets anew sets the event register with SEVONPEND (R455, R481), and so does one that
NVIC_ICPR finds with its line high (the model's reading: log entry 25). A read of the four registers
gives the enabled or the pending interrupts that exist, and changes nothing. -/
def Obligations.NvicSetAndClear : Prop :=
  ∀ (s : State) (v : Word), s.Inv →
    (∃ t, writeSys .nvicIser v s = .ok () t ∧ t = { s with enabled := t.enabled } ∧
      ∀ n < 32, t.enabled.getLsbD n =
        (s.enabled.getLsbD n || (v.getLsbD n && decide (n < s.cfg.numIrq.toNat)))) ∧
    (∃ t, writeSys .nvicIcer v s = .ok () t ∧ t = { s with enabled := t.enabled } ∧
      ∀ n < 32, t.enabled.getLsbD n =
        (s.enabled.getLsbD n && !(v.getLsbD n && decide (n < s.cfg.numIrq.toNat)))) ∧
    (∃ t, writeSys .nvicIspr v s = .ok () t ∧
      t = { s with pending := { s.pending with irq := t.pending.irq }, event := t.event } ∧
      (t.event = true ↔ s.event = true ∨ (s.scr.sevOnPend = true ∧
        ∃ n < 32, t.pending.irq.getLsbD n = true ∧ s.pending.irq.getLsbD n = false)) ∧
      ∀ n < 32, t.pending.irq.getLsbD n =
        (s.pending.irq.getLsbD n || (v.getLsbD n && decide (n < s.cfg.numIrq.toNat)))) ∧
    (∃ t, writeSys .nvicIcpr v s = .ok () t ∧
      t = { s with pending := { s.pending with irq := t.pending.irq }, event := t.event } ∧
      (t.event = true ↔ s.event = true ∨ (s.scr.sevOnPend = true ∧
        ∃ n < 32, v.getLsbD n = true ∧ n < s.cfg.numIrq.toNat ∧ s.irqLine.getLsbD n = true ∧
          s.active.irq.getLsbD n = false)) ∧
      ∀ n < 32, t.pending.irq.getLsbD n =
        (s.pending.irq.getLsbD n &&
          !(v.getLsbD n && decide (n < s.cfg.numIrq.toNat)
            && !(s.irqLine.getLsbD n && !s.active.irq.getLsbD n)))) ∧
    (∀ reg ∈ [SysReg.nvicIser, .nvicIcer], (readSys reg s).2 = s ∧
      ∀ n < 32, (readSys reg s).1.getLsbD n =
        (s.enabled.getLsbD n && decide (n < s.cfg.numIrq.toNat))) ∧
    (∀ reg ∈ [SysReg.nvicIspr, .nvicIcpr], (readSys reg s).2 = s ∧
      ∀ n < 32, (readSys reg s).1.getLsbD n = s.pending.irq.getLsbD n)

/-- R445, R457, R458, D1, D2: a write of a priority register gives each exception that exists the top two
bits of its byte (of NVIC_IPRk byte j to IRQ 4k + j, of SHPR2 bits 31 and 30 to SVCall, of SHPR3 bits 31
and 30 to SysTick and 23 and 22 to PendSV) and changes nothing else; a read gives them there, and 0
elsewhere and for an interrupt or a SysTick that does not exist. -/
def Obligations.PriorityRegisters : Prop :=
  ∀ (s : State) (k : Fin 8) (v : Word),
    (∃ t, writeSys (.nvicIpr k) v s = .ok () t ∧
      t = { s with pri := { s.pri with irq := t.pri.irq } } ∧
      ∀ n : Fin 32, t.pri.irq[n.val] =
        if n.val / 4 = k.val ∧ n.val < s.cfg.numIrq.toNat then v.extractLsb' (8 * (n.val % 4) + 6) 2
        else s.pri.irq[n.val]) ∧
    ((readSys (.nvicIpr k) s).2 = s ∧ ∀ n : Fin 32, n.val / 4 = k.val →
      (readSys (.nvicIpr k) s).1.extractLsb' (8 * (n.val % 4)) 8 =
        if n.val < s.cfg.numIrq.toNat then s.pri.irq[n.val] ++ 0#6 else 0#8) ∧
    writeSys .shpr2 v s = .ok () { s with pri := { s.pri with svcall := v.extractLsb' 30 2 } } ∧
    readSys .shpr2 s = (s.pri.svcall ++ 0#30, s) ∧
    writeSys .shpr3 v s = .ok () { s with pri := { s.pri with
      systick := if s.cfg.hasSysTick then v.extractLsb' 30 2 else s.pri.systick
      pendsv := v.extractLsb' 22 2 } } ∧
    ∃ x, readSys .shpr3 s = (x, s) ∧ x &&& 0x3F3FFFFF#32 = 0#32 ∧ x.extractLsb' 22 2 = s.pri.pendsv ∧
      x.extractLsb' 30 2 = if s.cfg.hasSysTick then s.pri.systick else 0#2

/-- R452, for an ICSR write that sets and clears no pair at once: bit 31 pends NMI, 28 and 27 set and clear
PendSV's pending bit, 26 and 25 SysTick's; the other pending bits stay, and the event register is set
with SEVONPEND where one is pended anew (R455, R481). A write that sets and clears a pair at once is
refused (U15); without SysTick bits 26 and 25 are ignored (R470). A read gives the pending bits of NMI,
PendSV and SysTick, the number of the highest pending and enabled exception whatever PRIMASK is (log
entry 17), the number of the running handler, and 0 elsewhere but in the two UNKNOWN bits (log entry 5).
R454: AIRCR without its key does nothing; with it SYSRESETREQ asks for a reset, and VECTCLRACTIVE is
refused (U15); a read gives BIGEND in bit 15 and 0 below. R455: SCR read after a write gives its three
bits. R453: VTOR read after a write of a base aligned to 128 bytes, to 256 with more than 16 interrupts,
gives the base, another base is refused, and without VTOR its address reads 0 and ignores writes. R451:
CPUID is the parameter. -/
def Obligations.SystemControlBlock : Prop :=
  ∀ (s : State) (v : Word),
    (¬(v.getLsbD 28 = true ∧ v.getLsbD 27 = true) →
      ¬(s.cfg.hasSysTick = true ∧ v.getLsbD 26 = true ∧ v.getLsbD 25 = true) →
        ∃ t, writeSys .icsr v s = .ok () t ∧
          t = { s with pending := t.pending, event := t.event } ∧
          (t.pending.nmi = true ↔ s.pending.nmi = true ∨ v.getLsbD 31 = true) ∧
          (t.pending.pendsv = true ↔
            v.getLsbD 28 = true ∨ (s.pending.pendsv = true ∧ v.getLsbD 27 = false)) ∧
          (t.pending.systick = true ↔ if s.cfg.hasSysTick = true then
            v.getLsbD 26 = true ∨ (s.pending.systick = true ∧ v.getLsbD 25 = false)
            else s.pending.systick = true) ∧
          t.pending.irq = s.pending.irq ∧ t.pending.svcall = s.pending.svcall ∧
          t.pending.hardFault = s.pending.hardFault ∧
          (t.event = true ↔ s.event = true ∨ (s.scr.sevOnPend = true ∧
            ((v.getLsbD 31 = true ∧ s.pending.nmi = false) ∨
              (v.getLsbD 28 = true ∧ s.pending.pendsv = false) ∨
              (s.cfg.hasSysTick = true ∧ v.getLsbD 26 = true ∧ s.pending.systick = false))))) ∧
    ((v.getLsbD 28 = true ∧ v.getLsbD 27 = true) ∨
        (s.cfg.hasSysTick = true ∧ v.getLsbD 26 = true ∧ v.getLsbD 25 = true) →
      writeSys .icsr v s = .refuse .unpredictableSysWrite) ∧
    (∃ x, readSys .icsr s = (x, { s with free := s.free + 1 }) ∧
      x.getLsbD 31 = s.pending.nmi ∧ x.getLsbD 28 = s.pending.pendsv ∧
      x.getLsbD 26 = (s.cfg.hasSysTick && s.pending.systick) ∧ x.extractLsb' 0 6 = s.ipsr ∧
      x &&& 0x6B3C0FC0#32 = 0#32 ∧
      ∃ best, IsHighest s (fun e => s.requested e = true) best ∧
        x.extractLsb' 12 6 = BitVec.ofNat 6 ((best.map Exc.number).getD 0)) ∧
    (v.extractLsb' 16 16 ≠ 0x05FA#16 → writeSys .aircr v s = .ok () s) ∧
    (v.extractLsb' 16 16 = 0x05FA#16 → v.getLsbD 1 = true →
      writeSys .aircr v s = .refuse .unpredictableSysWrite) ∧
    (v.extractLsb' 16 16 = 0x05FA#16 → v.getLsbD 1 = false →
      writeSys .aircr v s =
        .ok () { s with resetRequest := s.resetRequest || v.getLsbD 2 }) ∧
    (∃ x, readSys .aircr s = (x, { s with free := s.free + 1 }) ∧
      x.getLsbD 15 = s.cfg.bigEndian ∧ x &&& 0x00007FFF#32 = 0#32) ∧
    (∃ t, writeSys .scr v s = .ok () t ∧ readSys .scr t = (v &&& 0x00000016#32, t) ∧
      t = { s with scr := t.scr }) ∧
    (s.cfg.hasVtor = true → s.cfg.numIrq.toNat ≤ 16 ∨ v.getLsbD 7 = false →
      ∃ t, writeSys .vtor v s = .ok () t ∧ t = { s with vtor := t.vtor } ∧
        readSys .vtor t = (v &&& 0xFFFFFF80#32, t)) ∧
    (s.cfg.hasVtor = true → 16 < s.cfg.numIrq.toNat → v.getLsbD 7 = true →
      writeSys .vtor v s = .refuse .unpredictableSysWrite) ∧
    (s.cfg.hasVtor = false → writeSys .vtor v s = .ok () s ∧ readSys .vtor s = (0#32, s)) ∧
    readSys .cpuid s = (s.cfg.cpuid, s)

/-- R471 to R474: a write of SYST_CSR sets ENABLE, TICKINT and, where there is a reference clock (NOREF is
0), CLKSOURCE, which else reads 1 and ignores it, and nothing else; a read gives these and COUNTFLAG,
which it clears, and 0 elsewhere. Any write of SYST_CVR clears the counter and COUNTFLAG and pends
nothing, a read gives the counter; SYST_RVR keeps 24 bits; SYST_CALIB reads the parameter (that it
ignores writes is the model's reading: log entry 12). R470: without SysTick the four read 0 and ignore
writes. -/
def Obligations.SysTickRegisters : Prop :=
  ∀ (s : State) (v : Word),
    (s.cfg.hasSysTick = true →
      (∃ t, writeSys .systCsr v s = .ok () t ∧ t = { s with syst := t.syst } ∧
        t.syst = { s.syst with
          enable := v.getLsbD 0
          tickInt := v.getLsbD 1
          clkSource := if s.cfg.systCalib.getLsbD 31 then s.syst.clkSource else v.getLsbD 2 }) ∧
      readSys .systCsr s =
        (BitVec.ofNat 32 (65536 * s.syst.countFlag.toNat
          + 4 * (s.syst.clkSource || s.cfg.systCalib.getLsbD 31).toNat
          + 2 * s.syst.tickInt.toNat + s.syst.enable.toNat),
        { s with syst := { s.syst with countFlag := false } }) ∧
      writeSys .systCvr v s =
        .ok () { s with syst := { s.syst with current := 0#24, countFlag := false } } ∧
      (∃ x, readSys .systCvr s = (x, s) ∧ x.toNat = s.syst.current.toNat) ∧
      writeSys .systRvr v s =
        .ok () { s with syst := { s.syst with reload := v.extractLsb' 0 24 } } ∧
      (∃ x, readSys .systRvr s = (x, s) ∧ x.toNat = s.syst.reload.toNat) ∧
      writeSys .systCalib v s = .ok () s ∧ readSys .systCalib s = (s.cfg.systCalib, s)) ∧
    (s.cfg.hasSysTick = false → ∀ reg ∈ [SysReg.systCsr, .systRvr, .systCvr, .systCalib],
      writeSys reg v s = .ok () s ∧ readSys reg s = (0#32, s))

/-- R472, R475: from CURRENT 0 with RELOAD N, not 0, and the counter enabled, tick k + 1 (k up to N) leaves
N - k; COUNTFLAG is set, and SysTick pended where TICKINT is 1, by tick N + 1 and no earlier: a period of
N + 1 ticks. Each tick is one step of the machine (the ticks come as inputs: log entry 8). -/
def Obligations.SysTickPeriod : Prop :=
  ∀ (s : State) (k : Nat) (rest : List Input), s.cfg.hasSysTick = true → s.syst.enable = true →
    s.syst.current = 0#24 → s.syst.reload ≠ 0#24 → s.syst.countFlag = false →
    s.pending.systick = false → k ≤ s.syst.reload.toNat →
    s.inputs = List.replicate (k + 1) (.outside .tick) ++ rest →
      ∃ t, Sys2Proof.core.run (k + 1) s = .next t ∧
        t.syst = { s.syst with
          current := t.syst.current, countFlag := decide (k = s.syst.reload.toNat) } ∧
        t.syst.current.toNat = s.syst.reload.toNat - k ∧
        t = { s with
          syst := t.syst
          pending := { s.pending with
            systick := s.syst.tickInt && decide (k = s.syst.reload.toNat) }
          event := s.event ||
            (s.scr.sevOnPend && s.syst.tickInt && decide (k = s.syst.reload.toNat))
          inputs := rest }

/-! ## Reset (70) -/

/-- R500, R501: a reset with a readable vector table, asked for by the input or, with no input left, by
software (D18; that it comes then is the model's choice: log entry 8), leaves what R501 says (a pending
bit of a line that stays high is set again in the same step: the model's reading, log entry 22). Where
either vector read is answered with a bus error it leaves Lockup (R428), the rest as R501 says, with
SP_main and T as they were (the model's reading: log entry 28). A reset in the middle of an exception
entry leaves the same, with memory as the frame words already stored leave it, any of the eight (which
they are is an input of the model's: log entry 16). -/
def Obligations.ResetSequence : Prop :=
  ∀ (s : State) (rest : List Input),
    (s.inputs = .reset :: rest ∨ (s.inputs = [] ∧ s.resetRequest = true) →
      (s.resetReady → ∃ t, step s = .next t ∧ ResetFrom s.afterInput t) ∧
      (s.cfg.target .read true .word 0 = none ∨
          (s.readable true .word 0#32 ∧ s.cfg.target .read true .word 4 = none) →
        ∃ t, step s = .next t ∧ ResetTo s.afterInput t s.spMain 0xFFFFFFFE#32 s.t true)) ∧
    (∀ (frame : BitVec 8) (e : Exc), s.inputs = .resetDuring .run frame :: rest → s.resetReady →
      s.lockup = false → s.sleep = .awake → s.best = some e →
      s.writableWords s.privileged s.framePtr 8 →
        ∃ u t, step s = .next t ∧ onlyMemory s.afterInput u ∧ ResetFrom u t ∧
          ∀ x, u.mem.read x =
            if s.framePtr.toNat ≤ x ∧ x < s.framePtr.toNat + 32 ∧
                frame.getLsbD ((x - s.framePtr.toNat) / 4) = true then
              byteOf s.cfg.bigEndian .word
                ((s.frameWords s.pc).getD ((x - s.framePtr.toNat) / 4) 0#32)
                ((x - s.framePtr.toNat) % 4)
            else s.mem.read x)

/-- R65: what `State.reset` holds where the spec gives the value (memory with nothing listed; the parameters
are those of the test platform, the model's choice: log entry 2). -/
def Obligations.ResetValues : Prop :=
  State.reset.ipsr = 0#6 ∧ State.reset.primask = false ∧ State.reset.npriv = false ∧
    State.reset.spsel = false ∧ State.reset.pending = ExcBits.none ∧
    State.reset.active = ExcBits.none ∧ State.reset.enabled = 0#32 ∧
    State.reset.pri = ⟨0#2, 0#2, 0#2, Vector.replicate 32 0#2⟩ ∧ State.reset.event = false ∧
    State.reset.lockup = false ∧ State.reset.sleep = .awake ∧ State.reset.vtor = 0#25 ∧
    State.reset.scr = ⟨false, false, false⟩ ∧ (readSys .ccr State.reset).1 = 0x00000208#32 ∧
    (readSys .systCsr State.reset).1 = 0x00000000#32

/-! ## The whole machine -/

/-- Every step keeps the invariant: memory canonical, stack pointers multiples of 4, the pc even, SPSEL in
Thread mode only, Thread mode exactly when nothing is active, IPSR 0 or the number of an exception that
exists (for a frame that software has altered the model refuses the return: log entry 19), nothing
pending or active that does not exist, high lines pended. No step changes the parameters of R7. -/
def Obligations.StepKeepsInvariant : Prop :=
  ∀ s t : State, step s = .next t → t.cfg = s.cfg ∧ (s.Inv → t.Inv)

/-- The invariant holds at `State.reset`, whose UNKNOWN registers are the model's choice (log entries 1, 4). -/
def Obligations.ResetInvariant : Prop := State.reset.Inv

/-- R431, R432: unprivileged code changes nothing that only privileged code may change, and does not become
privileged but by an exception entry: a step of the core from unprivileged Thread mode leaves all of it
as it was, or is the entry of SVCall, HardFault or a takeable exception from a state in which all of it
is as it was, after which the privileged state but the mode, the stack pointers, SPSEL and the entered
exception's Active and Pending bits is still as before (and SYST_CSR's COUNTFLAG, if the vector table
lies over that register). Where the environment and SysTick act between the accesses of a multiple
transfer (R400, R312), as it was is as the first of these events leave it. The premise that no reset is
in the middle of a step is a clause of the invariant. -/
def Obligations.UnprivilegedIsolation : Prop :=
  ∀ s t : State, s.privileged = false → startsWithCore s.inputs = true →
    (s.inputs = [] → s.resetRequest = false) → s.resetIn = none → step s = .next t →
      ∃ (n : Nat) (s' : State), s' = s.afterEvents (s.nextGaps.take n).flatten ∧
        (sameSystem s' t ∨
        ∃ (u : State) (e : Exc) (ret : Word), sameSystem s' u ∧ exceptionEntry e ret u = .next t ∧
          (e = .svcall ∨ e = .hardFault ∨ s'.takeable e = true) ∧
          t.ipsr = BitVec.ofNat 6 e.number ∧ t.active = s.active.set e true ∧
          t.pending = s'.pending.set e false ∧ t.primask = s.primask ∧ t.npriv = s.npriv ∧
          t.enabled = s.enabled ∧ t.pri = s.pri ∧ t.scr = s.scr ∧ t.vtor = s.vtor ∧
          t.resetRequest = s.resetRequest ∧
          t.syst = { s'.syst with countFlag := t.syst.countFlag })
end

