-- ==== Sys2Proof/Laws/Memory.lean ====
section
/-! SUPPORT. The laws of memory: a byte read after a write, wider accesses byte by byte, and the canonical
form, which every write keeps. -/

namespace Sys2Proof.Machine

open Sys2Proof

/-! ## One byte -/

@[simp] theorem Memory.read_nil (a : Nat) : Memory.read [] a = Memory.unlisted := rfl

@[simp] theorem Memory.read_cons (k : Nat) (x : Byte) (rest : Memory) (a : Nat) :
    Memory.read ((k, x) :: rest) a = if k = a then x else Memory.read rest a := rfl

theorem Memory.read_erase (m : Memory) (a b : Nat) :
    (m.erase a).read b = if b = a then Memory.unlisted else m.read b := by
  induction m with
  | nil => simp [Memory.erase]
  | cons cell rest ih =>
    obtain ⟨k, x⟩ := cell
    rw [Memory.erase] at ih ⊢
    by_cases hk : k = a
    · subst hk
      rw [List.filter_cons_of_neg (by simp), ih, Memory.read_cons]
      by_cases hb : b = k
      · simp [hb]
      · simp [hb, Ne.symm hb]
    · rw [List.filter_cons_of_pos (by simpa using hk), Memory.read_cons, Memory.read_cons, ih]
      by_cases hb : k = b
      · subst hb; simp [hk]
      · simp [hb]

theorem Memory.read_insert (m : Memory) (a b : Nat) (v : Byte)
    (fresh : ∀ cell ∈ m, cell.1 ≠ a) :
    (m.insert a v).read b = if b = a then v else m.read b := by
  induction m with
  | nil => simp [Memory.insert, eq_comm]
  | cons cell rest ih =>
    obtain ⟨k, x⟩ := cell
    have hk : k ≠ a := fresh (k, x) (by simp)
    have ih := ih fun c hc => fresh c (by simp [hc])
    rw [Memory.insert]
    split
    · rw [Memory.read_cons, Memory.read_cons]
      by_cases hb : b = a
      · simp [hb]
      · simp [hb, Ne.symm hb]
    · rw [Memory.read_cons, Memory.read_cons, ih]
      by_cases hb : k = b
      · subst hb; simp [hk]
      · simp [hb]

theorem Memory.erase_fresh (m : Memory) (a : Nat) : ∀ cell ∈ m.erase a, cell.1 ≠ a := by
  intro cell h
  simpa [Memory.erase] using (List.mem_filter.mp h).2

/-- What a write of one byte does to every byte (R90, R120 item 1). -/
theorem Memory.read_write (m : Memory) (a b : Nat) (v : Byte) :
    (m.write a v).read b = if b = a then v else m.read b := by
  rw [Memory.write]
  split
  · next h => rw [Memory.read_erase, h]
  · rw [Memory.read_insert _ _ _ _ (Memory.erase_fresh m a), Memory.read_erase]
    split <;> rfl

theorem Memory.read_write_same (m : Memory) (a : Nat) (v : Byte) : (m.write a v).read a = v := by
  simp [Memory.read_write]

theorem Memory.read_write_other (m : Memory) {a b : Nat} (v : Byte) (h : b ≠ a) :
    (m.write a v).read b = m.read b := by
  simp [Memory.read_write, h]

/-! ## Wider accesses -/

theorem Memory.read_writeBytes (m : Memory) (a b : Nat) (bs : List Byte) :
    (m.writeBytes a bs).read b =
      if h : a ≤ b ∧ b - a < bs.length then bs[b - a]'h.2 else m.read b := by
  induction bs generalizing m a with
  | nil => simp [Memory.writeBytes]
  | cons v rest ih =>
    rw [Memory.writeBytes, ih, Memory.read_write]
    by_cases hab : b = a
    · subst hab; simp
    · by_cases hle : a + 1 ≤ b
      · obtain ⟨d, rfl⟩ := Nat.exists_eq_add_of_le hle
        have h1 : a + 1 + d - (a + 1) = d := by omega
        have h2 : a + 1 + d - a = d + 1 := by omega
        simp only [h1, h2, List.length_cons]
        by_cases hd : d < rest.length
        · rw [dif_pos ⟨by omega, hd⟩, dif_pos ⟨by omega, by omega⟩]; rfl
        · rw [dif_neg (by omega), dif_neg (by omega), if_neg hab]
      · rw [dif_neg (by omega), dif_neg (by omega), if_neg hab]

/-- What a store does to every byte: byte `b - a` of the value inside, nothing outside (R95). -/
theorem Memory.read_store (big : Bool) (w : Width) (m : Memory) (a b : Nat) (v : Word) :
    (m.store big w a v).read b =
      if a ≤ b ∧ b < a + w.bytes then byteOf big w v (b - a) else m.read b := by
  rw [Memory.store, Memory.read_writeBytes]
  by_cases h : a ≤ b ∧ b < a + w.bytes
  · rw [if_pos h, dif_pos ⟨h.1, by simp; omega⟩]; simp
  · rw [if_neg h, dif_neg (by simp; omega)]

/-- Two memories that agree on an access's bytes give it the same value. -/
theorem Memory.value_congr (big : Bool) (w : Width) {m m' : Memory} {a : Nat}
    (h : ∀ b, a ≤ b → b < a + w.bytes → m'.read b = m.read b) :
    m'.value big w a = m.value big w a := by
  cases w <;> simp only [Width.bytes] at h
  · simp [Memory.value, h a (by omega) (by omega)]
  · simp [Memory.value, h a (by omega) (by omega), h (a + 1) (by omega) (by omega)]
  · simp [Memory.value, h a (by omega) (by omega), h (a + 1) (by omega) (by omega),
      h (a + 2) (by omega) (by omega), h (a + 3) (by omega) (by omega)]

/-- The four bytes of a word make it. -/
theorem append_bytes (v : Word) :
    v.extractLsb' 24 8 ++ v.extractLsb' 16 8 ++ v.extractLsb' 8 8 ++ v.extractLsb' 0 8 = v := by
  rw [BitVec.extractLsb'_append_extractLsb'_eq_extractLsb' (by omega),
    BitVec.extractLsb'_append_extractLsb'_eq_extractLsb' (by omega),
    BitVec.extractLsb'_append_extractLsb'_eq_extractLsb' (by omega)]
  exact BitVec.extractLsb'_eq_self

/-- A word read where it was stored. -/
theorem Memory.value_store_word (big : Bool) (m : Memory) (a : Nat) (v : Word) :
    (m.store big .word a v).value big .word a = v := by
  have h := append_bytes v
  cases big <;>
    simpa [Memory.value, Memory.read_store, byteOf, Width.bytes] using h

/-- A word read elsewhere than a store. -/
theorem Memory.value_store_apart (big : Bool) (w w' : Width) (m : Memory) {a b : Nat} (v : Word)
    (h : b + w'.bytes ≤ a ∨ a + w.bytes ≤ b) :
    (m.store big w a v).value big w' b = m.value big w' b :=
  Memory.value_congr big w' fun x h1 h2 => by
    rw [Memory.read_store, if_neg (by omega)]

/-! ## The canonical form -/

theorem Memory.wfFrom_mono {lo lo' : Nat} (h : lo' ≤ lo) {m : Memory}
    (hm : Memory.wfFrom lo m = true) : Memory.wfFrom lo' m = true := by
  cases m with
  | nil => rfl
  | cons cell rest =>
    obtain ⟨k, x⟩ := cell
    simp only [Memory.wfFrom, Bool.and_eq_true, decide_eq_true_eq] at hm ⊢
    exact ⟨⟨⟨by omega, hm.1.1.2⟩, hm.1.2⟩, hm.2⟩

theorem Memory.wfFrom_erase {lo : Nat} {m : Memory} (a : Nat) (hm : Memory.wfFrom lo m = true) :
    Memory.wfFrom lo (m.erase a) = true := by
  induction m generalizing lo with
  | nil => rfl
  | cons cell rest ih =>
    obtain ⟨k, x⟩ := cell
    have hm' := hm
    simp only [Memory.wfFrom, Bool.and_eq_true, decide_eq_true_eq] at hm'
    rw [Memory.erase] at ih ⊢
    by_cases hk : k = a
    · rw [List.filter_cons_of_neg (by simp [hk])]
      exact Memory.wfFrom_mono (by omega) (ih hm'.2)
    · rw [List.filter_cons_of_pos (by simpa using hk)]
      simp only [Memory.wfFrom, Bool.and_eq_true, decide_eq_true_eq]
      exact ⟨hm'.1, ih hm'.2⟩

theorem Memory.wfFrom_insert {lo : Nat} {m : Memory} {a : Nat} {v : Byte}
    (hm : Memory.wfFrom lo m = true) (hlo : lo ≤ a) (ha : a < 2 ^ 32) (hv : v ≠ Memory.unlisted)
    (fresh : ∀ cell ∈ m, cell.1 ≠ a) : Memory.wfFrom lo (m.insert a v) = true := by
  induction m generalizing lo with
  | nil => simp [Memory.insert, Memory.wfFrom, hlo, hv]; simpa using ha
  | cons cell rest ih =>
    obtain ⟨k, x⟩ := cell
    have hk : k ≠ a := fresh (k, x) (by simp)
    simp only [Memory.wfFrom, Bool.and_eq_true, decide_eq_true_eq] at hm
    rw [Memory.insert]
    split
    · next h =>
      simp only [Memory.wfFrom, Bool.and_eq_true, decide_eq_true_eq, bne_iff_ne]
      exact ⟨⟨⟨hlo, ha⟩, hv⟩, ⟨⟨by omega, hm.1.1.2⟩, by simpa using hm.1.2⟩, hm.2⟩
    · simp only [Memory.wfFrom, Bool.and_eq_true, decide_eq_true_eq]
      exact ⟨hm.1, ih hm.2 (by omega) fun c hc => fresh c (by simp [hc])⟩

/-- A write of one byte keeps the canonical form. -/
theorem Memory.wf_write {m : Memory} {a : Nat} (v : Byte) (hm : m.wf = true) (ha : a < 2 ^ 32) :
    (m.write a v).wf = true := by
  rw [Memory.write]
  split
  · exact Memory.wfFrom_erase a hm
  · next h =>
    exact Memory.wfFrom_insert (Memory.wfFrom_erase a hm) (Nat.zero_le a) ha h (Memory.erase_fresh m a)

theorem Memory.wf_writeBytes {m : Memory} {a : Nat} {bs : List Byte} (hm : m.wf = true)
    (ha : a + bs.length ≤ 2 ^ 32) : (m.writeBytes a bs).wf = true := by
  induction bs generalizing m a with
  | nil => exact hm
  | cons b rest ih =>
    simp only [List.length_cons] at ha
    exact ih (Memory.wf_write b hm (by omega)) (by omega)

/-- A store that stays in the address space keeps the canonical form. -/
theorem Memory.wf_store (big : Bool) (w : Width) {m : Memory} {a : Nat} (v : Word)
    (hm : m.wf = true) (ha : a + w.bytes ≤ 2 ^ 32) : (m.store big w a v).wf = true :=
  Memory.wf_writeBytes hm (by simpa using ha)

/-- An aligned access stays in the address space. -/
theorem aligned_in_range (w : Width) (a : Word) (h : a.toNat % w.bytes = 0) :
    a.toNat + w.bytes ≤ 2 ^ 32 := by
  have := a.isLt
  cases w <;> simp only [Width.bytes] at h ⊢ <;> omega

theorem Memory.wf_nil : Memory.wf [] = true := rfl

end Sys2Proof.Machine
end

