-- ==== Sys2Proof/Laws/State.lean ====
section
/-! SUPPORT. What each update of the state does to each field, so that no later proof unfolds one. -/

namespace Sys2Proof.Machine

open Sys2Proof

/-! ## setLow -/

@[simp] theorem State.setLow_cfg (s : State) (i : LowReg) (v : Word) :
    (s.setLow i v).cfg = s.cfg := rfl

@[simp] theorem State.setLow_r (s : State) (i : LowReg) (v : Word) :
    (s.setLow i v).r = s.r.set i.val v := rfl

@[simp] theorem State.setLow_spMain (s : State) (i : LowReg) (v : Word) :
    (s.setLow i v).spMain = s.spMain := rfl

@[simp] theorem State.setLow_spProcess (s : State) (i : LowReg) (v : Word) :
    (s.setLow i v).spProcess = s.spProcess := rfl

@[simp] theorem State.setLow_lr (s : State) (i : LowReg) (v : Word) :
    (s.setLow i v).lr = s.lr := rfl

@[simp] theorem State.setLow_pc (s : State) (i : LowReg) (v : Word) :
    (s.setLow i v).pc = s.pc := rfl

@[simp] theorem State.setLow_flags (s : State) (i : LowReg) (v : Word) :
    (s.setLow i v).flags = s.flags := rfl

@[simp] theorem State.setLow_ipsr (s : State) (i : LowReg) (v : Word) :
    (s.setLow i v).ipsr = s.ipsr := rfl

@[simp] theorem State.setLow_t (s : State) (i : LowReg) (v : Word) :
    (s.setLow i v).t = s.t := rfl

@[simp] theorem State.setLow_primask (s : State) (i : LowReg) (v : Word) :
    (s.setLow i v).primask = s.primask := rfl

@[simp] theorem State.setLow_npriv (s : State) (i : LowReg) (v : Word) :
    (s.setLow i v).npriv = s.npriv := rfl

@[simp] theorem State.setLow_spsel (s : State) (i : LowReg) (v : Word) :
    (s.setLow i v).spsel = s.spsel := rfl

@[simp] theorem State.setLow_pending (s : State) (i : LowReg) (v : Word) :
    (s.setLow i v).pending = s.pending := rfl

@[simp] theorem State.setLow_active (s : State) (i : LowReg) (v : Word) :
    (s.setLow i v).active = s.active := rfl

@[simp] theorem State.setLow_enabled (s : State) (i : LowReg) (v : Word) :
    (s.setLow i v).enabled = s.enabled := rfl

@[simp] theorem State.setLow_pri (s : State) (i : LowReg) (v : Word) :
    (s.setLow i v).pri = s.pri := rfl

@[simp] theorem State.setLow_event (s : State) (i : LowReg) (v : Word) :
    (s.setLow i v).event = s.event := rfl

@[simp] theorem State.setLow_lockup (s : State) (i : LowReg) (v : Word) :
    (s.setLow i v).lockup = s.lockup := rfl

@[simp] theorem State.setLow_sleep (s : State) (i : LowReg) (v : Word) :
    (s.setLow i v).sleep = s.sleep := rfl

@[simp] theorem State.setLow_scr (s : State) (i : LowReg) (v : Word) :
    (s.setLow i v).scr = s.scr := rfl

@[simp] theorem State.setLow_vtor (s : State) (i : LowReg) (v : Word) :
    (s.setLow i v).vtor = s.vtor := rfl

@[simp] theorem State.setLow_resetRequest (s : State) (i : LowReg) (v : Word) :
    (s.setLow i v).resetRequest = s.resetRequest := rfl

@[simp] theorem State.setLow_syst (s : State) (i : LowReg) (v : Word) :
    (s.setLow i v).syst = s.syst := rfl

@[simp] theorem State.setLow_irqLine (s : State) (i : LowReg) (v : Word) :
    (s.setLow i v).irqLine = s.irqLine := rfl

@[simp] theorem State.setLow_nmiLine (s : State) (i : LowReg) (v : Word) :
    (s.setLow i v).nmiLine = s.nmiLine := rfl

@[simp] theorem State.setLow_mem (s : State) (i : LowReg) (v : Word) :
    (s.setLow i v).mem = s.mem := rfl

@[simp] theorem State.setLow_inputs (s : State) (i : LowReg) (v : Word) :
    (s.setLow i v).inputs = s.inputs := rfl

@[simp] theorem State.setLow_deviceIn (s : State) (i : LowReg) (v : Word) :
    (s.setLow i v).deviceIn = s.deviceIn := rfl

@[simp] theorem State.setLow_deviceLog (s : State) (i : LowReg) (v : Word) :
    (s.setLow i v).deviceLog = s.deviceLog := rfl

@[simp] theorem State.setLow_resetIn (s : State) (i : LowReg) (v : Word) :
    (s.setLow i v).resetIn = s.resetIn := rfl

@[simp] theorem State.setLow_dirty (s : State) (i : LowReg) (v : Word) :
    (s.setLow i v).dirty = s.dirty := rfl

@[simp] theorem State.setLow_mustTake (s : State) (i : LowReg) (v : Word) :
    (s.setLow i v).mustTake = s.mustTake := rfl

@[simp] theorem State.setLow_free (s : State) (i : LowReg) (v : Word) :
    (s.setLow i v).free = s.free := rfl

/-! ## setSp -/

@[simp] theorem State.setSp_cfg (s : State) (v : Word) :
    (s.setSp v).cfg = s.cfg := rfl

@[simp] theorem State.setSp_r (s : State) (v : Word) :
    (s.setSp v).r = s.r := rfl

@[simp] theorem State.setSp_spMain (s : State) (v : Word) :
    (s.setSp v).spMain = if s.useProcess then s.spMain else alignWord v := rfl

@[simp] theorem State.setSp_spProcess (s : State) (v : Word) :
    (s.setSp v).spProcess = if s.useProcess then alignWord v else s.spProcess := rfl

@[simp] theorem State.setSp_lr (s : State) (v : Word) :
    (s.setSp v).lr = s.lr := rfl

@[simp] theorem State.setSp_pc (s : State) (v : Word) :
    (s.setSp v).pc = s.pc := rfl

@[simp] theorem State.setSp_flags (s : State) (v : Word) :
    (s.setSp v).flags = s.flags := rfl

@[simp] theorem State.setSp_ipsr (s : State) (v : Word) :
    (s.setSp v).ipsr = s.ipsr := rfl

@[simp] theorem State.setSp_t (s : State) (v : Word) :
    (s.setSp v).t = s.t := rfl

@[simp] theorem State.setSp_primask (s : State) (v : Word) :
    (s.setSp v).primask = s.primask := rfl

@[simp] theorem State.setSp_npriv (s : State) (v : Word) :
    (s.setSp v).npriv = s.npriv := rfl

@[simp] theorem State.setSp_spsel (s : State) (v : Word) :
    (s.setSp v).spsel = s.spsel := rfl

@[simp] theorem State.setSp_pending (s : State) (v : Word) :
    (s.setSp v).pending = s.pending := rfl

@[simp] theorem State.setSp_active (s : State) (v : Word) :
    (s.setSp v).active = s.active := rfl

@[simp] theorem State.setSp_enabled (s : State) (v : Word) :
    (s.setSp v).enabled = s.enabled := rfl

@[simp] theorem State.setSp_pri (s : State) (v : Word) :
    (s.setSp v).pri = s.pri := rfl

@[simp] theorem State.setSp_event (s : State) (v : Word) :
    (s.setSp v).event = s.event := rfl

@[simp] theorem State.setSp_lockup (s : State) (v : Word) :
    (s.setSp v).lockup = s.lockup := rfl

@[simp] theorem State.setSp_sleep (s : State) (v : Word) :
    (s.setSp v).sleep = s.sleep := rfl

@[simp] theorem State.setSp_scr (s : State) (v : Word) :
    (s.setSp v).scr = s.scr := rfl

@[simp] theorem State.setSp_vtor (s : State) (v : Word) :
    (s.setSp v).vtor = s.vtor := rfl

@[simp] theorem State.setSp_resetRequest (s : State) (v : Word) :
    (s.setSp v).resetRequest = s.resetRequest := rfl

@[simp] theorem State.setSp_syst (s : State) (v : Word) :
    (s.setSp v).syst = s.syst := rfl

@[simp] theorem State.setSp_irqLine (s : State) (v : Word) :
    (s.setSp v).irqLine = s.irqLine := rfl

@[simp] theorem State.setSp_nmiLine (s : State) (v : Word) :
    (s.setSp v).nmiLine = s.nmiLine := rfl

@[simp] theorem State.setSp_mem (s : State) (v : Word) :
    (s.setSp v).mem = s.mem := rfl

@[simp] theorem State.setSp_inputs (s : State) (v : Word) :
    (s.setSp v).inputs = s.inputs := rfl

@[simp] theorem State.setSp_deviceIn (s : State) (v : Word) :
    (s.setSp v).deviceIn = s.deviceIn := rfl

@[simp] theorem State.setSp_deviceLog (s : State) (v : Word) :
    (s.setSp v).deviceLog = s.deviceLog := rfl

@[simp] theorem State.setSp_resetIn (s : State) (v : Word) :
    (s.setSp v).resetIn = s.resetIn := rfl

@[simp] theorem State.setSp_dirty (s : State) (v : Word) :
    (s.setSp v).dirty = s.dirty := rfl

@[simp] theorem State.setSp_mustTake (s : State) (v : Word) :
    (s.setSp v).mustTake = s.mustTake := rfl

@[simp] theorem State.setSp_free (s : State) (v : Word) :
    (s.setSp v).free = s.free := rfl

/-! ## setFlags -/

@[simp] theorem State.setFlags_cfg (s : State) (f : Flags) :
    (s.setFlags f).cfg = s.cfg := rfl

@[simp] theorem State.setFlags_r (s : State) (f : Flags) :
    (s.setFlags f).r = s.r := rfl

@[simp] theorem State.setFlags_spMain (s : State) (f : Flags) :
    (s.setFlags f).spMain = s.spMain := rfl

@[simp] theorem State.setFlags_spProcess (s : State) (f : Flags) :
    (s.setFlags f).spProcess = s.spProcess := rfl

@[simp] theorem State.setFlags_lr (s : State) (f : Flags) :
    (s.setFlags f).lr = s.lr := rfl

@[simp] theorem State.setFlags_pc (s : State) (f : Flags) :
    (s.setFlags f).pc = s.pc := rfl

@[simp] theorem State.setFlags_flags (s : State) (f : Flags) :
    (s.setFlags f).flags = f := rfl

@[simp] theorem State.setFlags_ipsr (s : State) (f : Flags) :
    (s.setFlags f).ipsr = s.ipsr := rfl

@[simp] theorem State.setFlags_t (s : State) (f : Flags) :
    (s.setFlags f).t = s.t := rfl

@[simp] theorem State.setFlags_primask (s : State) (f : Flags) :
    (s.setFlags f).primask = s.primask := rfl

@[simp] theorem State.setFlags_npriv (s : State) (f : Flags) :
    (s.setFlags f).npriv = s.npriv := rfl

@[simp] theorem State.setFlags_spsel (s : State) (f : Flags) :
    (s.setFlags f).spsel = s.spsel := rfl

@[simp] theorem State.setFlags_pending (s : State) (f : Flags) :
    (s.setFlags f).pending = s.pending := rfl

@[simp] theorem State.setFlags_active (s : State) (f : Flags) :
    (s.setFlags f).active = s.active := rfl

@[simp] theorem State.setFlags_enabled (s : State) (f : Flags) :
    (s.setFlags f).enabled = s.enabled := rfl

@[simp] theorem State.setFlags_pri (s : State) (f : Flags) :
    (s.setFlags f).pri = s.pri := rfl

@[simp] theorem State.setFlags_event (s : State) (f : Flags) :
    (s.setFlags f).event = s.event := rfl

@[simp] theorem State.setFlags_lockup (s : State) (f : Flags) :
    (s.setFlags f).lockup = s.lockup := rfl

@[simp] theorem State.setFlags_sleep (s : State) (f : Flags) :
    (s.setFlags f).sleep = s.sleep := rfl

@[simp] theorem State.setFlags_scr (s : State) (f : Flags) :
    (s.setFlags f).scr = s.scr := rfl

@[simp] theorem State.setFlags_vtor (s : State) (f : Flags) :
    (s.setFlags f).vtor = s.vtor := rfl

@[simp] theorem State.setFlags_resetRequest (s : State) (f : Flags) :
    (s.setFlags f).resetRequest = s.resetRequest := rfl

@[simp] theorem State.setFlags_syst (s : State) (f : Flags) :
    (s.setFlags f).syst = s.syst := rfl

@[simp] theorem State.setFlags_irqLine (s : State) (f : Flags) :
    (s.setFlags f).irqLine = s.irqLine := rfl

@[simp] theorem State.setFlags_nmiLine (s : State) (f : Flags) :
    (s.setFlags f).nmiLine = s.nmiLine := rfl

@[simp] theorem State.setFlags_mem (s : State) (f : Flags) :
    (s.setFlags f).mem = s.mem := rfl

@[simp] theorem State.setFlags_inputs (s : State) (f : Flags) :
    (s.setFlags f).inputs = s.inputs := rfl

@[simp] theorem State.setFlags_deviceIn (s : State) (f : Flags) :
    (s.setFlags f).deviceIn = s.deviceIn := rfl

@[simp] theorem State.setFlags_deviceLog (s : State) (f : Flags) :
    (s.setFlags f).deviceLog = s.deviceLog := rfl

@[simp] theorem State.setFlags_resetIn (s : State) (f : Flags) :
    (s.setFlags f).resetIn = s.resetIn := rfl

@[simp] theorem State.setFlags_dirty (s : State) (f : Flags) :
    (s.setFlags f).dirty = s.dirty := rfl

@[simp] theorem State.setFlags_mustTake (s : State) (f : Flags) :
    (s.setFlags f).mustTake = s.mustTake := rfl

@[simp] theorem State.setFlags_free (s : State) (f : Flags) :
    (s.setFlags f).free = s.free := rfl

/-! ## branchTo -/

@[simp] theorem State.branchTo_cfg (s : State) (a : Word) :
    (s.branchTo a).cfg = s.cfg := rfl

@[simp] theorem State.branchTo_r (s : State) (a : Word) :
    (s.branchTo a).r = s.r := rfl

@[simp] theorem State.branchTo_spMain (s : State) (a : Word) :
    (s.branchTo a).spMain = s.spMain := rfl

@[simp] theorem State.branchTo_spProcess (s : State) (a : Word) :
    (s.branchTo a).spProcess = s.spProcess := rfl

@[simp] theorem State.branchTo_lr (s : State) (a : Word) :
    (s.branchTo a).lr = s.lr := rfl

@[simp] theorem State.branchTo_pc (s : State) (a : Word) :
    (s.branchTo a).pc = alignHalf a := rfl

@[simp] theorem State.branchTo_flags (s : State) (a : Word) :
    (s.branchTo a).flags = s.flags := rfl

@[simp] theorem State.branchTo_ipsr (s : State) (a : Word) :
    (s.branchTo a).ipsr = s.ipsr := rfl

@[simp] theorem State.branchTo_t (s : State) (a : Word) :
    (s.branchTo a).t = s.t := rfl

@[simp] theorem State.branchTo_primask (s : State) (a : Word) :
    (s.branchTo a).primask = s.primask := rfl

@[simp] theorem State.branchTo_npriv (s : State) (a : Word) :
    (s.branchTo a).npriv = s.npriv := rfl

@[simp] theorem State.branchTo_spsel (s : State) (a : Word) :
    (s.branchTo a).spsel = s.spsel := rfl

@[simp] theorem State.branchTo_pending (s : State) (a : Word) :
    (s.branchTo a).pending = s.pending := rfl

@[simp] theorem State.branchTo_active (s : State) (a : Word) :
    (s.branchTo a).active = s.active := rfl

@[simp] theorem State.branchTo_enabled (s : State) (a : Word) :
    (s.branchTo a).enabled = s.enabled := rfl

@[simp] theorem State.branchTo_pri (s : State) (a : Word) :
    (s.branchTo a).pri = s.pri := rfl

@[simp] theorem State.branchTo_event (s : State) (a : Word) :
    (s.branchTo a).event = s.event := rfl

@[simp] theorem State.branchTo_lockup (s : State) (a : Word) :
    (s.branchTo a).lockup = s.lockup := rfl

@[simp] theorem State.branchTo_sleep (s : State) (a : Word) :
    (s.branchTo a).sleep = s.sleep := rfl

@[simp] theorem State.branchTo_scr (s : State) (a : Word) :
    (s.branchTo a).scr = s.scr := rfl

@[simp] theorem State.branchTo_vtor (s : State) (a : Word) :
    (s.branchTo a).vtor = s.vtor := rfl

@[simp] theorem State.branchTo_resetRequest (s : State) (a : Word) :
    (s.branchTo a).resetRequest = s.resetRequest := rfl

@[simp] theorem State.branchTo_syst (s : State) (a : Word) :
    (s.branchTo a).syst = s.syst := rfl

@[simp] theorem State.branchTo_irqLine (s : State) (a : Word) :
    (s.branchTo a).irqLine = s.irqLine := rfl

@[simp] theorem State.branchTo_nmiLine (s : State) (a : Word) :
    (s.branchTo a).nmiLine = s.nmiLine := rfl

@[simp] theorem State.branchTo_mem (s : State) (a : Word) :
    (s.branchTo a).mem = s.mem := rfl

@[simp] theorem State.branchTo_inputs (s : State) (a : Word) :
    (s.branchTo a).inputs = s.inputs := rfl

@[simp] theorem State.branchTo_deviceIn (s : State) (a : Word) :
    (s.branchTo a).deviceIn = s.deviceIn := rfl

@[simp] theorem State.branchTo_deviceLog (s : State) (a : Word) :
    (s.branchTo a).deviceLog = s.deviceLog := rfl

@[simp] theorem State.branchTo_resetIn (s : State) (a : Word) :
    (s.branchTo a).resetIn = s.resetIn := rfl

@[simp] theorem State.branchTo_dirty (s : State) (a : Word) :
    (s.branchTo a).dirty = s.dirty := rfl

@[simp] theorem State.branchTo_mustTake (s : State) (a : Word) :
    (s.branchTo a).mustTake = s.mustTake := rfl

@[simp] theorem State.branchTo_free (s : State) (a : Word) :
    (s.branchTo a).free = s.free := rfl

/-! ## exchangeTo -/

@[simp] theorem State.exchangeTo_cfg (s : State) (a : Word) :
    (s.exchangeTo a).cfg = s.cfg := rfl

@[simp] theorem State.exchangeTo_r (s : State) (a : Word) :
    (s.exchangeTo a).r = s.r := rfl

@[simp] theorem State.exchangeTo_spMain (s : State) (a : Word) :
    (s.exchangeTo a).spMain = s.spMain := rfl

@[simp] theorem State.exchangeTo_spProcess (s : State) (a : Word) :
    (s.exchangeTo a).spProcess = s.spProcess := rfl

@[simp] theorem State.exchangeTo_lr (s : State) (a : Word) :
    (s.exchangeTo a).lr = s.lr := rfl

@[simp] theorem State.exchangeTo_pc (s : State) (a : Word) :
    (s.exchangeTo a).pc = alignHalf a := rfl

@[simp] theorem State.exchangeTo_flags (s : State) (a : Word) :
    (s.exchangeTo a).flags = s.flags := rfl

@[simp] theorem State.exchangeTo_ipsr (s : State) (a : Word) :
    (s.exchangeTo a).ipsr = s.ipsr := rfl

@[simp] theorem State.exchangeTo_t (s : State) (a : Word) :
    (s.exchangeTo a).t = a.getLsbD 0 := rfl

@[simp] theorem State.exchangeTo_primask (s : State) (a : Word) :
    (s.exchangeTo a).primask = s.primask := rfl

@[simp] theorem State.exchangeTo_npriv (s : State) (a : Word) :
    (s.exchangeTo a).npriv = s.npriv := rfl

@[simp] theorem State.exchangeTo_spsel (s : State) (a : Word) :
    (s.exchangeTo a).spsel = s.spsel := rfl

@[simp] theorem State.exchangeTo_pending (s : State) (a : Word) :
    (s.exchangeTo a).pending = s.pending := rfl

@[simp] theorem State.exchangeTo_active (s : State) (a : Word) :
    (s.exchangeTo a).active = s.active := rfl

@[simp] theorem State.exchangeTo_enabled (s : State) (a : Word) :
    (s.exchangeTo a).enabled = s.enabled := rfl

@[simp] theorem State.exchangeTo_pri (s : State) (a : Word) :
    (s.exchangeTo a).pri = s.pri := rfl

@[simp] theorem State.exchangeTo_event (s : State) (a : Word) :
    (s.exchangeTo a).event = s.event := rfl

@[simp] theorem State.exchangeTo_lockup (s : State) (a : Word) :
    (s.exchangeTo a).lockup = s.lockup := rfl

@[simp] theorem State.exchangeTo_sleep (s : State) (a : Word) :
    (s.exchangeTo a).sleep = s.sleep := rfl

@[simp] theorem State.exchangeTo_scr (s : State) (a : Word) :
    (s.exchangeTo a).scr = s.scr := rfl

@[simp] theorem State.exchangeTo_vtor (s : State) (a : Word) :
    (s.exchangeTo a).vtor = s.vtor := rfl

@[simp] theorem State.exchangeTo_resetRequest (s : State) (a : Word) :
    (s.exchangeTo a).resetRequest = s.resetRequest := rfl

@[simp] theorem State.exchangeTo_syst (s : State) (a : Word) :
    (s.exchangeTo a).syst = s.syst := rfl

@[simp] theorem State.exchangeTo_irqLine (s : State) (a : Word) :
    (s.exchangeTo a).irqLine = s.irqLine := rfl

@[simp] theorem State.exchangeTo_nmiLine (s : State) (a : Word) :
    (s.exchangeTo a).nmiLine = s.nmiLine := rfl

@[simp] theorem State.exchangeTo_mem (s : State) (a : Word) :
    (s.exchangeTo a).mem = s.mem := rfl

@[simp] theorem State.exchangeTo_inputs (s : State) (a : Word) :
    (s.exchangeTo a).inputs = s.inputs := rfl

@[simp] theorem State.exchangeTo_deviceIn (s : State) (a : Word) :
    (s.exchangeTo a).deviceIn = s.deviceIn := rfl

@[simp] theorem State.exchangeTo_deviceLog (s : State) (a : Word) :
    (s.exchangeTo a).deviceLog = s.deviceLog := rfl

@[simp] theorem State.exchangeTo_resetIn (s : State) (a : Word) :
    (s.exchangeTo a).resetIn = s.resetIn := rfl

@[simp] theorem State.exchangeTo_dirty (s : State) (a : Word) :
    (s.exchangeTo a).dirty = s.dirty := rfl

@[simp] theorem State.exchangeTo_mustTake (s : State) (a : Word) :
    (s.exchangeTo a).mustTake = s.mustTake := rfl

@[simp] theorem State.exchangeTo_free (s : State) (a : Word) :
    (s.exchangeTo a).free = s.free := rfl

/-! ## withPending -/

@[simp] theorem State.withPending_cfg (s : State) (p : ExcBits) :
    (s.withPending p).cfg = s.cfg := rfl

@[simp] theorem State.withPending_r (s : State) (p : ExcBits) :
    (s.withPending p).r = s.r := rfl

@[simp] theorem State.withPending_spMain (s : State) (p : ExcBits) :
    (s.withPending p).spMain = s.spMain := rfl

@[simp] theorem State.withPending_spProcess (s : State) (p : ExcBits) :
    (s.withPending p).spProcess = s.spProcess := rfl

@[simp] theorem State.withPending_lr (s : State) (p : ExcBits) :
    (s.withPending p).lr = s.lr := rfl

@[simp] theorem State.withPending_pc (s : State) (p : ExcBits) :
    (s.withPending p).pc = s.pc := rfl

@[simp] theorem State.withPending_flags (s : State) (p : ExcBits) :
    (s.withPending p).flags = s.flags := rfl

@[simp] theorem State.withPending_ipsr (s : State) (p : ExcBits) :
    (s.withPending p).ipsr = s.ipsr := rfl

@[simp] theorem State.withPending_t (s : State) (p : ExcBits) :
    (s.withPending p).t = s.t := rfl

@[simp] theorem State.withPending_primask (s : State) (p : ExcBits) :
    (s.withPending p).primask = s.primask := rfl

@[simp] theorem State.withPending_npriv (s : State) (p : ExcBits) :
    (s.withPending p).npriv = s.npriv := rfl

@[simp] theorem State.withPending_spsel (s : State) (p : ExcBits) :
    (s.withPending p).spsel = s.spsel := rfl

@[simp] theorem State.withPending_pending (s : State) (p : ExcBits) :
    (s.withPending p).pending = p := rfl

@[simp] theorem State.withPending_active (s : State) (p : ExcBits) :
    (s.withPending p).active = s.active := rfl

@[simp] theorem State.withPending_enabled (s : State) (p : ExcBits) :
    (s.withPending p).enabled = s.enabled := rfl

@[simp] theorem State.withPending_pri (s : State) (p : ExcBits) :
    (s.withPending p).pri = s.pri := rfl

@[simp] theorem State.withPending_event (s : State) (p : ExcBits) :
    (s.withPending p).event = (s.event || (s.scr.sevOnPend && ExcBits.anyNew s.pending p)) := rfl

@[simp] theorem State.withPending_lockup (s : State) (p : ExcBits) :
    (s.withPending p).lockup = s.lockup := rfl

@[simp] theorem State.withPending_sleep (s : State) (p : ExcBits) :
    (s.withPending p).sleep = s.sleep := rfl

@[simp] theorem State.withPending_scr (s : State) (p : ExcBits) :
    (s.withPending p).scr = s.scr := rfl

@[simp] theorem State.withPending_vtor (s : State) (p : ExcBits) :
    (s.withPending p).vtor = s.vtor := rfl

@[simp] theorem State.withPending_resetRequest (s : State) (p : ExcBits) :
    (s.withPending p).resetRequest = s.resetRequest := rfl

@[simp] theorem State.withPending_syst (s : State) (p : ExcBits) :
    (s.withPending p).syst = s.syst := rfl

@[simp] theorem State.withPending_irqLine (s : State) (p : ExcBits) :
    (s.withPending p).irqLine = s.irqLine := rfl

@[simp] theorem State.withPending_nmiLine (s : State) (p : ExcBits) :
    (s.withPending p).nmiLine = s.nmiLine := rfl

@[simp] theorem State.withPending_mem (s : State) (p : ExcBits) :
    (s.withPending p).mem = s.mem := rfl

@[simp] theorem State.withPending_inputs (s : State) (p : ExcBits) :
    (s.withPending p).inputs = s.inputs := rfl

@[simp] theorem State.withPending_deviceIn (s : State) (p : ExcBits) :
    (s.withPending p).deviceIn = s.deviceIn := rfl

@[simp] theorem State.withPending_deviceLog (s : State) (p : ExcBits) :
    (s.withPending p).deviceLog = s.deviceLog := rfl

@[simp] theorem State.withPending_resetIn (s : State) (p : ExcBits) :
    (s.withPending p).resetIn = s.resetIn := rfl

@[simp] theorem State.withPending_dirty (s : State) (p : ExcBits) :
    (s.withPending p).dirty = s.dirty := rfl

@[simp] theorem State.withPending_mustTake (s : State) (p : ExcBits) :
    (s.withPending p).mustTake = s.mustTake := rfl

@[simp] theorem State.withPending_free (s : State) (p : ExcBits) :
    (s.withPending p).free = s.free := rfl

/-! ## resample -/

@[simp] theorem State.resample_cfg (s : State) :
    (s.resample).cfg = s.cfg := rfl

@[simp] theorem State.resample_r (s : State) :
    (s.resample).r = s.r := rfl

@[simp] theorem State.resample_spMain (s : State) :
    (s.resample).spMain = s.spMain := rfl

@[simp] theorem State.resample_spProcess (s : State) :
    (s.resample).spProcess = s.spProcess := rfl

@[simp] theorem State.resample_lr (s : State) :
    (s.resample).lr = s.lr := rfl

@[simp] theorem State.resample_pc (s : State) :
    (s.resample).pc = s.pc := rfl

@[simp] theorem State.resample_flags (s : State) :
    (s.resample).flags = s.flags := rfl

@[simp] theorem State.resample_ipsr (s : State) :
    (s.resample).ipsr = s.ipsr := rfl

@[simp] theorem State.resample_t (s : State) :
    (s.resample).t = s.t := rfl

@[simp] theorem State.resample_primask (s : State) :
    (s.resample).primask = s.primask := rfl

@[simp] theorem State.resample_npriv (s : State) :
    (s.resample).npriv = s.npriv := rfl

@[simp] theorem State.resample_spsel (s : State) :
    (s.resample).spsel = s.spsel := rfl

@[simp] theorem State.resample_active (s : State) :
    (s.resample).active = s.active := rfl

@[simp] theorem State.resample_enabled (s : State) :
    (s.resample).enabled = s.enabled := rfl

@[simp] theorem State.resample_pri (s : State) :
    (s.resample).pri = s.pri := rfl

@[simp] theorem State.resample_lockup (s : State) :
    (s.resample).lockup = s.lockup := rfl

@[simp] theorem State.resample_sleep (s : State) :
    (s.resample).sleep = s.sleep := rfl

@[simp] theorem State.resample_scr (s : State) :
    (s.resample).scr = s.scr := rfl

@[simp] theorem State.resample_vtor (s : State) :
    (s.resample).vtor = s.vtor := rfl

@[simp] theorem State.resample_resetRequest (s : State) :
    (s.resample).resetRequest = s.resetRequest := rfl

@[simp] theorem State.resample_syst (s : State) :
    (s.resample).syst = s.syst := rfl

@[simp] theorem State.resample_irqLine (s : State) :
    (s.resample).irqLine = s.irqLine := rfl

@[simp] theorem State.resample_nmiLine (s : State) :
    (s.resample).nmiLine = s.nmiLine := rfl

@[simp] theorem State.resample_mem (s : State) :
    (s.resample).mem = s.mem := rfl

@[simp] theorem State.resample_inputs (s : State) :
    (s.resample).inputs = s.inputs := rfl

@[simp] theorem State.resample_deviceIn (s : State) :
    (s.resample).deviceIn = s.deviceIn := rfl

@[simp] theorem State.resample_deviceLog (s : State) :
    (s.resample).deviceLog = s.deviceLog := rfl

@[simp] theorem State.resample_resetIn (s : State) :
    (s.resample).resetIn = s.resetIn := rfl

@[simp] theorem State.resample_dirty (s : State) :
    (s.resample).dirty = s.dirty := rfl

@[simp] theorem State.resample_mustTake (s : State) :
    (s.resample).mustTake = s.mustTake := rfl

@[simp] theorem State.resample_free (s : State) :
    (s.resample).free = s.free := rfl

/-! ## synchronise -/

@[simp] theorem State.synchronise_cfg (s : State) :
    (s.synchronise).cfg = s.cfg := rfl

@[simp] theorem State.synchronise_r (s : State) :
    (s.synchronise).r = s.r := rfl

@[simp] theorem State.synchronise_spMain (s : State) :
    (s.synchronise).spMain = s.spMain := rfl

@[simp] theorem State.synchronise_spProcess (s : State) :
    (s.synchronise).spProcess = s.spProcess := rfl

@[simp] theorem State.synchronise_lr (s : State) :
    (s.synchronise).lr = s.lr := rfl

@[simp] theorem State.synchronise_pc (s : State) :
    (s.synchronise).pc = s.pc := rfl

@[simp] theorem State.synchronise_flags (s : State) :
    (s.synchronise).flags = s.flags := rfl

@[simp] theorem State.synchronise_ipsr (s : State) :
    (s.synchronise).ipsr = s.ipsr := rfl

@[simp] theorem State.synchronise_t (s : State) :
    (s.synchronise).t = s.t := rfl

@[simp] theorem State.synchronise_primask (s : State) :
    (s.synchronise).primask = s.primask := rfl

@[simp] theorem State.synchronise_npriv (s : State) :
    (s.synchronise).npriv = s.npriv := rfl

@[simp] theorem State.synchronise_spsel (s : State) :
    (s.synchronise).spsel = s.spsel := rfl

@[simp] theorem State.synchronise_pending (s : State) :
    (s.synchronise).pending = s.pending := rfl

@[simp] theorem State.synchronise_active (s : State) :
    (s.synchronise).active = s.active := rfl

@[simp] theorem State.synchronise_enabled (s : State) :
    (s.synchronise).enabled = s.enabled := rfl

@[simp] theorem State.synchronise_pri (s : State) :
    (s.synchronise).pri = s.pri := rfl

@[simp] theorem State.synchronise_event (s : State) :
    (s.synchronise).event = s.event := rfl

@[simp] theorem State.synchronise_lockup (s : State) :
    (s.synchronise).lockup = s.lockup := rfl

@[simp] theorem State.synchronise_sleep (s : State) :
    (s.synchronise).sleep = s.sleep := rfl

@[simp] theorem State.synchronise_scr (s : State) :
    (s.synchronise).scr = s.scr := rfl

@[simp] theorem State.synchronise_vtor (s : State) :
    (s.synchronise).vtor = s.vtor := rfl

@[simp] theorem State.synchronise_resetRequest (s : State) :
    (s.synchronise).resetRequest = s.resetRequest := rfl

@[simp] theorem State.synchronise_syst (s : State) :
    (s.synchronise).syst = s.syst := rfl

@[simp] theorem State.synchronise_irqLine (s : State) :
    (s.synchronise).irqLine = s.irqLine := rfl

@[simp] theorem State.synchronise_nmiLine (s : State) :
    (s.synchronise).nmiLine = s.nmiLine := rfl

@[simp] theorem State.synchronise_mem (s : State) :
    (s.synchronise).mem = s.mem := rfl

@[simp] theorem State.synchronise_inputs (s : State) :
    (s.synchronise).inputs = s.inputs := rfl

@[simp] theorem State.synchronise_deviceIn (s : State) :
    (s.synchronise).deviceIn = s.deviceIn := rfl

@[simp] theorem State.synchronise_deviceLog (s : State) :
    (s.synchronise).deviceLog = s.deviceLog := rfl

@[simp] theorem State.synchronise_resetIn (s : State) :
    (s.synchronise).resetIn = s.resetIn := rfl

@[simp] theorem State.synchronise_dirty (s : State) :
    (s.synchronise).dirty = [] := rfl

@[simp] theorem State.synchronise_mustTake (s : State) :
    (s.synchronise).mustTake = s.best.isSome := rfl

@[simp] theorem State.synchronise_free (s : State) :
    (s.synchronise).free = s.free := rfl

/-! ## storeAt -/

@[simp] theorem State.storeAt_cfg (s : State) (w : Width) (a : Nat) (v : Word) :
    (s.storeAt w a v).cfg = s.cfg := rfl

@[simp] theorem State.storeAt_r (s : State) (w : Width) (a : Nat) (v : Word) :
    (s.storeAt w a v).r = s.r := rfl

@[simp] theorem State.storeAt_spMain (s : State) (w : Width) (a : Nat) (v : Word) :
    (s.storeAt w a v).spMain = s.spMain := rfl

@[simp] theorem State.storeAt_spProcess (s : State) (w : Width) (a : Nat) (v : Word) :
    (s.storeAt w a v).spProcess = s.spProcess := rfl

@[simp] theorem State.storeAt_lr (s : State) (w : Width) (a : Nat) (v : Word) :
    (s.storeAt w a v).lr = s.lr := rfl

@[simp] theorem State.storeAt_pc (s : State) (w : Width) (a : Nat) (v : Word) :
    (s.storeAt w a v).pc = s.pc := rfl

@[simp] theorem State.storeAt_flags (s : State) (w : Width) (a : Nat) (v : Word) :
    (s.storeAt w a v).flags = s.flags := rfl

@[simp] theorem State.storeAt_ipsr (s : State) (w : Width) (a : Nat) (v : Word) :
    (s.storeAt w a v).ipsr = s.ipsr := rfl

@[simp] theorem State.storeAt_t (s : State) (w : Width) (a : Nat) (v : Word) :
    (s.storeAt w a v).t = s.t := rfl

@[simp] theorem State.storeAt_primask (s : State) (w : Width) (a : Nat) (v : Word) :
    (s.storeAt w a v).primask = s.primask := rfl

@[simp] theorem State.storeAt_npriv (s : State) (w : Width) (a : Nat) (v : Word) :
    (s.storeAt w a v).npriv = s.npriv := rfl

@[simp] theorem State.storeAt_spsel (s : State) (w : Width) (a : Nat) (v : Word) :
    (s.storeAt w a v).spsel = s.spsel := rfl

@[simp] theorem State.storeAt_pending (s : State) (w : Width) (a : Nat) (v : Word) :
    (s.storeAt w a v).pending = s.pending := rfl

@[simp] theorem State.storeAt_active (s : State) (w : Width) (a : Nat) (v : Word) :
    (s.storeAt w a v).active = s.active := rfl

@[simp] theorem State.storeAt_enabled (s : State) (w : Width) (a : Nat) (v : Word) :
    (s.storeAt w a v).enabled = s.enabled := rfl

@[simp] theorem State.storeAt_pri (s : State) (w : Width) (a : Nat) (v : Word) :
    (s.storeAt w a v).pri = s.pri := rfl

@[simp] theorem State.storeAt_event (s : State) (w : Width) (a : Nat) (v : Word) :
    (s.storeAt w a v).event = s.event := rfl

@[simp] theorem State.storeAt_lockup (s : State) (w : Width) (a : Nat) (v : Word) :
    (s.storeAt w a v).lockup = s.lockup := rfl

@[simp] theorem State.storeAt_sleep (s : State) (w : Width) (a : Nat) (v : Word) :
    (s.storeAt w a v).sleep = s.sleep := rfl

@[simp] theorem State.storeAt_scr (s : State) (w : Width) (a : Nat) (v : Word) :
    (s.storeAt w a v).scr = s.scr := rfl

@[simp] theorem State.storeAt_vtor (s : State) (w : Width) (a : Nat) (v : Word) :
    (s.storeAt w a v).vtor = s.vtor := rfl

@[simp] theorem State.storeAt_resetRequest (s : State) (w : Width) (a : Nat) (v : Word) :
    (s.storeAt w a v).resetRequest = s.resetRequest := rfl

@[simp] theorem State.storeAt_syst (s : State) (w : Width) (a : Nat) (v : Word) :
    (s.storeAt w a v).syst = s.syst := rfl

@[simp] theorem State.storeAt_irqLine (s : State) (w : Width) (a : Nat) (v : Word) :
    (s.storeAt w a v).irqLine = s.irqLine := rfl

@[simp] theorem State.storeAt_nmiLine (s : State) (w : Width) (a : Nat) (v : Word) :
    (s.storeAt w a v).nmiLine = s.nmiLine := rfl

@[simp] theorem State.storeAt_mem (s : State) (w : Width) (a : Nat) (v : Word) :
    (s.storeAt w a v).mem = s.mem.store s.cfg.bigEndian w a v := rfl

@[simp] theorem State.storeAt_inputs (s : State) (w : Width) (a : Nat) (v : Word) :
    (s.storeAt w a v).inputs = s.inputs := rfl

@[simp] theorem State.storeAt_deviceIn (s : State) (w : Width) (a : Nat) (v : Word) :
    (s.storeAt w a v).deviceIn = s.deviceIn := rfl

@[simp] theorem State.storeAt_deviceLog (s : State) (w : Width) (a : Nat) (v : Word) :
    (s.storeAt w a v).deviceLog = s.deviceLog := rfl

@[simp] theorem State.storeAt_resetIn (s : State) (w : Width) (a : Nat) (v : Word) :
    (s.storeAt w a v).resetIn = s.resetIn := rfl

@[simp] theorem State.storeAt_dirty (s : State) (w : Width) (a : Nat) (v : Word) :
    (s.storeAt w a v).dirty = markDirty s.mem a w.bytes s.dirty := rfl

@[simp] theorem State.storeAt_mustTake (s : State) (w : Width) (a : Nat) (v : Word) :
    (s.storeAt w a v).mustTake = s.mustTake := rfl

@[simp] theorem State.storeAt_free (s : State) (w : Width) (a : Nat) (v : Word) :
    (s.storeAt w a v).free = s.free := rfl

/-! ## deviceRead -/

@[simp] theorem State.deviceRead_cfg (s : State) (acc : Access) (w : Width) (a : Word) :
    (s.deviceRead acc w a).cfg = s.cfg := rfl

@[simp] theorem State.deviceRead_r (s : State) (acc : Access) (w : Width) (a : Word) :
    (s.deviceRead acc w a).r = s.r := rfl

@[simp] theorem State.deviceRead_spMain (s : State) (acc : Access) (w : Width) (a : Word) :
    (s.deviceRead acc w a).spMain = s.spMain := rfl

@[simp] theorem State.deviceRead_spProcess (s : State) (acc : Access) (w : Width) (a : Word) :
    (s.deviceRead acc w a).spProcess = s.spProcess := rfl

@[simp] theorem State.deviceRead_lr (s : State) (acc : Access) (w : Width) (a : Word) :
    (s.deviceRead acc w a).lr = s.lr := rfl

@[simp] theorem State.deviceRead_pc (s : State) (acc : Access) (w : Width) (a : Word) :
    (s.deviceRead acc w a).pc = s.pc := rfl

@[simp] theorem State.deviceRead_flags (s : State) (acc : Access) (w : Width) (a : Word) :
    (s.deviceRead acc w a).flags = s.flags := rfl

@[simp] theorem State.deviceRead_ipsr (s : State) (acc : Access) (w : Width) (a : Word) :
    (s.deviceRead acc w a).ipsr = s.ipsr := rfl

@[simp] theorem State.deviceRead_t (s : State) (acc : Access) (w : Width) (a : Word) :
    (s.deviceRead acc w a).t = s.t := rfl

@[simp] theorem State.deviceRead_primask (s : State) (acc : Access) (w : Width) (a : Word) :
    (s.deviceRead acc w a).primask = s.primask := rfl

@[simp] theorem State.deviceRead_npriv (s : State) (acc : Access) (w : Width) (a : Word) :
    (s.deviceRead acc w a).npriv = s.npriv := rfl

@[simp] theorem State.deviceRead_spsel (s : State) (acc : Access) (w : Width) (a : Word) :
    (s.deviceRead acc w a).spsel = s.spsel := rfl

@[simp] theorem State.deviceRead_pending (s : State) (acc : Access) (w : Width) (a : Word) :
    (s.deviceRead acc w a).pending = s.pending := rfl

@[simp] theorem State.deviceRead_active (s : State) (acc : Access) (w : Width) (a : Word) :
    (s.deviceRead acc w a).active = s.active := rfl

@[simp] theorem State.deviceRead_enabled (s : State) (acc : Access) (w : Width) (a : Word) :
    (s.deviceRead acc w a).enabled = s.enabled := rfl

@[simp] theorem State.deviceRead_pri (s : State) (acc : Access) (w : Width) (a : Word) :
    (s.deviceRead acc w a).pri = s.pri := rfl

@[simp] theorem State.deviceRead_event (s : State) (acc : Access) (w : Width) (a : Word) :
    (s.deviceRead acc w a).event = s.event := rfl

@[simp] theorem State.deviceRead_lockup (s : State) (acc : Access) (w : Width) (a : Word) :
    (s.deviceRead acc w a).lockup = s.lockup := rfl

@[simp] theorem State.deviceRead_sleep (s : State) (acc : Access) (w : Width) (a : Word) :
    (s.deviceRead acc w a).sleep = s.sleep := rfl

@[simp] theorem State.deviceRead_scr (s : State) (acc : Access) (w : Width) (a : Word) :
    (s.deviceRead acc w a).scr = s.scr := rfl

@[simp] theorem State.deviceRead_vtor (s : State) (acc : Access) (w : Width) (a : Word) :
    (s.deviceRead acc w a).vtor = s.vtor := rfl

@[simp] theorem State.deviceRead_resetRequest (s : State) (acc : Access) (w : Width) (a : Word) :
    (s.deviceRead acc w a).resetRequest = s.resetRequest := rfl

@[simp] theorem State.deviceRead_syst (s : State) (acc : Access) (w : Width) (a : Word) :
    (s.deviceRead acc w a).syst = s.syst := rfl

@[simp] theorem State.deviceRead_irqLine (s : State) (acc : Access) (w : Width) (a : Word) :
    (s.deviceRead acc w a).irqLine = s.irqLine := rfl

@[simp] theorem State.deviceRead_nmiLine (s : State) (acc : Access) (w : Width) (a : Word) :
    (s.deviceRead acc w a).nmiLine = s.nmiLine := rfl

@[simp] theorem State.deviceRead_mem (s : State) (acc : Access) (w : Width) (a : Word) :
    (s.deviceRead acc w a).mem = s.mem := rfl

@[simp] theorem State.deviceRead_inputs (s : State) (acc : Access) (w : Width) (a : Word) :
    (s.deviceRead acc w a).inputs = s.inputs := rfl

@[simp] theorem State.deviceRead_deviceIn (s : State) (acc : Access) (w : Width) (a : Word) :
    (s.deviceRead acc w a).deviceIn = s.deviceIn.tail := rfl

@[simp] theorem State.deviceRead_deviceLog (s : State) (acc : Access) (w : Width) (a : Word) :
    (s.deviceRead acc w a).deviceLog = s.deviceLog ++ [⟨acc, w, a, s.deviceWord w⟩] := rfl

@[simp] theorem State.deviceRead_resetIn (s : State) (acc : Access) (w : Width) (a : Word) :
    (s.deviceRead acc w a).resetIn = s.resetIn := rfl

@[simp] theorem State.deviceRead_dirty (s : State) (acc : Access) (w : Width) (a : Word) :
    (s.deviceRead acc w a).dirty = s.dirty := rfl

@[simp] theorem State.deviceRead_mustTake (s : State) (acc : Access) (w : Width) (a : Word) :
    (s.deviceRead acc w a).mustTake = s.mustTake := rfl

@[simp] theorem State.deviceRead_free (s : State) (acc : Access) (w : Width) (a : Word) :
    (s.deviceRead acc w a).free = (if s.deviceIn.isEmpty then s.free + 1 else s.free) := rfl

/-! ## deviceWrite -/

@[simp] theorem State.deviceWrite_cfg (s : State) (w : Width) (a v : Word) :
    (s.deviceWrite w a v).cfg = s.cfg := rfl

@[simp] theorem State.deviceWrite_r (s : State) (w : Width) (a v : Word) :
    (s.deviceWrite w a v).r = s.r := rfl

@[simp] theorem State.deviceWrite_spMain (s : State) (w : Width) (a v : Word) :
    (s.deviceWrite w a v).spMain = s.spMain := rfl

@[simp] theorem State.deviceWrite_spProcess (s : State) (w : Width) (a v : Word) :
    (s.deviceWrite w a v).spProcess = s.spProcess := rfl

@[simp] theorem State.deviceWrite_lr (s : State) (w : Width) (a v : Word) :
    (s.deviceWrite w a v).lr = s.lr := rfl

@[simp] theorem State.deviceWrite_pc (s : State) (w : Width) (a v : Word) :
    (s.deviceWrite w a v).pc = s.pc := rfl

@[simp] theorem State.deviceWrite_flags (s : State) (w : Width) (a v : Word) :
    (s.deviceWrite w a v).flags = s.flags := rfl

@[simp] theorem State.deviceWrite_ipsr (s : State) (w : Width) (a v : Word) :
    (s.deviceWrite w a v).ipsr = s.ipsr := rfl

@[simp] theorem State.deviceWrite_t (s : State) (w : Width) (a v : Word) :
    (s.deviceWrite w a v).t = s.t := rfl

@[simp] theorem State.deviceWrite_primask (s : State) (w : Width) (a v : Word) :
    (s.deviceWrite w a v).primask = s.primask := rfl

@[simp] theorem State.deviceWrite_npriv (s : State) (w : Width) (a v : Word) :
    (s.deviceWrite w a v).npriv = s.npriv := rfl

@[simp] theorem State.deviceWrite_spsel (s : State) (w : Width) (a v : Word) :
    (s.deviceWrite w a v).spsel = s.spsel := rfl

@[simp] theorem State.deviceWrite_pending (s : State) (w : Width) (a v : Word) :
    (s.deviceWrite w a v).pending = s.pending := rfl

@[simp] theorem State.deviceWrite_active (s : State) (w : Width) (a v : Word) :
    (s.deviceWrite w a v).active = s.active := rfl

@[simp] theorem State.deviceWrite_enabled (s : State) (w : Width) (a v : Word) :
    (s.deviceWrite w a v).enabled = s.enabled := rfl

@[simp] theorem State.deviceWrite_pri (s : State) (w : Width) (a v : Word) :
    (s.deviceWrite w a v).pri = s.pri := rfl

@[simp] theorem State.deviceWrite_event (s : State) (w : Width) (a v : Word) :
    (s.deviceWrite w a v).event = s.event := rfl

@[simp] theorem State.deviceWrite_lockup (s : State) (w : Width) (a v : Word) :
    (s.deviceWrite w a v).lockup = s.lockup := rfl

@[simp] theorem State.deviceWrite_sleep (s : State) (w : Width) (a v : Word) :
    (s.deviceWrite w a v).sleep = s.sleep := rfl

@[simp] theorem State.deviceWrite_scr (s : State) (w : Width) (a v : Word) :
    (s.deviceWrite w a v).scr = s.scr := rfl

@[simp] theorem State.deviceWrite_vtor (s : State) (w : Width) (a v : Word) :
    (s.deviceWrite w a v).vtor = s.vtor := rfl

@[simp] theorem State.deviceWrite_resetRequest (s : State) (w : Width) (a v : Word) :
    (s.deviceWrite w a v).resetRequest = s.resetRequest := rfl

@[simp] theorem State.deviceWrite_syst (s : State) (w : Width) (a v : Word) :
    (s.deviceWrite w a v).syst = s.syst := rfl

@[simp] theorem State.deviceWrite_irqLine (s : State) (w : Width) (a v : Word) :
    (s.deviceWrite w a v).irqLine = s.irqLine := rfl

@[simp] theorem State.deviceWrite_nmiLine (s : State) (w : Width) (a v : Word) :
    (s.deviceWrite w a v).nmiLine = s.nmiLine := rfl

@[simp] theorem State.deviceWrite_mem (s : State) (w : Width) (a v : Word) :
    (s.deviceWrite w a v).mem = s.mem := rfl

@[simp] theorem State.deviceWrite_inputs (s : State) (w : Width) (a v : Word) :
    (s.deviceWrite w a v).inputs = s.inputs := rfl

@[simp] theorem State.deviceWrite_deviceIn (s : State) (w : Width) (a v : Word) :
    (s.deviceWrite w a v).deviceIn = s.deviceIn := rfl

@[simp] theorem State.deviceWrite_deviceLog (s : State) (w : Width) (a v : Word) :
    (s.deviceWrite w a v).deviceLog = s.deviceLog ++ [⟨.write, w, a, widthLow w v⟩] := rfl

@[simp] theorem State.deviceWrite_resetIn (s : State) (w : Width) (a v : Word) :
    (s.deviceWrite w a v).resetIn = s.resetIn := rfl

@[simp] theorem State.deviceWrite_dirty (s : State) (w : Width) (a v : Word) :
    (s.deviceWrite w a v).dirty = s.dirty := rfl

@[simp] theorem State.deviceWrite_mustTake (s : State) (w : Width) (a v : Word) :
    (s.deviceWrite w a v).mustTake = s.mustTake := rfl

@[simp] theorem State.deviceWrite_free (s : State) (w : Width) (a v : Word) :
    (s.deviceWrite w a v).free = s.free := rfl

/-! ## enterLockup -/

@[simp] theorem State.enterLockup_cfg (s : State) :
    (s.enterLockup).cfg = s.cfg := rfl

@[simp] theorem State.enterLockup_r (s : State) :
    (s.enterLockup).r = s.r := rfl

@[simp] theorem State.enterLockup_spMain (s : State) :
    (s.enterLockup).spMain = s.spMain := rfl

@[simp] theorem State.enterLockup_spProcess (s : State) :
    (s.enterLockup).spProcess = s.spProcess := rfl

@[simp] theorem State.enterLockup_lr (s : State) :
    (s.enterLockup).lr = s.lr := rfl

@[simp] theorem State.enterLockup_pc (s : State) :
    (s.enterLockup).pc = 0xFFFFFFFE#32 := rfl

@[simp] theorem State.enterLockup_flags (s : State) :
    (s.enterLockup).flags = s.flags := rfl

@[simp] theorem State.enterLockup_ipsr (s : State) :
    (s.enterLockup).ipsr = s.ipsr := rfl

@[simp] theorem State.enterLockup_t (s : State) :
    (s.enterLockup).t = s.t := rfl

@[simp] theorem State.enterLockup_primask (s : State) :
    (s.enterLockup).primask = s.primask := rfl

@[simp] theorem State.enterLockup_npriv (s : State) :
    (s.enterLockup).npriv = s.npriv := rfl

@[simp] theorem State.enterLockup_spsel (s : State) :
    (s.enterLockup).spsel = s.spsel := rfl

@[simp] theorem State.enterLockup_pending (s : State) :
    (s.enterLockup).pending = s.pending := rfl

@[simp] theorem State.enterLockup_active (s : State) :
    (s.enterLockup).active = s.active := rfl

@[simp] theorem State.enterLockup_enabled (s : State) :
    (s.enterLockup).enabled = s.enabled := rfl

@[simp] theorem State.enterLockup_pri (s : State) :
    (s.enterLockup).pri = s.pri := rfl

@[simp] theorem State.enterLockup_event (s : State) :
    (s.enterLockup).event = s.event := rfl

@[simp] theorem State.enterLockup_lockup (s : State) :
    (s.enterLockup).lockup = true := rfl

@[simp] theorem State.enterLockup_sleep (s : State) :
    (s.enterLockup).sleep = s.sleep := rfl

@[simp] theorem State.enterLockup_scr (s : State) :
    (s.enterLockup).scr = s.scr := rfl

@[simp] theorem State.enterLockup_vtor (s : State) :
    (s.enterLockup).vtor = s.vtor := rfl

@[simp] theorem State.enterLockup_resetRequest (s : State) :
    (s.enterLockup).resetRequest = s.resetRequest := rfl

@[simp] theorem State.enterLockup_syst (s : State) :
    (s.enterLockup).syst = s.syst := rfl

@[simp] theorem State.enterLockup_irqLine (s : State) :
    (s.enterLockup).irqLine = s.irqLine := rfl

@[simp] theorem State.enterLockup_nmiLine (s : State) :
    (s.enterLockup).nmiLine = s.nmiLine := rfl

@[simp] theorem State.enterLockup_mem (s : State) :
    (s.enterLockup).mem = s.mem := rfl

@[simp] theorem State.enterLockup_inputs (s : State) :
    (s.enterLockup).inputs = s.inputs := rfl

@[simp] theorem State.enterLockup_deviceIn (s : State) :
    (s.enterLockup).deviceIn = s.deviceIn := rfl

@[simp] theorem State.enterLockup_deviceLog (s : State) :
    (s.enterLockup).deviceLog = s.deviceLog := rfl

@[simp] theorem State.enterLockup_resetIn (s : State) :
    (s.enterLockup).resetIn = s.resetIn := rfl

@[simp] theorem State.enterLockup_dirty (s : State) :
    (s.enterLockup).dirty = s.dirty := rfl

@[simp] theorem State.enterLockup_mustTake (s : State) :
    (s.enterLockup).mustTake = s.mustTake := rfl

@[simp] theorem State.enterLockup_free (s : State) :
    (s.enterLockup).free = s.free := rfl

/-! ## setReg -/

@[simp] theorem State.setReg_cfg (s : State) (i : RegNum) (v : Word) :
    (s.setReg i v).cfg = s.cfg := by
    unfold State.setReg State.setSp; repeat' split
    all_goals rfl

@[simp] theorem State.setReg_pc (s : State) (i : RegNum) (v : Word) :
    (s.setReg i v).pc = s.pc := by
    unfold State.setReg State.setSp; repeat' split
    all_goals rfl

@[simp] theorem State.setReg_flags (s : State) (i : RegNum) (v : Word) :
    (s.setReg i v).flags = s.flags := by
    unfold State.setReg State.setSp; repeat' split
    all_goals rfl

@[simp] theorem State.setReg_ipsr (s : State) (i : RegNum) (v : Word) :
    (s.setReg i v).ipsr = s.ipsr := by
    unfold State.setReg State.setSp; repeat' split
    all_goals rfl

@[simp] theorem State.setReg_t (s : State) (i : RegNum) (v : Word) :
    (s.setReg i v).t = s.t := by
    unfold State.setReg State.setSp; repeat' split
    all_goals rfl

@[simp] theorem State.setReg_primask (s : State) (i : RegNum) (v : Word) :
    (s.setReg i v).primask = s.primask := by
    unfold State.setReg State.setSp; repeat' split
    all_goals rfl

@[simp] theorem State.setReg_npriv (s : State) (i : RegNum) (v : Word) :
    (s.setReg i v).npriv = s.npriv := by
    unfold State.setReg State.setSp; repeat' split
    all_goals rfl

@[simp] theorem State.setReg_spsel (s : State) (i : RegNum) (v : Word) :
    (s.setReg i v).spsel = s.spsel := by
    unfold State.setReg State.setSp; repeat' split
    all_goals rfl

@[simp] theorem State.setReg_pending (s : State) (i : RegNum) (v : Word) :
    (s.setReg i v).pending = s.pending := by
    unfold State.setReg State.setSp; repeat' split
    all_goals rfl

@[simp] theorem State.setReg_active (s : State) (i : RegNum) (v : Word) :
    (s.setReg i v).active = s.active := by
    unfold State.setReg State.setSp; repeat' split
    all_goals rfl

@[simp] theorem State.setReg_enabled (s : State) (i : RegNum) (v : Word) :
    (s.setReg i v).enabled = s.enabled := by
    unfold State.setReg State.setSp; repeat' split
    all_goals rfl

@[simp] theorem State.setReg_pri (s : State) (i : RegNum) (v : Word) :
    (s.setReg i v).pri = s.pri := by
    unfold State.setReg State.setSp; repeat' split
    all_goals rfl

@[simp] theorem State.setReg_event (s : State) (i : RegNum) (v : Word) :
    (s.setReg i v).event = s.event := by
    unfold State.setReg State.setSp; repeat' split
    all_goals rfl

@[simp] theorem State.setReg_lockup (s : State) (i : RegNum) (v : Word) :
    (s.setReg i v).lockup = s.lockup := by
    unfold State.setReg State.setSp; repeat' split
    all_goals rfl

@[simp] theorem State.setReg_sleep (s : State) (i : RegNum) (v : Word) :
    (s.setReg i v).sleep = s.sleep := by
    unfold State.setReg State.setSp; repeat' split
    all_goals rfl

@[simp] theorem State.setReg_scr (s : State) (i : RegNum) (v : Word) :
    (s.setReg i v).scr = s.scr := by
    unfold State.setReg State.setSp; repeat' split
    all_goals rfl

@[simp] theorem State.setReg_vtor (s : State) (i : RegNum) (v : Word) :
    (s.setReg i v).vtor = s.vtor := by
    unfold State.setReg State.setSp; repeat' split
    all_goals rfl

@[simp] theorem State.setReg_resetRequest (s : State) (i : RegNum) (v : Word) :
    (s.setReg i v).resetRequest = s.resetRequest := by
    unfold State.setReg State.setSp; repeat' split
    all_goals rfl

@[simp] theorem State.setReg_syst (s : State) (i : RegNum) (v : Word) :
    (s.setReg i v).syst = s.syst := by
    unfold State.setReg State.setSp; repeat' split
    all_goals rfl

@[simp] theorem State.setReg_irqLine (s : State) (i : RegNum) (v : Word) :
    (s.setReg i v).irqLine = s.irqLine := by
    unfold State.setReg State.setSp; repeat' split
    all_goals rfl

@[simp] theorem State.setReg_nmiLine (s : State) (i : RegNum) (v : Word) :
    (s.setReg i v).nmiLine = s.nmiLine := by
    unfold State.setReg State.setSp; repeat' split
    all_goals rfl

@[simp] theorem State.setReg_mem (s : State) (i : RegNum) (v : Word) :
    (s.setReg i v).mem = s.mem := by
    unfold State.setReg State.setSp; repeat' split
    all_goals rfl

@[simp] theorem State.setReg_inputs (s : State) (i : RegNum) (v : Word) :
    (s.setReg i v).inputs = s.inputs := by
    unfold State.setReg State.setSp; repeat' split
    all_goals rfl

@[simp] theorem State.setReg_deviceIn (s : State) (i : RegNum) (v : Word) :
    (s.setReg i v).deviceIn = s.deviceIn := by
    unfold State.setReg State.setSp; repeat' split
    all_goals rfl

@[simp] theorem State.setReg_deviceLog (s : State) (i : RegNum) (v : Word) :
    (s.setReg i v).deviceLog = s.deviceLog := by
    unfold State.setReg State.setSp; repeat' split
    all_goals rfl

@[simp] theorem State.setReg_resetIn (s : State) (i : RegNum) (v : Word) :
    (s.setReg i v).resetIn = s.resetIn := by
    unfold State.setReg State.setSp; repeat' split
    all_goals rfl

@[simp] theorem State.setReg_dirty (s : State) (i : RegNum) (v : Word) :
    (s.setReg i v).dirty = s.dirty := by
    unfold State.setReg State.setSp; repeat' split
    all_goals rfl

@[simp] theorem State.setReg_mustTake (s : State) (i : RegNum) (v : Word) :
    (s.setReg i v).mustTake = s.mustTake := by
    unfold State.setReg State.setSp; repeat' split
    all_goals rfl

@[simp] theorem State.setReg_free (s : State) (i : RegNum) (v : Word) :
    (s.setReg i v).free = s.free := by
    unfold State.setReg State.setSp; repeat' split
    all_goals rfl

/-! ## waitForInterrupt -/

@[simp] theorem State.waitForInterrupt_cfg (s : State) :
    (s.waitForInterrupt).cfg = s.cfg := by unfold State.waitForInterrupt; split <;> rfl

@[simp] theorem State.waitForInterrupt_r (s : State) :
    (s.waitForInterrupt).r = s.r := by unfold State.waitForInterrupt; split <;> rfl

@[simp] theorem State.waitForInterrupt_spMain (s : State) :
    (s.waitForInterrupt).spMain = s.spMain := by unfold State.waitForInterrupt; split <;> rfl

@[simp] theorem State.waitForInterrupt_spProcess (s : State) :
    (s.waitForInterrupt).spProcess = s.spProcess := by unfold State.waitForInterrupt; split <;> rfl

@[simp] theorem State.waitForInterrupt_lr (s : State) :
    (s.waitForInterrupt).lr = s.lr := by unfold State.waitForInterrupt; split <;> rfl

@[simp] theorem State.waitForInterrupt_pc (s : State) :
    (s.waitForInterrupt).pc = s.pc := by unfold State.waitForInterrupt; split <;> rfl

@[simp] theorem State.waitForInterrupt_flags (s : State) :
    (s.waitForInterrupt).flags = s.flags := by unfold State.waitForInterrupt; split <;> rfl

@[simp] theorem State.waitForInterrupt_ipsr (s : State) :
    (s.waitForInterrupt).ipsr = s.ipsr := by unfold State.waitForInterrupt; split <;> rfl

@[simp] theorem State.waitForInterrupt_t (s : State) :
    (s.waitForInterrupt).t = s.t := by unfold State.waitForInterrupt; split <;> rfl

@[simp] theorem State.waitForInterrupt_primask (s : State) :
    (s.waitForInterrupt).primask = s.primask := by unfold State.waitForInterrupt; split <;> rfl

@[simp] theorem State.waitForInterrupt_npriv (s : State) :
    (s.waitForInterrupt).npriv = s.npriv := by unfold State.waitForInterrupt; split <;> rfl

@[simp] theorem State.waitForInterrupt_spsel (s : State) :
    (s.waitForInterrupt).spsel = s.spsel := by unfold State.waitForInterrupt; split <;> rfl

@[simp] theorem State.waitForInterrupt_pending (s : State) :
    (s.waitForInterrupt).pending = s.pending := by unfold State.waitForInterrupt; split <;> rfl

@[simp] theorem State.waitForInterrupt_active (s : State) :
    (s.waitForInterrupt).active = s.active := by unfold State.waitForInterrupt; split <;> rfl

@[simp] theorem State.waitForInterrupt_enabled (s : State) :
    (s.waitForInterrupt).enabled = s.enabled := by unfold State.waitForInterrupt; split <;> rfl

@[simp] theorem State.waitForInterrupt_pri (s : State) :
    (s.waitForInterrupt).pri = s.pri := by unfold State.waitForInterrupt; split <;> rfl

@[simp] theorem State.waitForInterrupt_event (s : State) :
    (s.waitForInterrupt).event = s.event := by unfold State.waitForInterrupt; split <;> rfl

@[simp] theorem State.waitForInterrupt_lockup (s : State) :
    (s.waitForInterrupt).lockup = s.lockup := by unfold State.waitForInterrupt; split <;> rfl

@[simp] theorem State.waitForInterrupt_scr (s : State) :
    (s.waitForInterrupt).scr = s.scr := by unfold State.waitForInterrupt; split <;> rfl

@[simp] theorem State.waitForInterrupt_vtor (s : State) :
    (s.waitForInterrupt).vtor = s.vtor := by unfold State.waitForInterrupt; split <;> rfl

@[simp] theorem State.waitForInterrupt_resetRequest (s : State) :
    (s.waitForInterrupt).resetRequest = s.resetRequest := by unfold State.waitForInterrupt; split <;> rfl

@[simp] theorem State.waitForInterrupt_syst (s : State) :
    (s.waitForInterrupt).syst = s.syst := by unfold State.waitForInterrupt; split <;> rfl

@[simp] theorem State.waitForInterrupt_irqLine (s : State) :
    (s.waitForInterrupt).irqLine = s.irqLine := by unfold State.waitForInterrupt; split <;> rfl

@[simp] theorem State.waitForInterrupt_nmiLine (s : State) :
    (s.waitForInterrupt).nmiLine = s.nmiLine := by unfold State.waitForInterrupt; split <;> rfl

@[simp] theorem State.waitForInterrupt_mem (s : State) :
    (s.waitForInterrupt).mem = s.mem := by unfold State.waitForInterrupt; split <;> rfl

@[simp] theorem State.waitForInterrupt_inputs (s : State) :
    (s.waitForInterrupt).inputs = s.inputs := by unfold State.waitForInterrupt; split <;> rfl

@[simp] theorem State.waitForInterrupt_deviceIn (s : State) :
    (s.waitForInterrupt).deviceIn = s.deviceIn := by unfold State.waitForInterrupt; split <;> rfl

@[simp] theorem State.waitForInterrupt_deviceLog (s : State) :
    (s.waitForInterrupt).deviceLog = s.deviceLog := by unfold State.waitForInterrupt; split <;> rfl

@[simp] theorem State.waitForInterrupt_resetIn (s : State) :
    (s.waitForInterrupt).resetIn = s.resetIn := by unfold State.waitForInterrupt; split <;> rfl

@[simp] theorem State.waitForInterrupt_dirty (s : State) :
    (s.waitForInterrupt).dirty = s.dirty := by unfold State.waitForInterrupt; split <;> rfl

@[simp] theorem State.waitForInterrupt_mustTake (s : State) :
    (s.waitForInterrupt).mustTake = s.mustTake := by unfold State.waitForInterrupt; split <;> rfl

@[simp] theorem State.waitForInterrupt_free (s : State) :
    (s.waitForInterrupt).free = s.free := by unfold State.waitForInterrupt; split <;> rfl

/-! ## writeSpecial -/

@[simp] theorem State.writeSpecial_cfg (s : State) (m : BitVec 8) (v : Word) :
    (s.writeSpecial m v).cfg = s.cfg := by
    unfold State.writeSpecial State.setFlags; repeat' split
    all_goals rfl

@[simp] theorem State.writeSpecial_r (s : State) (m : BitVec 8) (v : Word) :
    (s.writeSpecial m v).r = s.r := by
    unfold State.writeSpecial State.setFlags; repeat' split
    all_goals rfl

@[simp] theorem State.writeSpecial_lr (s : State) (m : BitVec 8) (v : Word) :
    (s.writeSpecial m v).lr = s.lr := by
    unfold State.writeSpecial State.setFlags; repeat' split
    all_goals rfl

@[simp] theorem State.writeSpecial_pc (s : State) (m : BitVec 8) (v : Word) :
    (s.writeSpecial m v).pc = s.pc := by
    unfold State.writeSpecial State.setFlags; repeat' split
    all_goals rfl

@[simp] theorem State.writeSpecial_ipsr (s : State) (m : BitVec 8) (v : Word) :
    (s.writeSpecial m v).ipsr = s.ipsr := by
    unfold State.writeSpecial State.setFlags; repeat' split
    all_goals rfl

@[simp] theorem State.writeSpecial_t (s : State) (m : BitVec 8) (v : Word) :
    (s.writeSpecial m v).t = s.t := by
    unfold State.writeSpecial State.setFlags; repeat' split
    all_goals rfl

@[simp] theorem State.writeSpecial_pending (s : State) (m : BitVec 8) (v : Word) :
    (s.writeSpecial m v).pending = s.pending := by
    unfold State.writeSpecial State.setFlags; repeat' split
    all_goals rfl

@[simp] theorem State.writeSpecial_active (s : State) (m : BitVec 8) (v : Word) :
    (s.writeSpecial m v).active = s.active := by
    unfold State.writeSpecial State.setFlags; repeat' split
    all_goals rfl

@[simp] theorem State.writeSpecial_enabled (s : State) (m : BitVec 8) (v : Word) :
    (s.writeSpecial m v).enabled = s.enabled := by
    unfold State.writeSpecial State.setFlags; repeat' split
    all_goals rfl

@[simp] theorem State.writeSpecial_pri (s : State) (m : BitVec 8) (v : Word) :
    (s.writeSpecial m v).pri = s.pri := by
    unfold State.writeSpecial State.setFlags; repeat' split
    all_goals rfl

@[simp] theorem State.writeSpecial_event (s : State) (m : BitVec 8) (v : Word) :
    (s.writeSpecial m v).event = s.event := by
    unfold State.writeSpecial State.setFlags; repeat' split
    all_goals rfl

@[simp] theorem State.writeSpecial_lockup (s : State) (m : BitVec 8) (v : Word) :
    (s.writeSpecial m v).lockup = s.lockup := by
    unfold State.writeSpecial State.setFlags; repeat' split
    all_goals rfl

@[simp] theorem State.writeSpecial_sleep (s : State) (m : BitVec 8) (v : Word) :
    (s.writeSpecial m v).sleep = s.sleep := by
    unfold State.writeSpecial State.setFlags; repeat' split
    all_goals rfl

@[simp] theorem State.writeSpecial_scr (s : State) (m : BitVec 8) (v : Word) :
    (s.writeSpecial m v).scr = s.scr := by
    unfold State.writeSpecial State.setFlags; repeat' split
    all_goals rfl

@[simp] theorem State.writeSpecial_vtor (s : State) (m : BitVec 8) (v : Word) :
    (s.writeSpecial m v).vtor = s.vtor := by
    unfold State.writeSpecial State.setFlags; repeat' split
    all_goals rfl

@[simp] theorem State.writeSpecial_resetRequest (s : State) (m : BitVec 8) (v : Word) :
    (s.writeSpecial m v).resetRequest = s.resetRequest := by
    unfold State.writeSpecial State.setFlags; repeat' split
    all_goals rfl

@[simp] theorem State.writeSpecial_syst (s : State) (m : BitVec 8) (v : Word) :
    (s.writeSpecial m v).syst = s.syst := by
    unfold State.writeSpecial State.setFlags; repeat' split
    all_goals rfl

@[simp] theorem State.writeSpecial_irqLine (s : State) (m : BitVec 8) (v : Word) :
    (s.writeSpecial m v).irqLine = s.irqLine := by
    unfold State.writeSpecial State.setFlags; repeat' split
    all_goals rfl

@[simp] theorem State.writeSpecial_nmiLine (s : State) (m : BitVec 8) (v : Word) :
    (s.writeSpecial m v).nmiLine = s.nmiLine := by
    unfold State.writeSpecial State.setFlags; repeat' split
    all_goals rfl

@[simp] theorem State.writeSpecial_mem (s : State) (m : BitVec 8) (v : Word) :
    (s.writeSpecial m v).mem = s.mem := by
    unfold State.writeSpecial State.setFlags; repeat' split
    all_goals rfl

@[simp] theorem State.writeSpecial_inputs (s : State) (m : BitVec 8) (v : Word) :
    (s.writeSpecial m v).inputs = s.inputs := by
    unfold State.writeSpecial State.setFlags; repeat' split
    all_goals rfl

@[simp] theorem State.writeSpecial_deviceIn (s : State) (m : BitVec 8) (v : Word) :
    (s.writeSpecial m v).deviceIn = s.deviceIn := by
    unfold State.writeSpecial State.setFlags; repeat' split
    all_goals rfl

@[simp] theorem State.writeSpecial_deviceLog (s : State) (m : BitVec 8) (v : Word) :
    (s.writeSpecial m v).deviceLog = s.deviceLog := by
    unfold State.writeSpecial State.setFlags; repeat' split
    all_goals rfl

@[simp] theorem State.writeSpecial_resetIn (s : State) (m : BitVec 8) (v : Word) :
    (s.writeSpecial m v).resetIn = s.resetIn := by
    unfold State.writeSpecial State.setFlags; repeat' split
    all_goals rfl

@[simp] theorem State.writeSpecial_dirty (s : State) (m : BitVec 8) (v : Word) :
    (s.writeSpecial m v).dirty = s.dirty := by
    unfold State.writeSpecial State.setFlags; repeat' split
    all_goals rfl

@[simp] theorem State.writeSpecial_mustTake (s : State) (m : BitVec 8) (v : Word) :
    (s.writeSpecial m v).mustTake = s.mustTake := by
    unfold State.writeSpecial State.setFlags; repeat' split
    all_goals rfl

@[simp] theorem State.writeSpecial_free (s : State) (m : BitVec 8) (v : Word) :
    (s.writeSpecial m v).free = s.free := by
    unfold State.writeSpecial State.setFlags; repeat' split
    all_goals rfl

/-! ## driveIrq -/

@[simp] theorem State.driveIrq_cfg (s : State) (n : Fin 32) (v : Bool) :
    (s.driveIrq n v).cfg = s.cfg := by
    unfold State.driveIrq; repeat' split
    all_goals rfl

@[simp] theorem State.driveIrq_r (s : State) (n : Fin 32) (v : Bool) :
    (s.driveIrq n v).r = s.r := by
    unfold State.driveIrq; repeat' split
    all_goals rfl

@[simp] theorem State.driveIrq_spMain (s : State) (n : Fin 32) (v : Bool) :
    (s.driveIrq n v).spMain = s.spMain := by
    unfold State.driveIrq; repeat' split
    all_goals rfl

@[simp] theorem State.driveIrq_spProcess (s : State) (n : Fin 32) (v : Bool) :
    (s.driveIrq n v).spProcess = s.spProcess := by
    unfold State.driveIrq; repeat' split
    all_goals rfl

@[simp] theorem State.driveIrq_lr (s : State) (n : Fin 32) (v : Bool) :
    (s.driveIrq n v).lr = s.lr := by
    unfold State.driveIrq; repeat' split
    all_goals rfl

@[simp] theorem State.driveIrq_pc (s : State) (n : Fin 32) (v : Bool) :
    (s.driveIrq n v).pc = s.pc := by
    unfold State.driveIrq; repeat' split
    all_goals rfl

@[simp] theorem State.driveIrq_flags (s : State) (n : Fin 32) (v : Bool) :
    (s.driveIrq n v).flags = s.flags := by
    unfold State.driveIrq; repeat' split
    all_goals rfl

@[simp] theorem State.driveIrq_ipsr (s : State) (n : Fin 32) (v : Bool) :
    (s.driveIrq n v).ipsr = s.ipsr := by
    unfold State.driveIrq; repeat' split
    all_goals rfl

@[simp] theorem State.driveIrq_t (s : State) (n : Fin 32) (v : Bool) :
    (s.driveIrq n v).t = s.t := by
    unfold State.driveIrq; repeat' split
    all_goals rfl

@[simp] theorem State.driveIrq_primask (s : State) (n : Fin 32) (v : Bool) :
    (s.driveIrq n v).primask = s.primask := by
    unfold State.driveIrq; repeat' split
    all_goals rfl

@[simp] theorem State.driveIrq_npriv (s : State) (n : Fin 32) (v : Bool) :
    (s.driveIrq n v).npriv = s.npriv := by
    unfold State.driveIrq; repeat' split
    all_goals rfl

@[simp] theorem State.driveIrq_spsel (s : State) (n : Fin 32) (v : Bool) :
    (s.driveIrq n v).spsel = s.spsel := by
    unfold State.driveIrq; repeat' split
    all_goals rfl

@[simp] theorem State.driveIrq_active (s : State) (n : Fin 32) (v : Bool) :
    (s.driveIrq n v).active = s.active := by
    unfold State.driveIrq; repeat' split
    all_goals rfl

@[simp] theorem State.driveIrq_enabled (s : State) (n : Fin 32) (v : Bool) :
    (s.driveIrq n v).enabled = s.enabled := by
    unfold State.driveIrq; repeat' split
    all_goals rfl

@[simp] theorem State.driveIrq_pri (s : State) (n : Fin 32) (v : Bool) :
    (s.driveIrq n v).pri = s.pri := by
    unfold State.driveIrq; repeat' split
    all_goals rfl

@[simp] theorem State.driveIrq_lockup (s : State) (n : Fin 32) (v : Bool) :
    (s.driveIrq n v).lockup = s.lockup := by
    unfold State.driveIrq; repeat' split
    all_goals rfl

@[simp] theorem State.driveIrq_sleep (s : State) (n : Fin 32) (v : Bool) :
    (s.driveIrq n v).sleep = s.sleep := by
    unfold State.driveIrq; repeat' split
    all_goals rfl

@[simp] theorem State.driveIrq_scr (s : State) (n : Fin 32) (v : Bool) :
    (s.driveIrq n v).scr = s.scr := by
    unfold State.driveIrq; repeat' split
    all_goals rfl

@[simp] theorem State.driveIrq_vtor (s : State) (n : Fin 32) (v : Bool) :
    (s.driveIrq n v).vtor = s.vtor := by
    unfold State.driveIrq; repeat' split
    all_goals rfl

@[simp] theorem State.driveIrq_resetRequest (s : State) (n : Fin 32) (v : Bool) :
    (s.driveIrq n v).resetRequest = s.resetRequest := by
    unfold State.driveIrq; repeat' split
    all_goals rfl

@[simp] theorem State.driveIrq_syst (s : State) (n : Fin 32) (v : Bool) :
    (s.driveIrq n v).syst = s.syst := by
    unfold State.driveIrq; repeat' split
    all_goals rfl

@[simp] theorem State.driveIrq_nmiLine (s : State) (n : Fin 32) (v : Bool) :
    (s.driveIrq n v).nmiLine = s.nmiLine := by
    unfold State.driveIrq; repeat' split
    all_goals rfl

@[simp] theorem State.driveIrq_mem (s : State) (n : Fin 32) (v : Bool) :
    (s.driveIrq n v).mem = s.mem := by
    unfold State.driveIrq; repeat' split
    all_goals rfl

@[simp] theorem State.driveIrq_inputs (s : State) (n : Fin 32) (v : Bool) :
    (s.driveIrq n v).inputs = s.inputs := by
    unfold State.driveIrq; repeat' split
    all_goals rfl

@[simp] theorem State.driveIrq_deviceIn (s : State) (n : Fin 32) (v : Bool) :
    (s.driveIrq n v).deviceIn = s.deviceIn := by
    unfold State.driveIrq; repeat' split
    all_goals rfl

@[simp] theorem State.driveIrq_deviceLog (s : State) (n : Fin 32) (v : Bool) :
    (s.driveIrq n v).deviceLog = s.deviceLog := by
    unfold State.driveIrq; repeat' split
    all_goals rfl

@[simp] theorem State.driveIrq_resetIn (s : State) (n : Fin 32) (v : Bool) :
    (s.driveIrq n v).resetIn = s.resetIn := by
    unfold State.driveIrq; repeat' split
    all_goals rfl

@[simp] theorem State.driveIrq_dirty (s : State) (n : Fin 32) (v : Bool) :
    (s.driveIrq n v).dirty = s.dirty := by
    unfold State.driveIrq; repeat' split
    all_goals rfl

@[simp] theorem State.driveIrq_mustTake (s : State) (n : Fin 32) (v : Bool) :
    (s.driveIrq n v).mustTake = s.mustTake := by
    unfold State.driveIrq; repeat' split
    all_goals rfl

@[simp] theorem State.driveIrq_free (s : State) (n : Fin 32) (v : Bool) :
    (s.driveIrq n v).free = s.free := by
    unfold State.driveIrq; repeat' split
    all_goals rfl

/-! ## driveNmi -/

@[simp] theorem State.driveNmi_cfg (s : State) (v : Bool) :
    (s.driveNmi v).cfg = s.cfg := by
    unfold State.driveNmi; repeat' split
    all_goals rfl

@[simp] theorem State.driveNmi_r (s : State) (v : Bool) :
    (s.driveNmi v).r = s.r := by
    unfold State.driveNmi; repeat' split
    all_goals rfl

@[simp] theorem State.driveNmi_spMain (s : State) (v : Bool) :
    (s.driveNmi v).spMain = s.spMain := by
    unfold State.driveNmi; repeat' split
    all_goals rfl

@[simp] theorem State.driveNmi_spProcess (s : State) (v : Bool) :
    (s.driveNmi v).spProcess = s.spProcess := by
    unfold State.driveNmi; repeat' split
    all_goals rfl

@[simp] theorem State.driveNmi_lr (s : State) (v : Bool) :
    (s.driveNmi v).lr = s.lr := by
    unfold State.driveNmi; repeat' split
    all_goals rfl

@[simp] theorem State.driveNmi_pc (s : State) (v : Bool) :
    (s.driveNmi v).pc = s.pc := by
    unfold State.driveNmi; repeat' split
    all_goals rfl

@[simp] theorem State.driveNmi_flags (s : State) (v : Bool) :
    (s.driveNmi v).flags = s.flags := by
    unfold State.driveNmi; repeat' split
    all_goals rfl

@[simp] theorem State.driveNmi_ipsr (s : State) (v : Bool) :
    (s.driveNmi v).ipsr = s.ipsr := by
    unfold State.driveNmi; repeat' split
    all_goals rfl

@[simp] theorem State.driveNmi_t (s : State) (v : Bool) :
    (s.driveNmi v).t = s.t := by
    unfold State.driveNmi; repeat' split
    all_goals rfl

@[simp] theorem State.driveNmi_primask (s : State) (v : Bool) :
    (s.driveNmi v).primask = s.primask := by
    unfold State.driveNmi; repeat' split
    all_goals rfl

@[simp] theorem State.driveNmi_npriv (s : State) (v : Bool) :
    (s.driveNmi v).npriv = s.npriv := by
    unfold State.driveNmi; repeat' split
    all_goals rfl

@[simp] theorem State.driveNmi_spsel (s : State) (v : Bool) :
    (s.driveNmi v).spsel = s.spsel := by
    unfold State.driveNmi; repeat' split
    all_goals rfl

@[simp] theorem State.driveNmi_active (s : State) (v : Bool) :
    (s.driveNmi v).active = s.active := by
    unfold State.driveNmi; repeat' split
    all_goals rfl

@[simp] theorem State.driveNmi_enabled (s : State) (v : Bool) :
    (s.driveNmi v).enabled = s.enabled := by
    unfold State.driveNmi; repeat' split
    all_goals rfl

@[simp] theorem State.driveNmi_pri (s : State) (v : Bool) :
    (s.driveNmi v).pri = s.pri := by
    unfold State.driveNmi; repeat' split
    all_goals rfl

@[simp] theorem State.driveNmi_lockup (s : State) (v : Bool) :
    (s.driveNmi v).lockup = s.lockup := by
    unfold State.driveNmi; repeat' split
    all_goals rfl

@[simp] theorem State.driveNmi_sleep (s : State) (v : Bool) :
    (s.driveNmi v).sleep = s.sleep := by
    unfold State.driveNmi; repeat' split
    all_goals rfl

@[simp] theorem State.driveNmi_scr (s : State) (v : Bool) :
    (s.driveNmi v).scr = s.scr := by
    unfold State.driveNmi; repeat' split
    all_goals rfl

@[simp] theorem State.driveNmi_vtor (s : State) (v : Bool) :
    (s.driveNmi v).vtor = s.vtor := by
    unfold State.driveNmi; repeat' split
    all_goals rfl

@[simp] theorem State.driveNmi_resetRequest (s : State) (v : Bool) :
    (s.driveNmi v).resetRequest = s.resetRequest := by
    unfold State.driveNmi; repeat' split
    all_goals rfl

@[simp] theorem State.driveNmi_syst (s : State) (v : Bool) :
    (s.driveNmi v).syst = s.syst := by
    unfold State.driveNmi; repeat' split
    all_goals rfl

@[simp] theorem State.driveNmi_irqLine (s : State) (v : Bool) :
    (s.driveNmi v).irqLine = s.irqLine := by
    unfold State.driveNmi; repeat' split
    all_goals rfl

@[simp] theorem State.driveNmi_mem (s : State) (v : Bool) :
    (s.driveNmi v).mem = s.mem := by
    unfold State.driveNmi; repeat' split
    all_goals rfl

@[simp] theorem State.driveNmi_inputs (s : State) (v : Bool) :
    (s.driveNmi v).inputs = s.inputs := by
    unfold State.driveNmi; repeat' split
    all_goals rfl

@[simp] theorem State.driveNmi_deviceIn (s : State) (v : Bool) :
    (s.driveNmi v).deviceIn = s.deviceIn := by
    unfold State.driveNmi; repeat' split
    all_goals rfl

@[simp] theorem State.driveNmi_deviceLog (s : State) (v : Bool) :
    (s.driveNmi v).deviceLog = s.deviceLog := by
    unfold State.driveNmi; repeat' split
    all_goals rfl

@[simp] theorem State.driveNmi_resetIn (s : State) (v : Bool) :
    (s.driveNmi v).resetIn = s.resetIn := by
    unfold State.driveNmi; repeat' split
    all_goals rfl

@[simp] theorem State.driveNmi_dirty (s : State) (v : Bool) :
    (s.driveNmi v).dirty = s.dirty := by
    unfold State.driveNmi; repeat' split
    all_goals rfl

@[simp] theorem State.driveNmi_mustTake (s : State) (v : Bool) :
    (s.driveNmi v).mustTake = s.mustTake := by
    unfold State.driveNmi; repeat' split
    all_goals rfl

@[simp] theorem State.driveNmi_free (s : State) (v : Bool) :
    (s.driveNmi v).free = s.free := by
    unfold State.driveNmi; repeat' split
    all_goals rfl

/-! ## sysTickStep -/

@[simp] theorem State.sysTickStep_cfg (s : State) :
    (s.sysTickStep).cfg = s.cfg := by
    unfold State.sysTickStep; dsimp only; repeat' split
    all_goals rfl

@[simp] theorem State.sysTickStep_r (s : State) :
    (s.sysTickStep).r = s.r := by
    unfold State.sysTickStep; dsimp only; repeat' split
    all_goals rfl

@[simp] theorem State.sysTickStep_spMain (s : State) :
    (s.sysTickStep).spMain = s.spMain := by
    unfold State.sysTickStep; dsimp only; repeat' split
    all_goals rfl

@[simp] theorem State.sysTickStep_spProcess (s : State) :
    (s.sysTickStep).spProcess = s.spProcess := by
    unfold State.sysTickStep; dsimp only; repeat' split
    all_goals rfl

@[simp] theorem State.sysTickStep_lr (s : State) :
    (s.sysTickStep).lr = s.lr := by
    unfold State.sysTickStep; dsimp only; repeat' split
    all_goals rfl

@[simp] theorem State.sysTickStep_pc (s : State) :
    (s.sysTickStep).pc = s.pc := by
    unfold State.sysTickStep; dsimp only; repeat' split
    all_goals rfl

@[simp] theorem State.sysTickStep_flags (s : State) :
    (s.sysTickStep).flags = s.flags := by
    unfold State.sysTickStep; dsimp only; repeat' split
    all_goals rfl

@[simp] theorem State.sysTickStep_ipsr (s : State) :
    (s.sysTickStep).ipsr = s.ipsr := by
    unfold State.sysTickStep; dsimp only; repeat' split
    all_goals rfl

@[simp] theorem State.sysTickStep_t (s : State) :
    (s.sysTickStep).t = s.t := by
    unfold State.sysTickStep; dsimp only; repeat' split
    all_goals rfl

@[simp] theorem State.sysTickStep_primask (s : State) :
    (s.sysTickStep).primask = s.primask := by
    unfold State.sysTickStep; dsimp only; repeat' split
    all_goals rfl

@[simp] theorem State.sysTickStep_npriv (s : State) :
    (s.sysTickStep).npriv = s.npriv := by
    unfold State.sysTickStep; dsimp only; repeat' split
    all_goals rfl

@[simp] theorem State.sysTickStep_spsel (s : State) :
    (s.sysTickStep).spsel = s.spsel := by
    unfold State.sysTickStep; dsimp only; repeat' split
    all_goals rfl

@[simp] theorem State.sysTickStep_active (s : State) :
    (s.sysTickStep).active = s.active := by
    unfold State.sysTickStep; dsimp only; repeat' split
    all_goals rfl

@[simp] theorem State.sysTickStep_enabled (s : State) :
    (s.sysTickStep).enabled = s.enabled := by
    unfold State.sysTickStep; dsimp only; repeat' split
    all_goals rfl

@[simp] theorem State.sysTickStep_pri (s : State) :
    (s.sysTickStep).pri = s.pri := by
    unfold State.sysTickStep; dsimp only; repeat' split
    all_goals rfl

@[simp] theorem State.sysTickStep_lockup (s : State) :
    (s.sysTickStep).lockup = s.lockup := by
    unfold State.sysTickStep; dsimp only; repeat' split
    all_goals rfl

@[simp] theorem State.sysTickStep_sleep (s : State) :
    (s.sysTickStep).sleep = s.sleep := by
    unfold State.sysTickStep; dsimp only; repeat' split
    all_goals rfl

@[simp] theorem State.sysTickStep_scr (s : State) :
    (s.sysTickStep).scr = s.scr := by
    unfold State.sysTickStep; dsimp only; repeat' split
    all_goals rfl

@[simp] theorem State.sysTickStep_vtor (s : State) :
    (s.sysTickStep).vtor = s.vtor := by
    unfold State.sysTickStep; dsimp only; repeat' split
    all_goals rfl

@[simp] theorem State.sysTickStep_resetRequest (s : State) :
    (s.sysTickStep).resetRequest = s.resetRequest := by
    unfold State.sysTickStep; dsimp only; repeat' split
    all_goals rfl

@[simp] theorem State.sysTickStep_irqLine (s : State) :
    (s.sysTickStep).irqLine = s.irqLine := by
    unfold State.sysTickStep; dsimp only; repeat' split
    all_goals rfl

@[simp] theorem State.sysTickStep_nmiLine (s : State) :
    (s.sysTickStep).nmiLine = s.nmiLine := by
    unfold State.sysTickStep; dsimp only; repeat' split
    all_goals rfl

@[simp] theorem State.sysTickStep_mem (s : State) :
    (s.sysTickStep).mem = s.mem := by
    unfold State.sysTickStep; dsimp only; repeat' split
    all_goals rfl

@[simp] theorem State.sysTickStep_inputs (s : State) :
    (s.sysTickStep).inputs = s.inputs := by
    unfold State.sysTickStep; dsimp only; repeat' split
    all_goals rfl

@[simp] theorem State.sysTickStep_deviceIn (s : State) :
    (s.sysTickStep).deviceIn = s.deviceIn := by
    unfold State.sysTickStep; dsimp only; repeat' split
    all_goals rfl

@[simp] theorem State.sysTickStep_deviceLog (s : State) :
    (s.sysTickStep).deviceLog = s.deviceLog := by
    unfold State.sysTickStep; dsimp only; repeat' split
    all_goals rfl

@[simp] theorem State.sysTickStep_resetIn (s : State) :
    (s.sysTickStep).resetIn = s.resetIn := by
    unfold State.sysTickStep; dsimp only; repeat' split
    all_goals rfl

@[simp] theorem State.sysTickStep_dirty (s : State) :
    (s.sysTickStep).dirty = s.dirty := by
    unfold State.sysTickStep; dsimp only; repeat' split
    all_goals rfl

@[simp] theorem State.sysTickStep_mustTake (s : State) :
    (s.sysTickStep).mustTake = s.mustTake := by
    unfold State.sysTickStep; dsimp only; repeat' split
    all_goals rfl

@[simp] theorem State.sysTickStep_free (s : State) :
    (s.sysTickStep).free = s.free := by
    unfold State.sysTickStep; dsimp only; repeat' split
    all_goals rfl

/-! ## afterEvent -/

@[simp] theorem State.afterEvent_cfg (s : State) (e : Event) :
    (s.afterEvent e).cfg = s.cfg := by cases e <;> simp [State.afterEvent]

@[simp] theorem State.afterEvent_r (s : State) (e : Event) :
    (s.afterEvent e).r = s.r := by cases e <;> simp [State.afterEvent]

@[simp] theorem State.afterEvent_spMain (s : State) (e : Event) :
    (s.afterEvent e).spMain = s.spMain := by cases e <;> simp [State.afterEvent]

@[simp] theorem State.afterEvent_spProcess (s : State) (e : Event) :
    (s.afterEvent e).spProcess = s.spProcess := by cases e <;> simp [State.afterEvent]

@[simp] theorem State.afterEvent_lr (s : State) (e : Event) :
    (s.afterEvent e).lr = s.lr := by cases e <;> simp [State.afterEvent]

@[simp] theorem State.afterEvent_pc (s : State) (e : Event) :
    (s.afterEvent e).pc = s.pc := by cases e <;> simp [State.afterEvent]

@[simp] theorem State.afterEvent_flags (s : State) (e : Event) :
    (s.afterEvent e).flags = s.flags := by cases e <;> simp [State.afterEvent]

@[simp] theorem State.afterEvent_ipsr (s : State) (e : Event) :
    (s.afterEvent e).ipsr = s.ipsr := by cases e <;> simp [State.afterEvent]

@[simp] theorem State.afterEvent_t (s : State) (e : Event) :
    (s.afterEvent e).t = s.t := by cases e <;> simp [State.afterEvent]

@[simp] theorem State.afterEvent_primask (s : State) (e : Event) :
    (s.afterEvent e).primask = s.primask := by cases e <;> simp [State.afterEvent]

@[simp] theorem State.afterEvent_npriv (s : State) (e : Event) :
    (s.afterEvent e).npriv = s.npriv := by cases e <;> simp [State.afterEvent]

@[simp] theorem State.afterEvent_spsel (s : State) (e : Event) :
    (s.afterEvent e).spsel = s.spsel := by cases e <;> simp [State.afterEvent]

@[simp] theorem State.afterEvent_active (s : State) (e : Event) :
    (s.afterEvent e).active = s.active := by cases e <;> simp [State.afterEvent]

@[simp] theorem State.afterEvent_enabled (s : State) (e : Event) :
    (s.afterEvent e).enabled = s.enabled := by cases e <;> simp [State.afterEvent]

@[simp] theorem State.afterEvent_pri (s : State) (e : Event) :
    (s.afterEvent e).pri = s.pri := by cases e <;> simp [State.afterEvent]

@[simp] theorem State.afterEvent_lockup (s : State) (e : Event) :
    (s.afterEvent e).lockup = s.lockup := by cases e <;> simp [State.afterEvent]

@[simp] theorem State.afterEvent_sleep (s : State) (e : Event) :
    (s.afterEvent e).sleep = s.sleep := by cases e <;> simp [State.afterEvent]

@[simp] theorem State.afterEvent_scr (s : State) (e : Event) :
    (s.afterEvent e).scr = s.scr := by cases e <;> simp [State.afterEvent]

@[simp] theorem State.afterEvent_vtor (s : State) (e : Event) :
    (s.afterEvent e).vtor = s.vtor := by cases e <;> simp [State.afterEvent]

@[simp] theorem State.afterEvent_resetRequest (s : State) (e : Event) :
    (s.afterEvent e).resetRequest = s.resetRequest := by cases e <;> simp [State.afterEvent]

@[simp] theorem State.afterEvent_mem (s : State) (e : Event) :
    (s.afterEvent e).mem = s.mem := by cases e <;> simp [State.afterEvent]

@[simp] theorem State.afterEvent_inputs (s : State) (e : Event) :
    (s.afterEvent e).inputs = s.inputs := by cases e <;> simp [State.afterEvent]

@[simp] theorem State.afterEvent_deviceLog (s : State) (e : Event) :
    (s.afterEvent e).deviceLog = s.deviceLog := by cases e <;> simp [State.afterEvent]

@[simp] theorem State.afterEvent_resetIn (s : State) (e : Event) :
    (s.afterEvent e).resetIn = s.resetIn := by cases e <;> simp [State.afterEvent]

@[simp] theorem State.afterEvent_dirty (s : State) (e : Event) :
    (s.afterEvent e).dirty = s.dirty := by cases e <;> simp [State.afterEvent]

@[simp] theorem State.afterEvent_mustTake (s : State) (e : Event) :
    (s.afterEvent e).mustTake = s.mustTake := by cases e <;> simp [State.afterEvent]

@[simp] theorem State.afterEvent_free (s : State) (e : Event) :
    (s.afterEvent e).free = s.free := by cases e <;> simp [State.afterEvent]

/-! ## No event, one more event -/

@[simp] theorem State.afterEvents_nil (s : State) : s.afterEvents [] = s := rfl

theorem State.afterEvents_cons (s : State) (e : Event) (es : List Event) :
    s.afterEvents (e :: es) = (s.afterEvent e).afterEvents es := rfl

/-! ## afterEvents -/

@[simp] theorem State.afterEvents_cfg (s : State) (es : List Event) :
    (s.afterEvents es).cfg = s.cfg := by
  induction es generalizing s with
  | nil => rfl
  | cons e rest ih => rw [State.afterEvents_cons, ih, State.afterEvent_cfg]

@[simp] theorem State.afterEvents_r (s : State) (es : List Event) :
    (s.afterEvents es).r = s.r := by
  induction es generalizing s with
  | nil => rfl
  | cons e rest ih => rw [State.afterEvents_cons, ih, State.afterEvent_r]

@[simp] theorem State.afterEvents_spMain (s : State) (es : List Event) :
    (s.afterEvents es).spMain = s.spMain := by
  induction es generalizing s with
  | nil => rfl
  | cons e rest ih => rw [State.afterEvents_cons, ih, State.afterEvent_spMain]

@[simp] theorem State.afterEvents_spProcess (s : State) (es : List Event) :
    (s.afterEvents es).spProcess = s.spProcess := by
  induction es generalizing s with
  | nil => rfl
  | cons e rest ih => rw [State.afterEvents_cons, ih, State.afterEvent_spProcess]

@[simp] theorem State.afterEvents_lr (s : State) (es : List Event) :
    (s.afterEvents es).lr = s.lr := by
  induction es generalizing s with
  | nil => rfl
  | cons e rest ih => rw [State.afterEvents_cons, ih, State.afterEvent_lr]

@[simp] theorem State.afterEvents_pc (s : State) (es : List Event) :
    (s.afterEvents es).pc = s.pc := by
  induction es generalizing s with
  | nil => rfl
  | cons e rest ih => rw [State.afterEvents_cons, ih, State.afterEvent_pc]

@[simp] theorem State.afterEvents_flags (s : State) (es : List Event) :
    (s.afterEvents es).flags = s.flags := by
  induction es generalizing s with
  | nil => rfl
  | cons e rest ih => rw [State.afterEvents_cons, ih, State.afterEvent_flags]

@[simp] theorem State.afterEvents_ipsr (s : State) (es : List Event) :
    (s.afterEvents es).ipsr = s.ipsr := by
  induction es generalizing s with
  | nil => rfl
  | cons e rest ih => rw [State.afterEvents_cons, ih, State.afterEvent_ipsr]

@[simp] theorem State.afterEvents_t (s : State) (es : List Event) :
    (s.afterEvents es).t = s.t := by
  induction es generalizing s with
  | nil => rfl
  | cons e rest ih => rw [State.afterEvents_cons, ih, State.afterEvent_t]

@[simp] theorem State.afterEvents_primask (s : State) (es : List Event) :
    (s.afterEvents es).primask = s.primask := by
  induction es generalizing s with
  | nil => rfl
  | cons e rest ih => rw [State.afterEvents_cons, ih, State.afterEvent_primask]

@[simp] theorem State.afterEvents_npriv (s : State) (es : List Event) :
    (s.afterEvents es).npriv = s.npriv := by
  induction es generalizing s with
  | nil => rfl
  | cons e rest ih => rw [State.afterEvents_cons, ih, State.afterEvent_npriv]

@[simp] theorem State.afterEvents_spsel (s : State) (es : List Event) :
    (s.afterEvents es).spsel = s.spsel := by
  induction es generalizing s with
  | nil => rfl
  | cons e rest ih => rw [State.afterEvents_cons, ih, State.afterEvent_spsel]

@[simp] theorem State.afterEvents_active (s : State) (es : List Event) :
    (s.afterEvents es).active = s.active := by
  induction es generalizing s with
  | nil => rfl
  | cons e rest ih => rw [State.afterEvents_cons, ih, State.afterEvent_active]

@[simp] theorem State.afterEvents_enabled (s : State) (es : List Event) :
    (s.afterEvents es).enabled = s.enabled := by
  induction es generalizing s with
  | nil => rfl
  | cons e rest ih => rw [State.afterEvents_cons, ih, State.afterEvent_enabled]

@[simp] theorem State.afterEvents_pri (s : State) (es : List Event) :
    (s.afterEvents es).pri = s.pri := by
  induction es generalizing s with
  | nil => rfl
  | cons e rest ih => rw [State.afterEvents_cons, ih, State.afterEvent_pri]

@[simp] theorem State.afterEvents_lockup (s : State) (es : List Event) :
    (s.afterEvents es).lockup = s.lockup := by
  induction es generalizing s with
  | nil => rfl
  | cons e rest ih => rw [State.afterEvents_cons, ih, State.afterEvent_lockup]

@[simp] theorem State.afterEvents_sleep (s : State) (es : List Event) :
    (s.afterEvents es).sleep = s.sleep := by
  induction es generalizing s with
  | nil => rfl
  | cons e rest ih => rw [State.afterEvents_cons, ih, State.afterEvent_sleep]

@[simp] theorem State.afterEvents_scr (s : State) (es : List Event) :
    (s.afterEvents es).scr = s.scr := by
  induction es generalizing s with
  | nil => rfl
  | cons e rest ih => rw [State.afterEvents_cons, ih, State.afterEvent_scr]

@[simp] theorem State.afterEvents_vtor (s : State) (es : List Event) :
    (s.afterEvents es).vtor = s.vtor := by
  induction es generalizing s with
  | nil => rfl
  | cons e rest ih => rw [State.afterEvents_cons, ih, State.afterEvent_vtor]

@[simp] theorem State.afterEvents_resetRequest (s : State) (es : List Event) :
    (s.afterEvents es).resetRequest = s.resetRequest := by
  induction es generalizing s with
  | nil => rfl
  | cons e rest ih => rw [State.afterEvents_cons, ih, State.afterEvent_resetRequest]

@[simp] theorem State.afterEvents_mem (s : State) (es : List Event) :
    (s.afterEvents es).mem = s.mem := by
  induction es generalizing s with
  | nil => rfl
  | cons e rest ih => rw [State.afterEvents_cons, ih, State.afterEvent_mem]

@[simp] theorem State.afterEvents_inputs (s : State) (es : List Event) :
    (s.afterEvents es).inputs = s.inputs := by
  induction es generalizing s with
  | nil => rfl
  | cons e rest ih => rw [State.afterEvents_cons, ih, State.afterEvent_inputs]

@[simp] theorem State.afterEvents_deviceLog (s : State) (es : List Event) :
    (s.afterEvents es).deviceLog = s.deviceLog := by
  induction es generalizing s with
  | nil => rfl
  | cons e rest ih => rw [State.afterEvents_cons, ih, State.afterEvent_deviceLog]

@[simp] theorem State.afterEvents_resetIn (s : State) (es : List Event) :
    (s.afterEvents es).resetIn = s.resetIn := by
  induction es generalizing s with
  | nil => rfl
  | cons e rest ih => rw [State.afterEvents_cons, ih, State.afterEvent_resetIn]

@[simp] theorem State.afterEvents_dirty (s : State) (es : List Event) :
    (s.afterEvents es).dirty = s.dirty := by
  induction es generalizing s with
  | nil => rfl
  | cons e rest ih => rw [State.afterEvents_cons, ih, State.afterEvent_dirty]

@[simp] theorem State.afterEvents_mustTake (s : State) (es : List Event) :
    (s.afterEvents es).mustTake = s.mustTake := by
  induction es generalizing s with
  | nil => rfl
  | cons e rest ih => rw [State.afterEvents_cons, ih, State.afterEvent_mustTake]

@[simp] theorem State.afterEvents_free (s : State) (es : List Event) :
    (s.afterEvents es).free = s.free := by
  induction es generalizing s with
  | nil => rfl
  | cons e rest ih => rw [State.afterEvents_cons, ih, State.afterEvent_free]

/-! ## setLows -/

@[simp] theorem State.setLows_cfg (s : State) (l : List (LowReg × Word)) :
    (s.setLows l).cfg = s.cfg := by
  induction l generalizing s with
  | nil => rfl
  | cons p rest ih => rw [State.setLows, ih]; rfl

@[simp] theorem State.setLows_spMain (s : State) (l : List (LowReg × Word)) :
    (s.setLows l).spMain = s.spMain := by
  induction l generalizing s with
  | nil => rfl
  | cons p rest ih => rw [State.setLows, ih]; rfl

@[simp] theorem State.setLows_spProcess (s : State) (l : List (LowReg × Word)) :
    (s.setLows l).spProcess = s.spProcess := by
  induction l generalizing s with
  | nil => rfl
  | cons p rest ih => rw [State.setLows, ih]; rfl

@[simp] theorem State.setLows_lr (s : State) (l : List (LowReg × Word)) :
    (s.setLows l).lr = s.lr := by
  induction l generalizing s with
  | nil => rfl
  | cons p rest ih => rw [State.setLows, ih]; rfl

@[simp] theorem State.setLows_pc (s : State) (l : List (LowReg × Word)) :
    (s.setLows l).pc = s.pc := by
  induction l generalizing s with
  | nil => rfl
  | cons p rest ih => rw [State.setLows, ih]; rfl

@[simp] theorem State.setLows_flags (s : State) (l : List (LowReg × Word)) :
    (s.setLows l).flags = s.flags := by
  induction l generalizing s with
  | nil => rfl
  | cons p rest ih => rw [State.setLows, ih]; rfl

@[simp] theorem State.setLows_ipsr (s : State) (l : List (LowReg × Word)) :
    (s.setLows l).ipsr = s.ipsr := by
  induction l generalizing s with
  | nil => rfl
  | cons p rest ih => rw [State.setLows, ih]; rfl

@[simp] theorem State.setLows_t (s : State) (l : List (LowReg × Word)) :
    (s.setLows l).t = s.t := by
  induction l generalizing s with
  | nil => rfl
  | cons p rest ih => rw [State.setLows, ih]; rfl

@[simp] theorem State.setLows_primask (s : State) (l : List (LowReg × Word)) :
    (s.setLows l).primask = s.primask := by
  induction l generalizing s with
  | nil => rfl
  | cons p rest ih => rw [State.setLows, ih]; rfl

@[simp] theorem State.setLows_npriv (s : State) (l : List (LowReg × Word)) :
    (s.setLows l).npriv = s.npriv := by
  induction l generalizing s with
  | nil => rfl
  | cons p rest ih => rw [State.setLows, ih]; rfl

@[simp] theorem State.setLows_spsel (s : State) (l : List (LowReg × Word)) :
    (s.setLows l).spsel = s.spsel := by
  induction l generalizing s with
  | nil => rfl
  | cons p rest ih => rw [State.setLows, ih]; rfl

@[simp] theorem State.setLows_pending (s : State) (l : List (LowReg × Word)) :
    (s.setLows l).pending = s.pending := by
  induction l generalizing s with
  | nil => rfl
  | cons p rest ih => rw [State.setLows, ih]; rfl

@[simp] theorem State.setLows_active (s : State) (l : List (LowReg × Word)) :
    (s.setLows l).active = s.active := by
  induction l generalizing s with
  | nil => rfl
  | cons p rest ih => rw [State.setLows, ih]; rfl

@[simp] theorem State.setLows_enabled (s : State) (l : List (LowReg × Word)) :
    (s.setLows l).enabled = s.enabled := by
  induction l generalizing s with
  | nil => rfl
  | cons p rest ih => rw [State.setLows, ih]; rfl

@[simp] theorem State.setLows_pri (s : State) (l : List (LowReg × Word)) :
    (s.setLows l).pri = s.pri := by
  induction l generalizing s with
  | nil => rfl
  | cons p rest ih => rw [State.setLows, ih]; rfl

@[simp] theorem State.setLows_event (s : State) (l : List (LowReg × Word)) :
    (s.setLows l).event = s.event := by
  induction l generalizing s with
  | nil => rfl
  | cons p rest ih => rw [State.setLows, ih]; rfl

@[simp] theorem State.setLows_lockup (s : State) (l : List (LowReg × Word)) :
    (s.setLows l).lockup = s.lockup := by
  induction l generalizing s with
  | nil => rfl
  | cons p rest ih => rw [State.setLows, ih]; rfl

@[simp] theorem State.setLows_sleep (s : State) (l : List (LowReg × Word)) :
    (s.setLows l).sleep = s.sleep := by
  induction l generalizing s with
  | nil => rfl
  | cons p rest ih => rw [State.setLows, ih]; rfl

@[simp] theorem State.setLows_scr (s : State) (l : List (LowReg × Word)) :
    (s.setLows l).scr = s.scr := by
  induction l generalizing s with
  | nil => rfl
  | cons p rest ih => rw [State.setLows, ih]; rfl

@[simp] theorem State.setLows_vtor (s : State) (l : List (LowReg × Word)) :
    (s.setLows l).vtor = s.vtor := by
  induction l generalizing s with
  | nil => rfl
  | cons p rest ih => rw [State.setLows, ih]; rfl

@[simp] theorem State.setLows_resetRequest (s : State) (l : List (LowReg × Word)) :
    (s.setLows l).resetRequest = s.resetRequest := by
  induction l generalizing s with
  | nil => rfl
  | cons p rest ih => rw [State.setLows, ih]; rfl

@[simp] theorem State.setLows_syst (s : State) (l : List (LowReg × Word)) :
    (s.setLows l).syst = s.syst := by
  induction l generalizing s with
  | nil => rfl
  | cons p rest ih => rw [State.setLows, ih]; rfl

@[simp] theorem State.setLows_irqLine (s : State) (l : List (LowReg × Word)) :
    (s.setLows l).irqLine = s.irqLine := by
  induction l generalizing s with
  | nil => rfl
  | cons p rest ih => rw [State.setLows, ih]; rfl

@[simp] theorem State.setLows_nmiLine (s : State) (l : List (LowReg × Word)) :
    (s.setLows l).nmiLine = s.nmiLine := by
  induction l generalizing s with
  | nil => rfl
  | cons p rest ih => rw [State.setLows, ih]; rfl

@[simp] theorem State.setLows_mem (s : State) (l : List (LowReg × Word)) :
    (s.setLows l).mem = s.mem := by
  induction l generalizing s with
  | nil => rfl
  | cons p rest ih => rw [State.setLows, ih]; rfl

@[simp] theorem State.setLows_inputs (s : State) (l : List (LowReg × Word)) :
    (s.setLows l).inputs = s.inputs := by
  induction l generalizing s with
  | nil => rfl
  | cons p rest ih => rw [State.setLows, ih]; rfl

@[simp] theorem State.setLows_deviceIn (s : State) (l : List (LowReg × Word)) :
    (s.setLows l).deviceIn = s.deviceIn := by
  induction l generalizing s with
  | nil => rfl
  | cons p rest ih => rw [State.setLows, ih]; rfl

@[simp] theorem State.setLows_deviceLog (s : State) (l : List (LowReg × Word)) :
    (s.setLows l).deviceLog = s.deviceLog := by
  induction l generalizing s with
  | nil => rfl
  | cons p rest ih => rw [State.setLows, ih]; rfl

@[simp] theorem State.setLows_resetIn (s : State) (l : List (LowReg × Word)) :
    (s.setLows l).resetIn = s.resetIn := by
  induction l generalizing s with
  | nil => rfl
  | cons p rest ih => rw [State.setLows, ih]; rfl

@[simp] theorem State.setLows_dirty (s : State) (l : List (LowReg × Word)) :
    (s.setLows l).dirty = s.dirty := by
  induction l generalizing s with
  | nil => rfl
  | cons p rest ih => rw [State.setLows, ih]; rfl

@[simp] theorem State.setLows_mustTake (s : State) (l : List (LowReg × Word)) :
    (s.setLows l).mustTake = s.mustTake := by
  induction l generalizing s with
  | nil => rfl
  | cons p rest ih => rw [State.setLows, ih]; rfl

@[simp] theorem State.setLows_free (s : State) (l : List (LowReg × Word)) :
    (s.setLows l).free = s.free := by
  induction l generalizing s with
  | nil => rfl
  | cons p rest ih => rw [State.setLows, ih]; rfl

/-! ## setSomeLows -/

@[simp] theorem State.setSomeLows_cfg (s : State) (b : Option LowReg) (l : List (LowReg × Word)) :
    (s.setSomeLows b l).cfg = s.cfg := by
  induction l generalizing s with
  | nil => rfl
  | cons p rest ih =>
    rw [State.setSomeLows]
    split
    · exact ih s
    · split <;> exact ih _

@[simp] theorem State.setSomeLows_spMain (s : State) (b : Option LowReg) (l : List (LowReg × Word)) :
    (s.setSomeLows b l).spMain = s.spMain := by
  induction l generalizing s with
  | nil => rfl
  | cons p rest ih =>
    rw [State.setSomeLows]
    split
    · exact ih s
    · split <;> exact ih _

@[simp] theorem State.setSomeLows_spProcess (s : State) (b : Option LowReg) (l : List (LowReg × Word)) :
    (s.setSomeLows b l).spProcess = s.spProcess := by
  induction l generalizing s with
  | nil => rfl
  | cons p rest ih =>
    rw [State.setSomeLows]
    split
    · exact ih s
    · split <;> exact ih _

@[simp] theorem State.setSomeLows_lr (s : State) (b : Option LowReg) (l : List (LowReg × Word)) :
    (s.setSomeLows b l).lr = s.lr := by
  induction l generalizing s with
  | nil => rfl
  | cons p rest ih =>
    rw [State.setSomeLows]
    split
    · exact ih s
    · split <;> exact ih _

@[simp] theorem State.setSomeLows_pc (s : State) (b : Option LowReg) (l : List (LowReg × Word)) :
    (s.setSomeLows b l).pc = s.pc := by
  induction l generalizing s with
  | nil => rfl
  | cons p rest ih =>
    rw [State.setSomeLows]
    split
    · exact ih s
    · split <;> exact ih _

@[simp] theorem State.setSomeLows_flags (s : State) (b : Option LowReg) (l : List (LowReg × Word)) :
    (s.setSomeLows b l).flags = s.flags := by
  induction l generalizing s with
  | nil => rfl
  | cons p rest ih =>
    rw [State.setSomeLows]
    split
    · exact ih s
    · split <;> exact ih _

@[simp] theorem State.setSomeLows_ipsr (s : State) (b : Option LowReg) (l : List (LowReg × Word)) :
    (s.setSomeLows b l).ipsr = s.ipsr := by
  induction l generalizing s with
  | nil => rfl
  | cons p rest ih =>
    rw [State.setSomeLows]
    split
    · exact ih s
    · split <;> exact ih _

@[simp] theorem State.setSomeLows_t (s : State) (b : Option LowReg) (l : List (LowReg × Word)) :
    (s.setSomeLows b l).t = s.t := by
  induction l generalizing s with
  | nil => rfl
  | cons p rest ih =>
    rw [State.setSomeLows]
    split
    · exact ih s
    · split <;> exact ih _

@[simp] theorem State.setSomeLows_primask (s : State) (b : Option LowReg) (l : List (LowReg × Word)) :
    (s.setSomeLows b l).primask = s.primask := by
  induction l generalizing s with
  | nil => rfl
  | cons p rest ih =>
    rw [State.setSomeLows]
    split
    · exact ih s
    · split <;> exact ih _

@[simp] theorem State.setSomeLows_npriv (s : State) (b : Option LowReg) (l : List (LowReg × Word)) :
    (s.setSomeLows b l).npriv = s.npriv := by
  induction l generalizing s with
  | nil => rfl
  | cons p rest ih =>
    rw [State.setSomeLows]
    split
    · exact ih s
    · split <;> exact ih _

@[simp] theorem State.setSomeLows_spsel (s : State) (b : Option LowReg) (l : List (LowReg × Word)) :
    (s.setSomeLows b l).spsel = s.spsel := by
  induction l generalizing s with
  | nil => rfl
  | cons p rest ih =>
    rw [State.setSomeLows]
    split
    · exact ih s
    · split <;> exact ih _

@[simp] theorem State.setSomeLows_pending (s : State) (b : Option LowReg) (l : List (LowReg × Word)) :
    (s.setSomeLows b l).pending = s.pending := by
  induction l generalizing s with
  | nil => rfl
  | cons p rest ih =>
    rw [State.setSomeLows]
    split
    · exact ih s
    · split <;> exact ih _

@[simp] theorem State.setSomeLows_active (s : State) (b : Option LowReg) (l : List (LowReg × Word)) :
    (s.setSomeLows b l).active = s.active := by
  induction l generalizing s with
  | nil => rfl
  | cons p rest ih =>
    rw [State.setSomeLows]
    split
    · exact ih s
    · split <;> exact ih _

@[simp] theorem State.setSomeLows_enabled (s : State) (b : Option LowReg) (l : List (LowReg × Word)) :
    (s.setSomeLows b l).enabled = s.enabled := by
  induction l generalizing s with
  | nil => rfl
  | cons p rest ih =>
    rw [State.setSomeLows]
    split
    · exact ih s
    · split <;> exact ih _

@[simp] theorem State.setSomeLows_pri (s : State) (b : Option LowReg) (l : List (LowReg × Word)) :
    (s.setSomeLows b l).pri = s.pri := by
  induction l generalizing s with
  | nil => rfl
  | cons p rest ih =>
    rw [State.setSomeLows]
    split
    · exact ih s
    · split <;> exact ih _

@[simp] theorem State.setSomeLows_event (s : State) (b : Option LowReg) (l : List (LowReg × Word)) :
    (s.setSomeLows b l).event = s.event := by
  induction l generalizing s with
  | nil => rfl
  | cons p rest ih =>
    rw [State.setSomeLows]
    split
    · exact ih s
    · split <;> exact ih _

@[simp] theorem State.setSomeLows_lockup (s : State) (b : Option LowReg) (l : List (LowReg × Word)) :
    (s.setSomeLows b l).lockup = s.lockup := by
  induction l generalizing s with
  | nil => rfl
  | cons p rest ih =>
    rw [State.setSomeLows]
    split
    · exact ih s
    · split <;> exact ih _

@[simp] theorem State.setSomeLows_sleep (s : State) (b : Option LowReg) (l : List (LowReg × Word)) :
    (s.setSomeLows b l).sleep = s.sleep := by
  induction l generalizing s with
  | nil => rfl
  | cons p rest ih =>
    rw [State.setSomeLows]
    split
    · exact ih s
    · split <;> exact ih _

@[simp] theorem State.setSomeLows_scr (s : State) (b : Option LowReg) (l : List (LowReg × Word)) :
    (s.setSomeLows b l).scr = s.scr := by
  induction l generalizing s with
  | nil => rfl
  | cons p rest ih =>
    rw [State.setSomeLows]
    split
    · exact ih s
    · split <;> exact ih _

@[simp] theorem State.setSomeLows_vtor (s : State) (b : Option LowReg) (l : List (LowReg × Word)) :
    (s.setSomeLows b l).vtor = s.vtor := by
  induction l generalizing s with
  | nil => rfl
  | cons p rest ih =>
    rw [State.setSomeLows]
    split
    · exact ih s
    · split <;> exact ih _

@[simp] theorem State.setSomeLows_resetRequest (s : State) (b : Option LowReg) (l : List (LowReg × Word)) :
    (s.setSomeLows b l).resetRequest = s.resetRequest := by
  induction l generalizing s with
  | nil => rfl
  | cons p rest ih =>
    rw [State.setSomeLows]
    split
    · exact ih s
    · split <;> exact ih _

@[simp] theorem State.setSomeLows_syst (s : State) (b : Option LowReg) (l : List (LowReg × Word)) :
    (s.setSomeLows b l).syst = s.syst := by
  induction l generalizing s with
  | nil => rfl
  | cons p rest ih =>
    rw [State.setSomeLows]
    split
    · exact ih s
    · split <;> exact ih _

@[simp] theorem State.setSomeLows_irqLine (s : State) (b : Option LowReg) (l : List (LowReg × Word)) :
    (s.setSomeLows b l).irqLine = s.irqLine := by
  induction l generalizing s with
  | nil => rfl
  | cons p rest ih =>
    rw [State.setSomeLows]
    split
    · exact ih s
    · split <;> exact ih _

@[simp] theorem State.setSomeLows_nmiLine (s : State) (b : Option LowReg) (l : List (LowReg × Word)) :
    (s.setSomeLows b l).nmiLine = s.nmiLine := by
  induction l generalizing s with
  | nil => rfl
  | cons p rest ih =>
    rw [State.setSomeLows]
    split
    · exact ih s
    · split <;> exact ih _

@[simp] theorem State.setSomeLows_mem (s : State) (b : Option LowReg) (l : List (LowReg × Word)) :
    (s.setSomeLows b l).mem = s.mem := by
  induction l generalizing s with
  | nil => rfl
  | cons p rest ih =>
    rw [State.setSomeLows]
    split
    · exact ih s
    · split <;> exact ih _

@[simp] theorem State.setSomeLows_inputs (s : State) (b : Option LowReg) (l : List (LowReg × Word)) :
    (s.setSomeLows b l).inputs = s.inputs := by
  induction l generalizing s with
  | nil => rfl
  | cons p rest ih =>
    rw [State.setSomeLows]
    split
    · exact ih s
    · split <;> exact ih _

@[simp] theorem State.setSomeLows_deviceIn (s : State) (b : Option LowReg) (l : List (LowReg × Word)) :
    (s.setSomeLows b l).deviceIn = s.deviceIn := by
  induction l generalizing s with
  | nil => rfl
  | cons p rest ih =>
    rw [State.setSomeLows]
    split
    · exact ih s
    · split <;> exact ih _

@[simp] theorem State.setSomeLows_deviceLog (s : State) (b : Option LowReg) (l : List (LowReg × Word)) :
    (s.setSomeLows b l).deviceLog = s.deviceLog := by
  induction l generalizing s with
  | nil => rfl
  | cons p rest ih =>
    rw [State.setSomeLows]
    split
    · exact ih s
    · split <;> exact ih _

@[simp] theorem State.setSomeLows_resetIn (s : State) (b : Option LowReg) (l : List (LowReg × Word)) :
    (s.setSomeLows b l).resetIn = s.resetIn := by
  induction l generalizing s with
  | nil => rfl
  | cons p rest ih =>
    rw [State.setSomeLows]
    split
    · exact ih s
    · split <;> exact ih _

@[simp] theorem State.setSomeLows_dirty (s : State) (b : Option LowReg) (l : List (LowReg × Word)) :
    (s.setSomeLows b l).dirty = s.dirty := by
  induction l generalizing s with
  | nil => rfl
  | cons p rest ih =>
    rw [State.setSomeLows]
    split
    · exact ih s
    · split <;> exact ih _

@[simp] theorem State.setSomeLows_mustTake (s : State) (b : Option LowReg) (l : List (LowReg × Word)) :
    (s.setSomeLows b l).mustTake = s.mustTake := by
  induction l generalizing s with
  | nil => rfl
  | cons p rest ih =>
    rw [State.setSomeLows]
    split
    · exact ih s
    · split <;> exact ih _

/-! ## Derived readings -/

@[simp] theorem State.setLow_low_same (s : State) (i : LowReg) (v : Word) :
    (s.setLow i v).low i = v := by
  simp [State.low]

theorem State.setLow_low_other (s : State) {i j : LowReg} (v : Word) (h : i ≠ j) :
    (s.setLow i v).low j = s.low j := by
  have h' : i.val ≠ j.val := fun e => h (Fin.ext e)
  simp [State.low, Vector.getElem_set_ne _ _ h']

@[simp] theorem State.setFlags_low (s : State) (f : Flags) (i : LowReg) :
    (s.setFlags f).low i = s.low i := rfl

@[simp] theorem State.setSp_useProcess (s : State) (v : Word) :
    (s.setSp v).useProcess = s.useProcess := rfl

theorem State.setSp_sp (s : State) (v : Word) : (s.setSp v).sp = alignWord v := by
  by_cases h : s.useProcess = true <;> simp [State.sp, h]

end Sys2Proof.Machine
end

