-- ==== Sys2Proof/Laws/Ops.lean ====
section
/-! SUPPORT. What each shared operation can do, said once: the advance of the pc, one memory access, several
words, the registers of a list, the pieces of an exception entry and of a return. -/

namespace Sys2Proof.Machine

open Sys2Proof

/-! ## The end of an instruction -/

theorem advance_room {len : Nat} {s : State} (h : s.roomFor len) :
    advance len s = .next { s with pc := s.pc + BitVec.ofNat 32 len } := if_pos h

theorem advance_next {len : Nat} {s t : State} (h : advance len s = .next t) :
    s.roomFor len ∧ t = { s with pc := s.pc + BitVec.ofNat 32 len } := by
  unfold advance at h
  split at h
  · next hp => exact ⟨hp, by cases h; rfl⟩
  · cases h

@[simp] theorem Eff.andThen_ok {α β : Type} (a : α) (s : State) (f : α → State → Eff β) :
    (Eff.ok a s).andThen f = f a s := rfl

@[simp] theorem Eff.andThen_hardFault {α β : Type} (c : FaultCause) (s : State)
    (f : α → State → Eff β) : (Eff.hardFault c s).andThen f = .hardFault c s := rfl

@[simp] theorem Eff.andThen_refuse {α β : Type} (r : Refusal) (f : α → State → Eff β) :
    (Eff.refuse r).andThen f = .refuse r := rfl

@[simp] theorem Eff.finishAt_ok (s : State) (len : Nat) :
    (Eff.ok () s).finishAt len = advance len s := rfl

@[simp] theorem Eff.finishAt_hardFault (c : FaultCause) (s : State) (len : Nat) :
    (Eff.hardFault c s).finishAt len = raiseHardFault c s := rfl

@[simp] theorem Eff.finishAt_refuse (r : Refusal) (len : Nat) :
    (Eff.refuse r).finishAt len = .refused r := rfl

@[simp] theorem Eff.finish_ok (s : State) : (Eff.ok () s).finish = .next s := rfl

@[simp] theorem Eff.finish_hardFault (c : FaultCause) (s : State) :
    (Eff.hardFault c s).finish = raiseHardFault c s := rfl

@[simp] theorem Eff.finish_refuse (r : Refusal) : (Eff.refuse r).finish = .refused r := rfl

theorem Eff.andThen_eq_ok {α β : Type} {e : Eff α} {f : α → State → Eff β} {b : β} {t : State}
    (h : e.andThen f = .ok b t) : ∃ a s, e = .ok a s ∧ f a s = .ok b t := by
  cases e with
  | ok a s => exact ⟨a, s, rfl, h⟩
  | hardFault c s => cases h
  | refuse r => cases h

/-- The label of a HardFault has no effect (R420). -/
theorem raiseHardFault_cause (c d : FaultCause) (s : State) :
    raiseHardFault c s = raiseHardFault d s := rfl

/-! ## One access to memory -/

theorem memRead_readable {priv : Bool} {w : Width} {a : Word} {s : State}
    (h : s.readable priv w a) :
    memRead priv w a s = .ok (s.mem.value s.cfg.bigEndian w a.toNat) s := by
  obtain ⟨h1, h2, h3 | h3⟩ := h <;> simp [memRead, h1, h2, h3]

theorem memWrite_writable {priv : Bool} {w : Width} {a : Word} {s : State} (v : Word)
    (h : s.writable priv w a) : memWrite priv w a v s = .ok () (s.storeAt w a.toNat v) := by
  obtain ⟨h1, h2, h3⟩ := h
  simp [memWrite, h1, h2, h3]

theorem memRead_device {priv : Bool} {w : Width} {a : Word} {s : State}
    (h : s.deviceAt priv .read w a) :
    memRead priv w a s = .ok (s.deviceWord w) (s.deviceRead .read w a) := by
  obtain ⟨h1, h2, h3⟩ := h
  simp [memRead, h1, h2, h3]

theorem memWrite_device {priv : Bool} {w : Width} {a : Word} {s : State} (v : Word)
    (h : s.deviceAt priv .write w a) :
    memWrite priv w a v s = .ok () (s.deviceWrite w a v) := by
  obtain ⟨h1, h2, h3⟩ := h
  simp [memWrite, h1, h2, h3]

theorem memRead_busError {priv : Bool} {w : Width} {a : Word} {s : State}
    (h : a.toNat % w.bytes ≠ 0 ∨ (inPpb a = true ∧ priv = false) ∨
      (inPpb a = false ∧ s.cfg.target .read priv w a.toNat = none)) :
    ∃ c, memRead priv w a s = .hardFault c s := by
  unfold memRead
  by_cases h0 : a.toNat % w.bytes = 0
  · obtain h | ⟨h1, h2⟩ | ⟨h1, h2⟩ := h
    · exact absurd h0 h
    · exact ⟨.busError, by simp [h0, h1, h2]⟩
    · exact ⟨.busError, by simp [h0, h1, h2]⟩
  · exact ⟨.unaligned, by simp [h0]⟩

theorem memWrite_busError {priv : Bool} {w : Width} {a : Word} {s : State} (v : Word)
    (h : a.toNat % w.bytes ≠ 0 ∨ (inPpb a = true ∧ priv = false) ∨
      (inPpb a = false ∧ s.cfg.target .write priv w a.toNat = none)) :
    ∃ c, memWrite priv w a v s = .hardFault c s := by
  unfold memWrite
  by_cases h0 : a.toNat % w.bytes = 0
  · obtain h | ⟨h1, h2⟩ | ⟨h1, h2⟩ := h
    · exact absurd h0 h
    · exact ⟨.busError, by simp [h0, h1, h2]⟩
    · exact ⟨.busError, by simp [h0, h1, h2]⟩
  · exact ⟨.unaligned, by simp [h0]⟩

/-- All a successful read can be: memory, state unchanged, a device, or a system register. -/
theorem memRead_ok {priv : Bool} {w : Width} {a v : Word} {s t : State}
    (h : memRead priv w a s = .ok v t) :
    a.toNat % w.bytes = 0 ∧
      ((t = s ∧ inPpb a = false ∧ v = s.mem.value s.cfg.bigEndian w a.toNat ∧ s.readable priv w a) ∨
        (s.deviceAt priv .read w a ∧ v = s.deviceWord w ∧ t = s.deviceRead .read w a) ∨
        (inPpb a = true ∧ priv = true ∧ ∃ reg, sysRegAt a = some reg ∧
          v = (readSys reg s).1 ∧ t = (readSys reg s).2)) := by
  unfold memRead at h
  split at h
  · cases h
  next h0 =>
  have h0 : a.toNat % w.bytes = 0 := by simpa using h0
  refine ⟨h0, ?_⟩
  split at h
  · next hp =>
    split at h
    · cases h
    · next hpriv =>
      split at h
      · cases h
      · split at h
        · cases h
        · next reg hreg =>
          cases h
          exact .inr (.inr ⟨hp, by simpa using hpriv, reg, hreg, rfl, rfl⟩)
  · next hp =>
    have hp : inPpb a = false := by simpa using hp
    split at h
    · cases h
    · next ht => cases h; exact .inr (.inl ⟨⟨h0, hp, ht⟩, rfl, rfl⟩)
    · next ht => cases h; exact .inl ⟨rfl, hp, rfl, h0, hp, .inl ht⟩
    · next ht => cases h; exact .inl ⟨rfl, hp, rfl, h0, hp, .inr ht⟩

/-- All a successful write can be: a store, an ignored write of read-only memory, a device, or a system
register. -/
theorem memWrite_ok {priv : Bool} {w : Width} {a v : Word} {s t : State}
    (h : memWrite priv w a v s = .ok () t) :
    a.toNat % w.bytes = 0 ∧
      ((t = s.storeAt w a.toNat v ∧ s.writable priv w a) ∨
        (t = s ∧ inPpb a = false ∧ s.cfg.target .write priv w a.toNat = some .rom) ∨
        (s.deviceAt priv .write w a ∧ t = s.deviceWrite w a v) ∨
        (inPpb a = true ∧ priv = true ∧ ∃ reg, sysRegAt a = some reg ∧ writeSys reg v s = .ok () t)) := by
  unfold memWrite at h
  split at h
  · cases h
  next h0 =>
  have h0 : a.toNat % w.bytes = 0 := by simpa using h0
  refine ⟨h0, ?_⟩
  split at h
  · next hp =>
    split at h
    · cases h
    · next hpriv =>
      split at h
      · cases h
      · split at h
        · cases h
        · next reg hreg => exact .inr (.inr (.inr ⟨hp, by simpa using hpriv, reg, hreg, h⟩))
  · next hp =>
    have hp : inPpb a = false := by simpa using hp
    split at h
    · cases h
    · next ht => cases h; exact .inr (.inr (.inl ⟨⟨h0, hp, ht⟩, rfl⟩))
    · next ht => cases h; exact .inr (.inl ⟨rfl, hp, ht⟩)
    · next ht => cases h; exact .inl ⟨rfl, h0, hp, ht⟩

/-- A write of a system register raises no HardFault. -/
theorem writeSys_no_hardFault {reg : SysReg} {v : Word} {s t : State} {c : FaultCause} :
    writeSys reg v s ≠ .hardFault c t := by
  cases reg <;> simp only [writeSys, State.writeIcsr, State.writeVtor, State.writeAircr] <;>
    (repeat' split) <;> simp

/-- A read that faults leaves the state as it was (R96, R113, R114). -/
theorem memRead_hardFault {priv : Bool} {w : Width} {a : Word} {s t : State} {c : FaultCause}
    (h : memRead priv w a s = .hardFault c t) : t = s := by
  unfold memRead at h
  repeat' split at h
  all_goals cases h
  all_goals rfl

/-- A write that faults leaves the state as it was (R96, R113, R114). -/
theorem memWrite_hardFault {priv : Bool} {w : Width} {a v : Word} {s t : State} {c : FaultCause}
    (h : memWrite priv w a v s = .hardFault c t) : t = s := by
  unfold memWrite at h
  repeat' split at h
  all_goals first | exact absurd h writeSys_no_hardFault | (cases h; try rfl)

/-! ## Words at rising addresses -/

/-- A store changes nothing an access's permission depends on. -/
theorem writable_storeAt {priv : Bool} {w w' : Width} {a : Word} {s : State} {b : Nat} {v : Word} :
    (s.storeAt w' b v).writable priv w a ↔ s.writable priv w a := Iff.rfl

theorem wordAt_zero (a : Word) : wordAt a 0 = a := by simp [wordAt]

theorem wordAt_succ (a : Word) (k : Nat) : wordAt (a + 4#32) k = wordAt a (k + 1) := by
  rw [wordAt, wordAt, BitVec.add_assoc]
  congr 1
  rw [show 4 * (k + 1) = 4 + 4 * k by omega, BitVec.ofNat_add]

theorem toNat_wordAt {a : Word} {k n : Nat} (h : a.toNat + 4 * n ≤ 2 ^ 32) (hk : k < n) :
    (wordAt a k).toNat = a.toNat + 4 * k := by
  rw [wordAt, BitVec.toNat_add, BitVec.toNat_ofNat]; omega

theorem toNat_add_four {a : Word} {n : Nat} (h : a.toNat + 4 * (n + 2) ≤ 2 ^ 32) :
    (a + 4#32).toNat = a.toNat + 4 := by
  rw [BitVec.toNat_add]; simp; omega

theorem wordsStored_nil (big : Bool) (m : Memory) (a : Word) : wordsStored big m m a [] := by
  intro x; simp

theorem Memory.read_store_word (big : Bool) (m : Memory) (a b : Nat) (v : Word) :
    (m.store big .word a v).read b =
      if a ≤ b ∧ b < a + 4 then byteOf big .word v (b - a) else m.read b :=
  Memory.read_store big .word m a b v

/-- A store of the first word and then of the rest stores them all. -/
theorem wordsStored_cons {big : Bool} {m m' : Memory} {a : Word} {v : Word} {vs : List Word}
    (ha : a.toNat + 4 * (vs.length + 1) ≤ 2 ^ 32)
    (h : wordsStored big (m.store big .word a.toNat v) m' (a + 4#32) vs) :
    wordsStored big m m' a (v :: vs) := by
  intro x
  rw [h x, Memory.read_store_word]
  have first : a.toNat ≤ x ∧ x < a.toNat + 4 →
      (x - a.toNat) / 4 = 0 ∧ (x - a.toNat) % 4 = x - a.toNat := by omega
  have later : a.toNat + 4 ≤ x →
      (x - a.toNat) / 4 = (x - (a.toNat + 4)) / 4 + 1 ∧
        (x - a.toNat) % 4 = (x - (a.toNat + 4)) % 4 := by omega
  have hadd : vs.length ≠ 0 → (a + 4#32).toNat = a.toNat + 4 := fun hne => by
    obtain ⟨n, hn⟩ := Nat.exists_eq_succ_of_ne_zero hne
    exact toNat_add_four (n := n) (by omega)
  generalize hd : (a + 4#32).toNat = d at *
  rw [List.length_cons]
  by_cases hx : a.toNat ≤ x ∧ x < a.toNat + 4
  · rw [if_neg (by omega), if_pos hx, if_pos (by omega), (first hx).1, (first hx).2]; rfl
  · by_cases hr : d ≤ x ∧ x < d + 4 * vs.length
    · have hd := hadd (by omega)
      subst hd
      rw [if_pos hr, if_pos (by omega), (later hr.1).1, (later hr.1).2]; rfl
    · rw [if_neg hr, if_neg hx, if_neg]
      intro hc
      have hd := hadd (by omega)
      omega

/-- Words stored to RAM are stored, and nothing but memory and Dirty changes. -/
theorem storeWords_writable {priv : Bool} {vs : List Word} {a : Word} {s : State}
    (h : s.writableWords priv a vs.length) :
    ∃ t, storeWords priv [] vs a s = .ok () t ∧ onlyMemory s t ∧
      wordsStored s.cfg.bigEndian s.mem t.mem a vs := by
  induction vs generalizing a s with
  | nil => exact ⟨s, rfl, rfl, wordsStored_nil _ _ _⟩
  | cons v vs ih =>
    obtain ⟨hlen, hw⟩ := h
    simp only [List.length_cons] at hlen hw
    have h0 : s.writable priv .word a := by simpa [wordAt_zero] using hw 0 (by omega)
    have hrest : (s.storeAt .word a.toNat v).writableWords priv (a + 4#32) vs.length := by
      refine ⟨?_, fun k hk => ?_⟩
      · cases vs with
        | nil => have := (a + 4#32).isLt; simp; omega
        | cons u us =>
          simp only [List.length_cons] at hlen ⊢
          rw [toNat_add_four (n := us.length) (by omega)]; omega
      · rw [wordAt_succ]; exact hw (k + 1) (by omega)
    obtain ⟨t, ht, hs, hm⟩ := ih hrest
    refine ⟨t, ?_, ?_, ?_⟩
    · rw [storeWords, memWrite_writable v h0]; exact ht
    · rw [onlyMemory] at hs ⊢; rw [hs]; rfl
    · exact wordsStored_cons hlen hm

/-- Words read from memory are what memory holds, and nothing changes. -/
theorem readWords_readable {priv : Bool} {n : Nat} {a : Word} {s : State}
    (h : s.readableWords priv a n) : readWords priv [] n a s = (s.wordsAt a n, .ok () s) := by
  induction n generalizing a with
  | zero => rfl
  | succ n ih =>
    obtain ⟨hlen, hr⟩ := h
    have h0 : s.readable priv .word a := by simpa [wordAt_zero] using hr 0 (by omega)
    have hrest : s.readableWords priv (a + 4#32) n := by
      refine ⟨?_, fun k hk => ?_⟩
      · cases n with
        | zero => have := (a + 4#32).isLt; omega
        | succ n => rw [toNat_add_four (n := n) (by omega)]; omega
      · rw [wordAt_succ]; exact hr (k + 1) (by omega)
    rw [readWords, memRead_readable h0]
    simp only [List.tail_nil, List.headD_nil, State.afterEvents_nil, ih hrest]
    congr 1
    rw [State.wordsAt, State.wordsAt, List.range_succ_eq_map, List.map_cons, List.map_map]
    congr 1
    refine List.map_congr_left fun k hk => ?_
    have hk : k < n := List.mem_range.mp hk
    obtain ⟨m, rfl⟩ : ∃ m, n = m + 1 := ⟨n - 1, by omega⟩
    rw [toNat_add_four (n := m) (by omega)]
    simp only [Function.comp]
    congr 1
    omega

/-- A word inside stored words reads back as the word. -/
theorem value_of_wordsStored {big : Bool} {m m' : Memory} {a : Word} {vs : List Word}
    (h : wordsStored big m m' a vs) {k : Nat} (hk : k < vs.length) :
    m'.value big .word (a.toNat + 4 * k) = vs.getD k 0#32 := by
  have hb : ∀ i < 4, m'.read (a.toNat + 4 * k + i) = byteOf big .word (vs.getD k 0#32) i := by
    intro i hi
    rw [h, if_pos (by omega)]
    have h1 : (a.toNat + 4 * k + i - a.toNat) / 4 = k := by omega
    have h2 : (a.toNat + 4 * k + i - a.toNat) % 4 = i := by omega
    rw [h1, h2]
  have h0 := hb 0 (by omega)
  have h1 := hb 1 (by omega)
  have h2 := hb 2 (by omega)
  have h3 := hb 3 (by omega)
  rw [Nat.add_zero] at h0
  have ha := append_bytes (vs.getD k 0#32)
  cases big <;> simp only [Memory.value, h0, h1, h2, h3] <;> simpa [byteOf, Width.bytes] using ha

/-- A word apart from stored words reads as before. -/
theorem value_apart_wordsStored {big : Bool} {m m' : Memory} {a : Word} {vs : List Word}
    (h : wordsStored big m m' a vs) {w : Width} {b : Nat}
    (hb : b + w.bytes ≤ a.toNat ∨ a.toNat + 4 * vs.length ≤ b) :
    m'.value big w b = m.value big w b :=
  Memory.value_congr big w fun x h1 h2 => by rw [h x, if_neg (by omega)]

theorem length_wordsAt (s : State) (a : Word) (n : Nat) : (s.wordsAt a n).length = n := by
  simp [State.wordsAt]

/-! ## The set Dirty (D24) -/

theorem any_markDirty (m : Memory) (a n : Nat) (d : List Host.Cell) (x : Nat) :
    ((markDirty m a n d).any fun cell => cell.1 == x) =
      ((d.any fun cell => cell.1 == x) || decide (a ≤ x ∧ x < a + n)) := by
  induction n generalizing a d with
  | zero => simp [markDirty]
  | succ n ih =>
    rw [markDirty]
    split <;> rw [ih]
    · next h =>
      by_cases hx : x = a
      · subst hx; rw [h]; simp
      · congr 1; exact decide_eq_decide.mpr (by omega)
    · by_cases hx : x = a
      · subst hx; simp
      · rw [List.any_cons, show (a == x) = false by simp; omega, Bool.false_or]
        congr 1; exact decide_eq_decide.mpr (by omega)

/-- An address in Dirty keeps its entry. -/
theorem find_markDirty (m : Memory) (x a n : Nat) (d : List Host.Cell)
    (h : (d.any fun cell => cell.1 == x) = true) :
    (markDirty m a n d).find? (fun cell => cell.1 == x) = d.find? (fun cell => cell.1 == x) := by
  induction n generalizing a d with
  | zero => rfl
  | succ n ih =>
    rw [markDirty]
    split
    · exact ih _ _ h
    · next ha =>
      have hne : (a == x) = false := by rw [beq_eq_false_iff_ne]; rintro rfl; exact ha h
      rw [ih _ _ (by simp [h]), List.find?_cons_of_neg (by simp [hne])]

/-- Where only the noted bytes change, every address keeps the byte of the last synchronisation. -/
theorem oldByte_markDirty (m m' : Memory) (a n : Nat) (d : List Host.Cell) (x : Nat)
    (h : ¬(a ≤ x ∧ x < a + n) → m'.read x = m.read x) :
    oldByte (markDirty m a n d) m' x = oldByte d m x := by
  induction n generalizing a d with
  | zero => simp only [markDirty, oldByte, h (by omega)]
  | succ n ih =>
    rw [markDirty]
    by_cases hx : x = a
    · subst hx
      split
      · next ha =>
        rw [oldByte, find_markDirty _ _ _ _ _ ha, oldByte]
        obtain ⟨c, hc⟩ := Option.isSome_iff_exists.mp
          (List.find?_isSome.mpr (List.any_eq_true.mp ha))
        rw [hc]
      · next ha =>
        have hnone : (d.find? fun cell => cell.1 == x) = none := by
          rw [Bool.not_eq_true, ← Option.not_isSome_iff_eq_none, ← Bool.not_eq_true] at *
          rw [List.find?_isSome]
          exact fun hd => ha (List.any_eq_true.mpr hd)
        rw [oldByte, find_markDirty _ _ _ _ _ (by simp), oldByte, hnone]
        simp
    · split <;> rw [ih (a + 1) _ fun hn => h (by omega)]
      rw [oldByte, oldByte, List.find?_cons_of_neg (by simp; omega)]

/-- A store of one register notes the bytes it stores to. -/
theorem storesNoted_storeAt (s : State) (w : Width) (a : Nat) (v : Word) :
    storesNoted s (s.storeAt w a v) a w.bytes := fun x =>
  ⟨any_markDirty .., oldByte_markDirty _ _ _ _ _ _ fun h => by
    rw [State.storeAt_mem, Memory.read_store, if_neg h]⟩

theorem storesNoted_refl (s : State) (a : Nat) : storesNoted s s a 0 := fun x => by simp

/-- Stores to adjacent bytes note them all. -/
theorem storesNoted_trans {s u t : State} {a b n k : Nat} (h : storesNoted s u a n)
    (h' : storesNoted u t b k) (hb : k = 0 ∨ b = a + n) : storesNoted s t a (n + k) := fun x => by
  refine ⟨?_, (h' x).2.trans (h x).2⟩
  rw [(h' x).1, (h x).1, Bool.or_assoc, ← Bool.decide_or]
  congr 1
  exact decide_eq_decide.mpr (by omega)

/-- Words stored to RAM are noted in Dirty. -/
theorem storesNoted_storeWords {priv : Bool} {vs : List Word} {a : Word} {s t : State}
    (h : s.writableWords priv a vs.length) (ht : storeWords priv [] vs a s = .ok () t) :
    storesNoted s t a.toNat (4 * vs.length) := by
  induction vs generalizing a s with
  | nil => cases ht; exact storesNoted_refl _ _
  | cons v vs ih =>
    obtain ⟨hlen, hw⟩ := h
    simp only [List.length_cons] at hlen hw
    have h0 : s.writable priv .word a := by simpa [wordAt_zero] using hw 0 (by omega)
    have hadd : vs.length ≠ 0 → (a + 4#32).toNat = a.toNat + 4 := fun hne => by
      obtain ⟨n, hn⟩ := Nat.exists_eq_succ_of_ne_zero hne
      exact toNat_add_four (n := n) (by omega)
    rw [storeWords, memWrite_writable v h0, Eff.andThen_ok] at ht
    have hrest : (s.storeAt .word a.toNat v).writableWords priv (a + 4#32) vs.length := by
      refine ⟨?_, fun k hk => ?_⟩
      · by_cases hz : vs.length = 0
        · have := (a + 4#32).isLt; omega
        · rw [hadd hz]; omega
      · rw [wordAt_succ]; exact hw (k + 1) (by omega)
    rw [List.length_cons, show 4 * (vs.length + 1) = 4 + 4 * vs.length by omega]
    exact storesNoted_trans (storesNoted_storeAt s .word a.toNat v) (ih hrest ht)
      (by by_cases hz : vs.length = 0
          · exact .inl (by omega)
          · exact .inr (hadd hz))

/-! ## The canonical form -/

/-- A store of a register keeps memory's canonical form. -/
theorem wf_storeAt {s : State} {w : Width} {a : Word} (v : Word) (h : s.mem.wf = true)
    (ha : a.toNat % w.bytes = 0) : (s.storeAt w a.toNat v).mem.wf = true :=
  Memory.wf_store _ _ _ h (aligned_in_range w a ha)

theorem writePri_mem (s : State) (n : Fin 32) (v : Word) (j : Nat) :
    (s.writePri n v j).mem = s.mem := by
  unfold State.writePri; split <;> rfl

/-- A write of a system register leaves memory as it was. -/
theorem writeSys_mem {reg : SysReg} {v : Word} {s t : State} (h : writeSys reg v s = .ok () t) :
    t.mem = s.mem := by
  cases reg <;>
    simp only [writeSys, State.writeIcsr, State.writeVtor, State.writeAircr, State.writeSystCsr,
      State.writeIpr, State.writeScr, State.writeShpr3] at h <;>
    (repeat' split at h) <;> cases h <;> simp [writePri_mem]

/-- A write keeps memory's canonical form. -/
theorem wf_memWrite {priv : Bool} {w : Width} {a v : Word} {s t : State}
    (h : memWrite priv w a v s = .ok () t) (hs : s.mem.wf = true) : t.mem.wf = true := by
  obtain ⟨ha, ⟨rfl, _⟩ | ⟨rfl, _⟩ | ⟨_, rfl⟩ | ⟨_, _, reg, _, hw⟩⟩ := memWrite_ok h
  · exact wf_storeAt v hs ha
  · exact hs
  · exact hs
  · rw [writeSys_mem hw]; exact hs

/-- Words written at rising addresses keep memory's canonical form, whatever happens between them and up to a
fault too. -/
theorem wf_storeWords {priv : Bool} {gaps : Gaps} {vs : List Word} {a : Word} {s t : State}
    (h : storeWords priv gaps vs a s = .ok () t ∨
      ∃ c, storeWords priv gaps vs a s = .hardFault c t)
    (hs : s.mem.wf = true) : t.mem.wf = true := by
  induction vs generalizing gaps a s with
  | nil => obtain h | ⟨c, h⟩ := h <;> cases h; exact hs
  | cons v vs ih =>
    cases hw : memWrite priv .word a v s with
    | ok u s1 =>
      simp only [storeWords, hw, Eff.andThen_ok] at h
      exact ih h (by rw [State.afterEvents_mem]; exact wf_memWrite hw hs)
    | hardFault c s1 =>
      simp only [storeWords, hw, Eff.andThen_hardFault] at h
      have hs1 := memWrite_hardFault hw
      obtain h | ⟨c', h⟩ := h <;> cases h
      rw [hs1]; exact hs
    | refuse r =>
      simp only [storeWords, hw, Eff.andThen_refuse] at h
      obtain h | ⟨c', h⟩ := h <;> cases h

/-- The placing of bytes keeps memory's canonical form. -/
theorem wf_placeBytes {bs : List Byte} {a : Word} {m : Memory} (h : m.wf = true) :
    (placeBytes bs a m).wf = true := by
  induction bs generalizing a m with
  | nil => exact h
  | cons b bs ih => exact ih (Memory.wf_write b h a.isLt)

theorem wf_reset : State.reset.mem.wf = true := Memory.wf_nil

/-! ## The registers of a list -/

theorem mem_listRegs {list : BitVec 8} {i : LowReg} :
    i ∈ listRegs list ↔ list.getLsbD i.val = true := by
  simp [listRegs]

theorem nodup_listRegs (list : BitVec 8) : (listRegs list).Nodup :=
  (List.nodup_finRange 8).filter _

/-! ## Multiple transfers with events between their accesses -/

/-- With no event between its accesses a transfer is the instruction (R400). -/
theorem execAmid_nil (i : Instr) (s : State) : execAmid [] i s = exec i s := by
  cases i <;> rfl

theorem gapsWithin_nil (n : Nat) : gapsWithin [] n = [] := List.take_nil

/-- There is always an access after the last occasion for events. -/
theorem length_gapsWithin_lt (gaps : Gaps) {n : Nat} (h : 0 < n) : (gapsWithin gaps n).length < n := by
  rw [gapsWithin, List.length_take]; omega

/-! ## Exception entry and return -/

/-- What the stacking of a frame leaves (R410, R412). -/
theorem pushStack_ready {s : State} (ret : Word)
    (h : s.writableWords s.privileged s.framePtr 8) :
    ∃ m d, pushStack ret s =
        .ok () { State.setSp { s with mem := m, dirty := d } s.framePtr with lr := s.excReturn } ∧
      wordsStored s.cfg.bigEndian s.mem m s.framePtr (s.frameWords ret) := by
  have hlen : (s.frameWords ret).length = 8 := rfl
  obtain ⟨t, ht, hs, hm⟩ :=
    storeWords_writable (vs := s.frameWords ret) (priv := s.privileged) (a := s.framePtr) (s := s)
      (by rw [hlen]; exact h)
  refine ⟨t.mem, t.dirty, ?_, hm⟩
  have hc : crossesTop s.framePtr 8 = false := by
    have := h.1; simp [crossesTop]; omega
  rw [pushStack, hc, ht]
  rw [onlyMemory] at hs
  simp only [Bool.false_eq_true, if_false, Eff.andThen_ok]
  rw [hs]

/-- An exception entry that is a next state, and that no reset cuts off, stacked a frame and read a
vector. -/
theorem exceptionEntry_next {e : Exc} {ret : Word} {s t : State} (hr : s.resetIn = none)
    (h : exceptionEntry e ret s = .next t) :
    ∃ s1, pushStack ret s = .ok () s1 ∧ exceptionTaken e s1 = .ok () t := by
  unfold exceptionEntry at h
  rw [hr] at h
  simp only at h
  split at h
  · next heq => cases h; obtain ⟨_, s1, h1, h2⟩ := Eff.andThen_eq_ok heq; exact ⟨s1, h1, h2⟩
  · cases h
  · cases h

/-- An exception return that is a next state passed the checks of R415 and removed a frame. -/
theorem exceptionReturn_next {v : Word} {s t : State} (h : exceptionReturn v s = .next t) :
    ∃ dest r, returnTo v = some dest ∧ excOfNumber s.ipsr = some r ∧ s.mayReturn dest r = true ∧
      popStack dest r s = .next t := by
  unfold exceptionReturn at h
  split at h
  · next dest r h1 h2 =>
    split at h
    · next h3 => exact ⟨dest, r, h1, h2, h3, h⟩
    · cases h
  · cases h

end Sys2Proof.Machine
end

