-- ==== Sys2Proof/Laws/PerInstr.lean ====
section
/-! SUPPORT. Statements made instruction by instruction: the first halfword an instruction encodes to
announces how many follow (`30_encoding.md` R142). -/

namespace Sys2Proof.Laws.LengthAnnounced

open Sys2Proof

/-- The encoding is one halfword that does not announce a second, or two of which the first does (R142). -/
def Statement (i : Instr) : Prop :=
  (∃ hw1, encode i = [hw1] ∧ isWide hw1 = false) ∨
    ∃ hw1 hw2, encode i = [hw1, hw2] ∧ isWide hw1 = true

/-- Bits 15 to 13 all 1 and bit 12 or bit 11 set. -/
def topBits {w : Nat} (v : BitVec w) : Bool :=
  v.getLsbD 15 && v.getLsbD 14 && v.getLsbD 13 && (v.getLsbD 12 || v.getLsbD 11)

/-- They announce a second halfword. -/
theorem isWide_eq (hw : Half) : isWide hw = topBits hw := by
  have h : ∀ f : BitVec 5, (f == 0b11101#5 || f == 0b11110#5 || f == 0b11111#5) =
      (f.getLsbD 4 && f.getLsbD 3 && f.getLsbD 2 && (f.getLsbD 1 || f.getLsbD 0)) := by decide
  simpa [isWide, topBits] using h (hw.extractLsb' 11 5)

/-- The announcement of a halfword written as fields of widths that sum to 16. -/
theorem isWide_fields {w : Nat} {hw : Half} {b : Bool} (v : BitVec w) (hv : hw.toNat = v.toNat)
    (h : topBits v = b) : isWide hw = b := by
  rw [isWide_eq, ← h]
  simp only [topBits, BitVec.getLsbD, hv]

/-- One halfword. -/
theorem one {i : Instr} (w : Nat) {hw1 : Half} (v : BitVec w) (h : encode i = [hw1])
    (hv : hw1.toNat = v.toNat) (h1 : topBits v = false) : Statement i :=
  .inl ⟨hw1, h, isWide_fields v hv h1⟩

/-- Two halfwords. -/
theorem two {i : Instr} (w : Nat) {hw1 hw2 : Half} (v : BitVec w) (h : encode i = [hw1, hw2])
    (hv : hw1.toNat = v.toNat) (h1 : topBits v = true) : Statement i :=
  .inr ⟨hw1, hw2, h, isWide_fields v hv h1⟩

theorem lslsImm (imm5 : BitVec 5) (rm rd : LowReg) : Statement (.lslsImm imm5 rm rd) :=
  one (5 + 5 + 3 + 3) _ rfl rfl (by simp only [topBits, BitVec.getLsbD_append]; simp)

theorem lsrsImm (imm5 : BitVec 5) (rm rd : LowReg) : Statement (.lsrsImm imm5 rm rd) :=
  one (5 + 5 + 3 + 3) _ rfl rfl (by simp only [topBits, BitVec.getLsbD_append]; simp)

theorem asrsImm (imm5 : BitVec 5) (rm rd : LowReg) : Statement (.asrsImm imm5 rm rd) :=
  one (5 + 5 + 3 + 3) _ rfl rfl (by simp only [topBits, BitVec.getLsbD_append]; simp)

theorem addsReg (rm rn rd : LowReg) : Statement (.addsReg rm rn rd) :=
  one (7 + 3 + 3 + 3) _ rfl rfl (by simp only [topBits, BitVec.getLsbD_append]; simp)

theorem subsReg (rm rn rd : LowReg) : Statement (.subsReg rm rn rd) :=
  one (7 + 3 + 3 + 3) _ rfl rfl (by simp only [topBits, BitVec.getLsbD_append]; simp)

theorem addsImm3 (imm3 : BitVec 3) (rn rd : LowReg) : Statement (.addsImm3 imm3 rn rd) :=
  one (7 + 3 + 3 + 3) _ rfl rfl (by simp only [topBits, BitVec.getLsbD_append]; simp)

theorem subsImm3 (imm3 : BitVec 3) (rn rd : LowReg) : Statement (.subsImm3 imm3 rn rd) :=
  one (7 + 3 + 3 + 3) _ rfl rfl (by simp only [topBits, BitVec.getLsbD_append]; simp)

theorem movsImm (rd : LowReg) (imm8 : BitVec 8) : Statement (.movsImm rd imm8) :=
  one (5 + 3 + 8) _ rfl rfl (by simp only [topBits, BitVec.getLsbD_append]; simp)

theorem cmpImm (rn : LowReg) (imm8 : BitVec 8) : Statement (.cmpImm rn imm8) :=
  one (5 + 3 + 8) _ rfl rfl (by simp only [topBits, BitVec.getLsbD_append]; simp)

theorem addsImm8 (rdn : LowReg) (imm8 : BitVec 8) : Statement (.addsImm8 rdn imm8) :=
  one (5 + 3 + 8) _ rfl rfl (by simp only [topBits, BitVec.getLsbD_append]; simp)

theorem subsImm8 (rdn : LowReg) (imm8 : BitVec 8) : Statement (.subsImm8 rdn imm8) :=
  one (5 + 3 + 8) _ rfl rfl (by simp only [topBits, BitVec.getLsbD_append]; simp)

theorem movsReg (rm rd : LowReg) : Statement (.movsReg rm rd) :=
  one (10 + 3 + 3) _ rfl rfl (by simp only [topBits, BitVec.getLsbD_append]; simp)

theorem ands (rm rdn : LowReg) : Statement (.ands rm rdn) :=
  one (10 + 3 + 3) _ rfl rfl (by simp only [topBits, BitVec.getLsbD_append]; simp)

theorem eors (rm rdn : LowReg) : Statement (.eors rm rdn) :=
  one (10 + 3 + 3) _ rfl rfl (by simp only [topBits, BitVec.getLsbD_append]; simp)

theorem lslsReg (rm rdn : LowReg) : Statement (.lslsReg rm rdn) :=
  one (10 + 3 + 3) _ rfl rfl (by simp only [topBits, BitVec.getLsbD_append]; simp)

theorem lsrsReg (rm rdn : LowReg) : Statement (.lsrsReg rm rdn) :=
  one (10 + 3 + 3) _ rfl rfl (by simp only [topBits, BitVec.getLsbD_append]; simp)

theorem asrsReg (rm rdn : LowReg) : Statement (.asrsReg rm rdn) :=
  one (10 + 3 + 3) _ rfl rfl (by simp only [topBits, BitVec.getLsbD_append]; simp)

theorem adcs (rm rdn : LowReg) : Statement (.adcs rm rdn) :=
  one (10 + 3 + 3) _ rfl rfl (by simp only [topBits, BitVec.getLsbD_append]; simp)

theorem sbcs (rm rdn : LowReg) : Statement (.sbcs rm rdn) :=
  one (10 + 3 + 3) _ rfl rfl (by simp only [topBits, BitVec.getLsbD_append]; simp)

theorem rors (rm rdn : LowReg) : Statement (.rors rm rdn) :=
  one (10 + 3 + 3) _ rfl rfl (by simp only [topBits, BitVec.getLsbD_append]; simp)

theorem tst (rm rn : LowReg) : Statement (.tst rm rn) :=
  one (10 + 3 + 3) _ rfl rfl (by simp only [topBits, BitVec.getLsbD_append]; simp)

theorem rsbs (rn rd : LowReg) : Statement (.rsbs rn rd) :=
  one (10 + 3 + 3) _ rfl rfl (by simp only [topBits, BitVec.getLsbD_append]; simp)

theorem cmpReg (rm rn : LowReg) : Statement (.cmpReg rm rn) :=
  one (10 + 3 + 3) _ rfl rfl (by simp only [topBits, BitVec.getLsbD_append]; simp)

theorem cmn (rm rn : LowReg) : Statement (.cmn rm rn) :=
  one (10 + 3 + 3) _ rfl rfl (by simp only [topBits, BitVec.getLsbD_append]; simp)

theorem orrs (rm rdn : LowReg) : Statement (.orrs rm rdn) :=
  one (10 + 3 + 3) _ rfl rfl (by simp only [topBits, BitVec.getLsbD_append]; simp)

theorem muls (rn rdm : LowReg) : Statement (.muls rn rdm) :=
  one (10 + 3 + 3) _ rfl rfl (by simp only [topBits, BitVec.getLsbD_append]; simp)

theorem bics (rm rdn : LowReg) : Statement (.bics rm rdn) :=
  one (10 + 3 + 3) _ rfl rfl (by simp only [topBits, BitVec.getLsbD_append]; simp)

theorem mvns (rm rd : LowReg) : Statement (.mvns rm rd) :=
  one (10 + 3 + 3) _ rfl rfl (by simp only [topBits, BitVec.getLsbD_append]; simp)

theorem addHi (rdn rm : RegNum) : Statement (.addHi rdn rm) :=
  one (8 + 8) _ rfl rfl (by simp only [topBits, BitVec.getLsbD_append]; simp)

theorem cmpHi (rn rm : RegNum) : Statement (.cmpHi rn rm) :=
  one (8 + 8) _ rfl rfl (by simp only [topBits, BitVec.getLsbD_append]; simp)

theorem movHi (rd rm : RegNum) : Statement (.movHi rd rm) :=
  one (8 + 8) _ rfl rfl (by simp only [topBits, BitVec.getLsbD_append]; simp)

theorem bx (rm : RegNum) (sbz : BitVec 3) : Statement (.bx rm sbz) :=
  one (9 + 4 + 3) _ rfl rfl (by simp only [topBits, BitVec.getLsbD_append]; simp)

theorem blx (rm : RegNum) (sbz : BitVec 3) : Statement (.blx rm sbz) :=
  one (9 + 4 + 3) _ rfl rfl (by simp only [topBits, BitVec.getLsbD_append]; simp)

theorem ldrLit (rt : LowReg) (imm8 : BitVec 8) : Statement (.ldrLit rt imm8) :=
  one (5 + 3 + 8) _ rfl rfl (by simp only [topBits, BitVec.getLsbD_append]; simp)

theorem strReg (rm rn rt : LowReg) : Statement (.strReg rm rn rt) :=
  one (7 + 3 + 3 + 3) _ rfl rfl (by simp only [topBits, BitVec.getLsbD_append]; simp)

theorem strhReg (rm rn rt : LowReg) : Statement (.strhReg rm rn rt) :=
  one (7 + 3 + 3 + 3) _ rfl rfl (by simp only [topBits, BitVec.getLsbD_append]; simp)

theorem strbReg (rm rn rt : LowReg) : Statement (.strbReg rm rn rt) :=
  one (7 + 3 + 3 + 3) _ rfl rfl (by simp only [topBits, BitVec.getLsbD_append]; simp)

theorem ldrsbReg (rm rn rt : LowReg) : Statement (.ldrsbReg rm rn rt) :=
  one (7 + 3 + 3 + 3) _ rfl rfl (by simp only [topBits, BitVec.getLsbD_append]; simp)

theorem ldrReg (rm rn rt : LowReg) : Statement (.ldrReg rm rn rt) :=
  one (7 + 3 + 3 + 3) _ rfl rfl (by simp only [topBits, BitVec.getLsbD_append]; simp)

theorem ldrhReg (rm rn rt : LowReg) : Statement (.ldrhReg rm rn rt) :=
  one (7 + 3 + 3 + 3) _ rfl rfl (by simp only [topBits, BitVec.getLsbD_append]; simp)

theorem ldrbReg (rm rn rt : LowReg) : Statement (.ldrbReg rm rn rt) :=
  one (7 + 3 + 3 + 3) _ rfl rfl (by simp only [topBits, BitVec.getLsbD_append]; simp)

theorem ldrshReg (rm rn rt : LowReg) : Statement (.ldrshReg rm rn rt) :=
  one (7 + 3 + 3 + 3) _ rfl rfl (by simp only [topBits, BitVec.getLsbD_append]; simp)

theorem strImm (imm5 : BitVec 5) (rn rt : LowReg) : Statement (.strImm imm5 rn rt) :=
  one (5 + 5 + 3 + 3) _ rfl rfl (by simp only [topBits, BitVec.getLsbD_append]; simp)

theorem ldrImm (imm5 : BitVec 5) (rn rt : LowReg) : Statement (.ldrImm imm5 rn rt) :=
  one (5 + 5 + 3 + 3) _ rfl rfl (by simp only [topBits, BitVec.getLsbD_append]; simp)

theorem strbImm (imm5 : BitVec 5) (rn rt : LowReg) : Statement (.strbImm imm5 rn rt) :=
  one (5 + 5 + 3 + 3) _ rfl rfl (by simp only [topBits, BitVec.getLsbD_append]; simp)

theorem ldrbImm (imm5 : BitVec 5) (rn rt : LowReg) : Statement (.ldrbImm imm5 rn rt) :=
  one (5 + 5 + 3 + 3) _ rfl rfl (by simp only [topBits, BitVec.getLsbD_append]; simp)

theorem strhImm (imm5 : BitVec 5) (rn rt : LowReg) : Statement (.strhImm imm5 rn rt) :=
  one (5 + 5 + 3 + 3) _ rfl rfl (by simp only [topBits, BitVec.getLsbD_append]; simp)

theorem ldrhImm (imm5 : BitVec 5) (rn rt : LowReg) : Statement (.ldrhImm imm5 rn rt) :=
  one (5 + 5 + 3 + 3) _ rfl rfl (by simp only [topBits, BitVec.getLsbD_append]; simp)

theorem strSp (rt : LowReg) (imm8 : BitVec 8) : Statement (.strSp rt imm8) :=
  one (5 + 3 + 8) _ rfl rfl (by simp only [topBits, BitVec.getLsbD_append]; simp)

theorem ldrSp (rt : LowReg) (imm8 : BitVec 8) : Statement (.ldrSp rt imm8) :=
  one (5 + 3 + 8) _ rfl rfl (by simp only [topBits, BitVec.getLsbD_append]; simp)

theorem adr (rd : LowReg) (imm8 : BitVec 8) : Statement (.adr rd imm8) :=
  one (5 + 3 + 8) _ rfl rfl (by simp only [topBits, BitVec.getLsbD_append]; simp)

theorem addSpImm (rd : LowReg) (imm8 : BitVec 8) : Statement (.addSpImm rd imm8) :=
  one (5 + 3 + 8) _ rfl rfl (by simp only [topBits, BitVec.getLsbD_append]; simp)

theorem addSp (imm7 : BitVec 7) : Statement (.addSp imm7) :=
  one (9 + 7) _ rfl rfl (by simp only [topBits, BitVec.getLsbD_append]; simp)

theorem subSp (imm7 : BitVec 7) : Statement (.subSp imm7) :=
  one (9 + 7) _ rfl rfl (by simp only [topBits, BitVec.getLsbD_append]; simp)

theorem sxth (rm rd : LowReg) : Statement (.sxth rm rd) :=
  one (10 + 3 + 3) _ rfl rfl (by simp only [topBits, BitVec.getLsbD_append]; simp)

theorem sxtb (rm rd : LowReg) : Statement (.sxtb rm rd) :=
  one (10 + 3 + 3) _ rfl rfl (by simp only [topBits, BitVec.getLsbD_append]; simp)

theorem uxth (rm rd : LowReg) : Statement (.uxth rm rd) :=
  one (10 + 3 + 3) _ rfl rfl (by simp only [topBits, BitVec.getLsbD_append]; simp)

theorem uxtb (rm rd : LowReg) : Statement (.uxtb rm rd) :=
  one (10 + 3 + 3) _ rfl rfl (by simp only [topBits, BitVec.getLsbD_append]; simp)

theorem push (m : Bool) (list : BitVec 8) : Statement (.push m list) :=
  one (7 + 1 + 8) _ rfl rfl (by simp only [topBits, BitVec.getLsbD_append]; simp)

theorem cps (im : Bool) (sb : BitVec 4) : Statement (.cps im sb) :=
  one (11 + 1 + 4) _ rfl rfl (by simp only [topBits, BitVec.getLsbD_append]; simp)

theorem rev (rm rd : LowReg) : Statement (.rev rm rd) :=
  one (10 + 3 + 3) _ rfl rfl (by simp only [topBits, BitVec.getLsbD_append]; simp)

theorem rev16 (rm rd : LowReg) : Statement (.rev16 rm rd) :=
  one (10 + 3 + 3) _ rfl rfl (by simp only [topBits, BitVec.getLsbD_append]; simp)

theorem revsh (rm rd : LowReg) : Statement (.revsh rm rd) :=
  one (10 + 3 + 3) _ rfl rfl (by simp only [topBits, BitVec.getLsbD_append]; simp)

theorem pop (p : Bool) (list : BitVec 8) : Statement (.pop p list) :=
  one (7 + 1 + 8) _ rfl rfl (by simp only [topBits, BitVec.getLsbD_append]; simp)

theorem bkpt (imm8 : BitVec 8) : Statement (.bkpt imm8) :=
  one (8 + 8) _ rfl rfl (by simp only [topBits, BitVec.getLsbD_append]; simp)

theorem nop : Statement (.nop) :=
  one 16 _ rfl rfl rfl

theorem yield : Statement (.yield) :=
  one 16 _ rfl rfl rfl

theorem wfe : Statement (.wfe) :=
  one 16 _ rfl rfl rfl

theorem wfi : Statement (.wfi) :=
  one 16 _ rfl rfl rfl

theorem sev : Statement (.sev) :=
  one 16 _ rfl rfl rfl

theorem hintNop (opA : BitVec 4) : Statement (.hintNop opA) :=
  one (8 + 4 + 4) _ rfl rfl (by simp only [topBits, BitVec.getLsbD_append]; simp)

theorem stm (rn : LowReg) (list : BitVec 8) : Statement (.stm rn list) :=
  one (5 + 3 + 8) _ rfl rfl (by simp only [topBits, BitVec.getLsbD_append]; simp)

theorem ldm (rn : LowReg) (list : BitVec 8) : Statement (.ldm rn list) :=
  one (5 + 3 + 8) _ rfl rfl (by simp only [topBits, BitVec.getLsbD_append]; simp)

theorem bCond (cond : Cond) (imm8 : BitVec 8) : Statement (.bCond cond imm8) :=
  one (4 + 4 + 8) _ rfl rfl (by simp only [topBits, BitVec.getLsbD_append]; simp)

theorem b (imm11 : BitVec 11) : Statement (.b imm11) :=
  one (5 + 11) _ rfl rfl (by simp only [topBits, BitVec.getLsbD_append]; simp)

theorem udf (imm8 : BitVec 8) : Statement (.udf imm8) :=
  one (8 + 8) _ rfl rfl (by simp only [topBits, BitVec.getLsbD_append]; simp)

theorem svc (imm8 : BitVec 8) : Statement (.svc imm8) :=
  one (8 + 8) _ rfl rfl (by simp only [topBits, BitVec.getLsbD_append]; simp)

theorem bl (sgn : BitVec 1) (imm10 : BitVec 10) (j1 j2 : BitVec 1) (imm11 : BitVec 11) :
    Statement (.bl sgn imm10 j1 j2 imm11) :=
  two (5 + 1 + 10) _ rfl rfl (by simp only [topBits, BitVec.getLsbD_append]; simp)

theorem msr (sbz4 : BitVec 1) (rn : RegNum) (sbz13 : BitVec 1) (sb1000 : BitVec 4) (sysm : BitVec 8) :
    Statement (.msr sbz4 rn sbz13 sb1000 sysm) :=
  two (11 + 1 + 4) _ rfl rfl (by simp only [topBits, BitVec.getLsbD_append]; simp)

theorem mrs (sbz4 : BitVec 1) (sbo : BitVec 4) (sbz13 : BitVec 1) (rd : RegNum) (sysm : BitVec 8) :
    Statement (.mrs sbz4 sbo sbz13 rd sysm) :=
  two (11 + 1 + 4) _ rfl rfl (by simp only [topBits, BitVec.getLsbD_append]; simp)

theorem dsb (sbo1 : BitVec 4) (sbz13 : BitVec 1) (sbo2 : BitVec 4) (option : BitVec 4) :
    Statement (.dsb sbo1 sbz13 sbo2 option) :=
  two (12 + 4) _ rfl rfl (by simp only [topBits, BitVec.getLsbD_append]; simp)

theorem dmb (sbo1 : BitVec 4) (sbz13 : BitVec 1) (sbo2 : BitVec 4) (option : BitVec 4) :
    Statement (.dmb sbo1 sbz13 sbo2 option) :=
  two (12 + 4) _ rfl rfl (by simp only [topBits, BitVec.getLsbD_append]; simp)

theorem isb (sbo1 : BitVec 4) (sbz13 : BitVec 1) (sbo2 : BitVec 4) (option : BitVec 4) :
    Statement (.isb sbo1 sbz13 sbo2 option) :=
  two (12 + 4) _ rfl rfl (by simp only [topBits, BitVec.getLsbD_append]; simp)

theorem udfW (imm4 : BitVec 4) (imm12 : BitVec 12) : Statement (.udfW imm4 imm12) :=
  two (12 + 4) _ rfl rfl (by simp only [topBits, BitVec.getLsbD_append]; simp)

end Sys2Proof.Laws.LengthAnnounced
end

