-- ==== Sys2Proof/Tests/Slice0.lean ====
section
/-! SUPPORT. Tests: the checks of `Instr.wellFormed`, a word of every instruction written out from the
encodings of `30_encoding.md`, one step of every instruction with its expected result from the table of
`95_test_vectors.md` (its row Tn in the comment), and a witness for every statement with hypotheses. -/

namespace Sys2Proof.Tests

open Sys2Proof Sys2Proof.Machine

/-! ## Well-formedness: each check refuses an ill-formed term (R178, R179) -/

theorem test_wf_lsls_imm :
    (.lslsImm 0#5 1 0 : Instr).wellFormed = false := by decide

theorem test_wf_add_pc_pc :
    (.addHi 15 15 : Instr).wellFormed = false := by decide

theorem test_wf_cmp_hi :
    (.cmpHi 7 0 : Instr).wellFormed = false ∧
      (.cmpHi 15 8 : Instr).wellFormed = false ∧
      (.cmpHi 8 15 : Instr).wellFormed = false := by decide

theorem test_wf_bx :
    (.bx 15 0#3 : Instr).wellFormed = false ∧
      (.bx 0 1#3 : Instr).wellFormed = false := by decide

theorem test_wf_blx :
    (.blx 15 0#3 : Instr).wellFormed = false ∧
      (.blx 0 4#3 : Instr).wellFormed = false := by decide

theorem test_wf_empty_lists :
    (.push false 0#8 : Instr).wellFormed = false ∧
      (.pop false 0#8 : Instr).wellFormed = false ∧
      (.stm 0 0#8 : Instr).wellFormed = false ∧
      (.ldm 0 0#8 : Instr).wellFormed = false := by decide

theorem test_wf_cps :
    (.cps true 0b0011#4 : Instr).wellFormed = false := by decide

theorem test_wf_hint :
    (.hintNop 4#4 : Instr).wellFormed = false := by decide

theorem test_wf_msr :
    (.msr 1#1 0 0#1 8#4 0#8 : Instr).wellFormed = false ∧
      (.msr 0#1 13 0#1 8#4 0#8 : Instr).wellFormed = false ∧
      (.msr 0#1 15 0#1 8#4 0#8 : Instr).wellFormed = false ∧
      (.msr 0#1 0 1#1 8#4 0#8 : Instr).wellFormed = false ∧
      (.msr 0#1 0 0#1 0#4 0#8 : Instr).wellFormed = false ∧
      (.msr 0#1 0 0#1 8#4 17#8 : Instr).wellFormed = false := by decide

theorem test_wf_mrs :
    (.mrs 1#1 15#4 0#1 0 0#8 : Instr).wellFormed = false ∧
      (.mrs 0#1 14#4 0#1 0 0#8 : Instr).wellFormed = false ∧
      (.mrs 0#1 15#4 1#1 0 0#8 : Instr).wellFormed = false ∧
      (.mrs 0#1 15#4 0#1 13 0#8 : Instr).wellFormed = false ∧
      (.mrs 0#1 15#4 0#1 15 0#8 : Instr).wellFormed = false ∧
      (.mrs 0#1 15#4 0#1 0 4#8 : Instr).wellFormed = false := by decide

theorem test_wf_barriers :
    (.dsb 14#4 0#1 15#4 15#4 : Instr).wellFormed = false ∧
      (.dmb 15#4 1#1 15#4 15#4 : Instr).wellFormed = false ∧
      (.isb 15#4 0#1 7#4 15#4 : Instr).wellFormed = false := by decide

/-! ## Decoding: a word of every instruction, the fields in the order of its format -/

theorem test_decode_shift_imm :
    decode 0x07C8#16 0#16 = .instr (.lslsImm 31#5 1 0) ∧
      decode 0x0853#16 0#16 = .instr (.lsrsImm 1#5 2 3) ∧
      decode 0x1108#16 0#16 = .instr (.asrsImm 4#5 1 0) ∧
      decode 0x0008#16 0#16 = .instr (.movsReg 1 0) := by decide

theorem test_decode_add_sub :
    decode 0x1888#16 0#16 = .instr (.addsReg 2 1 0) ∧
      decode 0x1A88#16 0#16 = .instr (.subsReg 2 1 0) ∧
      decode 0x1DC8#16 0#16 = .instr (.addsImm3 7#3 1 0) ∧
      decode 0x1E48#16 0#16 = .instr (.subsImm3 1#3 1 0) := by decide

theorem test_decode_imm8 :
    decode 0x23FF#16 0#16 = .instr (.movsImm 3 0xFF#8) ∧
      decode 0x2805#16 0#16 = .instr (.cmpImm 0 5#8) ∧
      decode 0x3101#16 0#16 = .instr (.addsImm8 1 1#8) ∧
      decode 0x3A80#16 0#16 = .instr (.subsImm8 2 0x80#8) := by decide

theorem test_decode_data_processing :
    decode 0x4008#16 0#16 = .instr (.ands 1 0) ∧
      decode 0x4048#16 0#16 = .instr (.eors 1 0) ∧
      decode 0x4088#16 0#16 = .instr (.lslsReg 1 0) ∧
      decode 0x40C8#16 0#16 = .instr (.lsrsReg 1 0) ∧
      decode 0x4108#16 0#16 = .instr (.asrsReg 1 0) ∧
      decode 0x4148#16 0#16 = .instr (.adcs 1 0) ∧
      decode 0x4188#16 0#16 = .instr (.sbcs 1 0) ∧
      decode 0x41C8#16 0#16 = .instr (.rors 1 0) := by decide

theorem test_decode_data_processing_2 :
    decode 0x4208#16 0#16 = .instr (.tst 1 0) ∧
      decode 0x4248#16 0#16 = .instr (.rsbs 1 0) ∧
      decode 0x4288#16 0#16 = .instr (.cmpReg 1 0) ∧
      decode 0x42C8#16 0#16 = .instr (.cmn 1 0) ∧
      decode 0x4308#16 0#16 = .instr (.orrs 1 0) ∧
      decode 0x4348#16 0#16 = .instr (.muls 1 0) ∧
      decode 0x4388#16 0#16 = .instr (.bics 1 0) ∧
      decode 0x43C8#16 0#16 = .instr (.mvns 1 0) := by decide

theorem test_decode_high_registers :
    decode 0x44F8#16 0#16 = .instr (.addHi 8 15) ∧
      decode 0x4551#16 0#16 = .instr (.cmpHi 1 10) ∧
      decode 0x469F#16 0#16 = .instr (.movHi 15 3) ∧
      decode 0x4770#16 0#16 = .instr (.bx 14 0#3) ∧
      decode 0x4798#16 0#16 = .instr (.blx 3 0#3) := by decide

theorem test_decode_load_store_reg :
    decode 0x4FFE#16 0#16 = .instr (.ldrLit 7 0xFE#8) ∧
      decode 0x5088#16 0#16 = .instr (.strReg 2 1 0) ∧
      decode 0x5288#16 0#16 = .instr (.strhReg 2 1 0) ∧
      decode 0x5488#16 0#16 = .instr (.strbReg 2 1 0) ∧
      decode 0x5688#16 0#16 = .instr (.ldrsbReg 2 1 0) ∧
      decode 0x5888#16 0#16 = .instr (.ldrReg 2 1 0) ∧
      decode 0x5A88#16 0#16 = .instr (.ldrhReg 2 1 0) ∧
      decode 0x5C88#16 0#16 = .instr (.ldrbReg 2 1 0) ∧
      decode 0x5E88#16 0#16 = .instr (.ldrshReg 2 1 0) := by decide

theorem test_decode_load_store_imm :
    decode 0x6048#16 0#16 = .instr (.strImm 1#5 1 0) ∧
      decode 0x6849#16 0#16 = .instr (.ldrImm 1#5 1 1) ∧
      decode 0x77C8#16 0#16 = .instr (.strbImm 31#5 1 0) ∧
      decode 0x7848#16 0#16 = .instr (.ldrbImm 1#5 1 0) ∧
      decode 0x8048#16 0#16 = .instr (.strhImm 1#5 1 0) ∧
      decode 0x8848#16 0#16 = .instr (.ldrhImm 1#5 1 0) ∧
      decode 0x9202#16 0#16 = .instr (.strSp 2 2#8) ∧
      decode 0x9A02#16 0#16 = .instr (.ldrSp 2 2#8) := by decide

theorem test_decode_addresses :
    decode 0xA001#16 0#16 = .instr (.adr 0 1#8) ∧
      decode 0xA902#16 0#16 = .instr (.addSpImm 1 2#8) ∧
      decode 0xB004#16 0#16 = .instr (.addSp 4#7) ∧
      decode 0xB084#16 0#16 = .instr (.subSp 4#7) := by decide

theorem test_decode_extend_reverse :
    decode 0xB208#16 0#16 = .instr (.sxth 1 0) ∧
      decode 0xB248#16 0#16 = .instr (.sxtb 1 0) ∧
      decode 0xB288#16 0#16 = .instr (.uxth 1 0) ∧
      decode 0xB2C8#16 0#16 = .instr (.uxtb 1 0) ∧
      decode 0xBA08#16 0#16 = .instr (.rev 1 0) ∧
      decode 0xBA48#16 0#16 = .instr (.rev16 1 0) ∧
      decode 0xBAC8#16 0#16 = .instr (.revsh 1 0) := by decide

theorem test_decode_stack_and_multiple :
    decode 0xB510#16 0#16 = .instr (.push true 0x10#8) ∧
      decode 0xBC07#16 0#16 = .instr (.pop false 0x07#8) ∧
      decode 0xC006#16 0#16 = .instr (.stm 0 0x06#8) ∧
      decode 0xC983#16 0#16 = .instr (.ldm 1 0x83#8) := by decide

theorem test_decode_hints :
    decode 0xB672#16 0#16 = .instr (.cps true 2#4) ∧
      decode 0xBEAB#16 0#16 = .instr (.bkpt 0xAB#8) ∧
      decode 0xBF00#16 0#16 = .instr (.nop) ∧
      decode 0xBF10#16 0#16 = .instr (.yield) ∧
      decode 0xBF20#16 0#16 = .instr (.wfe) ∧
      decode 0xBF30#16 0#16 = .instr (.wfi) ∧
      decode 0xBF40#16 0#16 = .instr (.sev) ∧
      decode 0xBF50#16 0#16 = .instr (.hintNop 5#4) := by decide

theorem test_decode_branches :
    decode 0xDA80#16 0#16 = .instr (.bCond .ge 0x80#8) ∧
      decode 0xE3FF#16 0#16 = .instr (.b 0x3FF#11) ∧
      decode 0xDE00#16 0#16 = .instr (.udf 0#8) ∧
      decode 0xDF05#16 0#16 = .instr (.svc 5#8) ∧
      decode 0xF400#16 0xD001#16 = .instr (.bl 1#1 0#10 0#1 0#1 1#11) ∧
      decode 0xF000#16 0xF002#16 = .instr (.bl 0#1 0#10 1#1 0#1 2#11) := by decide

theorem test_decode_system :
    decode 0xF381#16 0x8810#16 = .instr (.msr 0#1 1 0#1 8#4 0x10#8) ∧
      decode 0xF3EF#16 0x8105#16 = .instr (.mrs 0#1 15#4 0#1 1 5#8) ∧
      decode 0xF3BF#16 0x8F4F#16 = .instr (.dsb 15#4 0#1 15#4 15#4) ∧
      decode 0xF3BF#16 0x8F5F#16 = .instr (.dmb 15#4 0#1 15#4 15#4) ∧
      decode 0xF3BF#16 0x8F6F#16 = .instr (.isb 15#4 0#1 15#4 15#4) ∧
      decode 0xF7F1#16 0xA002#16 = .instr (.udfW 1#4 2#12) := by decide

/-- T146, T155, T156, T210, T211, T212. -/
theorem test_decode_undefined :
    decode 0xB100#16 0#16 = .undefined16 ∧ decode 0xBA88#16 0#16 = .undefined16 ∧
      decode 0xBF01#16 0#16 = .undefined16 ∧ decode 0xE800#16 0#16 = .undefined32 ∧
      decode 0xF3AF#16 0x8000#16 = .undefined32 ∧ decode 0xFB90#16 0xF0F1#16 = .undefined32 := by decide

theorem test_decode_table_word :
    decodeTableWord 16 0x4348 = some (.muls 1 0) ∧
      decodeTableWord 32 0xF3EF8105 = some (.mrs 0#1 15#4 0#1 1 5#8) := by decide

/-! ## One step of every instruction -/

/-- The default state of the test vectors, vectors 3 and 11 in place. -/
def start : State :=
  { State.reset with
    pc := 0x100#32
    t := true
    spMain := 0x20001000#32
    lr := 0xFFFFFFFF#32
    mem := (Memory.store false .word (Memory.store false .word [] 12 0x301#32) 44 0x401#32) }

/-- `start` with low registers set. -/
def regs (l : List (LowReg × Word)) : State := start.setLows l

/-- A state with N, Z, C, V set. -/
def flagged (s : State) (f : BitVec 4) : State :=
  { s with flags := ⟨f.getLsbD 3, f.getLsbD 2, f.getLsbD 1, f.getLsbD 0⟩ }

/-- A state with a word in memory. -/
def stored (s : State) (a : Nat) (v : Word) : State := { s with mem := s.mem.store false .word a v }

/-- A word of memory. -/
def word (s : State) (a : Nat) : Word := s.mem.value false .word a

/-- N, Z, C, V. -/
def nzcv (s : State) : BitVec 4 := s.flags.bits

/-- The instruction gives a next state with the property. -/
def gives (i : Instr) (s : State) (p : State → Bool) : Bool :=
  match exec i s with
  | .next t => p t
  | .fault _ => false
  | .refused _ => false

/-- The instruction is refused. -/
def isRefused (i : Instr) (s : State) (r : Refusal) : Bool :=
  match exec i s with
  | .next _ => false
  | .fault _ => false
  | .refused r' => r' == r

/-- T2. -/
theorem test_lsls_imm : gives (.lslsImm 31#5 1 0) (flagged (regs [(1, 0x3#32)]) 0b0001#4)
    (fun t => t.low 0 == 0x80000000#32 && nzcv t == 0b1011#4) = true := by decide

/-- T4. -/
theorem test_lsrs_imm : gives (.lsrsImm 0#5 1 0) (regs [(0, 0xFFFFFFFF#32), (1, 0x80000000#32)])
    (fun t => t.low 0 == 0x0#32 && nzcv t == 0b0110#4) = true := by decide

/-- T8. -/
theorem test_asrs_imm : gives (.asrsImm 0#5 1 0) (regs [(1, 0x80000000#32)])
    (fun t => t.low 0 == 0xFFFFFFFF#32 && nzcv t == 0b1010#4) = true := by decide

/-- T10. -/
theorem test_adds_reg : gives (.addsReg 2 1 0) (regs [(1, 0x7FFFFFFF#32), (2, 0x1#32)])
    (fun t => t.low 0 == 0x80000000#32 && nzcv t == 0b1001#4) = true := by decide

/-- T14. -/
theorem test_subs_reg : gives (.subsReg 2 1 0) (regs [(1, 0x80000000#32), (2, 0x1#32)])
    (fun t => t.low 0 == 0x7FFFFFFF#32 && nzcv t == 0b0011#4) = true := by decide

/-- T17. -/
theorem test_adds_imm3 : gives (.addsImm3 7#3 1 0) (regs [(1, 0x7FFFFFF9#32)])
    (fun t => t.low 0 == 0x80000000#32 && nzcv t == 0b1001#4) = true := by decide

/-- T18. -/
theorem test_subs_imm3 : gives (.subsImm3 1#3 1 0) (regs [(1, 0x80000000#32)])
    (fun t => t.low 0 == 0x7FFFFFFF#32 && nzcv t == 0b0011#4) = true := by decide

/-- T20. -/
theorem test_movs_imm : gives (.movsImm 3 0xFF#8) (flagged (start) 0b1111#4)
    (fun t => t.low 3 == 0xFF#32 && nzcv t == 0b0011#4 && t.pc == 0x102#32) = true := by decide

/-- T23. -/
theorem test_cmp_imm : gives (.cmpImm 0 255#8) (regs [(0, 0x0#32)])
    (fun t => t.low 0 == 0x0#32 && nzcv t == 0b1000#4) = true := by decide

/-- T26. -/
theorem test_adds_imm8 : gives (.addsImm8 0 1#8) (regs [(0, 0xFFFFFFFF#32)])
    (fun t => t.low 0 == 0x0#32 && nzcv t == 0b0110#4) = true := by decide

/-- T28. -/
theorem test_subs_imm8 : gives (.subsImm8 0 1#8) (regs [(0, 0x0#32)])
    (fun t => t.low 0 == 0xFFFFFFFF#32 && nzcv t == 0b1000#4) = true := by decide

/-- T29. -/
theorem test_movs_reg : gives (.movsReg 1 0) (flagged (regs [(1, 0x80000000#32)]) 0b0111#4)
    (fun t => t.low 0 == 0x80000000#32 && nzcv t == 0b1011#4) = true := by decide

/-- T31. -/
theorem test_ands : gives (.ands 1 0) (flagged (regs [(0, 0xF0F0F0F0#32), (1, 0xFF00FF0#32)]) 0b0011#4)
    (fun t => t.low 0 == 0xF000F0#32 && nzcv t == 0b0011#4) = true := by decide

/-- T33. -/
theorem test_eors : gives (.eors 1 0) (regs [(0, 0xFFFF0000#32), (1, 0xFF00FF00#32)])
    (fun t => t.low 0 == 0xFFFF00#32 && nzcv t == 0b0000#4) = true := by decide

/-- T35. -/
theorem test_lsls_reg : gives (.lslsReg 1 0) (regs [(0, 0x1#32), (1, 0x20#32)])
    (fun t => t.low 0 == 0x0#32 && nzcv t == 0b0110#4) = true := by decide

/-- T37. -/
theorem test_lsls_reg_zero : gives (.lslsReg 1 0) (flagged (regs [(0, 0x80000001#32), (1, 0x100#32)]) 0b0010#4)
    (fun t => t.low 0 == 0x80000001#32 && nzcv t == 0b1010#4) = true := by decide

/-- T41. -/
theorem test_lsrs_reg : gives (.lsrsReg 1 0) (flagged (regs [(0, 0x80000000#32), (1, 0x21#32)]) 0b0010#4)
    (fun t => t.low 0 == 0x0#32 && nzcv t == 0b0100#4) = true := by decide

/-- T42. -/
theorem test_asrs_reg : gives (.asrsReg 1 0) (regs [(0, 0x80000000#32), (1, 0x28#32)])
    (fun t => t.low 0 == 0xFFFFFFFF#32 && nzcv t == 0b1010#4) = true := by decide

/-- T46. -/
theorem test_adcs : gives (.adcs 1 0) (flagged (regs [(0, 0x7FFFFFFF#32), (1, 0x0#32)]) 0b0010#4)
    (fun t => t.low 0 == 0x80000000#32 && nzcv t == 0b1001#4) = true := by decide

/-- T49. -/
theorem test_sbcs : gives (.sbcs 1 0) (flagged (regs [(0, 0x5#32), (1, 0x5#32)]) 0b0000#4)
    (fun t => t.low 0 == 0xFFFFFFFF#32 && nzcv t == 0b1000#4) = true := by decide

/-- T54. -/
theorem test_rors : gives (.rors 1 0) (regs [(0, 0x12345678#32), (1, 0x24#32)])
    (fun t => t.low 0 == 0x81234567#32 && nzcv t == 0b1010#4) = true := by decide

/-- T55. -/
theorem test_tst : gives (.tst 1 0) (flagged (regs [(0, 0x8#32), (1, 0x7#32)]) 0b0011#4)
    (fun t => t.low 0 == 0x8#32 && nzcv t == 0b0111#4) = true := by decide

/-- T58. -/
theorem test_rsbs : gives (.rsbs 1 0) (regs [(1, 0x80000000#32)])
    (fun t => t.low 0 == 0x80000000#32 && nzcv t == 0b1001#4) = true := by decide

/-- T59. -/
theorem test_cmp_reg : gives (.cmpReg 1 0) (regs [(0, 0x80000000#32), (1, 0x1#32)])
    (fun t => t.low 0 == 0x80000000#32 && nzcv t == 0b0011#4) = true := by decide

/-- T62. -/
theorem test_cmn : gives (.cmn 1 0) (regs [(0, 0x7FFFFFFF#32), (1, 0x1#32)])
    (fun t => t.low 0 == 0x7FFFFFFF#32 && nzcv t == 0b1001#4) = true := by decide

/-- T63. -/
theorem test_orrs : gives (.orrs 1 0) (regs [(0, 0xFF00#32), (1, 0x80000001#32)])
    (fun t => t.low 0 == 0x8000FF01#32 && nzcv t == 0b1000#4) = true := by decide

/-- T67. -/
theorem test_muls : gives (.muls 1 0) (regs [(0, 0x12345678#32), (1, 0x9ABCDEF0#32)])
    (fun t => t.low 0 == 0x242D2080#32 && nzcv t == 0b0000#4) = true := by decide

/-- T69. -/
theorem test_bics : gives (.bics 1 0) (regs [(0, 0xFFFFFFFF#32), (1, 0xFFFF#32)])
    (fun t => t.low 0 == 0xFFFF0000#32 && nzcv t == 0b1000#4) = true := by decide

/-- T71. -/
theorem test_mvns : gives (.mvns 1 0) (flagged (regs [(0, 0x3#32), (1, 0xFFFFFFFF#32)]) 0b1011#4)
    (fun t => t.low 0 == 0x0#32 && nzcv t == 0b0111#4) = true := by decide

/-- T72. -/
theorem test_add_high : gives (.addHi 8 15) (start.setReg 8 0x10#32)
    (fun t => t.reg 8 == 0x114#32) = true := by decide

/-- T75. -/
theorem test_add_pc : gives (.addHi 15 2) (regs [(2, 0x11#32)])
    (fun t => t.pc == 0x114#32) = true := by decide

/-- T78. -/
theorem test_cmp_high : gives (.cmpHi 1 10) ((regs [(1, 0x0#32)]).setReg 10 1#32)
    (fun t => nzcv t == 0b1000#4) = true := by decide

/-- T80. -/
theorem test_mov_sp : gives (.movHi 13 0) (regs [(0, 0x20000803#32)])
    (fun t => t.spMain == 0x20000800#32) = true := by decide

/-- T83. -/
theorem test_mov_pc : gives (.movHi 15 3) (regs [(3, 0x201#32)])
    (fun t => t.pc == 0x200#32 && t.t) = true := by decide

/-- T86. -/
theorem test_bx : gives (.bx 0 0#3) (regs [(0, 0x200#32)])
    (fun t => t.pc == 0x200#32 && !t.t) = true := by decide

/-- T90. -/
theorem test_blx_lr : gives (.blx 14 0#3) (start.setReg 14 0x401#32)
    (fun t => t.lr == 0x103#32 && t.pc == 0x400#32) = true := by decide

/-- T92. -/
theorem test_ldr_literal : gives (.ldrLit 0 1#8) (stored { start with pc := 0x102#32 } 0x108 0xCAFEF00D#32)
    (fun t => t.low 0 == 0xCAFEF00D#32) = true := by decide

/-- T94. -/
theorem test_str_reg : gives (.strReg 2 1 0) (regs [(0, 0x11223344#32), (1, 0x20000000#32), (2, 0x8#32)])
    (fun t => word t 0x20000008 == 0x11223344#32) = true := by decide

/-- T97. -/
theorem test_strh_reg : gives (.strhReg 2 1 0) (regs [(0, 0x11223344#32), (1, 0x20000000#32), (2, 0x2#32)])
    (fun t => word t 0x20000000 == 0x33440000#32) = true := by decide

/-- T99. -/
theorem test_strb_reg : gives (.strbReg 2 1 0) (regs [(0, 0x11223344#32), (1, 0x20000000#32), (2, 0x3#32)])
    (fun t => word t 0x20000000 == 0x44000000#32) = true := by decide

/-- T100. -/
theorem test_ldrsb_reg : gives (.ldrsbReg 2 1 0) (stored (regs [(1, 0x20000000#32), (2, 0x1#32)]) 0x20000000 0x8000#32)
    (fun t => t.low 0 == 0xFFFFFF80#32) = true := by decide

/-- T102. -/
theorem test_ldr_reg : gives (.ldrReg 2 1 0) (stored (regs [(1, 0x20000010#32), (2, 0xFFFFFFF0#32)]) 0x20000000 0xA5A5A5A5#32)
    (fun t => t.low 0 == 0xA5A5A5A5#32) = true := by decide

/-- T104. -/
theorem test_ldrh_reg : gives (.ldrhReg 2 1 0) (stored (regs [(0, 0xFFFFFFFF#32), (1, 0x20000000#32), (2, 0x2#32)]) 0x20000000 0x8001FFFF#32)
    (fun t => t.low 0 == 0x8001#32) = true := by decide

/-- T105. -/
theorem test_ldrb_reg : gives (.ldrbReg 2 1 0) (stored (regs [(0, 0xFFFFFFFF#32), (1, 0x20000000#32), (2, 0x3#32)]) 0x20000000 0x80000000#32)
    (fun t => t.low 0 == 0x80#32) = true := by decide

/-- T106. -/
theorem test_ldrsh_reg : gives (.ldrshReg 2 1 0) (stored (regs [(1, 0x20000000#32), (2, 0x2#32)]) 0x20000000 0x8001FFFF#32)
    (fun t => t.low 0 == 0xFFFF8001#32) = true := by decide

/-- T109. -/
theorem test_str_imm : gives (.strImm 31#5 1 0) (regs [(0, 0xDEADBEEF#32), (1, 0x20000000#32)])
    (fun t => word t 0x2000007C == 0xDEADBEEF#32) = true := by decide

/-- T111. -/
theorem test_ldr_imm : gives (.ldrImm 1#5 1 1) (stored (regs [(1, 0x20000000#32)]) 0x20000004 0x55667788#32)
    (fun t => t.low 1 == 0x55667788#32) = true := by decide

/-- T113. -/
theorem test_strb_imm : gives (.strbImm 31#5 1 0) (regs [(0, 0x1FF#32), (1, 0x20000000#32)])
    (fun t => word t 0x2000001C == 0xFF000000#32) = true := by decide

/-- T114. -/
theorem test_ldrb_imm : gives (.ldrbImm 1#5 1 0) (stored (regs [(1, 0x20000000#32)]) 0x20000000 0xFE00#32)
    (fun t => t.low 0 == 0xFE#32) = true := by decide

/-- T116. -/
theorem test_strh_imm : gives (.strhImm 31#5 1 0) (regs [(0, 0xABCD1234#32), (1, 0x20000000#32)])
    (fun t => word t 0x2000003C == 0x12340000#32) = true := by decide

/-- T117. -/
theorem test_ldrh_imm : gives (.ldrhImm 1#5 1 0) (stored (regs [(1, 0x20000000#32)]) 0x20000000 0xBEEF0000#32)
    (fun t => t.low 0 == 0xBEEF#32) = true := by decide

/-- T118. -/
theorem test_str_sp : gives (.strSp 2 2#8) (regs [(2, 0xBADF00D#32)])
    (fun t => word t 0x20001008 == 0xBADF00D#32) = true := by decide

/-- T120. -/
theorem test_ldr_sp : gives (.ldrSp 2 255#8) (stored ({ start with spMain := 0x20000000#32 }) 0x200003FC 0x77#32)
    (fun t => t.low 2 == 0x77#32) = true := by decide

/-- T122. -/
theorem test_adr : gives (.adr 0 1#8) ({ start with pc := 0x102#32 })
    (fun t => t.low 0 == 0x108#32) = true := by decide

/-- T124. -/
theorem test_add_sp_imm : gives (.addSpImm 1 255#8) (start)
    (fun t => t.low 1 == 0x200013FC#32) = true := by decide

/-- T126. -/
theorem test_add_sp : gives (.addSp 127#7) (start)
    (fun t => t.spMain == 0x200011FC#32 && t.pc == 0x102#32) = true := by decide

/-- T127. -/
theorem test_sub_sp : gives (.subSp 4#7) (start)
    (fun t => t.spMain == 0x20000FF0#32) = true := by decide

/-- T128. -/
theorem test_sxth : gives (.sxth 1 0) (regs [(1, 0x18000#32)])
    (fun t => t.low 0 == 0xFFFF8000#32) = true := by decide

/-- T130. -/
theorem test_sxtb : gives (.sxtb 1 0) (regs [(1, 0x180#32)])
    (fun t => t.low 0 == 0xFFFFFF80#32) = true := by decide

/-- T132. -/
theorem test_uxth : gives (.uxth 1 0) (regs [(1, 0x12348765#32)])
    (fun t => t.low 0 == 0x8765#32) = true := by decide

/-- T133. -/
theorem test_uxtb : gives (.uxtb 1 0) (regs [(1, 0x123487E5#32)])
    (fun t => t.low 0 == 0xE5#32) = true := by decide

/-- T134. -/
theorem test_push : gives (.push true 0x10#8) ((regs [(4, 0x44444444#32)]).setReg 14 0x123#32)
    (fun t => t.spMain == 0x20000FF8#32 && word t 0x20000FF8 == 0x44444444#32 && word t 0x20000FFC == 0x123#32) = true := by decide

/-- T147. -/
theorem test_pop : gives (.pop true 0x10#8) (stored (stored { start with spMain := 0x20000FF8#32 } 0x20000FF8 0x44444444#32)
      0x20000FFC 0x123#32)
    (fun t => t.low 4 == 0x44444444#32 && t.spMain == 0x20001000#32 && t.pc == 0x122#32) = true := by decide

/-- T138. -/
theorem test_cps : gives (.cps true 2#4) (start)
    (fun t => t.primask) = true := by decide

/-- T140. -/
theorem test_cps_unprivileged : gives (.cps true 2#4) ({ start with npriv := true })
    (fun t => !t.primask) = true := by decide

/-- T142. -/
theorem test_rev : gives (.rev 1 0) (regs [(1, 0x11223344#32)])
    (fun t => t.low 0 == 0x44332211#32) = true := by decide

/-- T143. -/
theorem test_rev16 : gives (.rev16 1 0) (regs [(1, 0x11223344#32)])
    (fun t => t.low 0 == 0x22114433#32) = true := by decide

/-- T144. -/
theorem test_revsh : gives (.revsh 1 0) (regs [(1, 0x12F0#32)])
    (fun t => t.low 0 == 0xFFFFF012#32) = true := by decide

/-- T150. -/
theorem test_bkpt : gives (.bkpt 0xAB#8) (flagged (regs [(0, 0xA0#32)]) 0b0110#4)
    (fun t => t.spMain == 0x20000FE0#32 && t.lr == 0xFFFFFFF9#32 && t.ipsr == 3#6 && t.pc == 0x300#32 && word t 0x20000FF8 == 0x100#32 && word t 0x20000FE0 == 0xA0#32 && word t 0x20000FFC == 0x61000000#32) = true := by decide

/-- T151. -/
theorem test_nop : gives (.nop) (flagged (start) 0b1111#4)
    (fun t => nzcv t == 0b1111#4 && t.pc == 0x102#32) = true := by decide

/-- T152. -/
theorem test_yield : gives (.yield) (start)
    (fun t => t.pc == 0x102#32) = true := by decide

/-- Worked from R297. -/
theorem test_wfe : gives (.wfe) ({ start with event := true })
    (fun t => !t.event && t.sleep == .awake) = true := by decide

/-- Worked from R297. -/
theorem test_wfe_sleeps : gives (.wfe) (start)
    (fun t => t.sleep == .waitEvent) = true := by decide

/-- Worked from R298. -/
theorem test_wfi : gives (.wfi) (start)
    (fun t => t.sleep == .waitInterrupt) = true := by decide

/-- Worked from R299. -/
theorem test_sev : gives (.sev) (start)
    (fun t => t.event && t.pc == 0x102#32) = true := by decide

/-- T154. -/
theorem test_hint : gives (.hintNop 5#4) (start)
    (fun t => t.pc == 0x102#32) = true := by decide

/-- T158. -/
theorem test_stm : gives (.stm 0 0x03#8) (regs [(0, 0x20000000#32), (1, 0x11#32)])
    (fun t => t.low 0 == 0x20000008#32 && word t 0x20000000 == 0x20000000#32 && word t 0x20000004 == 0x11#32) = true := by decide

/-- T160. -/
theorem test_ldm : gives (.ldm 0 0x06#8) (stored (stored (regs [(0, 0x20000000#32)]) 0x20000000 0xAAAA0001#32) 0x20000004 0xBBBB0002#32)
    (fun t => t.low 0 == 0x20000008#32 && t.low 1 == 0xAAAA0001#32 && t.low 2 == 0xBBBB0002#32) = true := by decide

/-- T161. -/
theorem test_ldm_base : gives (.ldm 0 0x03#8) (stored (stored (regs [(0, 0x20000000#32)]) 0x20000000 0xAAAA0001#32) 0x20000004 0xBBBB0002#32)
    (fun t => t.low 0 == 0xAAAA0001#32 && t.low 1 == 0xBBBB0002#32) = true := by decide

/-- T167. -/
theorem test_b_cond : gives (.bCond .ge 0x80#8) (flagged ({ start with pc := 0x200#32 }) 0b1001#4)
    (fun t => t.pc == 0x104#32) = true := by decide

/-- T173. -/
theorem test_b : gives (.b 0x400#11) ({ start with pc := 0x1000#32 })
    (fun t => t.pc == 0x804#32) = true := by decide

/-- T174. -/
theorem test_udf : gives (.udf 0#8) (start)
    (fun t => t.spMain == 0x20000FE0#32 && t.lr == 0xFFFFFFF9#32 && t.ipsr == 3#6 && t.pc == 0x300#32 && word t 0x20000FF8 == 0x100#32) = true := by decide

/-- T175. -/
theorem test_svc : gives (.svc 5#8) (flagged (start) 0b1010#4)
    (fun t => t.ipsr == 11#6 && t.pc == 0x400#32 && word t 0x20000FF8 == 0x102#32 && word t 0x20000FFC == 0xA1000000#32) = true := by decide

/-- T176. -/
theorem test_svc_escalated : gives (.svc 5#8) ({ start with primask := true })
    (fun t => t.spMain == 0x20000FE0#32 && t.lr == 0xFFFFFFF9#32 && t.ipsr == 3#6 && t.pc == 0x300#32 && word t 0x20000FF8 == 0x100#32) = true := by decide

/-- T179. -/
theorem test_bl : gives (.bl 0#1 0x3FF#10 0#1 0#1 0x7FF#11) (start)
    (fun t => t.lr == 0x105#32 && t.pc == 0x1000102#32) = true := by decide

/-- T178. -/
theorem test_bl_back : gives (.bl 1#1 0x3FF#10 1#1 1#1 0x7FE#11) (start)
    (fun t => t.lr == 0x105#32 && t.pc == 0x100#32) = true := by decide

/-- T183. -/
theorem test_msr_apsr : gives (.msr 0#1 1 0#1 8#4 0#8) (flagged (regs [(1, 0x5FFFFFFF#32)]) 0b1111#4)
    (fun t => nzcv t == 0b0101#4 && t.t && t.pc == 0x104#32) = true := by decide

/-- T192. -/
theorem test_msr_control : gives (.msr 0#1 0 0#1 8#4 20#8) ({ regs [(0, 0x3#32)] with ipsr := 11#6 })
    (fun t => t.npriv && !t.spsel) = true := by decide

/-- T199. -/
theorem test_mrs_xpsr : gives (.mrs 0#1 15#4 0#1 2 3#8) ({ flagged start 0b1001#4 with ipsr := 3#6 })
    (fun t => t.low 2 == 0x90000003#32) = true := by decide

/-- T203. -/
theorem test_mrs_msp : gives (.mrs 0#1 15#4 0#1 0 8#8) ({ regs [(0, 0xFFFFFFFF#32)] with npriv := true })
    (fun t => t.low 0 == 0x0#32) = true := by decide

/-- T206. -/
theorem test_dsb : gives (.dsb 15#4 0#1 15#4 15#4) (flagged (start) 0b1010#4)
    (fun t => nzcv t == 0b1010#4 && t.pc == 0x104#32) = true := by decide

/-- T207. -/
theorem test_dmb : gives (.dmb 15#4 0#1 15#4 15#4) (start)
    (fun t => t.pc == 0x104#32) = true := by decide

/-- T208. -/
theorem test_isb : gives (.isb 15#4 0#1 15#4 15#4) (start)
    (fun t => t.pc == 0x104#32) = true := by decide

/-- T209. -/
theorem test_udf_w : gives (.udfW 0#4 0#12) (start)
    (fun t => t.spMain == 0x20000FE0#32 && t.lr == 0xFFFFFFF9#32 && t.ipsr == 3#6 && t.pc == 0x300#32 && word t 0x20000FF8 == 0x100#32) = true := by decide

/-- T76, T79, T88, T136, T141, T163, T194, T195. -/
theorem test_refused :
    (isRefused (.addHi 15 15) start .unpredictableEncoding &&
      isRefused (.cmpHi 0 1) start .unpredictableEncoding &&
      isRefused (.bx 15 0#3) start .unpredictableEncoding &&
      isRefused (.push false 0#8) start .unpredictableEncoding &&
      isRefused (.cps true 3#4) start .unpredictableEncoding &&
      isRefused (.ldm 0 0#8) start .unpredictableEncoding &&
      isRefused (.msr 0#1 0 0#1 8#4 17#8) start .unpredictableEncoding &&
      isRefused (.msr 0#1 13 0#1 8#4 0#8) start .unpredictableEncoding) = true := by decide

/-! ## Steps the environment and the choices make -/

/-- A core with a requested reset outstanding and NMI pending. -/
def resetAsked : State :=
  { start with
    resetRequest := true
    inputs := [.core .run]
    pending := { ExcBits.none with nmi := true } }

/-- A reset request leaves the core executing while inputs last, a takeable exception entered among them,
and is answered when none is left (R454, D18). -/
theorem test_requested_reset :
    (match step resetAsked with
      | .next t => t.ipsr == 2#6 && t.resetRequest
      | _ => false) = true ∧
      (match step { start with resetRequest := true } with
      | .next t => t.pc == 0#32 && !t.resetRequest
      | _ => false) = true := by decide

/-- A load from a device takes the value the platform supplies and makes one access (R103, D12). -/
theorem test_device_load :
    gives (.ldrbImm 1#5 1 0)
      { regs [(1, 0x40000000#32)] with
        cfg := { Config.testPlatform with
          memMap := [⟨0x40000000, 4, .uniform (some .device), .uniform none, .uniform none⟩] }
        deviceIn := [0x1A5#32] }
      (fun t => t.low 0 == 0xA5#32 && t.deviceIn == [] &&
        t.deviceLog == [⟨.read, .byte, 0x40000001#32, 0xA5#32⟩]) = true := by decide

/-! ## Witnesses: states and operands that meet the hypotheses of each statement -/

/-- The outcome is a next state. -/
def isNext (o : Host.Outcome State Fault Refusal) : Bool :=
  match o with
  | .next _ => true
  | .fault _ => false
  | .refused _ => false

theorem next_of {o : Host.Outcome State Fault Refusal} (h : isNext o = true) : ∃ t, o = .next t := by
  cases o with
  | next t => exact ⟨t, rfl⟩
  | fault f => cases h
  | refused r => cases h

/-- The pc as high as two bytes allow. -/
def edge : State := { start with pc := 0xFFFFFFFC#32 }

/-- The pc as high as four bytes allow. -/
def edge4 : State := { start with pc := 0xFFFFFFFA#32 }

/-- `start` with two halfwords at the pc. -/
def at100 (hw1 hw2 : Word) : State :=
  { start with mem := (start.mem.store false .half 0x100 hw1).store false .half 0x102 hw2 }

/-- PendSV pending. -/
def pended (s : State) : State := { s with pending := { ExcBits.none with pendsv := true } }

/-- HardFault active, in its handler. -/
def inHardFault : State :=
  { start with ipsr := 3#6, active := { ExcBits.none with hardFault := true } }

/-- A platform with read-only memory that ignores writes, and a device. -/
def otherPlatform : Config :=
  { Config.testPlatform with
    memMap := [⟨0, 0x10000, .uniform (some .rom), .uniform (some .rom), .uniform (some .rom)⟩,
      ⟨0x20000000, 0x10000, .uniform (some .ram), .uniform (some .ram), .uniform (some .ram)⟩,
      ⟨0x40000000, 0x1000, .uniform (some .device), .uniform (some .device), .uniform none⟩] }

/-- `regs` on the other platform. -/
def otherRegs (l : List (LowReg × Word)) : State := { regs l with cfg := otherPlatform }

theorem witness_DecodeOfEncode :
    (Instr.addHi 15 14).wellFormed = true ∧ (Instr.lslsImm 1#5 0 0).wellFormed = true ∧
      (Instr.hintNop 5#4).wellFormed = true ∧ (Instr.cmpHi 14 8).wellFormed = true ∧
      (Instr.msr 0#1 14 0#1 8#4 20#8).wellFormed = true := by decide

theorem witness_EncodeOfDecode :
    decodeRow 0x4778#16 0#16 = some (.bx 15 0#3) ∧
      decodeRow 0xF3EF#16 0x8105#16 = some (.mrs 0#1 15#4 0#1 1 5#8) := by decide

theorem witness_UnpredictableEncodingsRefused :
    ((15 : RegNum) = 15 ∨ 0#3 ≠ 0#3) ∧ ((14 : RegNum) = 15 ∨ 1#3 ≠ 0#3) ∧ 0b0011#4 ≠ 0b0010#4 ∧
      (((7 : RegNum).val < 8 ∧ (7 : RegNum).val < 8) ∨ (7 : RegNum) = 15 ∨ (7 : RegNum) = 15) ∧
      (0#1 ≠ 0#1 ∨ 0#1 ≠ 0#1 ∨ 0b1000#4 ≠ 0b1000#4 ∨ (0 : RegNum) = 13 ∨ (0 : RegNum) = 15 ∨
        (21#8).toNat ∉ [0, 1, 2, 3, 5, 6, 7, 8, 9, 16, 20]) ∧
      (0#1 ≠ 0#1 ∨ 0b1110#4 ≠ 0b1111#4 ∨ 0#1 ≠ 0#1 ∨ (0 : RegNum) = 13 ∨ (0 : RegNum) = 15 ∨
        (4#8).toNat ∉ [0, 1, 2, 3, 5, 6, 7, 8, 9, 16, 20]) ∧
      (0b1111#4 ≠ 0b1111#4 ∨ 0#1 ≠ 0#1 ∨ 0b0111#4 ≠ 0b1111#4) := by decide

theorem witness_StepRunsDecodedInstruction :
    (at100 0x4348#32 0#32).readyToRun ∧ (at100 0x4348#32 0#32).fetches 0x4348#16 0#16 ∧
      decode 0x4348#16 0#16 = .instr (.muls 1 0) := by decide

/-- A step that defers a takeable exception. -/
def deferring : State := { pended (at100 0xF3EF#32 0x8105#32) with inputs := [.core .delay] }

theorem witness_StepRunsDecodedInstruction_deferring :
    deferring.readyToRun ∧ deferring.best = some .pendsv ∧ deferring.fetches 0xF3EF#16 0x8105#16 ∧
      decode 0xF3EF#16 0x8105#16 = .instr (.mrs 0#1 15#4 0#1 1 5#8) := by decide

theorem witness_StepRunsDecodedInstruction_unpredictable :
    (at100 0x4771#32 0#32).readyToRun ∧ (at100 0x4771#32 0#32).fetches 0x4771#16 0#16 ∧
      decode 0x4771#16 0#16 = .unpredictable (.bx 14 1#3) := by decide

theorem witness_StepRaisesHardFault :
    (State.readyToRun { start with t := false } ∧ State.t { start with t := false } = false) ∧
      (State.readyToRun { start with pc := 0x40000000#32 } ∧ executeNever 0x40000000#32 = true) ∧
      (State.readyToRun { start with pc := 0x10000#32 } ∧ executeNever 0x10000#32 = false ∧
        start.cfg.target .fetch start.privileged .half 0x10000 = none) := by decide

theorem witness_StepRaisesHardFault_undefined :
    ((at100 0xB100#32 0#32).readyToRun ∧ (at100 0xB100#32 0#32).fetches 0xB100#16 0#16 ∧
        decode 0xB100#16 0#16 = .undefined16) ∧
      (at100 0xE800#32 0#32).readyToRun ∧ (at100 0xE800#32 0#32).fetches 0xE800#16 0#16 ∧
      decode 0xE800#16 0#16 = .undefined32 := by decide

theorem witness_FetchAfterStore :
    start.dirty = [] ∧ start.fetchable 0x100#32 ∧
      ((0x100#32).toNat < 0x101 + Width.byte.bytes ∧ 0x101 < (0x100#32).toNat + 2) ∧
      0xFE + Width.half.bytes ≤ (0x100#32).toNat ∧ (0x100#32).toNat + 2 ≤ 0x102 := by decide

/-- A fetch of the second halfword that faults: the pc at the last halfword of memory. -/
theorem witness_StepRaisesHardFault_second :
    let s : State := { start with
      pc := 0x2000FFFE#32, mem := start.mem.store false .half 0x2000FFFE 0xF380#32 }
    s.readyToRun ∧ s.t = true ∧ s.fetchable s.pc ∧
      (s.newHalf s.pc.toNat).extractLsb' 11 5 = 0b11110#5 ∧
      s.cfg.target .fetch s.privileged .half (s.pc + 2#32).toNat = none := by decide

theorem witness_StepRaisesHardFault_undefinedSecond :
    let s : State := { start with
      pc := 0x2000FFFE#32, mem := start.mem.store false .half 0x2000FFFE 0xE800#32 }
    s.readyToRun ∧ s.t = true ∧ s.fetchable s.pc ∧
      (s.newHalf s.pc.toNat).extractLsb' 11 5 = 0b11101#5 ∧
      s.cfg.target .fetch s.privileged .half (s.pc + 2#32).toNat = none := by decide

theorem witness_RegisterAccess :
    (12 : RegNum).val < 13 ∧ ¬(start.spsel = true ∧ start.ipsr = 0#6) ∧
      (State.spsel { start with spsel := true } = true ∧ start.ipsr = 0#6) ∧ (14 : RegNum) ≠ 15 := by
  decide

theorem witness_MixedWidthAccess :
    ∃ b : Nat → Byte, (∀ k, b k = (0x11223344#32).extractLsb' (8 * k) 8) ∧ 3 < 4 ∧ 1 < 2 :=
  ⟨_, fun _ => rfl, by decide⟩

theorem witness_SumInstructions : edge.roomFor 2 := by decide

theorem witness_DifferenceInstructions :
    edge.roomFor 2 ∧ (8 ≤ (8 : RegNum).val ∨ 8 ≤ (0 : RegNum).val) ∧ (8 : RegNum) ≠ 15 ∧
      (0 : RegNum) ≠ 15 := by decide

theorem witness_CompareThenCondition : ∃ t, exec (.cmpReg 1 0) edge = .next t :=
  next_of (by decide)

theorem witness_LogicInstructions : edge.roomFor 2 := by decide

theorem witness_ImmediateShifts :
    edge.roomFor 2 ∧ 1#5 ≠ 0#5 ∧ 32 = (if 0#5 = 0#5 then 32 else (0#5).toNat) ∧
      31 = (if 31#5 = 0#5 then 32 else (31#5).toNat) := by decide

theorem witness_RegisterShifts :
    State.roomFor { regs [(1, 0xFFFFFFFF#32)] with pc := 0xFFFFFFFC#32 } 2 ∧
      255 = (State.low { regs [(1, 0xFFFFFFFF#32)] with pc := 0xFFFFFFFC#32 } 1).toNat % 256 := by
  decide

theorem witness_HighRegisterInstructions : (14 : RegNum) ≠ 15 ∧ edge.roomFor 2 := by decide

theorem witness_Branches :
    conditionPassed .eq (flagged edge 0b0100#4).flags = true ∧
      conditionPassed .eq edge.flags = false ∧ edge.roomFor 2 := by decide

theorem witness_BranchExchange :
    ((14 : RegNum) ≠ 15 ∧ start.ipsr = 0#6) ∧
      ((0 : RegNum) ≠ 15 ∧ inHardFault.ipsr ≠ 0#6 ∧
        (inHardFault.reg 0).extractLsb' 28 4 ≠ 0xF#4) := by decide

theorem witness_LoadInstructions :
    start.roomFor 2 ∧ ∀ f ∈ (regs [(1, 0x20000000#32), (2, 0xFFFC#32)]).loadForms 2 1 0 1#5 1#8,
      (regs [(1, 0x20000000#32), (2, 0xFFFC#32)]).readable true f.width f.address := by decide

theorem witness_StoreInstructions :
    (start.roomFor 2 ∧
      ∀ f ∈ (regs [(1, 0x20000000#32), (2, 0xFFFC#32)]).storeForms 2 1 0 1#5 1#8,
        (regs [(1, 0x20000000#32), (2, 0xFFFC#32)]).writable true f.width f.address) ∧
      ∃ f ∈ (otherRegs [(1, 0xFFFC#32)]).storeForms 2 1 0 1#5 1#8,
        f.address.toNat % f.width.bytes = 0 ∧ inPpb f.address = false ∧
          (otherRegs [(1, 0xFFFC#32)]).cfg.target .write true f.width f.address.toNat = some .rom := by
  decide

theorem witness_FaultingAccesses :
    (∃ f ∈ (regs [(1, 0x20000001#32)]).storeForms 2 1 0 0#5 0#8,
        f.address.toNat % f.width.bytes ≠ 0) ∧
      (∃ f ∈ (regs [(1, 0x20010000#32)]).storeForms 2 1 0 0#5 0#8,
        (regs [(1, 0x20010000#32)]).busErrorAt .write f.width f.address) ∧
      (∃ f ∈ (regs [(1, 0x20000001#32)]).loadForms 2 1 0 0#5 0#8,
        f.address.toNat % f.width.bytes ≠ 0) ∧
      (∃ f ∈ (regs [(1, 0xE0000000#32)]).loadForms 2 1 0 0#5 0#8,
        State.busErrorAt { regs [(1, 0xE0000000#32)] with npriv := true } .read f.width f.address) ∧
      ((regs [(1, 0x20000002#32)]).low 1).toNat % 4 ≠ 0 ∧ 1#8 ≠ 0#8 := by decide

theorem witness_AccessStops :
    (∃ f ∈ (regs [(1, 0xE000E000#32)]).storeForms 2 1 0 0#5 0#8,
        f.address.toNat % f.width.bytes = 0 ∧ start.privileged = true ∧ inScs f.address = true ∧
          f.width ≠ .word) ∧
      (∃ f ∈ (regs [(1, 0xE0000000#32)]).loadForms 2 1 0 0#5 0#8,
        f.address.toNat % f.width.bytes = 0 ∧ start.privileged = true ∧ inPpb f.address = true ∧
          (inScs f.address = false ∨ f.width = .word) ∧ sysRegAt f.address = none) ∧
      (3 = ((List.finRange 8).filter fun i => (0x07#8).getLsbD i.val).length ∧ 0x07#8 ≠ 0#8 ∧
        (0xFFFFFFF8#32).toNat % 4 = 0 ∧ 2 ^ 32 < (0xFFFFFFF8#32).toNat + 4 * 3) ∧
      ((true = true ∨ 0x80#8 ≠ 0#8) ∧ 2 ^ 32 < (0xFFFFFFFC#32).toNat + 4 * (1 + true.toNat)) ∧
      (4#32 ≠ 0#32 ∧ (4#32).toNat < 4 * (1 + true.toNat)) := by decide

theorem witness_AddressAndStackArithmetic : edge.roomFor 2 := by decide

theorem witness_ExtendsAndReverses : edge.roomFor 2 := by decide

theorem witness_PushStores :
    (true = true ∨ 0#8 ≠ 0#8) ∧ State.roomFor { edge with spMain := 0x20000004#32 } 2 ∧
      State.writableWords { edge with spMain := 0x20000004#32 } true 0x20000000#32 1 := by decide

theorem witness_DeviceAccesses :
    (otherRegs []).roomFor 2 ∧
      (∃ f ∈ (otherRegs [(1, 0x40000000#32)]).loadForms 2 1 0 0#5 0#8,
        (otherRegs []).deviceAt true .read f.width f.address) ∧
      (∃ f ∈ (otherRegs [(1, 0x40000FFC#32)]).storeForms 2 1 0 0#5 0#8,
        (otherRegs []).deviceAt true .write f.width f.address) ∧
      (∀ k < 2, (otherRegs []).deviceAt true .write .word (wordAt 0x40000000#32 k)) ∧
      (((0x07#8).getLsbD (0 : LowReg).val = true →
        ((List.finRange 8).filter fun i => (0x07#8).getLsbD i.val).head? = some (0 : LowReg))) := by
  decide

theorem witness_DeviceAccesses_loads :
    (0x40000000#32).toNat + 4 * 2 ≤ 2 ^ 32 ∧
      (∀ k < 2, (otherRegs [(1, 0x40000000#32)]).deviceAt true .read .word (wordAt 0x40000000#32 k)) ∧
      State.sp { otherRegs [] with spMain := 0x40000FF8#32 } = 0x40000FF8#32 ∧
      (∀ k < 2, (otherRegs []).deviceAt true .read .word (wordAt 0x40000FF8#32 k)) ∧
      (otherRegs []).ipsr = 0#6 ∧ (0xFFFFFFF9#32).extractLsb' 28 4 = 0xF#4 := by decide

theorem witness_PopLoads :
    ((true = true ∨ 0#8 ≠ 0#8) ∧ State.roomFor { start with spMain := 0x2000FFFC#32 } 2 ∧
        State.readableWords { start with spMain := 0x2000FFFC#32 } true 0x2000FFFC#32 1 ∧
        start.ipsr = 0#6) ∧
      ((false = true ∨ 0x80#8 ≠ 0#8) ∧ State.readableWords inHardFault true inHardFault.sp 1) ∧
      (inHardFault.ipsr ≠ 0#6 ∧
        ((stored inHardFault 0x20001000 0xFFFFFFF9#32).wordsAt 0x20001000#32 1) =
          [0xFFFFFFF9#32] ∧ (0xFFFFFFF9#32).extractLsb' 28 4 = 0xF#4) := by decide

theorem witness_HintsBarriersAndCps :
    edge.roomFor 2 ∧ edge4.roomFor 4 ∧ edge.privileged = true ∧
      State.privileged { edge with npriv := true } = false := by decide

theorem witness_SleepAndEvents :
    edge.roomFor 2 ∧ State.event { edge with event := true } = true ∧ edge.event = false ∧
      State.takeable { pended { edge with primask := true } with primask := false } .pendsv = true ∧
      State.best { pended start with sleep := .waitEvent } = some .pendsv ∧
      State.best { start with sleep := .waitEvent, event := true } = none ∧
      State.best { pended start with sleep := .waitInterrupt, primask := true } = none ∧
      State.coreTurn { pended start with sleep := .waitEvent } ∧
      State.coreTurn { start with sleep := .waitInterrupt, inputs := [.core .delay] } := by decide

/-- In `start` no exception would be taken, PRIMASK being 0. -/
theorem witness_SleepAndEvents_none : ∀ e, State.takeable { start with primask := false } e = false := by
  intro e
  cases e with
  | irq n => revert n; decide
  | _ => decide

theorem witness_StoreMultiple :
    0x03#8 ≠ 0#8 ∧ (regs [(1, 0x2000FFF8#32)]).roomFor 2 ∧
      (regs [(1, 0x2000FFF8#32)]).writableWords true 0x2000FFF8#32 2 := by decide

theorem witness_LoadMultiple :
    0x03#8 ≠ 0#8 ∧ (regs [(1, 0x2000FFF8#32)]).roomFor 2 ∧
      (regs [(1, 0x2000FFF8#32)]).readableWords true 0x2000FFF8#32 2 := by decide

theorem witness_MultipleTransferFaults :
    (true = true ∨ 0x0F#8 ≠ 0#8) ∧ (0x2000FFFC#32).toNat + 4 * 4 ≤ 2 ^ 32 ∧
      (∀ j < 1, (regs [(0, 0x2000FFFC#32)]).readable true .word (wordAt 0x2000FFFC#32 j)) ∧
      (regs [(0, 0x2000FFFC#32)]).busErrorAt .read .word (wordAt 0x2000FFFC#32 1) ∧
      (∀ j < 1, (regs [(0, 0x2000FFFC#32)]).writable true .word (wordAt 0x2000FFFC#32 j)) ∧
      (regs [(0, 0x2000FFFC#32)]).busErrorAt .write .word (wordAt 0x2000FFFC#32 1) ∧
      (0x2000FFFC#32 = State.sp { start with spMain := 0x2001000C#32 } - BitVec.ofNat 32 (4 * 4)) := by
  decide

/-- PUSH of R4 and LR at the pc, PendSV pending, the next input an abandonment after one access. -/
def abandoning : State := { pended (at100 0xB510#32 0#32) with inputs := [.core (.abandon [[]])] }

theorem witness_AbandonedTransfers :
    abandoning.coreNext ∧ abandoning.mustTake = false ∧ abandoning.resetIn = none ∧
      abandoning.roomFor 2 ∧
      abandoning.inputs = .core (.abandon [[]]) :: [] ∧ abandoning.best = some .pendsv ∧
      abandoning.fetches 0xB510#16 0#16 ∧ decode 0xB510#16 0#16 = .instr (.push true 0x10#8) ∧
      abandoning.writableWords true 0x20000FF8#32 2 := by decide

/-- STM R0!, {R1, R2} to the NVIC with IRQ 0 enabled: its first store, to NVIC_ISPR, makes IRQ 0
takeable, and then it can be abandoned (R312 item 1). -/
def selfPending : State :=
  { (State.setLows (at100 0xC006#32 0#32) [(0, 0xE000E200#32), (1, 1#32)]) with
    enabled := 1#32, inputs := [.core (.abandon [[]])] }

theorem witness_AbandonedTransfers_self :
    selfPending.coreNext ∧ selfPending.best = none ∧ selfPending.fetches 0xC006#16 0#16 ∧
      decode 0xC006#16 0#16 = .instr (.stm 0 0x06#8) ∧
      (match storeWords true [[]] [1#32] 0xE000E200#32 selfPending.afterInput with
        | .ok _ u => u.best == some (.irq 0)
        | _ => false) = true := by decide

/-- STM R0!, {R1, R2} to SYST_CSR and SYST_RVR, the counter at 1, a tick of SysTick between its stores:
SysTick pends in the middle (R312 item 1). -/
def startsCounter (c : Choice) : State :=
  { (State.setLows (at100 0xC006#32 0#32) [(0, 0xE000E010#32), (1, 3#32)]) with
    syst := ⟨false, false, false, false, 0xFF#24, 1#24⟩, inputs := [.core c] }

/-- A tick between the stores of STM lets SysTick abandon it: SYST_RVR is not yet written, and the return
address is that of the STM; not abandoned, the STM runs to its end (R312 items 1, 2 and 5). -/
theorem test_tick_amid_stm :
    (match step (startsCounter (.abandon [[.tick]])) with
      | .next t => t.ipsr == 15#6 && t.syst.reload == 0xFF#24 &&
          t.mem.value false .word 0x20000FF8 == 0x100#32
      | _ => false) = true ∧
      (match step (startsCounter (.amid [[.tick]])) with
      | .next t => t.ipsr == 0#6 && t.pending.systick && t.pc == 0x102#32
      | _ => false) = true := by decide

theorem witness_AbandonedTransfers_event :
    (startsCounter (.abandon [[.tick]])).coreNext ∧ (startsCounter (.abandon [[.tick]])).best = none ∧
      (startsCounter (.abandon [[.tick]])).fetches 0xC006#16 0#16 ∧
      (match storeWords true [[.tick]] [3#32] 0xE000E010#32
          (startsCounter (.abandon [[.tick]])).afterInput with
        | .ok _ u => u.best == some .systick
        | _ => false) = true ∧
      (startsCounter (.amid [[.tick]])).coreNext ∧
      (match storeWords true [[.tick]] [3#32, 5#32] 0xE000E010#32
          (startsCounter (.amid [[.tick]])).afterInput with
        | .ok _ u => u.syst.reload == 5#24
        | _ => false) = true := by decide

/-- LDM R0!, {R1, R2} from NVIC_IPR0 and NVIC_IPR1, a line rising between its loads. -/
theorem witness_AbandonedTransfers_amid :
    (match readWords true [[.irqLine 0 true]] 2 0xE000E400#32 start with
      | ([0#32, 0#32], .ok _ u) => u.pending.irq == 1#32
      | _ => false) = true ∧ (0xE000E400#32).toNat + 4 * 2 ≤ 2 ^ 32 ∧
      (start.afterEvents [[Event.irqLine 0 true]].flatten).pending.irq = 1#32 := by decide

theorem witness_AbandonedTransfers_loads :
    (pended (at100 0xC806#32 0#32)).best = some .pendsv ∧
      decode 0xC806#16 0#16 = .instr (.ldm 0 0x06#8) ∧
      decode 0xBC06#16 0#16 = .instr (.pop false 0x06#8) ∧
      decode 0x4348#16 0#16 = .instr (.muls 1 0) ∧
      (pended (at100 0xBC06#32 0#32)).readableWords true 0x20001000#32 2 := by decide

theorem witness_MoveToSpecial :
    edge4.roomFor 4 ∧ (14 : RegNum) ≠ 13 ∧ (14 : RegNum) ≠ 15 ∧ edge4.privileged = true ∧
      State.privileged { edge4 with npriv := true } = false := by decide

theorem witness_MoveFromSpecial :
    edge4.roomFor 4 ∧ (14 : RegNum) ≠ 13 ∧ (14 : RegNum) ≠ 15 := by decide

theorem witness_InstructionBarrier :
    (pended start).roomFor 4 ∧ (pended start).coreNext ∧ (pended start).best = some .pendsv ∧
      isNext (exec (.isb 15#4 0#1 15#4 15#4) (pended start)) = true := by decide

theorem witness_ExceptionEntryState :
    start.entryReady .nmi ∧ start.entryReady (.irq 31) := by decide

theorem witness_SynchronousExceptions :
    ((start.pri.svcall.toNat : Int) < start.executionPriority ∧ start.entryReady .svcall) ∧
      State.executionPriority { start with primask := true } ≤ (start.pri.svcall.toNat : Int) ∧
      -1 < State.executionPriority { start with primask := true } ∧
      State.entryReady { start with primask := true } .hardFault := by decide

theorem witness_Lockup :
    inHardFault.executionPriority ≤ -1 ∧
      (State.lockup { inHardFault with lockup := true } = true ∧ inHardFault.resetRequest = false ∧
        startsWithCore inHardFault.inputs = true ∧ inHardFault.pending.nmi = false) ∧
      (startsWithCore [.core .delay] = true ∧ [Input.core .delay] ≠ []) ∧
      State.executionPriority { start with active := { ExcBits.none with nmi := true } } ≠ -1 ∧
      inHardFault.executionPriority = -1 := by decide

theorem witness_EntryThenReturnRestores :
    start.Inv ∧ start.active.get .pendsv = false ∧ (0x102#32).getLsbD 0 = false ∧
      start.entryReady .pendsv ∧ start.readableWords start.privileged start.framePtr 8 ∧
      isNext (exceptionEntry .pendsv 0x102#32 start) = true ∧ (14 : RegNum) ≠ 15 := by decide

/-- HardFault's handler with a frame of Thread mode on the main stack, return address 0x102. -/
def returning : State :=
  stored (stored inHardFault 0x20001018 0x102#32) 0x2000101C 0x01000000#32

/-- The same handler having preempted PendSV's, whose number the frame holds. -/
def returningNested : State :=
  { stored returning 0x2000101C 0x0100000E#32 with
    active := { ExcBits.none with hardFault := true, pendsv := true } }

theorem witness_ExceptionReturnState :
    (excOfNumber returning.ipsr = some .hardFault ∧ returning.active.get .hardFault = true ∧
        (returning.active.count = 1 ↔ ReturnTo.threadMain ≠ .handler) ∧
        returning.frameReadable .threadMain ∧ (returning.frameWord .threadMain 6).getLsbD 0 = false ∧
        (returning.frameWord .threadMain 7).extractLsb' 0 6 = 0#6) ∧
      (returningNested.active.get .hardFault = true ∧
        (returningNested.active.count = 1 ↔ ReturnTo.handler ≠ .handler) ∧
        returningNested.frameReadable .handler ∧
        (returningNested.frameWord .handler 7).extractLsb' 0 6 = 14#6 ∧
        excOfNumber 14#6 = some .pendsv ∧ returningNested.hasExc .pendsv = true) ∧
      State.reg { returning with lr := 0xFFFFFFF9#32 } 14 = 0xFFFFFFF9#32 := by decide

theorem witness_InconsistentReturnsRefused :
    (0xFFFFFFF5#32).extractLsb' 28 4 = 0xF#4 ∧ excOfNumber inHardFault.ipsr = some .hardFault ∧
      0xFFFFFFF5#32 ∉ [0xFFFFFFF1#32, 0xFFFFFFF9#32, 0xFFFFFFFD#32] ∧
      State.active { inHardFault with active := ExcBits.none } = ExcBits.none ∧
      inHardFault.active.count = 1 ∧
      ExcBits.count { ExcBits.none with hardFault := true, pendsv := true } ≠ 1 := by decide

theorem witness_InconsistentReturnsRefused_frames :
    ((stored returning 0x20001018 0x103#32).frameReadable .threadMain ∧
        ((stored returning 0x20001018 0x103#32).frameWord .threadMain 6).getLsbD 0 = true) ∧
      ((stored returning 0x2000101C 0x0100000E#32).frameWord .threadMain 7).extractLsb' 0 6 ≠ 0#6 ∧
      excOfNumber (((stored returningNested 0x2000101C 0x01000005#32).frameWord .handler 7).extractLsb'
        0 6) = none := by decide

theorem witness_ExecutionPriorityIsLeast :
    inHardFault.active.get .hardFault = true ∧ State.primask { start with primask := true } = true ∧
      (pended start).requested .pendsv = true ∧
      State.prio start .svcall = State.prio start .pendsv := by decide

theorem witness_BestIsLeast :
    (pended start).best = some .pendsv ∧ (pended start).takeable .pendsv = true := by decide

theorem witness_AsynchronousEntry :
    (pended start).coreNext ∧ (pended start).best = some .pendsv ∧ (pended start).inputs = [] ∧
      State.coreNext { pended start with inputs := [.core .delay], mustTake := true } := by decide

theorem witness_InterruptLines :
    State.Inv { start with inputs := [.outside (.irqLine 31 true)] } ∧ 31 < start.cfg.numIrq.toNat ∧
      start.irqLine.getLsbD 31 = false ∧ IrqCount.one.toNat ≤ (1 : Fin 32).val := by decide

theorem witness_InterruptLines_falls :
    State.Inv { start with
      irqLine := BitVec.twoPow 32 31
      pending := { ExcBits.none with irq := BitVec.twoPow 32 31 }
      inputs := [.outside (.irqLine 31 false)] } := by decide

theorem witness_InterruptLines_nmi :
    State.Inv { start with inputs := [.outside (.nmiLine true)] } ∧
      State.Inv { start with inputs := [.outside .rxev] } := by decide

theorem witness_SystemRegisterAccess :
    (regs [(1, 0xE000E100#32)]).privileged = true ∧ (regs [(1, 0xE000E100#32)]).roomFor 2 ∧
      (∃ f ∈ (regs [(1, 0xE000E100#32)]).storeForms 2 1 0 0#5 0#8,
        f.width = .word ∧ sysRegAt f.address = some .nvicIser) ∧
      (∃ f ∈ (regs [(1, 0xE000ED90#32)]).storeForms 2 1 0 0#5 0#8,
        f.width = .word ∧ sysRegAt f.address = some .mpuType) ∧
      (∃ f ∈ (regs [(1, 0xE000E494#32)]).loadForms 2 1 0 31#5 0#8,
        f.width = .word ∧ sysRegAt f.address = none) ∧
      (∃ f ∈ (regs [(1, 0xE000E3A0#32)]).loadForms 2 1 0 31#5 0#8,
        f.width = .word ∧ sysRegAt f.address = some (.nvicIpr 7)) := by decide

theorem witness_NvicSetAndClear : start.Inv := by decide

theorem witness_PriorityRegisters :
    (1 : Fin 32).val / 4 = (0 : Fin 8).val ∧ (31 : Fin 32).val / 4 ≠ (0 : Fin 8).val ∧
      IrqCount.one.toNat ≤ (1 : Fin 32).val := by decide

theorem witness_SystemControlBlock :
    (start.cfg.hasSysTick = true ∧
        ¬((0x94000000#32).getLsbD 28 = true ∧ (0x94000000#32).getLsbD 27 = true) ∧
        ¬((0x94000000#32).getLsbD 26 = true ∧ (0x94000000#32).getLsbD 25 = true)) ∧
      ((0x18000000#32).getLsbD 28 = true ∧ (0x18000000#32).getLsbD 27 = true) ∧
      ((0x06000000#32).getLsbD 26 = true ∧ (0x06000000#32).getLsbD 25 = true) ∧
      (0x05FB0004#32).extractLsb' 16 16 ≠ 0x05FA#16 ∧
      ((0x05FA0002#32).extractLsb' 16 16 = 0x05FA#16 ∧ (0x05FA0002#32).getLsbD 1 = true) ∧
      (0x05FA0004#32).extractLsb' 16 16 = 0x05FA#16 ∧ (0x05FA0004#32).getLsbD 1 = false ∧
      start.cfg.hasVtor = false ∧ Config.hasVtor { Config.testPlatform with hasVtor := true } = true ∧
      (0x20000100#32).getLsbD 7 = false ∧ IrqCount.sixteen.toNat ≤ 16 ∧
      (16 < IrqCount.twentyFour.toNat ∧ (0x20000080#32).getLsbD 7 = true) := by decide

theorem witness_SysTickRegisters :
    start.cfg.hasSysTick = true ∧
      Config.hasSysTick { Config.testPlatform with hasSysTick := false } = false := by decide

theorem witness_SysTickPeriod :
    State.reset.cfg.hasSysTick = true ∧
      (let s := { start with
        syst := ⟨false, false, true, true, 0xFFFFFF#24, 0#24⟩, inputs := [.outside .tick, .outside .tick] }
       s.syst.enable = true ∧ s.syst.current = 0#24 ∧ s.syst.reload ≠ 0#24 ∧
         s.syst.countFlag = false ∧ s.pending.systick = false ∧ 1 ≤ s.syst.reload.toNat ∧
         s.inputs = List.replicate (1 + 1) (.outside .tick) ++ []) := by decide

theorem witness_ResetSequence :
    start.resetReady ∧ State.inputs { start with inputs := [.reset] } = .reset :: [] ∧
      (State.resetRequest { start with resetRequest := true } = true ∧ start.inputs = []) ∧
      (pended start).best = some .pendsv ∧ start.lockup = false ∧ start.sleep = .awake ∧
      start.writableWords start.privileged start.framePtr 8 := by decide

/-- A machine with nothing mapped, and one whose first word alone can be read. -/
theorem witness_ResetSequence_lockup :
    Config.target { Config.testPlatform with memMap := [] } .read true .word 0 = none ∧
      (let one : Region := ⟨0, 4, .uniform (some .rom), .uniform none, .uniform none⟩
       let s : State := { start with cfg := { Config.testPlatform with memMap := [one] } }
       s.readable true .word 0#32 ∧ s.cfg.target .read true .word 4 = none) := by decide

theorem witness_StepKeepsInvariant :
    (at100 0x4348#32 0#32).Inv ∧ isNext (step (at100 0x4348#32 0#32)) = true := by decide

theorem witness_UnprivilegedIsolation :
    (startsCounter (.amid [[.tick]])).nextGaps = [[.tick]] ∧
    State.privileged { at100 0xB672#32 0#32 with npriv := true } = false ∧
      startsWithCore (at100 0xB672#32 0#32).inputs = true ∧
      (at100 0xB672#32 0#32).resetRequest = false ∧ (at100 0xB672#32 0#32).resetIn = none ∧
      isNext (step { at100 0xB672#32 0#32 with npriv := true }) = true := by decide

end Sys2Proof.Tests
end

section
/-! PROOFS. The conditions (`00_scope.md` R13) and the halfwords in whose place of the condition they stand
(`30_encoding.md` R156, R159). -/

namespace Sys2Proof.Machine

open Sys2Proof

/-- A halfword with 1101 at the top is a row of the conditional branches, by its condition field. -/
theorem row16_condBranch (c : BitVec 4) (imm8 : BitVec 8) :
    row16 (0b1101#4 ++ c ++ imm8) = some (rowCondBranch (0b1101#4 ++ c ++ imm8)) := by
  have htop : ∀ c : BitVec 4, ((0b1101#4 ++ c).extractLsb' 3 5).toNat = 0b11010 ∨
      ((0b1101#4 ++ c).extractLsb' 3 5).toNat = 0b11011 := by decide
  have hfield : BitVec.extractLsb' 11 5 (0b1101#4 ++ c ++ imm8) = (0b1101#4 ++ c).extractLsb' 3 5 :=
    BitVec.extractLsb'_append_eq_of_le (by omega)
  rw [row16, hfield]
  obtain h | h := htop c <;> rw [h] <;> rfl

theorem isWide_condBranch (c : BitVec 4) (imm8 : BitVec 8) :
    isWide (0b1101#4 ++ c ++ imm8) = false := by
  have htop : ∀ c : BitVec 4, ((0b1101#4 ++ c).extractLsb' 3 5 == 0b11101#5 ||
      (0b1101#4 ++ c).extractLsb' 3 5 == 0b11110#5 ||
      (0b1101#4 ++ c).extractLsb' 3 5 == 0b11111#5) = false := by decide
  rw [isWide, BitVec.extractLsb'_append_eq_of_le (by omega)]
  exact htop c

theorem condField_condBranch (c : BitVec 4) (imm8 : BitVec 8) :
    BitVec.extractLsb' 8 4 (0b1101#4 ++ c ++ imm8) = c := by
  rw [BitVec.extractLsb'_append_eq_of_le (by omega)]
  exact BitVec.extractLsb'_append_eq_right

theorem immField_condBranch (c : BitVec 4) (imm8 : BitVec 8) :
    BitVec.extractLsb' 0 8 (0b1101#4 ++ c ++ imm8) = imm8 :=
  BitVec.extractLsb'_append_eq_right

/-- Its row is the branch of the condition its field names. -/
theorem rowCondBranch_some {c : BitVec 4} {cond : Cond} (h : condOfBits c = some cond)
    (imm8 : BitVec 8) : rowCondBranch (0b1101#4 ++ c ++ imm8) = .bCond cond imm8 := by
  simp only [rowCondBranch, condField_condBranch, immField_condBranch, h]

/-- The fields that name no condition are UDF and SVC. -/
theorem rowCondBranch_none {c : BitVec 4} (h : condOfBits c = none) (imm8 : BitVec 8) :
    rowCondBranch (0b1101#4 ++ c ++ imm8) = if c = 0b1110#4 then .udf imm8 else .svc imm8 := by
  simp only [rowCondBranch, condField_condBranch, immField_condBranch, h]

theorem decode_condBranch (c : BitVec 4) (imm8 : BitVec 8) (hw2 : Half) :
    decode (0b1101#4 ++ c ++ imm8) hw2 =
      if (rowCondBranch (0b1101#4 ++ c ++ imm8)).wellFormed then
        .instr (rowCondBranch (0b1101#4 ++ c ++ imm8))
      else .unpredictable (rowCondBranch (0b1101#4 ++ c ++ imm8)) := by
  simp only [decode, decodeRow, isWide_condBranch, row16_condBranch, Bool.false_eq_true, if_false]

theorem decode_bCond {c : BitVec 4} {cond : Cond} (h : condOfBits c = some cond) (imm8 : BitVec 8)
    (hw2 : Half) : decode (0b1101#4 ++ c ++ imm8) hw2 = .instr (.bCond cond imm8) := by
  rw [decode_condBranch, rowCondBranch_some h]
  exact if_pos rfl

theorem decode_udf (imm8 : BitVec 8) (hw2 : Half) :
    decode (0b1101#4 ++ 0b1110#4 ++ imm8) hw2 = .instr (.udf imm8) := by
  rw [decode_condBranch, rowCondBranch_none rfl]
  exact if_pos rfl

theorem decode_svc (imm8 : BitVec 8) (hw2 : Half) :
    decode (0b1101#4 ++ 0b1111#4 ++ imm8) hw2 = .instr (.svc imm8) := by
  rw [decode_condBranch, rowCondBranch_none rfl]
  exact if_pos rfl

/-- One line of R13's table. -/
theorem condition_line {bits : BitVec 4} {f : Flags} {holds : Prop} (c : Cond)
    (hbits : condOfBits bits = some c) (hholds : conditionPassed c f = true ↔ holds) :
    ∃ c : Cond, condOfBits bits = some c ∧ (conditionPassed c f = true ↔ holds) ∧
      ∀ (imm8 : BitVec 8) (hw2 : Half),
        decode (0b1101#4 ++ bits ++ imm8) hw2 = .instr (.bCond c imm8) :=
  ⟨c, hbits, hholds, decode_bCond hbits⟩

/-- Settles O11: R13's table line by line. -/
theorem conditionTable : Obligations.ConditionTable := by
  refine ⟨fun f => ?_, rfl, rfl, fun imm8 hw2 => ⟨decode_udf imm8 hw2, decode_svc imm8 hw2⟩⟩
  simp only [List.forall_mem_cons, List.not_mem_nil, false_imp_iff, implies_true, and_true]
  exact
    ⟨condition_line .eq rfl (by simp [conditionPassed]),
     condition_line .ne rfl (by simp [conditionPassed]),
     condition_line .cs rfl (by simp [conditionPassed]),
     condition_line .cc rfl (by simp [conditionPassed]),
     condition_line .mi rfl (by simp [conditionPassed]),
     condition_line .pl rfl (by simp [conditionPassed]),
     condition_line .vs rfl (by simp [conditionPassed]),
     condition_line .vc rfl (by simp [conditionPassed]),
     condition_line .hi rfl (by simp [conditionPassed]),
     condition_line .ls rfl (by simp [conditionPassed]),
     condition_line .ge rfl (by simp [conditionPassed]),
     condition_line .lt rfl (by simp [conditionPassed]),
     condition_line .gt rfl (by simp [conditionPassed]),
     condition_line .le rfl (by simp [conditionPassed])⟩

end Sys2Proof.Machine
end

section
/-! SUPPORT. What AddWithCarry and Shift_C answer (`00_scope.md` R11, R12), in the terms of the claims: the
word operation and the flags of the exact result. -/

namespace Sys2Proof.Machine

open Sys2Proof

/-! ## AddWithCarry (R11) -/

theorem toNat_carryWord (c : Bool) : (carryWord c).toNat = c.toNat := by cases c <;> rfl

theorem addWithCarry_result (x y : Word) (c : Bool) :
    (addWithCarry x y c).result = x + y + carryWord c := by
  apply BitVec.eq_of_toNat_eq
  simp [addWithCarry, BitVec.toNat_add, toNat_carryWord]

theorem addWithCarry_carry (x y : Word) (c : Bool) :
    (addWithCarry x y c).carry = decide (2 ^ 32 ≤ x.toNat + y.toNat + c.toNat) := by
  rw [Bool.eq_iff_iff, decide_eq_true_iff]
  simp only [addWithCarry, BitVec.toNat_ofNat, bne_iff_ne]
  omega

/-- A word's signed value is an exact one exactly when that is congruent to it and in range. -/
theorem ofInt_toInt_ne_iff (v : Int) : ((BitVec.ofInt 32 v).toInt ≠ v) ↔ (v < -2 ^ 31 ∨ 2 ^ 31 ≤ v) := by
  rw [BitVec.toInt_ofInt, Int.bmod_def]
  split <;> omega

theorem addWithCarry_overflow (x y : Word) (c : Bool) :
    (addWithCarry x y c).overflow = outOfRange (x.toInt + y.toInt + (c.toNat : Int)) := by
  have hsum : BitVec.ofNat 32 (x.toNat + y.toNat + c.toNat) =
      BitVec.ofInt 32 (x.toInt + y.toInt + (c.toNat : Int)) := by
    simp [BitVec.ofInt_add, BitVec.ofNat_add]
  rw [Bool.eq_iff_iff, outOfRange, decide_eq_true_iff, ← ofInt_toInt_ne_iff, ← hsum]
  exact bne_iff_ne

/-- The flags of an addition are those of the exact sum (R236 item 3). -/
theorem ofAdd_addWithCarry (x y : Word) (c : Bool) :
    Flags.ofAdd (addWithCarry x y c) = sumFlags x y c := by
  simp [Flags.ofAdd, sumFlags, addWithCarry_result, addWithCarry_carry, addWithCarry_overflow]

/-! ## Subtraction as an addition of the complement (R236) -/

theorem carryWord_not (b : Bool) : carryWord (!b) = 1#32 - carryWord b := by cases b <;> rfl

theorem add_not_carry (x y : Word) (b : Bool) :
    x + ~~~y + carryWord (!b) = x - y - carryWord b := by
  rw [carryWord_not, BitVec.not_eq_neg_add]
  generalize carryWord b = d
  ring

theorem toInt_not_eq (y : Word) : (~~~y).toInt = -1 - y.toInt := by
  have := y.isLt
  rw [BitVec.toInt_eq_toNat_cond, BitVec.toInt_eq_toNat_cond, BitVec.toNat_not]
  split <;> omega

theorem sumFlags_not (x y : Word) (b : Bool) : sumFlags x (~~~y) (!b) = differenceFlags x y b := by
  have hnat : (~~~y).toNat + (!b).toNat = 2 ^ 32 - (y.toNat + b.toNat) := by
    have := y.isLt
    rw [BitVec.toNat_not]
    cases b <;> simp
    omega
  have hint : (~~~y).toInt + ((!b).toNat : Int) = -y.toInt - (b.toNat : Int) := by
    rw [toInt_not_eq]
    cases b <;> simp <;> omega
  have hc : (2 ^ 32 ≤ x.toNat + (~~~y).toNat + (!b).toNat) ↔ y.toNat + b.toNat ≤ x.toNat := by
    have := y.isLt
    have := b.toNat_le
    omega
  have hv : x.toInt + (~~~y).toInt + ((!b).toNat : Int) = x.toInt - y.toInt - (b.toNat : Int) := by
    omega
  simp only [sumFlags, differenceFlags, add_not_carry, hc, hv]

theorem addWithCarry_comm (x y : Word) (c : Bool) : addWithCarry x y c = addWithCarry y x c := by
  simp only [addWithCarry, Nat.add_comm x.toNat, Int.add_comm x.toInt]

/-! ## Shift_C (R12) -/

/-- The last bit a left shift by `n` pushes out; the carry as before for 0 (R12). -/
theorem shiftC_lsl (x : Word) (n : Nat) (c : Bool) :
    shiftC x .lsl n c =
      ⟨x <<< n, if n = 0 then c else if n ≤ 32 then x.getLsbD (32 - n) else false⟩ := by
  by_cases h0 : n = 0
  · simp [shiftC, h0]
  · have hr : BitVec.ofNat 32 (x.toNat * 2 ^ n) = x <<< n := by
      apply BitVec.eq_of_toNat_eq
      simp [Nat.shiftLeft_eq]
    have hc : (x.toNat * 2 ^ n).testBit 32 = if n ≤ 32 then x.getLsbD (32 - n) else false := by
      rw [← Nat.shiftLeft_eq, Nat.testBit_shiftLeft]
      split <;> simp_all [BitVec.getLsbD]
    simp [shiftC, lslC, h0, hr, hc]

/-- The last bit a right shift by `n` pushes out (R12). -/
theorem shiftC_lsr (x : Word) (n : Nat) (c : Bool) :
    shiftC x .lsr n c =
      ⟨x >>> n, if n = 0 then c else if n ≤ 32 then x.getLsbD (n - 1) else false⟩ := by
  by_cases h0 : n = 0
  · simp [shiftC, h0]
  · have hr : BitVec.ofNat 32 (x.toNat / 2 ^ n) = x >>> n := by
      apply BitVec.eq_of_toNat_eq
      rw [BitVec.toNat_ushiftRight, Nat.shiftRight_eq_div_pow, BitVec.toNat_ofNat]
      exact Nat.mod_eq_of_lt (Nat.lt_of_le_of_lt (Nat.div_le_self ..) x.isLt)
    simp [shiftC, lsrC, h0, hr]

theorem shiftC_asr (x : Word) (n : Nat) (c : Bool) :
    shiftC x .asr n c =
      ⟨x.sshiftRight n, if n = 0 then c else if n ≤ 32 then x.getLsbD (n - 1) else x.msb⟩ := by
  by_cases h0 : n = 0
  · simp [shiftC, h0]
  · have hr : BitVec.ofInt 32 (x.toInt / 2 ^ n) = x.sshiftRight n := by
      rw [BitVec.sshiftRight, Int.shiftRight_eq_div_pow]; simp
    simp [shiftC, asrC, h0, hr]

theorem shiftC_ror (x : Word) (n : Nat) (c : Bool) :
    shiftC x .ror n c =
      ⟨x.rotateRight n, if n = 0 then c else (x.rotateRight n).msb⟩ := by
  by_cases h0 : n = 0
  · simp [shiftC, h0, BitVec.rotateRight_def]
  · have hr : (if n % 32 = 0 then x else (x >>> (n % 32)) ||| (x <<< (32 - n % 32))) =
        x.rotateRight n := by
      rw [BitVec.rotateRight_def]
      split
      · next hm => simp [hm]
      · rfl
    simp only [shiftC, rorC, h0, if_false, hr]

theorem registerShiftAmount_eq (v : Word) : registerShiftAmount v = v.toNat % 256 := by
  simp [registerShiftAmount]

end Sys2Proof.Machine
end

section
/-! PROOFS. The sums, differences and shifts (`40_shift_add_sub_move_compare.md`,
`41_data_processing.md`): each is an advance of the pc past the write of one result. -/

namespace Sys2Proof.Machine

open Sys2Proof

/-! ## A result is written and the pc advances -/

theorem advance_putSum {s : State} (h : s.roomFor 2) (rd : LowReg) (x y : Word) (c : Bool) :
    advance 2 (s.putSum rd (addWithCarry x y c)) = .next { s with
      r := s.r.set rd.val (x + y + carryWord c)
      flags := sumFlags x y c
      pc := s.pc + 2#32 } := by
  rw [advance_room (s := s.putSum rd _) h, State.putSum, addWithCarry_result, ofAdd_addWithCarry]
  rfl

theorem advance_putCompare {s : State} (h : s.roomFor 2) (x y : Word) (c : Bool) :
    advance 2 (s.putCompare (addWithCarry x y c)) = .next { s with
      flags := sumFlags x y c
      pc := s.pc + 2#32 } := by
  rw [advance_room (s := s.putCompare _) h, State.putCompare, ofAdd_addWithCarry]
  rfl

theorem advance_putDifference {s : State} (h : s.roomFor 2) (rd : LowReg) (x y : Word) (b : Bool) :
    advance 2 (s.putSum rd (addWithCarry x (~~~y) (!b))) = .next { s with
      r := s.r.set rd.val (x - y - carryWord b)
      flags := differenceFlags x y b
      pc := s.pc + 2#32 } := by
  rw [advance_putSum h, add_not_carry, sumFlags_not]

theorem advance_putCompareDifference {s : State} (h : s.roomFor 2) (x y : Word) (b : Bool) :
    advance 2 (s.putCompare (addWithCarry x (~~~y) (!b))) = .next { s with
      flags := differenceFlags x y b
      pc := s.pc + 2#32 } := by
  rw [advance_putCompare h, sumFlags_not]

theorem advance_putShift {s : State} (h : s.roomFor 2) (rd : LowReg) (v : Word) (c : Bool) :
    advance 2 (s.putShift rd ⟨v, c⟩) = .next { s with
      r := s.r.set rd.val v
      flags := shiftFlags s.flags v c
      pc := s.pc + 2#32 } :=
  advance_room (s := s.putShift rd _) h

theorem add_carryWord_false (v : Word) : v + carryWord false = v := BitVec.add_zero v

theorem sub_carryWord_false (v : Word) : v - carryWord false = v := BitVec.sub_zero v

/-! ## The obligations -/

/-- Settles O12: each of the five is an advance past the write of an AddWithCarry. -/
theorem sumInstructions : Obligations.SumInstructions := by
  intro s rm rn rd imm3 imm8 h
  have sum (rd : LowReg) (x y : Word) := advance_putSum h rd x y false
  simp only [add_carryWord_false] at sum
  exact ⟨sum rd _ _, sum rd _ _, sum rd _ _, advance_putSum h rd _ _ _,
    advance_putCompare h _ _ false⟩

/-- Settles O13: each is an AddWithCarry of the complement (R236); RSBS has its operands the other way
round. -/
theorem differenceInstructions : Obligations.DifferenceInstructions := by
  intro s rm rn rd imm3 imm8 hn hm h
  have difference (rd : LowReg) (x y : Word) := advance_putDifference h rd x y false
  simp only [sub_carryWord_false] at difference
  have compare (x y : Word) := advance_putCompareDifference h x y false
  refine ⟨difference rd _ _, difference rd _ _, difference rd _ _, ?_, ?_, compare _ _, compare _ _, ?_⟩
  case refine_1 =>
    have hr := difference rd 0#32 (s.low rn)
    rw [addWithCarry_comm, BitVec.zero_sub] at hr
    exact hr
  case refine_2 =>
    have hs := advance_putDifference h rd (s.low rd) (s.low rm) (!s.flags.c)
    rw [Bool.not_not] at hs
    exact hs
  case refine_3 =>
    intro hhigh hn15 hm15
    have hlow : ¬(hn.val < 8 ∧ hm.val < 8) := by omega
    have hpc : ¬(hn = 15 ∨ hm = 15) := by simp [hn15, hm15]
    change execCmpHi hn hm s = _
    rw [execCmpHi, if_neg hlow, if_neg hpc]
    exact compare _ _

/-- Settles O16: Shift_C by an amount from 1 to 32. -/
theorem immediateShifts : Obligations.ImmediateShifts := by
  intro s rm rd imm5 h
  have hlt : imm5.toNat < 32 := imm5.isLt
  constructor
  · intro h0
    have hne : imm5.toNat ≠ 0 := fun e => h0 (BitVec.eq_of_toNat_eq e)
    change execLslsImm imm5 rm rd s = _
    rw [execLslsImm, shiftC_lsl, if_neg hne, if_pos (by omega)]
    exact advance_putShift h rd _ _
  · intro n hn
    have hamount : rightShiftAmount imm5 = n := hn.symm
    have hrange : n ≠ 0 ∧ n ≤ 32 := by
      by_cases h0 : imm5 = 0#5
      · simp [hn, h0]
      · have hne : imm5.toNat ≠ 0 := fun e => h0 (BitVec.eq_of_toNat_eq e)
        rw [hn, if_neg h0]
        omega
    obtain ⟨hne, hle⟩ := hrange
    constructor
    · change execLsrsImm imm5 rm rd s = _
      rw [execLsrsImm, hamount, shiftC_lsr, if_neg hne, if_pos hle]
      exact advance_putShift h rd _ _
    · change execAsrsImm imm5 rm rd s = _
      rw [execAsrsImm, hamount, shiftC_asr, if_neg hne, if_pos hle]
      exact advance_putShift h rd _ _

/-- Settles O17: Shift_C by the bottom byte. -/
theorem registerShifts : Obligations.RegisterShifts := by
  intro s rm rd n h hn
  have hamount : registerShiftAmount (s.low rm) = n := by rw [registerShiftAmount_eq, hn]
  refine ⟨?lsl, ?lsr, ?asr, ?ror⟩
  case lsl =>
    change execLslsReg rm rd s = _
    rw [execLslsReg, hamount, shiftC_lsl]
    exact advance_putShift h rd _ _
  case lsr =>
    change execLsrsReg rm rd s = _
    rw [execLsrsReg, hamount, shiftC_lsr]
    exact advance_putShift h rd _ _
  case asr =>
    change execAsrsReg rm rd s = _
    rw [execAsrsReg, hamount, shiftC_asr]
    exact advance_putShift h rd _ _
  case ror =>
    change execRors rm rd s = _
    rw [execRors, hamount, shiftC_ror]
    exact advance_putShift h rd _ _

end Sys2Proof.Machine
end

section
/-! SUPPORT. Pending, Active and the interrupt lines, bit by exception (`60_exceptions.md` R401 to R406, R440). -/

namespace Sys2Proof.Machine

open Sys2Proof

/-! ## All exceptions and their numbers (R401) -/

theorem Exc.mem_all (e : Exc) : e ∈ Exc.all := by cases e <;> simp [Exc.all]

theorem Exc.nodup_all : Exc.all.Nodup := by decide

theorem excOfNumber_number (e : Exc) : excOfNumber (BitVec.ofNat 6 e.number) = some e := by
  cases e with
  | irq n =>
    have h : ∀ n : Fin 32, excOfNumber (BitVec.ofNat 6 (16 + n.val)) = some (.irq n) := by decide
    exact h n
  | nmi | hardFault | svcall | pendsv | systick => rfl

theorem excOfNumber_zero : excOfNumber 0#6 = none := by decide

theorem number_ne_zero (e : Exc) : BitVec.ofNat 6 e.number ≠ 0#6 := by
  intro h
  have := excOfNumber_number e
  rw [h, excOfNumber_zero] at this
  cases this

/-! ## One bit -/

theorem getLsbD_setBit (x : BitVec 32) (n m : Fin 32) (v : Bool) :
    (setBit x n v).getLsbD m.val = if m = n then v else x.getLsbD m.val := by
  have hm := m.isLt
  by_cases h : m = n
  · subst h
    cases v <;> simp [setBit, hm]
  · have hne : m.val ≠ n.val := fun e => h (Fin.ext e)
    have hpow : (BitVec.twoPow 32 n.val).getLsbD m.val = false := by
      simp [hne]
    cases v <;> simp only [setBit, if_true, if_false, Bool.false_eq_true, BitVec.getLsbD_or,
      BitVec.getLsbD_and, BitVec.getLsbD_not, hpow, h, hm] <;> simp

theorem ExcBits.get_none (e : Exc) : ExcBits.none.get e = false := by
  cases e <;> simp [ExcBits.none, ExcBits.get]

theorem ExcBits.get_set (b : ExcBits) (e f : Exc) (v : Bool) :
    (b.set e v).get f = if f = e then v else b.get f := by
  cases e with
  | irq n =>
    cases f with
    | irq m => simp only [ExcBits.set, ExcBits.get, getLsbD_setBit, Exc.irq.injEq]
    | nmi | hardFault | svcall | pendsv | systick => rfl
  | nmi | hardFault | svcall | pendsv | systick => cases f <;> rfl

theorem ExcBits.ext_get {b c : ExcBits} (h : ∀ e, b.get e = c.get e) : b = c := by
  have hirq : b.irq = c.irq := BitVec.eq_of_getLsbD_eq fun i hi => h (.irq ⟨i, hi⟩)
  have hnmi := h .nmi
  have hhard := h .hardFault
  have hsvc := h .svcall
  have hpend := h .pendsv
  have htick := h .systick
  cases b
  cases c
  simp_all [ExcBits.get]

theorem ExcBits.eq_none_iff {b : ExcBits} : b = ExcBits.none ↔ ∀ e, b.get e = false :=
  ⟨fun h e => by rw [h, get_none], fun h => ext_get fun e => by rw [h, get_none]⟩

theorem ExcBits.set_true_ne_none (b : ExcBits) (e : Exc) : b.set e true ≠ ExcBits.none := by
  intro h
  have := ExcBits.eq_none_iff.mp h e
  simp [ExcBits.get_set] at this

/-- A set bit is the only one exactly when clearing it leaves none. -/
theorem ExcBits.count_eq_one_iff {b : ExcBits} {e : Exc} (he : b.get e = true) :
    b.count = 1 ↔ b.set e false = ExcBits.none := by
  have hmem : ∀ f, f ∈ Exc.all.filter b.get ↔ b.get f = true := fun f => by simp [Exc.mem_all]
  have honly : b.set e false = ExcBits.none ↔ ∀ f ∈ Exc.all.filter b.get, f = e := by
    simp only [ExcBits.eq_none_iff, ExcBits.get_set, hmem]
    refine forall_congr' fun f => ?_
    by_cases hf : f = e <;> simp [hf]
  rw [honly, ExcBits.count]
  constructor
  · intro h f hf
    obtain ⟨a, ha⟩ := List.length_eq_one_iff.mp h
    have hea := (hmem e).mpr he
    rw [ha] at hf hea
    rw [List.mem_singleton.mp hf, List.mem_singleton.mp hea]
  · intro h
    have hrep := List.eq_replicate_of_mem h
    have hle : (Exc.all.filter b.get).length ≤ 1 :=
      List.nodup_replicate.mp (hrep ▸ Exc.nodup_all.filter b.get)
    have hpos := List.length_pos_of_mem ((hmem e).mpr he)
    omega

/-! ## The lines (R425, R440) -/

theorem getLsbD_irqMask (s : State) (n : Fin 32) :
    s.irqMask.getLsbD n.val = s.hasExc (.irq n) := by
  rw [State.irqMask, State.hasExc, BitVec.getLsbD_ofNat, Nat.testBit_two_pow_sub_one]
  simp

/-- Whether an exception has a line and the line is high. -/
def State.lineHigh (s : State) : Exc → Bool
  | .nmi => s.nmiLine
  | .hardFault => false
  | .svcall => false
  | .pendsv => false
  | .systick => false
  | .irq n => s.irqLine.getLsbD n.val

theorem linesPending_iff {s : State} : s.linesPending ↔
    ∀ e, s.lineHigh e = true → s.hasExc e = true → s.active.get e = false →
      s.pending.get e = true := by
  constructor
  · rintro ⟨hnmi, hirq⟩ e hline hexc hact
    cases e with
    | nmi => exact hnmi hline hact
    | irq n =>
      have hbit := congrArg (·.getLsbD n.val) hirq
      simp only [State.lineHigh, ExcBits.get] at hline hact ⊢
      simpa only [BitVec.getLsbD_and, BitVec.getLsbD_not, getLsbD_irqMask, hline, hact, hexc, n.isLt,
        Bool.true_and, Bool.and_true, decide_true, Bool.not_false, BitVec.getLsbD_zero,
        Bool.not_eq_false'] using hbit
    | hardFault | svcall | pendsv | systick => cases hline
  · intro h
    refine ⟨fun hline hact => h .nmi hline rfl hact, BitVec.eq_of_getLsbD_eq fun i hi => ?_⟩
    rw [BitVec.getLsbD_zero, ← Bool.not_eq_true]
    intro hset
    simp only [BitVec.getLsbD_and, BitVec.getLsbD_not, hi, decide_true, Bool.true_and,
      Bool.and_eq_true, Bool.not_eq_true'] at hset
    obtain ⟨⟨⟨hline, hmask⟩, hact⟩, hpend⟩ := hset
    have hexc : s.hasExc (.irq ⟨i, hi⟩) = true := (getLsbD_irqMask s ⟨i, hi⟩).symm.trans hmask
    have hset : s.pending.irq.getLsbD i = true := h (.irq ⟨i, hi⟩) hline hexc hact
    rw [hpend] at hset
    cases hset

theorem resample_pending_get (s : State) (e : Exc) :
    s.resample.pending.get e =
      (s.pending.get e || (s.lineHigh e && s.hasExc e && !s.active.get e)) := by
  cases e with
  | irq n =>
    simp [State.resample, State.withPending, ExcBits.get, State.lineHigh, ← getLsbD_irqMask]
  | nmi => simp [State.resample, State.withPending, ExcBits.get, State.lineHigh, State.hasExc]
  | hardFault | svcall | pendsv | systick =>
    simp [State.resample, State.withPending, ExcBits.get, State.lineHigh]

/-! ## What is taken exists (R405, R406) -/

theorem highest_holds {s : State} {p : Exc → Bool} {e : Exc} (h : s.highest p = some e) :
    p e = true := by
  have hfold : ∀ b, s.highest p = some b → p b = true := by
    unfold State.highest
    refine List.foldlRecOn (motive := fun best => ∀ b, best = some b → p b = true) Exc.all _
      (by simp) fun best hbest e _ b hb => ?_
    by_cases hp : p e = true
    · cases best with
      | none =>
        rw [if_pos hp] at hb
        cases hb
        exact hp
      | some c =>
        simp only [if_pos hp] at hb
        split at hb
        · cases hb; exact hp
        · exact hbest b hb
    · rw [if_neg hp] at hb
      exact hbest b hb
  exact hfold e h

theorem hasExc_of_best {s : State} {e : Exc} (h : s.best = some e) : s.hasExc e = true := by
  have ht := highest_holds h
  simp only [State.takeable, State.takeableWith, State.requested, Bool.and_eq_true] at ht
  obtain ⟨⟨⟨hexc, _⟩, _⟩, _⟩ := ht
  exact hexc

end Sys2Proof.Machine
end

section
/-! SUPPORT. The invariant, exception by exception, and the relation `Keeps` between a state and a later one
that every operation of the model establishes. -/

namespace Sys2Proof.Machine

open Sys2Proof

/-! ## The invariant in parts -/

/-- All of the invariant but what it says of the lines and of a reset in the middle of a step. -/
structure State.Settled (s : State) : Prop where
  mem : s.mem.wf = true
  spMain : s.spMain.extractLsb' 0 2 = 0#2
  spProcess : s.spProcess.extractLsb' 0 2 = 0#2
  pc : s.pc.getLsbD 0 = false
  spsel : s.spsel = true → s.ipsr = 0#6
  thread : s.ipsr = 0#6 ↔ s.active = ExcBits.none
  number : s.numberExists
  existing : ∀ e, s.hasExc e = false → s.pending.get e = false ∧ s.active.get e = false

/-- The invariant but for a reset in the middle of a step. -/
structure State.Sound (s : State) : Prop extends s.Settled where
  lines : ∀ e, s.lineHigh e = true → s.hasExc e = true → s.active.get e = false →
    s.pending.get e = true

theorem inv_iff_sound {s : State} : s.Inv ↔ s.Sound ∧ s.resetIn = none := by
  constructor
  · rintro ⟨mem, spMain, spProcess, pc, spsel, thread, number, existing, lines, resetIn⟩
    exact ⟨⟨⟨mem, spMain, spProcess, pc, spsel, thread, number, fun e => existing e e.mem_all⟩,
      linesPending_iff.mp lines⟩, resetIn⟩
  · rintro ⟨h, resetIn⟩
    exact ⟨h.mem, h.spMain, h.spProcess, h.pc, h.spsel, h.thread, h.number,
      fun e _ => h.existing e, linesPending_iff.mpr h.lines, resetIn⟩

/-- `t` may come of `s` by the operations of one step: the parameters are the same, a reset is in the middle
of the step only if it was, and the invariant is kept. -/
structure Keeps (s t : State) : Prop where
  cfg : t.cfg = s.cfg
  resetIn : s.resetIn = none → t.resetIn = none
  sound : s.Sound → t.Sound

theorem Keeps.refl (s : State) : Keeps s s := ⟨rfl, id, id⟩

theorem Keeps.trans {s t u : State} (h : Keeps s t) (h' : Keeps t u) : Keeps s u :=
  ⟨h'.cfg.trans h.cfg, h'.resetIn ∘ h.resetIn, h'.sound ∘ h.sound⟩

theorem hasExc_congr {s t : State} (h : t.cfg = s.cfg) : t.hasExc = s.hasExc := by
  funext e
  cases e <;> simp [State.hasExc, h]

theorem lineHigh_congr {s t : State} (hirq : t.irqLine = s.irqLine) (hnmi : t.nmiLine = s.nmiLine) :
    t.lineHigh = s.lineHigh := by
  funext e
  cases e <;> simp [State.lineHigh, hirq, hnmi]

/-- What changes neither mode nor exceptions nor lines keeps the invariant, if memory, the stack pointers and
the pc keep their form. -/
theorem Keeps.frame {s t : State} (cfg : t.cfg = s.cfg := by simp)
    (resetIn : t.resetIn = s.resetIn := by simp)
    (mem : s.mem.wf = true → t.mem.wf = true := by simp)
    (spMain : s.spMain.extractLsb' 0 2 = 0#2 → t.spMain.extractLsb' 0 2 = 0#2 := by simp)
    (spProcess : s.spProcess.extractLsb' 0 2 = 0#2 → t.spProcess.extractLsb' 0 2 = 0#2 := by simp)
    (pc : s.pc.getLsbD 0 = false → t.pc.getLsbD 0 = false := by simp)
    (spsel : t.spsel = s.spsel := by simp) (ipsr : t.ipsr = s.ipsr := by simp)
    (active : t.active = s.active := by simp) (pending : t.pending = s.pending := by simp)
    (irqLine : t.irqLine = s.irqLine := by simp) (nmiLine : t.nmiLine = s.nmiLine := by simp) :
    Keeps s t where
  cfg := cfg
  resetIn h := resetIn.trans h
  sound h :=
    { mem := mem h.mem
      spMain := spMain h.spMain
      spProcess := spProcess h.spProcess
      pc := pc h.pc
      spsel := by rw [spsel, ipsr]; exact h.spsel
      thread := by rw [ipsr, active]; exact h.thread
      number := by rw [State.numberExists, ipsr, hasExc_congr cfg]; exact h.number
      existing := by rw [hasExc_congr cfg, pending, active]; exact h.existing
      lines := by
        rw [lineHigh_congr irqLine nmiLine, hasExc_congr cfg, active, pending]
        exact h.lines }

/-! ## The form of addresses (R32, R38) -/

theorem alignWord_aligned (v : Word) : (alignWord v).extractLsb' 0 2 = 0#2 :=
  BitVec.extractLsb'_append_eq_right

theorem alignHalf_even (v : Word) : (alignHalf v).getLsbD 0 = false := by
  rw [alignHalf, BitVec.getLsbD_append]
  rfl

theorem even_iff {v : Word} : v.getLsbD 0 = false ↔ v.toNat % 2 = 0 := by
  rw [BitVec.getLsbD, Nat.testBit_zero]
  simp

theorem even_add {v : Word} {n : Nat} (hv : v.getLsbD 0 = false) (hn : n % 2 = 0) :
    (v + BitVec.ofNat 32 n).getLsbD 0 = false := by
  rw [even_iff] at hv ⊢
  rw [BitVec.toNat_add, BitVec.toNat_ofNat]
  omega

theorem aligned_iff {v : Word} : v.extractLsb' 0 2 = 0#2 ↔ v.toNat % 4 = 0 := by
  rw [← BitVec.toNat_inj]
  simp

theorem poppedSp_aligned {frame : Word} (psr : Word) (h : frame.extractLsb' 0 2 = 0#2) :
    (poppedSp frame psr).extractLsb' 0 2 = 0#2 := by
  have hsum : (frame + 0x20#32).extractLsb' 0 2 = 0#2 := by
    rw [aligned_iff] at h ⊢
    rw [BitVec.toNat_add, BitVec.toNat_ofNat]
    omega
  have hpad : ∀ b : Bool,
      ((BitVec.ofBool b ++ 0#2 : BitVec 3).setWidth 32).extractLsb' 0 2 = 0#2 := by decide
  rw [poppedSp, BitVec.extractLsb'_or, hsum, hpad]
  rfl

/-! ## Updates of one part of the state -/

theorem keeps_setLow (s : State) (i : LowReg) (v : Word) : Keeps s (s.setLow i v) := .frame

theorem keeps_setLows (s : State) (l : List (LowReg × Word)) : Keeps s (s.setLows l) := .frame

theorem keeps_setSomeLows (s : State) (b : Option LowReg) (l : List (LowReg × Word)) :
    Keeps s (s.setSomeLows b l) := .frame

theorem keeps_setFlags (s : State) (f : Flags) : Keeps s (s.setFlags f) := .frame

theorem keeps_deviceRead (s : State) (acc : Access) (w : Width) (a : Word) :
    Keeps s (s.deviceRead acc w a) := .frame

theorem keeps_deviceWrite (s : State) (w : Width) (a v : Word) : Keeps s (s.deviceWrite w a v) :=
  .frame

theorem keeps_enterLockup (s : State) : Keeps s s.enterLockup := .frame (pc := by simp)

theorem keeps_waitForInterrupt (s : State) : Keeps s s.waitForInterrupt := .frame

theorem keeps_synchronise (s : State) : Keeps s s.synchronise := .frame

theorem keeps_branchTo (s : State) (a : Word) : Keeps s (s.branchTo a) :=
  .frame (pc := fun _ => alignHalf_even a)

theorem keeps_exchangeTo (s : State) (a : Word) : Keeps s (s.exchangeTo a) :=
  .frame (pc := fun _ => alignHalf_even a)

theorem keeps_setSp (s : State) (v : Word) : Keeps s (s.setSp v) := by
  refine .frame (spMain := fun h => ?_) (spProcess := fun h => ?_)
  · rw [State.setSp_spMain]
    split
    · exact h
    · exact alignWord_aligned v
  · rw [State.setSp_spProcess]
    split
    · exact alignWord_aligned v
    · exact h

theorem keeps_setReg (s : State) (i : RegNum) (v : Word) : Keeps s (s.setReg i v) := by
  unfold State.setReg
  split
  · exact .frame
  · split
    · exact keeps_setSp s v
    · split
      · exact .frame
      · exact .refl s

theorem keeps_storeAt (s : State) {w : Width} {a : Word} (v : Word) (ha : a.toNat % w.bytes = 0) :
    Keeps s (s.storeAt w a.toNat v) :=
  .frame (mem := fun h => wf_storeAt v h ha)

theorem keeps_writePri (s : State) (n : Fin 32) (v : Word) (j : Nat) :
    Keeps s (s.writePri n v j) := by
  unfold State.writePri
  split
  · exact .frame
  · exact .refl s

theorem keeps_writeIpr (s : State) (k : Fin 8) (v : Word) : Keeps s (s.writeIpr k v) :=
  (keeps_writePri _ _ _ _).trans <| (keeps_writePri _ _ _ _).trans <|
    (keeps_writePri _ _ _ _).trans (keeps_writePri _ _ _ _)

/-- MSR keeps SPSEL 0 in Handler mode (R330). -/
theorem keeps_writeSpecial (s : State) (sysm : BitVec 8) (v : Word) :
    Keeps s (s.writeSpecial sysm v) := by
  refine ⟨by simp, fun h => by simpa using h, fun h => ?_⟩
  unfold State.writeSpecial
  split
  · split
    · exact h
    · exact (keeps_setFlags s _).sound h
  · split
    · exact h
    · split
      · exact { h with spMain := alignWord_aligned v }
      · split
        · exact { h with spProcess := alignWord_aligned v }
        · split
          · exact { h with }
          · split
            · refine { h with spsel := fun hsel => ?_ }
              by_cases hm : s.handlerMode = true
              · simp only [hm, if_true] at hsel
                exact h.spsel hsel
              · simpa [State.handlerMode] using hm
            · exact h

/-! ## Pending and the lines (R425, R440) -/

/-- Pending bits may be set for what exists, and cleared where no line is high. -/
theorem keeps_withPending {s : State} {p : ExcBits}
    (hclear : ∀ e, s.lineHigh e = true → s.pending.get e = true → p.get e = true)
    (hset : ∀ e, p.get e = true → s.pending.get e = true ∨ s.hasExc e = true) :
    Keeps s (s.withPending p) := by
  refine ⟨rfl, id, fun h => ?_⟩
  refine { h with existing := fun e he => ⟨?_, (h.existing e he).2⟩, lines := fun e hl hx ha => ?_ }
  · have hp := (h.existing e he).1
    have := hset e
    rw [hp, show s.hasExc e = false from he] at this
    simpa using this
  · exact hclear e hl (h.lines e hl hx ha)

/-- Setting a bit of what exists. -/
theorem keeps_setPending {s : State} {e : Exc} (he : s.hasExc e = true) :
    Keeps s (s.withPending (s.pending.set e true)) := by
  refine keeps_withPending (fun f _ hf => ?_) fun f hf => ?_
  · rw [ExcBits.get_set]
    split
    · rfl
    · exact hf
  · rw [ExcBits.get_set] at hf
    split at hf
    · next hfe => exact .inr (hfe ▸ he)
    · exact .inl hf

/-- Whatever the lines, they are pended after a sample of them. -/
theorem sound_resample {s : State} (h : s.Settled) : s.resample.Sound where
  mem := h.mem
  spMain := h.spMain
  spProcess := h.spProcess
  pc := h.pc
  spsel := h.spsel
  thread := h.thread
  number := h.number
  existing e he := by
    have hx : s.hasExc e = false := he
    obtain ⟨hp, ha⟩ := h.existing e hx
    exact ⟨by rw [resample_pending_get, hp, hx]; simp, ha⟩
  lines e hl hx ha := by
    have hl' : s.lineHigh e = true := hl
    have hx' : s.hasExc e = true := hx
    have ha' : s.active.get e = false := ha
    rw [resample_pending_get, hl', hx', ha']
    simp

theorem keeps_driveIrq (s : State) (n : Fin 32) (level : Bool) : Keeps s (s.driveIrq n level) := by
  refine ⟨by simp, fun h => by simpa using h, fun h => ?_⟩
  unfold State.driveIrq
  split
  · next hn =>
    refine sound_resample ?_
    split
    · have he : s.hasExc (.irq n) = true := decide_eq_true hn
      exact { ((keeps_setPending he).sound h).toSettled with }
    · exact { h.toSettled with }
  · exact h

theorem keeps_driveNmi (s : State) (level : Bool) : Keeps s (s.driveNmi level) := by
  refine ⟨by simp, fun h => by simpa using h, fun h => ?_⟩
  unfold State.driveNmi
  refine sound_resample ?_
  split
  · exact { ((keeps_setPending (e := .nmi) rfl).sound h).toSettled with }
  · exact { h.toSettled with }

theorem keeps_sysTickStep (s : State) : Keeps s s.sysTickStep := by
  unfold State.sysTickStep
  split
  · next hon =>
    obtain ⟨hx, _⟩ := Bool.and_eq_true_iff.mp hon
    split
    · exact .frame
    · dsimp only
      split
      · split
        · refine Keeps.trans ?_ (keeps_setPending (e := .systick) hx)
          exact .frame
        · exact .frame
      · exact .frame
  · exact .refl s

theorem keeps_afterEvent (s : State) (e : Event) : Keeps s (s.afterEvent e) := by
  cases e with
  | irqLine n level => exact keeps_driveIrq s n level
  | nmiLine level => exact keeps_driveNmi s level
  | rxev => exact .frame (t := { s with event := true })
  | tick => exact keeps_sysTickStep s
  | deviceValue v => exact .frame (t := { s with deviceIn := s.deviceIn ++ [v] })

theorem keeps_afterEvents (s : State) (es : List Event) : Keeps s (s.afterEvents es) := by
  induction es generalizing s with
  | nil => exact .refl s
  | cons e es ih => exact (keeps_afterEvent s e).trans (ih _)

end Sys2Proof.Machine
end

section
/-! SUPPORT. The shared operations keep the invariant: memory accesses, multiple transfers, reset, exception
entry and return. -/

namespace Sys2Proof.Machine

open Sys2Proof

/-! ## The states an operation answers -/

/-- Every state the operation answers satisfies `P`. -/
def Eff.Ends {α : Type} (P : State → Prop) : Eff α → Prop
  | .ok _ s => P s
  | .hardFault _ s => P s
  | .refuse _ => True

/-- The next state, if there is one, satisfies `P`. -/
def NextIn (P : State → Prop) : Host.Outcome State Fault Refusal → Prop
  | .next s => P s
  | .fault _ => True
  | .refused _ => True

theorem nextIn_iff {P : State → Prop} {o : Host.Outcome State Fault Refusal} :
    NextIn P o ↔ ∀ t, o = .next t → P t := by
  cases o <;> simp [NextIn]

theorem Eff.ends_of {α : Type} {P : State → Prop} {e : Eff α}
    (hok : ∀ a t, e = .ok a t → P t) (hfault : ∀ c t, e = .hardFault c t → P t) : e.Ends P := by
  cases e with
  | ok a t => exact hok a t rfl
  | hardFault c t => exact hfault c t rfl
  | refuse r => trivial

theorem Eff.Ends.andThen {α β : Type} {P : State → Prop} {e : Eff α} {f : α → State → Eff β}
    (he : e.Ends P) (hf : ∀ a t, P t → (f a t).Ends P) : (e.andThen f).Ends P := by
  cases e with
  | ok a t => exact hf a t he
  | hardFault c t => exact he
  | refuse r => trivial

theorem Eff.Ends.mono {α : Type} {P Q : State → Prop} {e : Eff α} (h : e.Ends P)
    (hpq : ∀ t, P t → Q t) : e.Ends Q := by
  cases e with
  | ok a t => exact hpq t h
  | hardFault c t => exact hpq t h
  | refuse r => trivial

theorem NextIn.mono {P Q : State → Prop} {o : Host.Outcome State Fault Refusal} (h : NextIn P o)
    (hpq : ∀ t, P t → Q t) : NextIn Q o := by
  cases o with
  | next t => exact hpq t h
  | fault r => trivial
  | refused r => trivial

theorem Keeps.ends {α : Type} {s t : State} {e : Eff α} (h : Keeps s t) (he : e.Ends (Keeps t)) :
    e.Ends (Keeps s) :=
  he.mono fun _ => h.trans

theorem Keeps.nextIn {s t : State} {o : Host.Outcome State Fault Refusal} (h : Keeps s t)
    (ho : NextIn (Keeps t) o) : NextIn (Keeps s) o :=
  ho.mono fun _ => h.trans

theorem keeps_pcPast (s : State) {n : Nat} (hn : n % 2 = 0) :
    Keeps s { s with pc := s.pc + BitVec.ofNat 32 n } :=
  .frame (pc := fun h => even_add h hn)

theorem advance_keeps {s t : State} {len : Nat} (h : Keeps s t) (hlen : len % 2 = 0) :
    NextIn (Keeps s) (advance len t) := by
  refine nextIn_iff.mpr fun u hu => ?_
  obtain ⟨_, rfl⟩ := advance_next hu
  exact h.trans (keeps_pcPast t hlen)

/-! ## Memory accesses -/

/-- A read changes only what the devices, the free values and SYST_CSR (R471) remember of it. -/
def ReadFrom (s t : State) : Prop :=
  t = { s with deviceIn := t.deviceIn, deviceLog := t.deviceLog, free := t.free, syst := t.syst }

theorem ReadFrom.refl (s : State) : ReadFrom s s := rfl

theorem ReadFrom.trans {s t u : State} (h : ReadFrom s t) (h' : ReadFrom t u) : ReadFrom s u := by
  rw [ReadFrom] at h' ⊢
  rw [h', h]

theorem ReadFrom.keeps {s t : State} (h : ReadFrom s t) : Keeps s t := by
  rw [h]
  exact .frame

theorem readSys_readFrom (reg : SysReg) (s : State) : ReadFrom s (readSys reg s).2 := by
  cases reg with
  | systCsr =>
    rw [readSys]
    split <;> rfl
  | _ => rfl

theorem memRead_readFrom {priv : Bool} {w : Width} {a v : Word} {s t : State}
    (h : memRead priv w a s = .ok v t) : ReadFrom s t := by
  obtain ⟨_, ⟨rfl, _⟩ | ⟨_, _, rfl⟩ | ⟨_, _, reg, _, _, rfl⟩⟩ := memRead_ok h
  · exact .refl _
  · rfl
  · exact readSys_readFrom reg s

theorem memRead_keeps (priv : Bool) (w : Width) (a : Word) (s : State) :
    (memRead priv w a s).Ends (Keeps s) :=
  Eff.ends_of (fun _ _ h => (memRead_readFrom h).keeps) fun _ _ h => memRead_hardFault h ▸ .refl s

theorem writeIcsr_keeps (s : State) (v : Word) : (s.writeIcsr v).Ends (Keeps s) := by
  unfold State.writeIcsr
  split
  · trivial
  · refine keeps_withPending (fun e hl he => ?_) fun e he => ?_
    · cases e with
      | nmi => simpa [State.icsrPending, ExcBits.get] using .inl he
      | irq n => exact he
      | hardFault | svcall | pendsv | systick => cases hl
    · cases e with
      | systick =>
        by_cases hx : s.cfg.hasSysTick = true
        · exact .inr hx
        · simp only [State.icsrPending, ExcBits.get, hx] at he
          exact .inl he
      | irq n => exact .inl he
      | nmi | hardFault | svcall | pendsv => exact .inr rfl

theorem writeVtor_keeps (s : State) (v : Word) : (s.writeVtor v).Ends (Keeps s) := by
  unfold State.writeVtor
  split
  · exact Keeps.refl s
  · split
    · trivial
    · exact .frame (t := { s with vtor := _ })

theorem writeAircr_keeps (s : State) (v : Word) : (s.writeAircr v).Ends (Keeps s) := by
  unfold State.writeAircr
  split
  · exact Keeps.refl s
  · split
    · trivial
    · exact .frame (t := { s with resetRequest := _ })

/-- NVIC_ISPR pends only interrupts that exist (R443). -/
theorem keeps_setIrqs (s : State) (v : Word) :
    Keeps s (s.withPending { s.pending with irq := s.pending.irq ||| (v &&& s.irqMask) }) := by
  refine keeps_withPending (fun e _ he => ?_) fun e he => ?_
  · cases e with
    | irq n => simp only [ExcBits.get, BitVec.getLsbD_or] at he ⊢; simp [he]
    | nmi | hardFault | svcall | pendsv | systick => exact he
  · cases e with
    | irq n =>
      simp only [ExcBits.get, BitVec.getLsbD_or, BitVec.getLsbD_and, getLsbD_irqMask,
        Bool.or_eq_true, Bool.and_eq_true] at he
      exact he.imp_right (·.2)
    | nmi | hardFault | svcall | pendsv | systick => exact .inl he

/-- NVIC_ICPR clears, and samples the lines again (R444). -/
theorem keeps_clearIrqs (s : State) (m : BitVec 32) :
    Keeps s { s with pending := { s.pending with irq := s.pending.irq &&& ~~~m } }.resample := by
  refine ⟨by simp, fun h => by simpa using h, fun h => sound_resample { h.toSettled with
    existing := fun e he => ⟨?_, (h.existing e he).2⟩ }⟩
  have hp := (h.existing e he).1
  cases e with
  | irq n =>
    simp only [ExcBits.get, BitVec.getLsbD_and] at hp ⊢
    rw [hp, Bool.false_and]
  | nmi | hardFault | svcall | pendsv | systick => exact hp

theorem writeSys_keeps (reg : SysReg) (v : Word) (s : State) : (writeSys reg v s).Ends (Keeps s) := by
  cases reg with
  | actlr | systCalib | cpuid | ccr => exact Keeps.refl s
  | systCsr | systRvr | systCvr =>
    rw [writeSys]
    split
    · exact .frame (t := { s with syst := _ })
    · exact Keeps.refl s
  | nvicIser | nvicIcer => exact .frame (t := { s with enabled := _ })
  | nvicIspr => exact keeps_setIrqs s v
  | nvicIcpr => exact keeps_clearIrqs s _
  | nvicIpr k => exact keeps_writeIpr s k v
  | icsr => exact writeIcsr_keeps s v
  | vtor => exact writeVtor_keeps s v
  | aircr => exact writeAircr_keeps s v
  | scr => exact .frame (t := { s with scr := _ })
  | shpr2 | shpr3 => exact .frame (t := { s with pri := _ })
  | mpuType => trivial

theorem memWrite_keeps (priv : Bool) (w : Width) (a v : Word) (s : State) :
    (memWrite priv w a v s).Ends (Keeps s) := by
  refine Eff.ends_of (fun _ t h => ?_) fun _ _ h => memWrite_hardFault h ▸ .refl s
  obtain ⟨ha, ⟨rfl, _⟩ | ⟨rfl, _⟩ | ⟨_, rfl⟩ | ⟨_, _, reg, _, hw⟩⟩ := memWrite_ok h
  · exact keeps_storeAt s v ha
  · exact .refl _
  · exact keeps_deviceWrite s w a v
  · have hk := writeSys_keeps reg v s
    rw [hw] at hk
    exact hk

theorem storeWords_keeps (priv : Bool) (gaps : Gaps) (vs : List Word) (a : Word) (s : State) :
    (storeWords priv gaps vs a s).Ends (Keeps s) := by
  induction vs generalizing gaps a s with
  | nil => exact Keeps.refl s
  | cons v vs ih =>
    exact (memWrite_keeps priv .word a v s).andThen fun _ t ht =>
      (ht.trans (keeps_afterEvents t _)).ends (ih ..)

theorem storeMarked_keeps (priv : Bool) (vs : List (Bool × Word)) (a : Word) (s : State) :
    (storeMarked priv vs a s).Ends (Keeps s) := by
  induction vs generalizing a s with
  | nil => exact Keeps.refl s
  | cons p vs ih =>
    obtain ⟨marked, v⟩ := p
    cases marked with
    | false => exact ih ..
    | true => exact (memWrite_keeps priv .word a v s).andThen fun _ t ht => ht.ends (ih ..)

theorem readWords_keeps (priv : Bool) (gaps : Gaps) (n : Nat) (a : Word) (s : State) :
    (readWords priv gaps n a s).2.Ends (Keeps s) := by
  induction n generalizing gaps a s with
  | zero => exact Keeps.refl s
  | succ n ih =>
    have hr := memRead_keeps priv .word a s
    rw [readWords]
    cases h : memRead priv .word a s with
    | ok v t =>
      rw [h] at hr
      exact (Keeps.trans hr (keeps_afterEvents t _)).ends (ih ..)
    | hardFault c t =>
      rw [h] at hr
      exact hr
    | refuse r => trivial

/-- With no event between them, reads are reads. -/
theorem readWords_readFrom {priv : Bool} {n : Nat} {a : Word} {s t : State} {vs : List Word}
    (h : readWords priv [] n a s = (vs, .ok () t)) : ReadFrom s t := by
  induction n generalizing a s vs with
  | zero => cases h; exact .refl _
  | succ n ih =>
    rw [readWords] at h
    cases hr : memRead priv .word a s with
    | ok v u =>
      rw [hr] at h
      obtain ⟨_, h2⟩ := Prod.mk.inj h
      exact (memRead_readFrom hr).trans (ih (Prod.ext rfl h2))
    | hardFault c u =>
      rw [hr] at h
      cases h
    | refuse r =>
      rw [hr] at h
      cases h

/-! ## Reset (R501) -/

/-- `Keeps` in the middle of a reset, where the lines are not yet sampled again. -/
structure Settles (s t : State) : Prop where
  cfg : t.cfg = s.cfg
  resetIn : t.resetIn = s.resetIn
  settled : s.Settled → t.Settled

theorem Settles.trans {s t u : State} (h : Settles s t) (h' : Settles t u) : Settles s u :=
  ⟨h'.cfg.trans h.cfg, h'.resetIn.trans h.resetIn, h'.settled ∘ h.settled⟩

theorem ReadFrom.settles {s t : State} (h : ReadFrom s t) : Settles s t := by
  rw [h]
  exact ⟨rfl, rfl, fun hs => { hs with }⟩

theorem memRead_settles (priv : Bool) (w : Width) (a : Word) (s : State) :
    (memRead priv w a s).Ends (Settles s) :=
  Eff.ends_of (fun _ _ h => (memRead_readFrom h).settles) fun _ _ h =>
    memRead_hardFault h ▸ (ReadFrom.refl s).settles

theorem resetVector_settles (s : State) : (resetVector s).Ends (Settles s) := by
  refine (memRead_settles true .word 0#32 s).andThen fun w0 s1 h1 => ?_
  refine ((memRead_settles true .word 4#32 s1).mono fun _ => h1.trans).andThen fun w1 s2 h2 => ?_
  exact ⟨h2.cfg, h2.resetIn, fun hs => { h2.settled hs with
    spMain := alignWord_aligned w0, pc := alignHalf_even w1 }⟩

theorem settled_resetRegisters {s : State} (h : s.Sound) : s.resetRegisters.Settled where
  mem := h.mem
  spMain := h.spMain
  spProcess := alignWord_aligned _
  pc := h.pc
  spsel := nofun
  thread := ⟨fun _ => rfl, fun _ => rfl⟩
  number := .inl rfl
  existing e _ := ⟨ExcBits.get_none e, ExcBits.get_none e⟩

/-- A sample of the lines ends a reset. -/
theorem keeps_resetSampled {s t : State} (h : Settles s.resetRegisters t) :
    Keeps s t.resample ∧ t.resample.resetIn = none :=
  ⟨⟨h.cfg, fun _ => h.resetIn, fun hs => sound_resample (h.settled (settled_resetRegisters hs))⟩,
    h.resetIn⟩

/-- A reset keeps the invariant, and no reset is in the middle of the step any more. -/
theorem takeReset_keeps (s : State) :
    NextIn (fun t => Keeps s t ∧ t.resetIn = none) (takeReset s) := by
  have hv := resetVector_settles s.resetRegisters
  unfold takeReset
  cases h : resetVector s.resetRegisters with
  | ok u t =>
    rw [h] at hv
    exact keeps_resetSampled hv
  | hardFault c t =>
    rw [h] at hv
    refine keeps_resetSampled ⟨hv.cfg, hv.resetIn, fun hs => ?_⟩
    exact { hv.settled hs with pc := by simp }
  | refuse r => trivial

theorem takeReset_nextIn (s : State) : NextIn (Keeps s) (takeReset s) :=
  (takeReset_keeps s).mono fun _ h => h.1

/-! ## Exception entry (R410, R411) -/

theorem pushStack_keeps (ret : Word) (s : State) : (pushStack ret s).Ends (Keeps s) := by
  unfold pushStack
  split
  · trivial
  · refine (storeWords_keeps ..).andThen fun _ t ht => ?_
    refine ht.trans ((keeps_setSp t s.framePtr).trans ?_)
    exact .frame

/-- What ExceptionTaken sets is sound for an exception that exists. -/
theorem exceptionTaken_keeps {e : Exc} {s : State} (he : s.hasExc e = true) :
    (exceptionTaken e s).Ends (Keeps s) := by
  refine (memRead_keeps ..).andThen fun v t ht => ?_
  refine ht.trans (Keeps.trans ?_ (keeps_synchronise _))
  have hx : t.hasExc e = true := by rw [hasExc_congr ht.cfg, he]
  refine ⟨rfl, id, fun h => { h with
    pc := alignHalf_even v
    spsel := nofun
    thread := ⟨fun h0 => absurd h0 (number_ne_zero e), fun h0 =>
      absurd h0 (ExcBits.set_true_ne_none _ e)⟩
    number := .inr ?_
    existing := fun f hf => ?_
    lines := fun f hl hf ha => ?_ }⟩
  · change (excOfNumber (BitVec.ofNat 6 e.number)).any t.hasExc = true
    rw [excOfNumber_number]
    exact hx
  · change t.hasExc f = false at hf
    have hne : f ≠ e := fun heq => by rw [heq, hx] at hf; cases hf
    simp only [ExcBits.get_set, if_neg hne]
    exact h.existing f hf
  · simp only [ExcBits.get_set] at ha ⊢
    split at ha
    · cases ha
    · next hne =>
      rw [if_neg hne]
      exact h.lines f hl hf ha

theorem pushMarked_keeps (frame : BitVec 8) (ret : Word) (s : State) :
    (pushMarked frame ret s).Ends (Keeps s) := by
  unfold pushMarked
  split
  · trivial
  · exact storeMarked_keeps ..

theorem exceptionEntry_keeps {e : Exc} {s : State} (ret : Word) (he : s.hasExc e = true) :
    NextIn (Keeps s) (exceptionEntry e ret s) := by
  unfold exceptionEntry
  cases s.resetIn with
  | none =>
    have hk : ((pushStack ret s).andThen fun _ s1 => exceptionTaken e s1).Ends (Keeps s) :=
      (pushStack_keeps ret s).andThen fun _ t ht =>
        ht.ends (exceptionTaken_keeps (by rw [hasExc_congr ht.cfg, he]))
    cases h : (pushStack ret s).andThen fun _ s1 => exceptionTaken e s1 with
    | ok u t => rw [h] at hk; exact hk
    | hardFault c t => trivial
    | refuse r => trivial
  | some frame =>
    have hk := pushMarked_keeps frame ret s
    dsimp only
    cases h : pushMarked frame ret s with
    | ok u t =>
      rw [h] at hk
      exact Keeps.nextIn hk (takeReset_nextIn t)
    | hardFault c t => trivial
    | refuse r => trivial

theorem raiseHardFault_keeps (c : FaultCause) (s : State) :
    NextIn (Keeps s) (raiseHardFault c s) := by
  unfold raiseHardFault
  split
  · exact keeps_enterLockup s
  · exact exceptionEntry_keeps s.pc rfl

theorem Eff.Ends.finishAt {s : State} {e : Eff Unit} {len : Nat} (h : e.Ends (Keeps s))
    (hlen : len % 2 = 0) : NextIn (Keeps s) (e.finishAt len) := by
  cases e with
  | ok a t => exact advance_keeps h hlen
  | hardFault c t => exact Keeps.nextIn h (raiseHardFault_keeps c t)
  | refuse r => trivial

/-! ## Exception return (R415, R416) -/

/-- A return to Handler mode leaves another exception active, one to Thread mode none. -/
theorem clear_active_eq_none_iff {s : State} {dest : ReturnTo} {r : Exc}
    (h : s.mayReturn dest r = true) :
    s.active.set r false = ExcBits.none ↔ dest ≠ .handler := by
  simp only [State.mayReturn, Bool.and_eq_true] at h
  obtain ⟨hr, hcount⟩ := h
  rw [← ExcBits.count_eq_one_iff hr, ← beq_iff_eq, eq_of_beq hcount, bne_iff_ne]

/-- The number a return to Handler mode loads is that of an exception that exists, and not 0; one to Thread
mode loads 0. -/
theorem numberReturnable_cases {s : State} {dest : ReturnTo} {n : BitVec 6}
    (h : s.numberReturnable dest n = true) :
    (n = 0#6 ↔ dest ≠ .handler) ∧ (n = 0#6 ∨ (excOfNumber n).any s.hasExc = true) := by
  cases dest with
  | handler =>
    refine ⟨⟨fun h0 => ?_, fun hne => absurd rfl hne⟩, .inr h⟩
    rw [State.numberReturnable, h0, excOfNumber_zero] at h
    cases h
  | threadMain | threadProcess =>
    have h0 : n = 0#6 := by simpa [State.numberReturnable] using h
    exact ⟨⟨fun _ => nofun, fun _ => h0⟩, .inl h0⟩

/-- In Handler mode SPSEL is 0 (R37). -/
theorem spsel_of_active {s : State} (hs : s.Settled) {e : Exc} (he : s.active.get e = true) :
    s.spsel = false := by
  by_contra hsel
  have hnone := hs.thread.mp (hs.spsel (by simpa using hsel))
  rw [hnone, ExcBits.get_none] at he
  cases he

theorem returnFrame_aligned {s : State} (hs : s.Settled) (dest : ReturnTo) :
    (s.returnFrame dest).extractLsb' 0 2 = 0#2 := by
  unfold State.returnFrame
  split
  · exact hs.spProcess
  · exact hs.spMain

theorem unstacked_keeps {s : State} {dest : ReturnTo} {r : Exc} {ra psr frame : Word}
    (r0 r1 r2 r3 r12 lr : Word) (hframe : s.Settled → frame.extractLsb' 0 2 = 0#2)
    (hmay : s.mayReturn dest r = true) (hret : s.frameReturnable dest ra psr = true) :
    Keeps s (s.unstacked dest r frame r0 r1 r2 r3 r12 lr ra psr) := by
  simp only [State.frameReturnable, Bool.and_eq_true, Bool.not_eq_true'] at hret
  obtain ⟨hra, hnum⟩ := hret
  obtain ⟨hzero, hexists⟩ := numberReturnable_cases hnum
  have hactive : s.active.get r = true := by
    simp only [State.mayReturn, Bool.and_eq_true] at hmay
    exact hmay.1
  unfold State.unstacked
  extract_lets s1 s2
  have hs2 : Keeps s s2 := by
    refine Keeps.trans (t := s1.resample) ⟨rfl, id, fun h => sound_resample ?_⟩
      (keeps_synchronise _)
    refine { h.toSettled with
      spMain := ?_
      spProcess := ?_
      pc := hra
      spsel := fun hsel => ?_
      thread := hzero.trans (clear_active_eq_none_iff hmay).symm
      number := hexists
      existing := fun e he => ⟨(h.existing e he).1, ?_⟩ }
    · dsimp only [s1]
      split
      · exact h.spMain
      · exact poppedSp_aligned psr (hframe h.toSettled)
    · dsimp only [s1]
      split
      · exact poppedSp_aligned psr (hframe h.toSettled)
      · exact h.spProcess
    · refine hzero.mpr fun hd => ?_
      subst hd
      have hclear := spsel_of_active h.toSettled hactive
      rw [show s.spsel = true from hsel] at hclear
      cases hclear
    · change (s.active.set r false).get e = false
      rw [ExcBits.get_set]
      split
      · rfl
      · exact (h.existing e he).2
  split
  · exact hs2.trans (keeps_waitForInterrupt s2)
  · exact hs2

theorem popStack_keeps {dest : ReturnTo} {r : Exc} {s : State} (hmay : s.mayReturn dest r = true) :
    NextIn (Keeps s) (popStack dest r s) := by
  unfold popStack
  split
  · trivial
  · split
    · next hread =>
      have hr := readWords_readFrom hread
      split
      · next hret =>
        refine hr.keeps.trans (unstacked_keeps _ _ _ _ _ _ (fun h => ?_) ?_ ?_)
        · rw [hr] at h
          exact returnFrame_aligned (s := s) { h with } dest
        · rw [hr]
          exact hmay
        · rw [hr]
          exact hret
      · trivial
    · trivial
    · trivial

theorem exceptionReturn_keeps (v : Word) (s : State) : NextIn (Keeps s) (exceptionReturn v s) := by
  refine nextIn_iff.mpr fun t ht => ?_
  obtain ⟨dest, r, _, _, hmay, hpop⟩ := exceptionReturn_next ht
  exact nextIn_iff.mp (popStack_keeps hmay) t hpop

theorem bxWritePc_keeps (a : Word) (s : State) : NextIn (Keeps s) (bxWritePc a s) := by
  unfold bxWritePc
  split
  · exact exceptionReturn_keeps a s
  · exact keeps_exchangeTo s a

end Sys2Proof.Machine
end

section
/-! PROOFS. Every instruction, and every step, keeps the invariant. -/

namespace Sys2Proof.Machine

open Sys2Proof

/-! ## The multiple transfers (R310 to R312) -/

theorem keeps_stmDrawn (s : State) (rn : LowReg) (list : BitVec 8) :
    Keeps s (s.stmDrawn rn list) := by
  unfold State.stmDrawn
  split
  · exact .frame
  · exact .refl s

theorem keeps_ldmLoaded (s : State) (rn : LowReg) (list : BitVec 8) (base : Word)
    (vs : List Word) : Keeps s (s.ldmLoaded rn list base vs) := by
  unfold State.ldmLoaded
  split
  · exact keeps_setLows s _
  · exact (keeps_setLows s _).trans (keeps_setLow _ _ _)

theorem stmAmid_keeps (gaps : Gaps) (rn : LowReg) (list : BitVec 8) (s : State) :
    NextIn (Keeps s) (stmAmid gaps rn list s) := by
  unfold stmAmid
  split
  · trivial
  · split
    · exact raiseHardFault_keeps _ s
    · split
      · trivial
      · refine Eff.Ends.finishAt (Eff.Ends.andThen ?_ fun _ t ht => ?_) rfl
        · exact (keeps_stmDrawn s rn list).ends (storeWords_keeps ..)
        · exact Keeps.trans ht (keeps_setLow t _ _)

theorem ldmAmid_keeps (gaps : Gaps) (rn : LowReg) (list : BitVec 8) (s : State) :
    NextIn (Keeps s) (ldmAmid gaps rn list s) := by
  have hr := readWords_keeps s.privileged (gapsWithin gaps (listRegs list).length)
    (listRegs list).length (s.low rn) s
  unfold ldmAmid
  split
  · trivial
  · split
    · exact raiseHardFault_keeps _ s
    · split
      · trivial
      · split
        · next heq =>
          rw [heq] at hr
          exact advance_keeps (Keeps.trans hr (keeps_ldmLoaded ..)) rfl
        · next heq =>
          rw [heq] at hr
          exact Keeps.nextIn (Keeps.trans hr (keeps_setSomeLows ..)) (raiseHardFault_keeps ..)
        · trivial

theorem pushAmid_keeps (gaps : Gaps) (m : Bool) (list : BitVec 8) (s : State) :
    NextIn (Keeps s) (pushAmid gaps m list s) := by
  unfold pushAmid
  split
  · trivial
  · split
    · trivial
    · exact Eff.Ends.finishAt ((storeWords_keeps ..).andThen fun _ t ht =>
        Keeps.trans ht (keeps_setSp t _)) rfl

theorem popAmid_keeps (gaps : Gaps) (p : Bool) (list : BitVec 8) (s : State) :
    NextIn (Keeps s) (popAmid gaps p list s) := by
  have hr := readWords_keeps s.privileged (gapsWithin gaps (stackCount p list))
    (stackCount p list) s.sp s
  unfold popAmid
  split
  · trivial
  · split
    · trivial
    · split
      · next s1 heq =>
        rw [heq] at hr
        have hk (l : List (LowReg × Word)) (v : Word) : Keeps s ((s1.setLows l).setSp v) :=
          Keeps.trans hr ((keeps_setLows s1 l).trans (keeps_setSp _ v))
        split
        · exact Keeps.nextIn (hk ..) (bxWritePc_keeps ..)
        · exact advance_keeps (hk ..) rfl
      · next heq =>
        rw [heq] at hr
        exact Keeps.nextIn (Keeps.trans hr (keeps_setSomeLows ..)) (raiseHardFault_keeps ..)
      · trivial

theorem abandonLoad_keeps (base : Option LowReg) (list : BitVec 8) (gaps : Gaps) (a : Word)
    (s : State) : (abandonLoad base list gaps a s).Ends (Keeps s) := by
  have hr := readWords_keeps s.privileged gaps gaps.length a s
  unfold abandonLoad
  split
  · next heq =>
    rw [heq] at hr
    exact Keeps.trans hr (keeps_setSomeLows ..)
  · next heq =>
    rw [heq] at hr
    exact Keeps.trans hr (keeps_setSomeLows ..)
  · trivial

theorem abandoned_keeps {i : Instr} {gaps : Gaps} {s : State} {e : Eff Unit}
    (h : abandoned i gaps s = some e) : e.Ends (Keeps s) := by
  unfold abandoned at h
  split at h
  · cases h
    exact Keeps.refl s
  · split at h
    · cases h
    · cases h
      exact (keeps_stmDrawn ..).ends (storeWords_keeps ..)
  · split at h
    · cases h
    · cases h
      exact storeWords_keeps ..
  · split at h
    · cases h
    · cases h
      exact abandonLoad_keeps ..
  · split at h
    · cases h
    · cases h
      exact abandonLoad_keeps ..
  · cases h

/-! ## The instructions -/

theorem keeps_putSum (s : State) (rd : LowReg) (r : AddResult) : Keeps s (s.putSum rd r) :=
  (keeps_setLow s _ _).trans (keeps_setFlags _ _)

theorem keeps_putShift (s : State) (rd : LowReg) (r : ShiftResult) : Keeps s (s.putShift rd r) :=
  (keeps_setLow s _ _).trans (keeps_setFlags _ _)

theorem keeps_putLogic (s : State) (rd : LowReg) (v : Word) : Keeps s (s.putLogic rd v) :=
  (keeps_setLow s _ _).trans (keeps_setFlags _ _)

theorem storeReg_keeps (w : Width) (a v : Word) (s : State) : NextIn (Keeps s) (storeReg w a v s) :=
  (memWrite_keeps ..).finishAt rfl

theorem loadReg_keeps (w : Width) (ext : Word → Word) (rt : LowReg) (a : Word) (s : State) :
    NextIn (Keeps s) (loadReg w ext rt a s) :=
  Eff.Ends.finishAt ((memRead_keeps ..).andThen fun _ t ht => Keeps.trans ht (keeps_setLow t _ _)) rfl

theorem putHigh_keeps (rd : RegNum) (v : Word) (s : State) : NextIn (Keeps s) (s.putHigh rd v) := by
  unfold State.putHigh
  split
  · exact keeps_branchTo s v
  · exact advance_keeps (keeps_setReg s rd v) rfl

theorem execBCond_keeps (c : Cond) (imm8 : BitVec 8) (s : State) :
    NextIn (Keeps s) (execBCond c imm8 s) := by
  unfold execBCond
  split
  · exact keeps_branchTo s _
  · exact advance_keeps (.refl s) rfl

/-- BL and BLX write LR before they branch (R244, R324). -/
theorem keeps_setLr (s : State) (v : Word) : Keeps s { s with lr := v } := .frame

theorem execSvc_keeps (imm8 : BitVec 8) (s : State) : NextIn (Keeps s) (execSvc imm8 s) := by
  unfold execSvc
  split
  · exact exceptionEntry_keeps _ rfl
  · exact raiseHardFault_keeps _ s

theorem execAddHi_keeps (rdn rm : RegNum) (s : State) : NextIn (Keeps s) (execAddHi rdn rm s) := by
  unfold execAddHi
  split
  · trivial
  · exact putHigh_keeps ..

theorem execCmpHi_keeps (rn rm : RegNum) (s : State) : NextIn (Keeps s) (execCmpHi rn rm s) := by
  unfold execCmpHi
  split
  · trivial
  · split
    · trivial
    · exact advance_keeps (keeps_setFlags s _) rfl

theorem execBx_keeps (rm : RegNum) (sbz : BitVec 3) (s : State) :
    NextIn (Keeps s) (execBx rm sbz s) := by
  unfold execBx
  split
  · trivial
  · exact bxWritePc_keeps ..

theorem execBlx_keeps (rm : RegNum) (sbz : BitVec 3) (s : State) :
    NextIn (Keeps s) (execBlx rm sbz s) := by
  unfold execBlx
  split
  · trivial
  · exact (keeps_setLr s _).trans (keeps_exchangeTo _ _)

theorem execCps_keeps (im : Bool) (sb : BitVec 4) (s : State) :
    NextIn (Keeps s) (execCps im sb s) := by
  unfold execCps
  split
  · trivial
  · refine advance_keeps ?_ rfl
    split
    · exact .frame
    · exact .refl s

theorem execWfe_keeps (s : State) : NextIn (Keeps s) (execWfe s) := by
  unfold execWfe
  split
  · exact advance_keeps (.frame (t := { s with event := false })) rfl
  · exact advance_keeps (.frame (t := { s with sleep := .waitEvent })) rfl

theorem execMsr_keeps (sbz4 : BitVec 1) (rn : RegNum) (sbz13 : BitVec 1) (sb1000 : BitVec 4)
    (sysm : BitVec 8) (s : State) : NextIn (Keeps s) (execMsr sbz4 rn sbz13 sb1000 sysm s) := by
  unfold execMsr
  split
  · trivial
  · split
    · trivial
    · split
      · exact advance_keeps (keeps_writeSpecial ..) rfl
      · trivial

theorem execMrs_keeps (sbz4 : BitVec 1) (sbo : BitVec 4) (sbz13 : BitVec 1) (rd : RegNum)
    (sysm : BitVec 8) (s : State) : NextIn (Keeps s) (execMrs sbz4 sbo sbz13 rd sysm s) := by
  unfold execMrs
  split
  · trivial
  · split
    · trivial
    · split
      · exact advance_keeps (keeps_setReg ..) rfl
      · trivial

/-- A barrier with its should-be bits right advances past a state that keeps the invariant. -/
theorem barrier_keeps {s t : State} (wrong : Bool) (h : Keeps s t) :
    NextIn (Keeps s) (if wrong then .refused .unpredictableEncoding else advance 4 t) := by
  split
  · trivial
  · exact advance_keeps h rfl

/-- Every instruction keeps the invariant. -/
theorem exec_keeps (i : Instr) (s : State) : NextIn (Keeps s) (exec i s) := by
  cases i with
  | lslsImm | lsrsImm | asrsImm | lslsReg | lsrsReg | asrsReg | rors =>
    exact advance_keeps (keeps_putShift s _ _) rfl
  | addsReg | subsReg | addsImm3 | subsImm3 | addsImm8 | subsImm8 | adcs | sbcs | rsbs =>
    exact advance_keeps (keeps_putSum s _ _) rfl
  | movsImm | movsReg | ands | eors | orrs | muls | bics | mvns =>
    exact advance_keeps (keeps_putLogic s _ _) rfl
  | cmpImm | cmpReg | cmn | tst => exact advance_keeps (keeps_setFlags s _) rfl
  | adr | addSpImm | sxth | sxtb | uxth | uxtb | rev | rev16 | revsh =>
    exact advance_keeps (keeps_setLow s _ _) rfl
  | addSp | subSp => exact advance_keeps (keeps_setSp s _) rfl
  | addHi rdn rm => exact execAddHi_keeps rdn rm s
  | cmpHi rn rm => exact execCmpHi_keeps rn rm s
  | movHi rd rm => exact putHigh_keeps rd _ s
  | bx rm sbz => exact execBx_keeps rm sbz s
  | blx rm sbz => exact execBlx_keeps rm sbz s
  | ldrLit | ldrsbReg | ldrReg | ldrhReg | ldrbReg | ldrshReg | ldrImm | ldrbImm | ldrhImm | ldrSp =>
    exact loadReg_keeps _ _ _ _ s
  | strReg | strhReg | strbReg | strImm | strbImm | strhImm | strSp => exact storeReg_keeps _ _ _ s
  | push m list => exact pushAmid_keeps [] m list s
  | pop p list => exact popAmid_keeps [] p list s
  | stm rn list => exact stmAmid_keeps [] rn list s
  | ldm rn list => exact ldmAmid_keeps [] rn list s
  | cps im sb => exact execCps_keeps im sb s
  | bkpt => exact raiseHardFault_keeps .breakpoint s
  | udf | udfW => exact raiseHardFault_keeps .undefinedInstruction s
  | nop | yield | hintNop => exact advance_keeps (.refl s) rfl
  | wfe => exact execWfe_keeps s
  | wfi => exact advance_keeps (keeps_waitForInterrupt s) rfl
  | sev => exact advance_keeps (.frame (t := { s with event := true })) rfl
  | bCond c imm8 => exact execBCond_keeps c imm8 s
  | b imm11 => exact keeps_branchTo s _
  | svc imm8 => exact execSvc_keeps imm8 s
  | bl => exact (keeps_setLr s _).trans (keeps_branchTo _ _)
  | msr => exact execMsr_keeps _ _ _ _ _ s
  | mrs => exact execMrs_keeps _ _ _ _ _ s
  | dsb | dmb => exact barrier_keeps _ (.refl s)
  | isb => exact barrier_keeps _ (keeps_synchronise s)

theorem execAmid_keeps (gaps : Gaps) (i : Instr) (s : State) :
    NextIn (Keeps s) (execAmid gaps i s) := by
  unfold execAmid
  split
  · exact stmAmid_keeps ..
  · exact ldmAmid_keeps ..
  · exact pushAmid_keeps ..
  · exact popAmid_keeps ..
  · exact exec_keeps ..

/-! ## Fetch (R102) -/

theorem fetchHalf_keeps (a : Word) (s : State) : (fetchHalf a s).Ends (Keeps s) := by
  unfold fetchHalf
  split
  · exact Keeps.refl s
  · split
    · exact Keeps.refl s
    · exact keeps_deviceRead s _ _ _
    · split
      · exact .frame (t := { s with free := _ })
      · exact Keeps.refl s

theorem keeps_atSecondHalf (s : State) (hw1 : Half) : Keeps s (s.atSecondHalf hw1) := by
  unfold State.atSecondHalf
  split
  · exact keeps_pcPast s (n := 2) rfl
  · exact .refl s

theorem fetchInstr_keeps (s : State) : (fetchInstr s).Ends (Keeps s) := by
  unfold fetchInstr
  split
  · exact Keeps.refl s
  · refine (fetchHalf_keeps s.pc s).andThen fun hw1 t ht => ht.ends ?_
    have h2 := fetchHalf_keeps (t.pc + 2#32) t
    split
    · split
      · next heq =>
        rw [heq] at h2
        exact h2
      · next heq =>
        rw [heq] at h2
        exact Keeps.trans h2 (keeps_atSecondHalf ..)
      · trivial
    · exact Keeps.refl t

theorem runInstruction_keeps (s : State) : NextIn (Keeps s) (runInstruction s) := by
  have hf := fetchInstr_keeps s
  unfold runInstruction
  cases heq : fetchInstr s with
  | hardFault c t => rw [heq] at hf; exact Keeps.nextIn hf (raiseHardFault_keeps c t)
  | refuse r => trivial
  | ok d t =>
    rw [heq] at hf
    cases d with
    | instr i | unpredictable i => exact Keeps.nextIn hf (exec_keeps i t)
    | undefined16 | undefined32 | truncated => exact Keeps.nextIn hf (raiseHardFault_keeps _ t)

/-! ## The core's step (R46, R312, R428, R480) -/

theorem boundaryStep_keeps (s : State) : NextIn (Keeps s) (boundaryStep s) := by
  unfold boundaryStep
  split
  · next e he => exact exceptionEntry_keeps _ (hasExc_of_best he)
  · exact runInstruction_keeps s

theorem amidStep_keeps (gaps : Gaps) (s : State) : NextIn (Keeps s) (amidStep gaps s) := by
  have hf := fetchInstr_keeps s
  unfold amidStep
  split
  · next heq =>
    rw [heq] at hf
    exact Keeps.nextIn hf (execAmid_keeps ..)
  · exact runInstruction_keeps s

theorem abandonStep_keeps (gaps : Gaps) (s : State) : NextIn (Keeps s) (abandonStep gaps s) := by
  have hf := fetchInstr_keeps s
  unfold abandonStep
  split
  · next i s1 heq =>
    rw [heq] at hf
    split
    · exact boundaryStep_keeps s
    · next s2 ha =>
      have hs2 : Keeps s s2 := Keeps.trans hf (abandoned_keeps ha)
      split
      · next e he => exact hs2.nextIn (exceptionEntry_keeps _ (hasExc_of_best he))
      · split
        · exact hs2.nextIn (takeReset_nextIn s2)
        · exact Keeps.nextIn hf (execAmid_keeps ..)
    · next c s2 ha =>
      exact Keeps.nextIn (Keeps.trans hf (abandoned_keeps ha)) (raiseHardFault_keeps c s2)
    · trivial
  · exact boundaryStep_keeps s

theorem lockupStep_keeps (c : Choice) (s : State) : NextIn (Keeps s) (lockupStep c s) := by
  unfold lockupStep
  split
  · split
    · exact Keeps.refl s
    · exact exceptionEntry_keeps _ rfl
  · split
    · exact Keeps.refl s
    · trivial

theorem sleepStep_keeps (c : Choice) (s : State) : NextIn (Keeps s) (sleepStep c s) := by
  unfold sleepStep
  split
  · next e he => exact exceptionEntry_keeps _ (hasExc_of_best he)
  · split
    · exact .frame (t := { s with sleep := .awake })
    · exact Keeps.refl s

theorem coreStep_keeps (c : Choice) (s : State) : NextIn (Keeps s) (coreStep c s) := by
  unfold coreStep
  split
  · exact lockupStep_keeps c s
  · split
    · exact sleepStep_keeps c s
    · split
      · exact boundaryStep_keeps s
      · cases c with
        | run => exact boundaryStep_keeps s
        | delay => exact runInstruction_keeps s
        | amid gaps => exact amidStep_keeps gaps s
        | abandon gaps => exact abandonStep_keeps gaps s

/-! ## The step of the machine (R400, R500) -/

/-- The reset in the middle of a step is over when the step is. -/
theorem resetMidway_keeps (c : Choice) (frame : BitVec 8) (s : State) :
    NextIn (Keeps s) (resetMidway c frame s) := by
  have hc := coreStep_keeps c { s with resetIn := some frame }
  unfold resetMidway
  split
  · next t heq =>
    rw [heq] at hc
    obtain ⟨hcfg, _, hsound⟩ := hc
    have hs : s.Sound → t.Sound := fun h => hsound { h with }
    split
    · exact (takeReset_keeps t).mono fun u hu =>
        ⟨hu.1.cfg.trans hcfg, fun _ => hu.2, hu.1.sound ∘ hs⟩
    · next hin => exact ⟨hcfg, fun _ => by simpa using hin, hs⟩
  · exact takeReset_nextIn s
  · trivial

theorem actOn_keeps (i : Input) (s : State) : NextIn (Keeps s) (actOn i s) := by
  cases i with
  | core c => exact coreStep_keeps c s
  | outside e => exact keeps_afterEvent s e
  | reset => exact takeReset_nextIn s
  | resetDuring c frame => exact resetMidway_keeps c frame s

theorem step_keeps (s : State) : NextIn (Keeps s) (step s) := by
  unfold step machineStep
  split
  · split
    · exact takeReset_nextIn s
    · exact coreStep_keeps .run s
  · next i rest _ => exact (Keeps.frame (t := { s with inputs := rest })).nextIn (actOn_keeps ..)

/-- Settles O58: every operation a step is made of establishes `Keeps`, which composes. -/
theorem stepKeepsInvariant : Obligations.StepKeepsInvariant := by
  intro s t hstep
  have hk : Keeps s t := nextIn_iff.mp (step_keeps s) t hstep
  refine ⟨hk.cfg, fun hinv => ?_⟩
  obtain ⟨hsound, hresetIn⟩ := inv_iff_sound.mp hinv
  exact inv_iff_sound.mpr ⟨hk.sound hsound, hk.resetIn hresetIn⟩

end Sys2Proof.Machine
end

section
/-! SUPPORT. A core step that the next input asks for, and the fetch of what stands at the pc
(`10_state.md` R46, `20_memory.md` R102, `60_exceptions.md` R407). -/

namespace Sys2Proof.Machine

open Sys2Proof

/-! ## The next input (R400) -/

/-- How the core makes the core step that comes next: as the input says, `run` where none is left. -/
def State.nextChoice (s : State) : Choice :=
  match s.inputs with
  | .core c :: _ => c
  | _ => .run

theorem afterInput_of_nil {s : State} (h : s.inputs = []) : s.afterInput = s := by
  rw [State.afterInput, h, List.tail_nil, ← h]

theorem step_of_cons {s : State} {i : Input} {rest : List Input} (h : s.inputs = i :: rest) :
    step s = actOn i s.afterInput := by
  rw [step, machineStep, h, State.afterInput, h, List.tail_cons]

/-- With no input left a step is the reset that software has requested, else a core step (D18). -/
theorem step_of_nil {s : State} (h : s.inputs = []) :
    step s = if s.resetRequest then takeReset s.afterInput else coreStep .run s.afterInput := by
  rw [afterInput_of_nil h, step, machineStep, h]

theorem step_coreTurn {s : State} (h : s.coreTurn) :
    step s = coreStep s.nextChoice s.afterInput := by
  obtain ⟨_, hcore, hreset⟩ := h
  cases hin : s.inputs with
  | nil => rw [step_of_nil hin, hreset hin, State.nextChoice, hin]; rfl
  | cons i rest =>
    rw [hin] at hcore
    cases i with
    | core c => rw [step_of_cons hin, State.nextChoice, hin]; rfl
    | outside | reset | resetDuring => cases hcore

/-- While an exception must be taken every core step is one at an instruction boundary (R407). -/
theorem step_mustTake {s : State} (h : s.coreNext) (hmust : s.mustTake = true)
    (hbest : s.best.isSome = true) : step s = boundaryStep s.afterInput := by
  obtain ⟨hturn, hawake⟩ := h
  have hlockup : s.lockup = false := hturn.1
  have hbest : s.afterInput.best.isSome = true := hbest
  rw [step_coreTurn hturn]
  simp [coreStep, hlockup, hawake, hmust, hbest]

/-- A core step that defers nothing is one at an instruction boundary (R46). -/
theorem coreStep_run {s : State} (hlockup : s.lockup = false) (hawake : s.sleep = .awake) :
    coreStep .run s = boundaryStep s := by
  simp [coreStep, hlockup, hawake]

theorem step_run {s : State} (h : s.coreNext) (hchoice : s.nextChoice = .run) :
    step s = boundaryStep s.afterInput := by
  obtain ⟨hturn, hawake⟩ := h
  rw [step_coreTurn hturn, hchoice]
  exact coreStep_run (s := s.afterInput) hturn.1 hawake

theorem step_delay {s : State} (h : s.coreNext) (hchoice : s.nextChoice = .delay)
    (hmust : s.mustTake = true → s.best = none) : step s = runInstruction s.afterInput := by
  obtain ⟨hturn, hawake⟩ := h
  have hlockup : s.lockup = false := hturn.1
  have hfree : (s.mustTake && s.afterInput.best.isSome) = false := by
    cases hm : s.mustTake with
    | false => rfl
    | true => rw [show s.afterInput.best = none from hmust hm]; rfl
  rw [step_coreTurn hturn, hchoice]
  simp [coreStep, hlockup, hawake, hfree]

theorem nextChoice_of_runsNext {s : State} (h : runsNext s.inputs = true) :
    s.nextChoice = .run := by
  unfold State.nextChoice
  unfold runsNext at h
  split at h
  · next hin => rw [hin]
  · next hin => rw [hin]
  · cases h

theorem nextChoice_of_head {s : State} {c : Choice} (h : s.inputs.head? = some (.core c)) :
    s.nextChoice = c := by
  obtain ⟨rest, hin⟩ := List.head?_eq_some_iff.mp h
  rw [State.nextChoice, hin]

/-- A step that is ready to run the instruction at the pc runs it. -/
theorem step_readyToRun {s : State} (h : s.readyToRun) : step s = runInstruction s.afterInput := by
  obtain ⟨hnext, ⟨hbest, hrun⟩ | ⟨hdelay, hmust⟩⟩ := h
  · rw [step_run hnext (nextChoice_of_runsNext hrun), boundaryStep,
      show s.afterInput.best = none from hbest]
  · exact step_delay hnext (nextChoice_of_head hdelay) hmust

/-! ## Fetch (R102) -/

theorem fetchHalf_fetchable {s : State} {a : Word} (h : s.fetchable a) :
    fetchHalf a s = .ok (s.newHalf a.toNat) s := by
  obtain ⟨hxn, htarget | htarget, hclean⟩ := h <;> simp [fetchHalf, hxn, htarget, hclean]

/-- A fetch from an Execute-Never region (R112) or with nothing mapped (R114) faults. -/
theorem fetchHalf_faults {s : State} {a : Word} (h : executeNever a = true ∨
      s.cfg.target .fetch s.privileged .half a.toNat = none) :
    ∃ c, fetchHalf a s = .hardFault c s := by
  unfold fetchHalf
  cases hxn : executeNever a with
  | true => exact ⟨_, rfl⟩
  | false => exact ⟨_, by rw [h.resolve_left (by simp [hxn])]; rfl⟩

theorem decode_narrow {hw1 : Half} (h : isWide hw1 = false) (hw2 : Half) :
    decode hw1 hw2 = decode hw1 0#16 := by
  simp only [decode, decodeRow, h, Bool.false_eq_true, if_false]

theorem fetchInstr_fetches {s : State} {hw1 hw2 : Half} (h : s.fetches hw1 hw2) :
    fetchInstr s = .ok (decode hw1 hw2) s := by
  obtain ⟨ht, hfetch, hhw1, hsecond⟩ := h
  simp only [fetchInstr, ht, fetchHalf_fetchable hfetch, hhw1, Bool.not_true, Bool.false_eq_true,
    if_false, Eff.andThen_ok]
  cases hwide : isWide hw1 with
  | false => simp [decode_narrow hwide hw2]
  | true =>
    obtain ⟨hfetch2, hhw2⟩ := hsecond hwide
    rw [if_pos rfl, fetchHalf_fetchable hfetch2, hhw2]

theorem fetchInstr_noThumb {s : State} (h : s.t = false) :
    fetchInstr s = .hardFault .invalidState s := by
  simp [fetchInstr, h]

theorem fetchInstr_firstFaults {s : State} {c : FaultCause} (ht : s.t = true)
    (h : fetchHalf s.pc s = .hardFault c s) : fetchInstr s = .hardFault c s := by
  simp [fetchInstr, ht, h]

theorem fetchInstr_secondFaults {s : State} {c : FaultCause} (ht : s.t = true)
    (hfirst : s.fetchable s.pc) (hwide : isWide (s.newHalf s.pc.toNat) = true)
    (h : fetchHalf (s.pc + 2#32) s = .hardFault c s) :
    fetchInstr s = .hardFault c (s.atSecondHalf (s.newHalf s.pc.toNat)) := by
  simp [fetchInstr, ht, fetchHalf_fetchable hfirst, hwide, h]

/-! ## The instruction at the pc (R46, R175, R176) -/

theorem runInstruction_decoded {s t : State} {d : Decoded} {i : Instr} (h : fetchInstr s = .ok d t)
    (hd : d = .instr i ∨ d = .unpredictable i) : runInstruction s = exec i t := by
  obtain rfl | rfl := hd <;> rw [runInstruction, h]

/-- HardFault is raised as UDF raises it (R322, R420). -/
theorem runInstruction_hardFault {s t : State} {c : FaultCause}
    (h : fetchInstr s = .hardFault c t) : runInstruction s = exec (.udf 0#8) t := by
  rw [runInstruction, h]; rfl

theorem runInstruction_undefined {s t : State} {d : Decoded} (h : fetchInstr s = .ok d t)
    (hd : d = .undefined16 ∨ d = .undefined32) : runInstruction s = exec (.udf 0#8) t := by
  obtain rfl | rfl := hd <;> rw [runInstruction, h] <;> rfl

end Sys2Proof.Machine
end

section
/-! PROOFS. A step runs the decoded instruction, raises HardFault where there is none, or enters an
exception (`10_state.md` R46, `60_exceptions.md` R407). -/

namespace Sys2Proof.Machine

open Sys2Proof

/-- Settles O7: the fetched halfwords decode to the instruction that then runs. -/
theorem stepRunsDecodedInstruction : Obligations.StepRunsDecodedInstruction := by
  intro s hw1 hw2 i hready hfetches hdecode
  rw [step_readyToRun hready]
  exact runInstruction_decoded (fetchInstr_fetches (s := s.afterInput) hfetches) hdecode

/-- Settles O8: the fetch faults, or what it fetches is undefined, and either raises the HardFault of
UDF. -/
theorem stepRaisesHardFault : Obligations.StepRaisesHardFault := by
  intro s hready
  rw [step_readyToRun hready]
  have first (ht : s.t = true) (h : executeNever s.pc = true ∨
      s.cfg.target .fetch s.privileged .half s.pc.toNat = none) :
      runInstruction s.afterInput = exec (.udf 0#8) s.afterInput := by
    obtain ⟨c, hc⟩ := fetchHalf_faults (s := s.afterInput) h
    exact runInstruction_hardFault (fetchInstr_firstFaults ht hc)
  have second (ht : s.t = true) (hfirst : s.fetchable s.pc)
      (hwide : isWide (s.newHalf s.pc.toNat) = true) (h : executeNever (s.pc + 2#32) = true ∨
      s.cfg.target .fetch s.privileged .half (s.pc + 2#32).toNat = none) :
      runInstruction s.afterInput =
        exec (.udf 0#8) (s.afterInput.atSecondHalf (s.newHalf s.pc.toNat)) := by
    obtain ⟨c, hc⟩ := fetchHalf_faults (s := s.afterInput) h
    exact runInstruction_hardFault (fetchInstr_secondFaults (s := s.afterInput) ht hfirst hwide hc)
  refine ⟨?noThumb, ?executeNever, ?unmapped, ?second, ?undefinedSecond, ?undefined⟩
  case noThumb => exact fun ht => runInstruction_hardFault (fetchInstr_noThumb ht)
  case executeNever => exact fun ht hxn => first ht (.inl hxn)
  case unmapped => exact fun ht _ htarget => first ht (.inr htarget)
  case second =>
    intro ht hfirst hbits hfault
    rw [second ht hfirst (by simp [isWide, hbits]) hfault, State.atSecondHalf, if_pos hbits]
  case undefinedSecond =>
    intro ht hfirst hbits hfault
    have hnot : (s.newHalf s.pc.toNat).extractLsb' 11 5 ≠ 0b11110#5 := by
      obtain h | h := hbits <;> rw [h] <;> decide
    rw [second ht hfirst (by obtain h | h := hbits <;> simp [isWide, h]) hfault,
      State.atSecondHalf, if_neg hnot]
  case undefined =>
    exact fun hw1 hw2 hfetches hdecode =>
      runInstruction_undefined (fetchInstr_fetches (s := s.afterInput) hfetches) hdecode

/-- Settles O48: the step is one at an instruction boundary, and enters what is best there. -/
theorem asynchronousEntry : Obligations.AsynchronousEntry := by
  intro s e hnext hbest hwhen
  have hstep : step s = boundaryStep s.afterInput := by
    obtain hnil | hrun | hmust := hwhen
    · exact step_run hnext (by rw [State.nextChoice, hnil])
    · exact step_run hnext (nextChoice_of_head hrun)
    · exact step_mustTake hnext hmust (by rw [hbest]; rfl)
  rw [hstep, boundaryStep, show s.afterInput.best = some e from hbest]

end Sys2Proof.Machine
end

section
/-! SUPPORT. The numbered registers (`10_state.md` R34, R35, R37), and a word with its low bits cleared
or set, as the claims write it. -/

namespace Sys2Proof.Machine

open Sys2Proof

/-! ## Low bits -/

/-- A word as its bits from `n` up and its `n` low bits. -/
theorem append_low {n k : Nat} (v : BitVec (k + n)) :
    v.extractLsb' n k ++ v.extractLsb' 0 n = v := by
  rw [BitVec.extractLsb'_append_extractLsb'_eq_extractLsb' (by omega)]
  exact BitVec.extractLsb'_eq_self

theorem alignHalf_eq_and (v : Word) : alignHalf v = v &&& 0xFFFFFFFE#32 := by
  have hv := append_low (n := 1) (k := 31) v
  calc alignHalf v
      = (v.extractLsb' 1 31 &&& BitVec.allOnes 31) ++ (v.extractLsb' 0 1 &&& 0#1) := by
        rw [BitVec.and_allOnes, BitVec.and_zero]; rfl
    _ = (v.extractLsb' 1 31 ++ v.extractLsb' 0 1) &&& (BitVec.allOnes 31 ++ 0#1) :=
      BitVec.and_append.symm
    _ = v &&& 0xFFFFFFFE#32 := by rw [hv]; rfl

theorem alignWord_eq_and (v : Word) : alignWord v = v &&& 0xFFFFFFFC#32 := by
  have hv := append_low (n := 2) (k := 30) v
  calc alignWord v
      = (v.extractLsb' 2 30 &&& BitVec.allOnes 30) ++ (v.extractLsb' 0 2 &&& 0#2) := by
        rw [BitVec.and_allOnes, BitVec.and_zero]; rfl
    _ = (v.extractLsb' 2 30 ++ v.extractLsb' 0 2) &&& (BitVec.allOnes 30 ++ 0#2) :=
      BitVec.and_append.symm
    _ = v &&& 0xFFFFFFFC#32 := by rw [hv]; rfl

theorem withBit0_eq_or (v : Word) : withBit0 v = v ||| 1#32 := by
  have hv := append_low (n := 1) (k := 31) v
  calc withBit0 v
      = (v.extractLsb' 1 31 ||| 0#31) ++ (v.extractLsb' 0 1 ||| 1#1) := by
        rw [BitVec.or_zero, show (1#1) = BitVec.allOnes 1 from rfl, BitVec.or_allOnes]; rfl
    _ = (v.extractLsb' 1 31 ++ v.extractLsb' 0 1) ||| (0#31 ++ 1#1) := BitVec.or_append.symm
    _ = v ||| 1#32 := by rw [hv]; rfl

/-- Rounding down to a multiple of 4 drops two bits. -/
theorem align4_eq_and (v : Word) : align4 v = v &&& 0xFFFFFFFC#32 := by
  rw [← alignWord_eq_and]
  apply BitVec.eq_of_toNat_eq
  have := v.isLt
  rw [align4, alignWord, BitVec.toNat_append, ← Nat.shiftLeft_add_eq_or_of_lt (by decide)]
  simp [Nat.shiftLeft_eq, Nat.shiftRight_eq_div_pow]
  omega

/-! ## Reads and writes by number -/

theorem reg_of_lt (s : State) {i : RegNum} (h : i.val < 13) : s.reg i = s.r[i.val] := dif_pos h

theorem setReg_of_lt (s : State) {i : RegNum} (h : i.val < 13) (v : Word) :
    s.setReg i v = { s with r := s.r.set i.val v } := dif_pos h

@[simp] theorem reg_sp (s : State) : s.reg 13 = s.sp := rfl

@[simp] theorem reg_lr (s : State) : s.reg 14 = s.lr := rfl

@[simp] theorem reg_pc (s : State) : s.reg 15 = s.pc + 4#32 := rfl

@[simp] theorem setReg_sp (s : State) (v : Word) : s.setReg 13 v = s.setSp v := rfl

@[simp] theorem setReg_lr (s : State) (v : Word) : s.setReg 14 v = { s with lr := v } := rfl

theorem useProcess_iff {s : State} : s.useProcess = true ↔ s.spsel = true ∧ s.ipsr = 0#6 := by
  simp [State.useProcess, State.handlerMode]

/-- The process stack is the stack in use (R37). -/
theorem sp_process {s : State} (h : s.useProcess = true) : s.sp = s.spProcess := if_pos h

theorem sp_main {s : State} (h : ¬s.useProcess = true) : s.sp = s.spMain := if_neg h

theorem setSp_process {s : State} (h : s.useProcess = true) (v : Word) :
    s.setSp v = { s with spProcess := alignWord v } := by
  simp [State.setSp, h]

theorem setSp_main {s : State} (h : ¬s.useProcess = true) (v : Word) :
    s.setSp v = { s with spMain := alignWord v } := by
  simp [State.setSp, h]

/-! ## Branches by a register's value (R43 to R45) -/

/-- The branch that loads T from the target. -/
theorem exchangeTo_eq (s : State) (a : Word) :
    s.exchangeTo a = { s with pc := a &&& 0xFFFFFFFE#32, t := a.getLsbD 0 } := by
  rw [State.exchangeTo, alignHalf_eq_and]

/-- Outside Handler mode, or with top bits that are not all ones, BXWritePC is a branch. -/
theorem bxWritePc_branch {s : State} {a : Word} (h : s.ipsr = 0#6 ∨ a.extractLsb' 28 4 ≠ 0xF#4) :
    bxWritePc a s = .next (s.exchangeTo a) := by
  refine if_neg ?_
  simpa [State.handlerMode, Decidable.imp_iff_not_or] using h

/-- In Handler mode a value with top bits all ones is an exception return. -/
theorem bxWritePc_return {s : State} {a : Word} (hmode : s.ipsr ≠ 0#6)
    (htop : a.extractLsb' 28 4 = 0xF#4) : bxWritePc a s = exceptionReturn a s := by
  simp [bxWritePc, State.handlerMode, hmode, htop]

end Sys2Proof.Machine
end

section
/-! PROOFS. Register access, the logic instructions, BX and BLX, and the reset state (`10_state.md`,
`41_data_processing.md`, `42_special_data_branch_exchange.md`). -/

namespace Sys2Proof.Machine

open Sys2Proof

/-- Settles O10: each register number is one branch of `State.reg` and of `State.setReg`. -/
theorem registerAccess : Obligations.RegisterAccess := by
  intro s v
  refine ⟨fun i hi => ⟨reg_of_lt s hi, setReg_of_lt s hi v⟩, fun hproc => ?_, fun hmain => ?_,
    reg_lr s, setReg_lr s v, reg_pc s, fun rm => ⟨rfl, fun hrm => ?_⟩⟩
  · rw [← useProcess_iff] at hproc
    exact ⟨(reg_sp s).trans (sp_process hproc), (setReg_sp s v).trans (setSp_process hproc v)⟩
  · rw [← useProcess_iff] at hmain
    exact ⟨(reg_sp s).trans (sp_main hmain), (setReg_sp s v).trans (setSp_main hmain v)⟩
  · have hnot : ¬((15 : RegNum) = 15 ∧ rm = 15) := fun h => hrm h.2
    change execAddHi 15 rm s = _
    rw [execAddHi, if_neg hnot]
    rfl

theorem advance_putLogic {s : State} (h : s.roomFor 2) (rd : LowReg) (v : Word) :
    advance 2 (s.putLogic rd v) = .next { s with
      r := s.r.set rd.val v
      flags := resultFlags s.flags v
      pc := s.pc + 2#32 } :=
  advance_room (s := s.putLogic rd v) h

/-- Settles O15: each is an advance past the write of a result and its N and Z; MULS narrows the
exact product. -/
theorem logicInstructions : Obligations.LogicInstructions := by
  intro s rm rd imm8 h
  have put := advance_putLogic h rd
  have hmul : BitVec.ofNat 32 ((s.low rm).toNat * (s.low rd).toNat) = s.low rm * s.low rd := by
    rw [BitVec.ofNat_mul, BitVec.ofNat_toNat, BitVec.ofNat_toNat]; simp
  refine ⟨?_, advance_room (s := s.putTest _) h⟩
  simp only [List.forall_mem_cons, List.not_mem_nil, false_imp_iff, implies_true, and_true]
  refine ⟨put _, put _, put _, put _, put _, put _, put _, ?_⟩
  change execMuls rm rd s = _
  rw [execMuls, hmul]
  exact put _

/-- Settles O20: BX is a branch that loads T where it is no exception return, BLX always. -/
theorem branchExchange : Obligations.BranchExchange := by
  intro s rm hrm
  have hformed : ¬(rm = 15 ∨ (0#3 : BitVec 3) ≠ 0#3) := by simp [hrm]
  constructor
  · intro hbranch
    change execBx rm 0#3 s = _
    rw [execBx, if_neg hformed, bxWritePc_branch hbranch, exchangeTo_eq]
  · change execBlx rm 0#3 s = _
    rw [execBlx, if_neg hformed, exchangeTo_eq, withBit0_eq_or]

/-- Settles O57: the fields of `State.reset`, and the two registers that read as constants. -/
theorem resetValues : Obligations.ResetValues :=
  ⟨rfl, rfl, rfl, rfl, rfl, rfl, rfl, rfl, rfl, rfl, rfl, rfl, rfl, rfl, rfl⟩

/-- Settles O59: no memory is listed, every word is 0, and no exception is pending or active. -/
theorem resetInvariant : Obligations.ResetInvariant :=
  inv_iff_sound.mpr
    ⟨{ mem := wf_reset
       spMain := rfl
       spProcess := rfl
       pc := rfl
       spsel := nofun
       thread := ⟨fun _ => rfl, fun _ => rfl⟩
       number := .inl rfl
       existing := fun e _ => ⟨ExcBits.get_none e, ExcBits.get_none e⟩
       lines := fun e hline => by cases e <;> simp [State.lineHigh, State.reset] at hline }, rfl⟩

end Sys2Proof.Machine
end

section
/-! SUPPORT. Reset (`70_reset_and_hazards.md` R500, R501), and the frame words that a reset in the
middle of an exception entry finds stored (R99). -/

namespace Sys2Proof.Machine

open Sys2Proof

/-! ## Rising addresses -/

theorem toNat_next_word {a : Word} {n : Nat} (h : a.toNat + 4 * (n + 1) ≤ 2 ^ 32) (hn : n ≠ 0) :
    (a + 4#32).toNat = a.toNat + 4 := by
  obtain ⟨k, rfl⟩ := Nat.exists_eq_succ_of_ne_zero hn
  exact toNat_add_four h

/-- What holds of every word but the first holds of the words from the next address. -/
theorem forall_next_words {P : Word → Prop} {a : Word} {n : Nat}
    (h : ∀ k < n + 1, P (wordAt a k)) : P a ∧ ∀ k < n, P (wordAt (a + 4#32) k) :=
  ⟨wordAt_zero a ▸ h 0 (by omega), fun k hk => wordAt_succ a k ▸ h (k + 1) (by omega)⟩

theorem writableWords_next {s : State} {priv : Bool} {a : Word} {n : Nat}
    (h : s.writableWords priv a (n + 1)) :
    s.writable priv .word a ∧ s.writableWords priv (a + 4#32) n := by
  obtain ⟨hlen, hwords⟩ := h
  obtain ⟨hfirst, hrest⟩ := forall_next_words hwords
  refine ⟨hfirst, ?_, hrest⟩
  by_cases hn : n = 0
  · have := (a + 4#32).isLt
    omega
  · rw [toNat_next_word hlen hn]
    omega

/-! ## Words of which some are stored -/

/-- Memory `m'` is `m` with the marked ones of the words at rising addresses from `a` stored. -/
def markedStored (big : Bool) (m m' : Memory) (a : Word) (vs : List (Bool × Word)) : Prop :=
  ∀ x, m'.read x =
    if (a.toNat ≤ x ∧ x < a.toNat + 4 * vs.length) ∧
        (vs.getD ((x - a.toNat) / 4) (false, 0#32)).1 = true then
      byteOf big .word (vs.getD ((x - a.toNat) / 4) (false, 0#32)).2 ((x - a.toNat) % 4)
    else m.read x

/-- The first word, stored or not, and then the rest. -/
theorem markedStored_cons {big : Bool} {m m1 m' : Memory} {a : Word} {marked : Bool} {v : Word}
    {vs : List (Bool × Word)} (ha : a.toNat + 4 * (vs.length + 1) ≤ 2 ^ 32)
    (hfirst : m1 = if marked then m.store big .word a.toNat v else m)
    (hrest : markedStored big m1 m' (a + 4#32) vs) :
    markedStored big m m' a ((marked, v) :: vs) := by
  intro x
  have hm1 : m1.read x = if (a.toNat ≤ x ∧ x < a.toNat + 4) ∧ marked = true then
      byteOf big .word v (x - a.toNat) else m.read x := by
    rw [hfirst]
    cases marked <;> simp [Memory.read_store_word]
  rw [hrest x, hm1, List.length_cons]
  have hnext := toNat_next_word ha
  by_cases hword : a.toNat ≤ x ∧ x < a.toNat + 4
  · have hdiv : (x - a.toNat) / 4 = 0 := by omega
    have hmod : (x - a.toNat) % 4 = x - a.toNat := by omega
    rw [if_neg (by omega), hdiv, hmod, List.getD_cons_zero]
    exact if_congr (and_congr_left' (by omega)) rfl rfl
  · by_cases hlater : a.toNat + 4 ≤ x ∧ x < a.toNat + 4 * (vs.length + 1)
    · have hdiv : (x - a.toNat) / 4 = (x - (a.toNat + 4)) / 4 + 1 := by omega
      have hmod : (x - a.toNat) % 4 = (x - (a.toNat + 4)) % 4 := by omega
      rw [hnext (by omega), hdiv, hmod, List.getD_cons_succ,
        if_neg (c := (a.toNat ≤ x ∧ _) ∧ _) (by omega)]
      exact if_congr (and_congr_left' (by omega)) rfl rfl
    · rw [if_neg (by omega), if_neg (by omega), if_neg (by omega)]

/-- Marked words stored to RAM are stored, and nothing but memory and Dirty changes. -/
theorem storeMarked_writable {priv : Bool} {vs : List (Bool × Word)} {a : Word} {s : State}
    (h : s.writableWords priv a vs.length) :
    ∃ m d, storeMarked priv vs a s = .ok () { s with mem := m, dirty := d } ∧
      markedStored s.cfg.bigEndian s.mem m a vs := by
  induction vs generalizing a s with
  | nil => exact ⟨s.mem, s.dirty, rfl, fun x => by simp⟩
  | cons p vs ih =>
    obtain ⟨marked, v⟩ := p
    obtain ⟨hfirst, hrest⟩ := writableWords_next h
    cases marked with
    | false =>
      obtain ⟨m, d, hstore, hm⟩ := ih hrest
      exact ⟨m, d, hstore, markedStored_cons h.1 rfl hm⟩
    | true =>
      obtain ⟨m, d, hstore, hm⟩ := ih (s := s.storeAt .word a.toNat v) hrest
      refine ⟨m, d, ?_, markedStored_cons h.1 rfl hm⟩
      rw [storeMarked, memWrite_writable v hfirst, Eff.andThen_ok, hstore]
      rfl

/-- The words of a frame, marked where `frame` has their bit. -/
def State.markedFrame (s : State) (frame : BitVec 8) (ret : Word) : List (Bool × Word) :=
  ((List.range 8).map frame.getLsbD).zip (s.frameWords ret)

theorem length_markedFrame (s : State) (frame : BitVec 8) (ret : Word) :
    (s.markedFrame frame ret).length = 8 := rfl

theorem getD_markedFrame (s : State) (frame : BitVec 8) (ret : Word) {k : Nat} (hk : k < 8) :
    (s.markedFrame frame ret).getD k (false, 0#32) =
      (frame.getLsbD k, (s.frameWords ret).getD k 0#32) := by
  have hwords : k < (s.frameWords ret).length := hk
  rw [List.getD_eq_getElem _ _ (by rw [length_markedFrame]; exact hk),
    List.getD_eq_getElem _ _ hwords]
  simp [State.markedFrame]

/-- What a stacking that a reset cuts off leaves: the words of `frame` stored (R99, R500). -/
theorem pushMarked_ready {s : State} (frame : BitVec 8) (ret : Word)
    (h : s.writableWords s.privileged s.framePtr 8) :
    ∃ m d, pushMarked frame ret s = .ok () { s with mem := m, dirty := d } ∧
      ∀ x, m.read x =
        if s.framePtr.toNat ≤ x ∧ x < s.framePtr.toNat + 32 ∧
            frame.getLsbD ((x - s.framePtr.toNat) / 4) = true then
          byteOf s.cfg.bigEndian .word ((s.frameWords ret).getD ((x - s.framePtr.toNat) / 4) 0#32)
            ((x - s.framePtr.toNat) % 4)
        else s.mem.read x := by
  have hnocross : crossesTop s.framePtr 8 = false := by
    have := h.1
    simp [crossesTop]
    omega
  obtain ⟨m, d, hstore, hm⟩ := storeMarked_writable (vs := s.markedFrame frame ret) h
  refine ⟨m, d, ?_, fun x => ?_⟩
  · rw [pushMarked, hnocross]
    exact hstore
  · rw [hm x, length_markedFrame]
    by_cases hin : s.framePtr.toNat ≤ x ∧ x < s.framePtr.toNat + 32
    · rw [getD_markedFrame _ _ _ (by omega)]
      exact if_congr and_assoc rfl rfl
    · rw [if_neg (by omega), if_neg (by omega)]

/-- An exception entry that a reset cuts off is the reset, from where the stacking has come to. -/
theorem exceptionEntry_cut {e : Exc} {ret : Word} {frame : BitVec 8} {s u : State}
    (hcut : s.resetIn = some frame) (hpush : pushMarked frame ret s = .ok () u) :
    exceptionEntry e ret s = takeReset u := by
  simp only [exceptionEntry, hcut, hpush]

/-! ## TakeReset (R501) -/

theorem resetVector_ready {s : State} (h : s.resetReady) :
    resetVector s = .ok () { s with
      spMain := alignWord (s.mem.value s.cfg.bigEndian .word 0)
      t := (s.mem.value s.cfg.bigEndian .word 4).getLsbD 0
      pc := alignHalf (s.mem.value s.cfg.bigEndian .word 4) } := by
  obtain ⟨h0, h4⟩ := h
  rw [resetVector, memRead_readable h0, Eff.andThen_ok, memRead_readable h4]
  rfl

/-- A bus error on either vector read (R501). -/
theorem resetVector_faults {s : State} (h : s.cfg.target .read true .word 0 = none ∨
      (s.readable true .word 0#32 ∧ s.cfg.target .read true .word 4 = none)) :
    ∃ c, resetVector s = .hardFault c s := by
  obtain hfirst | ⟨hready, hsecond⟩ := h
  · obtain ⟨c, hc⟩ := memRead_busError (priv := true) (w := .word) (a := 0#32) (s := s)
      (.inr (.inr ⟨rfl, hfirst⟩))
    exact ⟨c, by rw [resetVector, hc]; rfl⟩
  · obtain ⟨c, hc⟩ := memRead_busError (priv := true) (w := .word) (a := 4#32) (s := s)
      (.inr (.inr ⟨rfl, hsecond⟩))
    exact ⟨c, by rw [resetVector, memRead_readable hready, Eff.andThen_ok, hc]; rfl⟩

/-- The reset registers with a stack pointer, pc, T and Lockup, the lines sampled. -/
theorem resetTo_resample (s : State) (sp pc : Word) (thumb lockup : Bool) :
    ResetTo s (State.resample { s.resetRegisters with
      spMain := sp, pc := pc, t := thumb, lockup := lockup }) sp pc thumb lockup := by
  constructor
  · change alignWord _ &&& 3#32 = 0#32
    rw [alignWord_eq_and, BitVec.and_assoc]
    exact BitVec.and_zero
  · have hall (x : BitVec 32) : x &&& 4294967295#32 = x := BitVec.and_allOnes
    simp [State.resample, State.withPending, State.resetRegisters, SysTick.atReset, ExcBits.none,
      State.irqMask, hall]

theorem takeReset_ready {s : State} (h : s.resetReady) :
    ∃ t, takeReset s = .next t ∧ ResetFrom s t := by
  rw [takeReset, resetVector_ready (s := s.resetRegisters) h]
  refine ⟨_, rfl, ?_⟩
  rw [ResetFrom, ← alignWord_eq_and, ← alignHalf_eq_and]
  exact resetTo_resample s _ _ _ false

theorem takeReset_lockup {s : State} (h : s.cfg.target .read true .word 0 = none ∨
      (s.readable true .word 0#32 ∧ s.cfg.target .read true .word 4 = none)) :
    ∃ t, takeReset s = .next t ∧ ResetTo s t s.spMain 0xFFFFFFFE#32 s.t true := by
  obtain ⟨c, hc⟩ := resetVector_faults (s := s.resetRegisters) h
  rw [takeReset, hc]
  exact ⟨_, rfl, resetTo_resample s s.spMain _ s.t true⟩

theorem resetIn_of_resetTo {s t : State} {sp pc : Word} {thumb lockup : Bool}
    (h : ResetTo s t sp pc thumb lockup) : t.resetIn = none := by
  obtain ⟨_, ht⟩ := h
  rw [ht]

end Sys2Proof.Machine
end

section
/-! PROOFS. What a reset leaves (`70_reset_and_hazards.md` R500, R501). -/

namespace Sys2Proof.Machine

open Sys2Proof

/-- A reset input, or the reset software has requested when no input is left. -/
theorem step_reset {s : State} {rest : List Input}
    (h : s.inputs = .reset :: rest ∨ (s.inputs = [] ∧ s.resetRequest = true)) :
    step s = takeReset s.afterInput := by
  obtain hin | ⟨hnil, hreq⟩ := h
  · exact step_of_cons hin
  · rw [step_of_nil hnil, hreq]
    rfl

/-- A reset in the middle of the entry of a takeable exception is one from memory as the frame words
stored leave it. -/
theorem resetMidway_entry {s : State} {e : Exc} {frame : BitVec 8} {m : Memory}
    {d : List Host.Cell} {t : State} (hlockup : s.lockup = false) (hawake : s.sleep = .awake)
    (hbest : s.best = some e)
    (hpush : pushMarked frame s.pc { s with resetIn := some frame } =
      .ok () { s with resetIn := some frame, mem := m, dirty := d })
    (hreset : takeReset { s with resetIn := some frame, mem := m, dirty := d } = .next t)
    (ht : t.resetIn = none) : resetMidway .run frame s = .next t := by
  have hbest' : State.best { s with resetIn := some frame } = some e := hbest
  have hcore : coreStep .run { s with resetIn := some frame } = .next t := by
    rw [coreStep_run (s := { s with resetIn := some frame }) hlockup hawake, boundaryStep, hbest']
    exact (exceptionEntry_cut rfl hpush).trans hreset
  rw [resetMidway, hcore]
  simp [ht]

/-- Settles O56: TakeReset between steps, and in the middle of an entry from memory with some of the
frame words stored. -/
theorem resetSequence : Obligations.ResetSequence := by
  intro s rest
  refine ⟨fun hasked => ?_, fun frame e hin hready hlockup hawake hbest hframe => ?_⟩
  · rw [step_reset hasked]
    exact ⟨takeReset_ready (s := s.afterInput), takeReset_lockup (s := s.afterInput)⟩
  · obtain ⟨m, d, hpush, hmem⟩ :=
      pushMarked_ready (s := { s.afterInput with resetIn := some frame }) frame s.pc hframe
    obtain ⟨t, hreset, ht⟩ :=
      takeReset_ready (s := { s.afterInput with resetIn := some frame, mem := m, dirty := d })
        hready
    refine ⟨{ s.afterInput with mem := m, dirty := d }, t, ?_, rfl, ht, hmem⟩
    rw [step_of_cons hin]
    exact resetMidway_entry (s := s.afterInput) hlockup hawake hbest hpush hreset
      (resetIn_of_resetTo ht)

end Sys2Proof.Machine
end

section
/-! SUPPORT. Loads, stores and multiple transfers as the accesses they make: the address and extension
of each form (`43_load_store_single.md` R267), the words of a list, and devices (`20_memory.md` R103,
R120). -/

namespace Sys2Proof.Machine

open Sys2Proof

/-! ## Immediate offsets (R161) -/

theorem zeroExt_eq_ofNat {w : Nat} (v : BitVec w) : zeroExt v = BitVec.ofNat 32 v.toNat := by
  apply BitVec.eq_of_toNat_eq
  simp [zeroExt]

theorem zeroExt2_eq_ofNat {w : Nat} (v : BitVec w) :
    zeroExt2 v = BitVec.ofNat 32 (2 * v.toNat) := by
  apply BitVec.eq_of_toNat_eq
  rw [zeroExt2, BitVec.toNat_setWidth, BitVec.toNat_append,
    ← Nat.shiftLeft_add_eq_or_of_lt (by decide)]
  simp [Nat.shiftLeft_eq, Nat.mul_comm]

theorem zeroExt4_eq_ofNat {w : Nat} (v : BitVec w) :
    zeroExt4 v = BitVec.ofNat 32 (4 * v.toNat) := by
  apply BitVec.eq_of_toNat_eq
  rw [zeroExt4, BitVec.toNat_setWidth, BitVec.toNat_append,
    ← Nat.shiftLeft_add_eq_or_of_lt (by decide)]
  simp [Nat.shiftLeft_eq, Nat.mul_comm]

/-! ## The bytes an access moves -/

theorem widthLow_eq_lowBytes (w : Width) (v : Word) : widthLow w v = lowBytes w v := by
  apply BitVec.eq_of_toNat_eq
  cases w with
  | byte | half => simp [widthLow, lowBytes, Width.bytes]
  | word => simp [widthLow, lowBytes, Width.bytes]; omega

theorem widthLow_idem (w : Width) (v : Word) : widthLow w (widthLow w v) = widthLow w v := by
  apply BitVec.eq_of_toNat_eq
  cases w with
  | byte | half | word => simp [widthLow]

/-! ## The forms of a single access (R250 to R267) -/

/-- A store form stores the low bytes of its register at its address. -/
theorem exec_storeForm {s : State} {rm rn rt : LowReg} {imm5 : BitVec 5} {imm8 : BitVec 8} :
    ∀ f ∈ s.storeForms rm rn rt imm5 imm8,
      exec f.instr s = storeReg f.width f.address (s.low rt) s := by
  simp only [State.storeForms, List.forall_mem_cons, ← zeroExt_eq_ofNat, ← zeroExt2_eq_ofNat,
    ← zeroExt4_eq_ofNat, List.not_mem_nil, false_imp_iff, implies_true, and_true]
  exact ⟨rfl, rfl, rfl, rfl, rfl, rfl, rfl⟩

/-- A load form loads its register from its address, and its extension is the claims' on what an access
of its width can read. -/
theorem exec_loadForm {s : State} {rm rn rt : LowReg} {imm5 : BitVec 5} {imm8 : BitVec 8} :
    ∀ f ∈ s.loadForms rm rn rt imm5 imm8, ∃ ext : Word → Word,
      exec f.instr s = loadReg f.width ext rt f.address s ∧
        ∀ v, ext (widthLow f.width v) = f.extend (widthLow f.width v) := by
  simp only [State.loadForms, List.forall_mem_cons, ← zeroExt_eq_ofNat, ← zeroExt2_eq_ofNat,
    ← zeroExt4_eq_ofNat, ← align4_eq_and, List.not_mem_nil, false_imp_iff, implies_true, and_true]
  exact
    ⟨⟨id, rfl, fun _ => rfl⟩,
     ⟨zeroHalf, rfl, widthLow_idem .half⟩,
     ⟨zeroByte, rfl, widthLow_idem .byte⟩,
     ⟨signHalf, rfl, fun v => by rw [signHalf, BitVec.setWidth_eq_extractLsb' (by omega)]⟩,
     ⟨signByte, rfl, fun v => by rw [signByte, BitVec.setWidth_eq_extractLsb' (by omega)]⟩,
     ⟨id, rfl, fun _ => rfl⟩,
     ⟨zeroHalf, rfl, widthLow_idem .half⟩,
     ⟨zeroByte, rfl, widthLow_idem .byte⟩,
     ⟨id, rfl, fun _ => rfl⟩,
     ⟨id, rfl, fun _ => rfl⟩⟩

theorem loadReg_device {s : State} {w : Width} {a : Word} (ext : Word → Word) (rt : LowReg)
    (hroom : s.roomFor 2) (h : s.deviceAt s.privileged .read w a) :
    loadReg w ext rt a s = .next { (s.deviceRead .read w a).setLow rt (ext (s.deviceWord w)) with
      pc := s.pc + 2#32 } := by
  rw [loadReg, memRead_device h]
  exact advance_room (s := (s.deviceRead .read w a).setLow rt _) hroom

theorem storeReg_device {s : State} {w : Width} {a : Word} (v : Word) (hroom : s.roomFor 2)
    (h : s.deviceAt s.privileged .write w a) :
    storeReg w a v s = .next { s.deviceWrite w a v with pc := s.pc + 2#32 } := by
  rw [storeReg, memWrite_device v h]
  exact advance_room (s := s.deviceWrite w a v) hroom

/-! ## The registers of a list (R162) -/

theorem listRegs_ne_nil {list : BitVec 8} (h : list ≠ 0#8) : listRegs list ≠ [] := by
  intro hnil
  refine h (BitVec.eq_of_getLsbD_eq fun i hi => ?_)
  rw [BitVec.getLsbD_zero, ← Bool.not_eq_true]
  intro hset
  have : (⟨i, hi⟩ : LowReg) ∈ listRegs list := mem_listRegs.mpr hset
  rw [hnil] at this
  cases this

theorem length_listRegs_pos {list : BitVec 8} (h : list ≠ 0#8) : 0 < (listRegs list).length :=
  List.length_pos_of_ne_nil (listRegs_ne_nil h)

theorem stackCount_eq (m : Bool) (list : BitVec 8) :
    stackCount m list = (listRegs list).length + m.toNat := rfl

theorem length_pushWords (s : State) (m : Bool) (list : BitVec 8) :
    (s.pushWords m list).length = stackCount m list := by
  cases m <;> simp [State.pushWords, stackCount]

theorem crossesTop_of_le {a : Word} {n : Nat} (h : a.toNat + 4 * n ≤ 2 ^ 32) :
    crossesTop a n = false := by
  simp [crossesTop]
  omega

/-! ## Registers written in sequence (R311) -/

theorem setLow_other (s : State) {i : LowReg} {j : Fin 13} (v : Word) (h : i.val ≠ j.val) :
    (s.setLow i v).r[j.val] = s.r[j.val] := by
  rw [State.setLow_r]
  exact Vector.getElem_set_ne _ _ h

/-- Writes of low registers change the registers only. -/
theorem setLows_eq (s : State) (l : List (LowReg × Word)) :
    s.setLows l = { s with r := (s.setLows l).r } := by
  induction l generalizing s with
  | nil => rfl
  | cons p l ih =>
    obtain ⟨i, v⟩ := p
    rw [State.setLows, ih]
    rfl

theorem setLows_other (s : State) {regs : List LowReg} (vs : List Word) {j : Fin 13}
    (h : ∀ r ∈ regs, r.val ≠ j.val) : (s.setLows (regs.zip vs)).r[j.val] = s.r[j.val] := by
  induction regs generalizing s vs with
  | nil => rfl
  | cons i regs ih =>
    cases vs with
    | nil => rfl
    | cons v vs =>
      rw [List.zip_cons_cons, State.setLows, ih _ _ fun r hr => h r (List.mem_cons_of_mem i hr),
        setLow_other s v (h i List.mem_cons_self)]

theorem setLows_low_other (s : State) {regs : List LowReg} (vs : List Word) {i : LowReg}
    (h : i ∉ regs) : (s.setLows (regs.zip vs)).low i = s.low i :=
  setLows_other s vs (j := ⟨i.val, by omega⟩) fun r hr he => h (Fin.ext he ▸ hr)

/-- Each register of a list without repetition takes its word. -/
theorem setLows_low_getElem (s : State) {regs : List LowReg} {vs : List Word} (hnodup : regs.Nodup)
    (hlen : regs.length ≤ vs.length) (k : Nat) (hk : k < regs.length) :
    (s.setLows (regs.zip vs)).low regs[k] = vs.getD k 0#32 := by
  induction regs generalizing s vs k with
  | nil => cases hk
  | cons i regs ih =>
    obtain ⟨hfresh, hnodup⟩ := List.nodup_cons.mp hnodup
    cases vs with
    | nil => cases hlen
    | cons v vs =>
      rw [List.zip_cons_cons, State.setLows]
      cases k with
      | zero => exact (setLows_low_other _ vs hfresh).trans (State.setLow_low_same s i v)
      | succ k => exact ih _ hnodup (Nat.le_of_succ_le_succ hlen) k (Nat.lt_of_succ_lt_succ hk)

/-! ## What LDM leaves in the registers (R311) -/

/-- The write-back of LDM, where the base is not listed. -/
theorem ldmLoaded_cases (s : State) (rn : LowReg) (list : BitVec 8) (base : Word)
    (vs : List Word) :
    (rn ∈ listRegs list ∧ s.ldmLoaded rn list base vs = s.setLows ((listRegs list).zip vs)) ∨
      (rn ∉ listRegs list ∧ s.ldmLoaded rn list base vs =
        (s.setLows ((listRegs list).zip vs)).setLow rn
          (pastWords base (listRegs list).length)) := by
  rw [mem_listRegs, State.ldmLoaded]
  split
  · next h => exact .inl ⟨h, rfl⟩
  · next h => exact .inr ⟨h, rfl⟩

theorem ldmLoaded_eq (s : State) (rn : LowReg) (list : BitVec 8) (base : Word) (vs : List Word) :
    s.ldmLoaded rn list base vs = { s with r := (s.ldmLoaded rn list base vs).r } := by
  obtain ⟨_, h⟩ | ⟨_, h⟩ := ldmLoaded_cases s rn list base vs
  · rw [h]
    exact setLows_eq ..
  · rw [h, setLows_eq]
    rfl

theorem ldmLoaded_low (s : State) (rn : LowReg) {list : BitVec 8} (base : Word) {vs : List Word}
    (hlen : (listRegs list).length ≤ vs.length) (k : Nat) (hk : k < (listRegs list).length) :
    (s.ldmLoaded rn list base vs).low (listRegs list)[k] = vs.getD k 0#32 := by
  have hloaded := setLows_low_getElem s (nodup_listRegs list) hlen k hk
  obtain ⟨_, h⟩ | ⟨hrn, h⟩ := ldmLoaded_cases s rn list base vs
  · rw [h, hloaded]
  · have hne : rn ≠ (listRegs list)[k] := fun he => hrn (he ▸ List.getElem_mem hk)
    rw [h, State.setLow_low_other _ _ hne, hloaded]

theorem ldmLoaded_base (s : State) {rn : LowReg} {list : BitVec 8} (base : Word) (vs : List Word)
    (hrn : rn ∉ listRegs list) :
    (s.ldmLoaded rn list base vs).low rn = wordAt base (listRegs list).length := by
  obtain ⟨hmem, _⟩ | ⟨_, h⟩ := ldmLoaded_cases s rn list base vs
  · exact absurd hmem hrn
  · rw [h, State.setLow_low_same, pastWords]

theorem ldmLoaded_other (s : State) {rn : LowReg} {list : BitVec 8} (base : Word) (vs : List Word)
    {j : Fin 13} (hrn : j.val ≠ rn.val) (hregs : ∀ r ∈ listRegs list, r.val ≠ j.val) :
    (s.ldmLoaded rn list base vs).r[j.val] = s.r[j.val] := by
  obtain ⟨_, h⟩ | ⟨_, h⟩ := ldmLoaded_cases s rn list base vs
  · rw [h, setLows_other s vs hregs]
  · rw [h, setLow_other _ _ hrn.symm, setLows_other s vs hregs]

/-! ## The multiple transfers, once their accesses are known (R288, R293, R310, R311) -/

theorem exec_push_of_stored {m : Bool} {list : BitVec 8} {s s1 : State}
    (hlist : m = true ∨ list ≠ 0#8)
    (htop : (s.pushBase m list).toNat + 4 * stackCount m list ≤ 2 ^ 32)
    (h : storeWords s.privileged [] (s.pushWords m list) (s.pushBase m list) s = .ok () s1) :
    exec (.push m list) s = advance 2 (s1.setSp (s.pushBase m list)) := by
  have hformed : ¬((!m && list == 0#8) = true) := by
    obtain h | h := hlist <;> simp [h]
  change pushAmid [] m list s = _
  rw [pushAmid, if_neg hformed, crossesTop_of_le htop, gapsWithin_nil, h]
  rfl

theorem exec_stm_of_stored {rn : LowReg} {list : BitVec 8} {s s1 : State} (hlist : list ≠ 0#8)
    (haligned : (s.low rn).toNat % 4 = 0)
    (htop : (s.low rn).toNat + 4 * (listRegs list).length ≤ 2 ^ 32)
    (h : storeWords s.privileged [] (s.stmWords rn list) (s.low rn) (s.stmDrawn rn list) =
      .ok () s1) :
    exec (.stm rn list) s =
      advance 2 (s1.setLow rn (wordAt (s.low rn) (listRegs list).length)) := by
  change stmAmid [] rn list s = _
  rw [stmAmid, if_neg hlist, if_neg (not_not.mpr haligned), crossesTop_of_le htop, gapsWithin_nil,
    h]
  rfl

theorem exec_ldm_of_read {rn : LowReg} {list : BitVec 8} {s s1 : State} {vs : List Word}
    (hlist : list ≠ 0#8) (haligned : (s.low rn).toNat % 4 = 0)
    (htop : (s.low rn).toNat + 4 * (listRegs list).length ≤ 2 ^ 32)
    (h : readWords s.privileged [] (listRegs list).length (s.low rn) s = (vs, .ok () s1)) :
    exec (.ldm rn list) s = advance 2 (s1.ldmLoaded rn list (s.low rn) vs) := by
  change ldmAmid [] rn list s = _
  rw [ldmAmid, if_neg hlist, if_neg (not_not.mpr haligned), crossesTop_of_le htop, gapsWithin_nil,
    h]
  rfl

/-- The state POP reaches before it writes the pc: the registers loaded, the stack pointer past the
words. -/
def State.popLoaded (s : State) (list : BitVec 8) (sp : Word) (vs : List Word) : State :=
  (s.setLows ((listRegs list).zip vs)).setSp sp

theorem popLoaded_eq (s : State) (list : BitVec 8) (sp : Word) (vs : List Word) :
    s.popLoaded list sp vs = { s.setReg 13 sp with r := (s.popLoaded list sp vs).r } := by
  rw [State.popLoaded, setLows_eq]
  rfl

theorem popLoaded_low (s : State) {list : BitVec 8} (sp : Word) {vs : List Word}
    (hlen : (listRegs list).length ≤ vs.length) (k : Nat) (hk : k < (listRegs list).length) :
    (s.popLoaded list sp vs).low (listRegs list)[k] = vs.getD k 0#32 :=
  setLows_low_getElem s (nodup_listRegs list) hlen k hk

theorem popLoaded_other (s : State) {list : BitVec 8} (sp : Word) (vs : List Word) {j : Fin 13}
    (hregs : ∀ r ∈ listRegs list, r.val ≠ j.val) :
    (s.popLoaded list sp vs).r[j.val] = s.r[j.val] :=
  setLows_other s vs hregs

theorem popLoaded_pc (s : State) (list : BitVec 8) (sp : Word) (vs : List Word) :
    (s.popLoaded list sp vs).pc = s.pc := State.setLows_pc ..

theorem popLoaded_ipsr (s : State) (list : BitVec 8) (sp : Word) (vs : List Word) :
    (s.popLoaded list sp vs).ipsr = s.ipsr := State.setLows_ipsr ..

theorem advance_popLoaded {s : State} {list : BitVec 8} {sp : Word} {vs : List Word} {len : Nat}
    (hroom : s.roomFor len) : advance len (s.popLoaded list sp vs) =
      .next { s.popLoaded list sp vs with pc := s.pc + BitVec.ofNat 32 len } := by
  rw [advance_room (by rw [State.roomFor, popLoaded_pc]; exact hroom), popLoaded_pc]

theorem exec_pop_of_read {m : Bool} {list : BitVec 8} {s s1 : State} {vs : List Word}
    (hlist : m = true ∨ list ≠ 0#8) (htop : s.sp.toNat + 4 * stackCount m list ≤ 2 ^ 32)
    (h : readWords s.privileged [] (stackCount m list) s.sp s = (vs, .ok () s1)) :
    exec (.pop m list) s =
      if m then bxWritePc (vs.getD (listRegs list).length 0#32)
        (s1.popLoaded list (wordAt s.sp (stackCount m list)) vs)
      else advance 2 (s1.popLoaded list (wordAt s.sp (stackCount m list)) vs) := by
  have hformed : ¬((!m && list == 0#8) = true) := by
    obtain h | h := hlist <;> simp [h]
  change popAmid [] m list s = _
  rw [popAmid, if_neg hformed, crossesTop_of_le htop, gapsWithin_nil, h]
  rfl

/-! ## Words that devices answer (R103, R120 item 2) -/

/-- The state after writes of `vs` to devices at rising addresses. -/
def State.afterDeviceWrites (s : State) (a : Word) (vs : List Word) : State :=
  { s with
    deviceLog := s.deviceLog ++
      (List.range vs.length).map fun k => ⟨.write, .word, wordAt a k, vs.getD k 0#32⟩ }

theorem afterDeviceWrites_cons (s : State) (a v : Word) (vs : List Word) :
    s.afterDeviceWrites a (v :: vs) =
      (s.deviceWrite .word a v).afterDeviceWrites (a + 4#32) vs := by
  simp only [State.afterDeviceWrites, State.deviceWrite, widthLow, List.length_cons,
    List.range_succ_eq_map, List.map_cons, List.map_map, wordAt_zero, List.getD_cons_zero,
    List.append_assoc, List.cons_append, List.nil_append]
  congr 3
  refine List.map_congr_left fun k _ => ?_
  rw [Function.comp, wordAt_succ, List.getD_cons_succ]

theorem storeWords_device {priv : Bool} {vs : List Word} {a : Word} {s : State}
    (h : ∀ k < vs.length, s.deviceAt priv .write .word (wordAt a k)) :
    storeWords priv [] vs a s = .ok () (s.afterDeviceWrites a vs) := by
  induction vs generalizing a s with
  | nil => simp [storeWords, State.afterDeviceWrites]
  | cons v vs ih =>
    obtain ⟨hfirst, hrest⟩ := forall_next_words (P := s.deviceAt priv .write .word) h
    rw [storeWords, memWrite_device v hfirst, afterDeviceWrites_cons]
    exact ih (s := s.deviceWrite .word a v) hrest

/-- The words the platform gives the next `n` reads of devices. -/
def State.deviceWords (s : State) (n : Nat) : List Word :=
  (List.range n).map fun k => s.deviceIn.getD k (Config.freeWord (s.free + (k - s.deviceIn.length)))

theorem length_deviceWords (s : State) (n : Nat) : (s.deviceWords n).length = n := by
  simp [State.deviceWords]

theorem deviceWords_succ (s : State) (a : Word) (n : Nat) :
    s.deviceWords (n + 1) =
      s.deviceWord .word :: (s.deviceRead .read .word a).deviceWords n := by
  rw [State.deviceWords, List.range_succ_eq_map, List.map_cons, List.map_map, State.deviceWords]
  cases hin : s.deviceIn with
  | nil =>
    simp only [State.deviceWord, State.deviceRead, widthLow, hin, List.isEmpty_nil, if_true]
    refine congrArg _ (List.map_congr_left fun k _ => ?_)
    exact congrArg Config.freeWord (show s.free + (k + 1) = s.free + 1 + k by omega)
  | cons x rest => simp [State.deviceWord, State.deviceRead, widthLow, hin, Function.comp_def]

theorem afterDevice_cons (s : State) (a : Word) (vs : List Word) :
    s.afterDevice a (s.deviceWord .word :: vs) =
      (s.deviceRead .read .word a).afterDevice (a + 4#32) vs := by
  have hfree : s.free + (vs.length + 1 - s.deviceIn.length) =
      (if s.deviceIn.isEmpty then s.free + 1 else s.free) +
        (vs.length - s.deviceIn.tail.length) := by
    cases s.deviceIn with
    | nil => simp; omega
    | cons x rest => simp
  simp only [State.afterDevice, State.deviceRead, List.length_cons, List.range_succ_eq_map,
    List.map_cons, List.map_map, wordAt_zero, List.getD_cons_zero, List.append_assoc,
    List.cons_append, List.nil_append, List.drop_tail, hfree]
  congr 3
  refine List.map_congr_left fun k _ => ?_
  rw [Function.comp, wordAt_succ, List.getD_cons_succ]

theorem readWords_device {priv : Bool} {n : Nat} {a : Word} {s : State}
    (h : ∀ k < n, s.deviceAt priv .read .word (wordAt a k)) :
    readWords priv [] n a s = (s.deviceWords n, .ok () (s.afterDevice a (s.deviceWords n))) := by
  induction n generalizing a s with
  | zero => simp [readWords, State.deviceWords, State.afterDevice]
  | succ n ih =>
    obtain ⟨hfirst, hrest⟩ := forall_next_words (P := s.deviceAt priv .read .word) h
    have ih := ih (s := s.deviceRead .read .word a) hrest
    rw [readWords, memRead_device hfirst, deviceWords_succ s a, afterDevice_cons]
    simp [ih]

end Sys2Proof.Machine
end

section
/-! PROOFS. Loads, stores and multiple transfers that devices answer (`20_memory.md` R103, R120
item 2). -/

namespace Sys2Proof.Machine

open Sys2Proof

/-- A load that a device answers (R103). -/
theorem loadForm_device {s : State} {rm rn rt : LowReg} {imm5 : BitVec 5} {imm8 : BitVec 8}
    {f : AccessForm} (hroom : s.roomFor 2) (hf : f ∈ s.loadForms rm rn rt imm5 imm8)
    (hdev : s.deviceAt s.privileged .read f.width f.address) :
    exec f.instr s = .next { s with
      r := s.r.set rt.val (f.extend (s.deviceWord f.width))
      deviceIn := s.deviceIn.tail
      deviceLog := s.deviceLog ++ [⟨.read, f.width, f.address, s.deviceWord f.width⟩]
      free := if s.deviceIn = [] then s.free + 1 else s.free
      pc := s.pc + 2#32 } := by
  obtain ⟨ext, hexec, hext⟩ := exec_loadForm f hf
  have hvalue : ext (s.deviceWord f.width) = f.extend (s.deviceWord f.width) := hext _
  rw [hexec, loadReg_device ext rt hroom hdev, hvalue]
  simp only [← List.isEmpty_iff]
  rfl

theorem push_device {s : State} {m : Bool} {list : BitVec 8} (hroom : s.roomFor 2)
    (hlist : m = true ∨ list ≠ 0#8)
    (htop : (s.pushBase m list).toNat + 4 * stackCount m list ≤ 2 ^ 32)
    (hdev : ∀ k < stackCount m list,
      s.deviceAt s.privileged .write .word (wordAt (s.pushBase m list) k)) :
    exec (.push m list) s =
      .next { (s.afterDeviceWrites (s.pushBase m list) (s.pushWords m list)).setSp
          (s.pushBase m list) with pc := s.pc + 2#32 } := by
  rw [← length_pushWords s] at hdev
  rw [exec_push_of_stored hlist htop (storeWords_device hdev)]
  exact advance_room (s := (s.afterDeviceWrites _ _).setSp _) hroom

/-- With the base not listed, or the lowest listed, STM stores the registers as they are (R310). -/
theorem stm_known {rn : LowReg} {list : BitVec 8}
    (h : list.getLsbD rn.val = true → (listRegs list).head? = some rn) (s : State) :
    s.stmWords rn list = (listRegs list).map s.low ∧ s.stmDrawn rn list = s := by
  have hknown : stmBaseUnknown rn list = false := by
    cases hlisted : list.getLsbD rn.val with
    | false => rw [stmBaseUnknown, hlisted, Bool.false_and]
    | true => simp [stmBaseUnknown, h hlisted]
  exact ⟨by simp [State.stmWords, hknown], by simp [State.stmDrawn, hknown]⟩

theorem stm_device {s : State} {rn : LowReg} {list : BitVec 8} (hroom : s.roomFor 2)
    (hlist : list ≠ 0#8) (htop : (s.low rn).toNat + 4 * (listRegs list).length ≤ 2 ^ 32)
    (hknown : list.getLsbD rn.val = true → (listRegs list).head? = some rn)
    (hdev : ∀ k < (listRegs list).length,
      s.deviceAt s.privileged .write .word (wordAt (s.low rn) k)) :
    exec (.stm rn list) s =
      .next { (s.afterDeviceWrites (s.low rn) ((listRegs list).map s.low)).setLow rn
          (wordAt (s.low rn) (listRegs list).length) with pc := s.pc + 2#32 } := by
  obtain ⟨hwords, hdrawn⟩ := stm_known hknown s
  obtain ⟨haligned, _⟩ := wordAt_zero (s.low rn) ▸ hdev 0 (length_listRegs_pos hlist)
  rw [← List.length_map (f := s.low)] at hdev
  rw [exec_stm_of_stored hlist haligned htop (by rw [hwords, hdrawn]; exact storeWords_device hdev)]
  exact advance_room (s := (s.afterDeviceWrites _ _).setLow _ _) hroom

theorem ldm_device {s : State} {rn : LowReg} {list : BitVec 8} (hroom : s.roomFor 2)
    (hlist : list ≠ 0#8) (htop : (s.low rn).toNat + 4 * (listRegs list).length ≤ 2 ^ 32)
    (hdev : ∀ k < (listRegs list).length,
      s.deviceAt s.privileged .read .word (wordAt (s.low rn) k)) :
    exec (.ldm rn list) s =
      .next { s.afterDevice (s.low rn) (s.deviceWords (listRegs list).length) with
        r := ((s.afterDevice (s.low rn) (s.deviceWords (listRegs list).length)).ldmLoaded rn list
          (s.low rn) (s.deviceWords (listRegs list).length)).r
        pc := s.pc + 2#32 } := by
  obtain ⟨haligned, _⟩ := wordAt_zero (s.low rn) ▸ hdev 0 (length_listRegs_pos hlist)
  rw [exec_ldm_of_read hlist haligned htop (readWords_device hdev), ldmLoaded_eq]
  exact advance_room (s := { s.afterDevice _ _ with r := _ }) hroom

/-- Settles O25: each access is one device access, and the words of the multiple transfers are
read and written in sequence (`readWords_device`, `storeWords_device`). -/
theorem deviceAccesses : Obligations.DeviceAccesses := by
  intro s rm rn rt imm5 imm8 m list regs ws vs base n hroom hregs hvs
  obtain rfl : regs = listRegs list := hregs
  obtain rfl : vs = s.deviceWords n := hvs
  refine ⟨?load, ?store, ?push, ?stm, ?ldm, ?pop⟩
  case load =>
    intro f hf hdev
    refine ⟨s.deviceIn.headD (Config.freeWord s.free), ?_, fun x rest h => by rw [h]; rfl,
      fun h => by rw [h]; rfl⟩
    rw [← widthLow_eq_lowBytes]
    exact loadForm_device hroom hf hdev
  case store =>
    intro f hf hdev
    rw [exec_storeForm f hf, storeReg_device _ hroom hdev, ← widthLow_eq_lowBytes]
    rfl
  case push =>
    intro hlist hws hbase htop hdev
    obtain rfl : ws = s.pushWords m list := hws
    rw [length_pushWords] at hbase htop hdev
    obtain rfl : base = s.pushBase m list := hbase
    exact push_device hroom hlist htop hdev
  case stm =>
    rintro hlist rfl htop hknown hdev
    have h := stm_device hroom hlist htop hknown hdev
    rw [State.afterDeviceWrites, List.length_map] at h
    exact h
  case ldm =>
    rintro hlist rfl rfl htop hdev
    exact ⟨_, ldm_device hroom hlist htop hdev,
      ldmLoaded_low _ rn _ (length_deviceWords s _).ge, ldmLoaded_base _ _ _,
      fun i hrn hregs => ldmLoaded_other _ _ _ hrn hregs⟩
  case pop =>
    rintro hlist rfl htop hdev
    rw [← stackCount_eq] at htop hdev ⊢
    have hexec := exec_pop_of_read hlist htop (readWords_device hdev)
    have hlen : (listRegs list).length ≤ (s.deviceWords (stackCount m list)).length := by
      rw [length_deviceWords, stackCount_eq]
      omega
    refine ⟨_, _, rfl, popLoaded_eq _ list _ _, popLoaded_low _ _ hlen,
      fun i hregs => popLoaded_other _ _ _ hregs, ?_, ?_, ?_⟩
    · rintro rfl
      rw [hexec, if_neg Bool.false_ne_true]
      exact advance_popLoaded (s := s.afterDevice _ _) hroom
    · rintro rfl hbranch
      rw [hexec, if_pos rfl, bxWritePc_branch (by rw [popLoaded_ipsr]; exact hbranch),
        exchangeTo_eq]
    · rintro rfl hmode htop
      rw [hexec, if_pos rfl, bxWritePc_return (by rw [popLoaded_ipsr]; exact hmode) htop]

end Sys2Proof.Machine
end

section
/-! SUPPORT. Unprivileged code (`60_exceptions.md` R431, R432): the relation `Confined` between a state and a
later one that differs from it in nothing that only privileged code may change. -/

namespace Sys2Proof.Machine

open Sys2Proof

/-! ## The relation -/

/-- `t` differs from `s` only in what unprivileged code may change (R431): neither the privileged state, nor
the stack pointer that is not in use, nor what belongs to the environment. -/
structure Confined (s t : State) : Prop where
  cfg : t.cfg = s.cfg := by simp
  primask : t.primask = s.primask := by simp
  npriv : t.npriv = s.npriv := by simp
  spsel : t.spsel = s.spsel := by simp
  ipsr : t.ipsr = s.ipsr := by simp
  pending : t.pending = s.pending := by simp
  active : t.active = s.active := by simp
  enabled : t.enabled = s.enabled := by simp
  pri : t.pri = s.pri := by simp
  scr : t.scr = s.scr := by simp
  vtor : t.vtor = s.vtor := by simp
  resetRequest : t.resetRequest = s.resetRequest := by simp
  syst : t.syst = s.syst := by simp
  irqLine : t.irqLine = s.irqLine := by simp
  nmiLine : t.nmiLine = s.nmiLine := by simp
  resetIn : t.resetIn = s.resetIn := by simp
  otherSp : if s.spsel then t.spMain = s.spMain else t.spProcess = s.spProcess := by simp

theorem Confined.refl (s : State) : Confined s s := {}

theorem Confined.trans {s t u : State} (h : Confined s t) (h' : Confined t u) : Confined s u where
  cfg := h'.cfg.trans h.cfg
  primask := h'.primask.trans h.primask
  npriv := h'.npriv.trans h.npriv
  spsel := h'.spsel.trans h.spsel
  ipsr := h'.ipsr.trans h.ipsr
  pending := h'.pending.trans h.pending
  active := h'.active.trans h.active
  enabled := h'.enabled.trans h.enabled
  pri := h'.pri.trans h.pri
  scr := h'.scr.trans h.scr
  vtor := h'.vtor.trans h.vtor
  resetRequest := h'.resetRequest.trans h.resetRequest
  syst := h'.syst.trans h.syst
  irqLine := h'.irqLine.trans h.irqLine
  nmiLine := h'.nmiLine.trans h.nmiLine
  resetIn := h'.resetIn.trans h.resetIn
  otherSp := by
    have h1 := h.otherSp
    have h2 := h'.otherSp
    rw [h.spsel] at h2
    split
    · next hsel => rw [if_pos hsel] at h1 h2; exact h2.trans h1
    · next hsel => rw [if_neg hsel] at h1 h2; exact h2.trans h1

theorem Confined.sameSystem {s t : State} (h : Confined s t) : sameSystem s t :=
  ⟨h.primask, h.npriv, h.spsel, h.ipsr, h.pending, h.active, h.enabled, h.pri, h.scr, h.vtor,
    h.resetRequest, h.syst, h.otherSp⟩

/-- What is confined does not become privileged (R432). -/
theorem Confined.privileged {s t : State} (h : Confined s t) : t.privileged = s.privileged := by
  rw [State.privileged, State.handlerMode, h.ipsr, h.npriv]
  rfl

/-- The same exceptions can be taken (R406). -/
theorem Confined.takeable {s t : State} (h : Confined s t) : t.takeable = s.takeable := by
  have hprio : t.prio = s.prio := by
    funext e
    cases e <;> simp [State.prio, h.pri]
  have henabled : t.isEnabled = s.isEnabled := by
    funext e
    cases e <;> simp [State.isEnabled, h.enabled]
  funext e
  simp only [State.takeable, State.takeableWith, State.requested, State.executionPriorityWith,
    hasExc_congr h.cfg, hprio, henabled, h.pending, h.active, h.primask]
  rfl

/-! ## Events (R400) -/

theorem Confined.withPending {s t : State} (h : Confined s t) {p q : ExcBits} (hpq : q = p) :
    Confined (s.withPending p) (t.withPending q) :=
  { h with pending := hpq }

theorem Confined.resample {s t : State} (h : Confined s t) : Confined s.resample t.resample :=
  h.withPending (by rw [State.irqMask, h.pending, h.nmiLine, h.irqLine, h.active, h.cfg]; rfl)

theorem Confined.setPending {s t : State} (h : Confined s t) (e : Exc) :
    Confined (s.withPending (s.pending.set e true)) (t.withPending (t.pending.set e true)) :=
  h.withPending (by rw [h.pending])

theorem Confined.driveIrq {s t : State} (h : Confined s t) (n : Fin 32) (level : Bool) :
    Confined (s.driveIrq n level) (t.driveIrq n level) := by
  unfold State.driveIrq
  rw [h.cfg, h.irqLine]
  split
  · refine Confined.resample ?_
    split
    · exact { h.setPending (.irq n) with irqLine := rfl }
    · exact { h with irqLine := rfl }
  · exact h

theorem Confined.driveNmi {s t : State} (h : Confined s t) (level : Bool) :
    Confined (s.driveNmi level) (t.driveNmi level) := by
  unfold State.driveNmi
  rw [h.nmiLine]
  refine Confined.resample ?_
  split
  · exact { h.setPending .nmi with nmiLine := rfl }
  · exact { h with nmiLine := rfl }

theorem Confined.withSyst {s t : State} (h : Confined s t) (x : SysTick) :
    Confined { s with syst := x } { t with syst := x } :=
  { h with syst := rfl }

theorem Confined.sysTickStep {s t : State} (h : Confined s t) :
    Confined s.sysTickStep t.sysTickStep := by
  have hcfg : t.cfg.hasSysTick = s.cfg.hasSysTick := by rw [h.cfg]
  unfold State.sysTickStep
  rw [hcfg, h.syst]
  split
  · split
    · exact h.withSyst _
    · dsimp only
      split
      · split
        · exact (h.withSyst _).setPending .systick
        · exact h.withSyst _
      · exact h.withSyst _
  · exact h

/-- An event does the same to what is not unprivileged code's, whatever that code has changed. -/
theorem Confined.afterEvent {s t : State} (h : Confined s t) (e : Event) :
    Confined (s.afterEvent e) (t.afterEvent e) := by
  cases e with
  | irqLine n level => exact h.driveIrq n level
  | nmiLine level => exact h.driveNmi level
  | rxev => exact { h with }
  | tick => exact h.sysTickStep
  | deviceValue v => exact { h with }

theorem Confined.afterEvents {s t : State} (h : Confined s t) (es : List Event) :
    Confined (s.afterEvents es) (t.afterEvents es) := by
  induction es generalizing s t with
  | nil => exact h
  | cons e es ih => exact ih (h.afterEvent e)

/-! ## Updates of one part of the state -/

theorem confined_setLow (s : State) (i : LowReg) (v : Word) : Confined s (s.setLow i v) := {}

theorem confined_setLows (s : State) (l : List (LowReg × Word)) : Confined s (s.setLows l) := {}

theorem confined_setSomeLows (s : State) (b : Option LowReg) (l : List (LowReg × Word)) :
    Confined s (s.setSomeLows b l) := {}

theorem confined_setFlags (s : State) (f : Flags) : Confined s (s.setFlags f) := {}

theorem confined_setPc (s : State) (v : Word) : Confined s { s with pc := v } := {}

theorem confined_setLr (s : State) (v : Word) : Confined s { s with lr := v } := {}

theorem confined_setFree (s : State) (n : Nat) : Confined s { s with free := n } := {}

theorem confined_branchTo (s : State) (a : Word) : Confined s (s.branchTo a) := {}

theorem confined_exchangeTo (s : State) (a : Word) : Confined s (s.exchangeTo a) := {}

theorem confined_enterLockup (s : State) : Confined s s.enterLockup := {}

theorem confined_waitForInterrupt (s : State) : Confined s s.waitForInterrupt := {}

theorem confined_synchronise (s : State) : Confined s s.synchronise := {}

theorem confined_storeAt (s : State) (w : Width) (a : Nat) (v : Word) :
    Confined s (s.storeAt w a v) := {}

theorem confined_deviceRead (s : State) (acc : Access) (w : Width) (a : Word) :
    Confined s (s.deviceRead acc w a) := {}

theorem confined_deviceWrite (s : State) (w : Width) (a v : Word) :
    Confined s (s.deviceWrite w a v) := {}

theorem useProcess_of_unprivileged {s : State} (h : s.privileged = false) :
    s.useProcess = s.spsel := by
  rw [State.privileged, Bool.or_eq_false_iff] at h
  rw [State.useProcess, h.1, Bool.not_false, Bool.and_true]

/-- Unprivileged code writes the stack pointer that SPSEL selects (R37). -/
theorem confined_setSp {s : State} (h : s.privileged = false) (v : Word) :
    Confined s (s.setSp v) where
  otherSp := by
    rw [State.setSp_spMain, State.setSp_spProcess, useProcess_of_unprivileged h]
    split
    · rfl
    · rfl

theorem confined_setReg {s : State} (h : s.privileged = false) (i : RegNum) (v : Word) :
    Confined s (s.setReg i v) := by
  unfold State.setReg
  split
  · exact {}
  · split
    · exact confined_setSp h v
    · split
      · exact confined_setLr s v
      · exact .refl s

/-- MSR of unprivileged code writes the flags at most (R330). -/
theorem confined_writeSpecial {s : State} (h : s.privileged = false) (sysm : BitVec 8) (v : Word) :
    Confined s (s.writeSpecial sysm v) := by
  unfold State.writeSpecial
  rw [h]
  split
  · split
    · exact .refl s
    · exact confined_setFlags s _
  · exact .refl s

/-! ## Memory accesses (R113) -/

/-- An unprivileged access reaches no system register. -/
theorem memRead_confined (w : Width) (a : Word) (s : State) :
    (memRead false w a s).Ends (Confined s) := by
  refine Eff.ends_of (fun v t h => ?_) fun c t h => memRead_hardFault h ▸ .refl s
  obtain ⟨_, ⟨rfl, _⟩ | ⟨_, _, rfl⟩ | ⟨_, hpriv, _⟩⟩ := memRead_ok h
  · exact .refl _
  · exact confined_deviceRead s _ w a
  · cases hpriv

theorem memWrite_confined (w : Width) (a v : Word) (s : State) :
    (memWrite false w a v s).Ends (Confined s) := by
  refine Eff.ends_of (fun _ t h => ?_) fun c t h => memWrite_hardFault h ▸ .refl s
  obtain ⟨_, ⟨rfl, _⟩ | ⟨rfl, _⟩ | ⟨_, rfl⟩ | ⟨_, hpriv, _⟩⟩ := memWrite_ok h
  · exact confined_storeAt s w _ v
  · exact .refl _
  · exact confined_deviceWrite s w a v
  · cases hpriv

theorem fetchHalf_confined (a : Word) (s : State) : (fetchHalf a s).Ends (Confined s) := by
  unfold fetchHalf
  split
  · exact Confined.refl s
  · split
    · exact Confined.refl s
    · exact confined_deviceRead s _ _ _
    · split
      · exact confined_setFree s _
      · exact Confined.refl s

theorem confined_atSecondHalf (s : State) (hw1 : Half) : Confined s (s.atSecondHalf hw1) := by
  unfold State.atSecondHalf
  split
  · exact confined_setPc s _
  · exact .refl s

theorem fetchInstr_confined (s : State) : (fetchInstr s).Ends (Confined s) := by
  unfold fetchInstr
  split
  · exact Confined.refl s
  · refine (fetchHalf_confined s.pc s).andThen fun hw1 t ht => ?_
    have h2 := fetchHalf_confined (t.pc + 2#32) t
    split
    · split
      · next heq =>
        rw [heq] at h2
        exact ht.trans h2
      · next heq =>
        rw [heq] at h2
        exact ht.trans (Confined.trans h2 (confined_atSecondHalf ..))
      · trivial
    · exact ht

/-! ## Transfers with events between their accesses (R312, R400) -/

/-- `P` holds between `s`, as the first events of `gaps` leave it, and `t`. -/
def AfterGaps (gaps : Gaps) (P : State → State → Prop) (s t : State) : Prop :=
  ∃ n, P (s.afterEvents (gaps.take n).flatten) t

section AfterGaps

variable {gaps : Gaps} {P Q : State → State → Prop} {s t u : State}

/-- No event need happen. -/
theorem AfterGaps.of_none (h : P s t) : AfterGaps gaps P s t := ⟨0, h⟩

theorem afterGaps_nil : AfterGaps [] P s t ↔ P s t := by
  simp [AfterGaps]

/-- The events of one occasion, then those of some of the others. -/
theorem AfterGaps.cons (h : AfterGaps gaps.tail P (s.afterEvents (gaps.headD [])) t) :
    AfterGaps gaps P s t := by
  obtain ⟨n, h⟩ := h
  cases gaps with
  | nil => exact ⟨0, by simpa using h⟩
  | cons es gaps =>
    refine ⟨n + 1, ?_⟩
    rw [List.take_succ_cons, List.flatten_cons, State.afterEvents, List.foldl_append]
    exact h

theorem AfterGaps.within {n : Nat} (h : AfterGaps (gapsWithin gaps n) P s t) :
    AfterGaps gaps P s t := by
  obtain ⟨k, h⟩ := h
  rw [gapsWithin, List.take_take] at h
  exact ⟨_, h⟩

theorem AfterGaps.mono (h : AfterGaps gaps P s t) (hpq : ∀ r, P r t → Q r u) :
    AfterGaps gaps Q s u := by
  obtain ⟨n, h⟩ := h
  exact ⟨n, hpq _ h⟩

/-- The same events after what is confined. -/
theorem AfterGaps.before (hst : Confined s t) (h : AfterGaps gaps P t u)
    (hP : ∀ r r', Confined r r' → P r' u → P r u) : AfterGaps gaps P s u := by
  obtain ⟨n, h⟩ := h
  exact ⟨n, hP _ _ (hst.afterEvents _) h⟩

theorem AfterGaps.privileged (h : AfterGaps gaps Confined s t) : t.privileged = s.privileged := by
  obtain ⟨n, h⟩ := h
  rw [h.privileged, State.privileged, State.handlerMode, State.afterEvents_ipsr,
    State.afterEvents_npriv]
  rfl

theorem AfterGaps.resetIn (h : AfterGaps gaps Confined s t) (hs : s.resetIn = none) :
    t.resetIn = none := by
  obtain ⟨n, h⟩ := h
  rw [h.resetIn, State.afterEvents_resetIn, hs]

end AfterGaps

/-- What holds of the states of the first operation holds of the whole where it leads on to it. -/
theorem Eff.Ends.bind {α β : Type} {P Q : State → Prop} {e : Eff α} {f : α → State → Eff β}
    (he : e.Ends P) (hpq : ∀ t, P t → Q t) (hf : ∀ a t, P t → (f a t).Ends Q) :
    (e.andThen f).Ends Q := by
  cases e with
  | ok a t => exact hf a t he
  | hardFault c t => exact hpq t he
  | refuse r => trivial

/-- The next events after an access that is confined. -/
theorem AfterGaps.access {gaps : Gaps} {s t u : State} (hst : Confined s t)
    (h : AfterGaps gaps.tail Confined (t.afterEvents (gaps.headD [])) u) :
    AfterGaps gaps Confined s u :=
  (AfterGaps.before (hst.afterEvents _) h fun _ _ => .trans).cons

theorem storeWords_confined (gaps : Gaps) (vs : List Word) (a : Word) (s : State) :
    (storeWords false gaps vs a s).Ends (AfterGaps gaps Confined s) := by
  induction vs generalizing gaps a s with
  | nil => exact AfterGaps.of_none (.refl s)
  | cons v vs ih =>
    exact (memWrite_confined .word a v s).bind (fun _ => AfterGaps.of_none) fun _ t ht =>
      (ih ..).mono fun _ => AfterGaps.access ht

theorem readWords_confined (gaps : Gaps) (n : Nat) (a : Word) (s : State) :
    (readWords false gaps n a s).2.Ends (AfterGaps gaps Confined s) := by
  induction n generalizing gaps a s with
  | zero => exact AfterGaps.of_none (.refl s)
  | succ n ih =>
    have hr := memRead_confined .word a s
    rw [readWords]
    cases h : memRead false .word a s with
    | ok v t =>
      rw [h] at hr
      exact (ih ..).mono fun _ => AfterGaps.access hr
    | hardFault c t =>
      rw [h] at hr
      exact AfterGaps.of_none hr
    | refuse r => trivial

end Sys2Proof.Machine
end

section
/-! SUPPORT. Every instruction and core step of unprivileged code is confined, or enters an exception that it
may enter (`60_exceptions.md` R431, R432). -/

namespace Sys2Proof.Machine

open Sys2Proof

/-! ## The outcomes -/

/-- `e` can be entered from unprivileged code in `s`: a fault or SVC raises it, or it is takeable. -/
def State.mayEnter (s : State) (e : Exc) : Prop :=
  e = .svcall ∨ e = .hardFault ∨ s.takeable e = true

/-- `t` is confined to what unprivileged code may change of `s`, or is the entry of an exception from such a
state (R432). -/
def Isolated (s t : State) : Prop :=
  Confined s t ∨ ∃ u e ret, Confined s u ∧ u.mayEnter e ∧ exceptionEntry e ret u = .next t

theorem Confined.isolated {s t u : State} (h : Confined s t) (h' : Isolated t u) : Isolated s u := by
  obtain h' | ⟨v, e, ret, hv, hmay, hentry⟩ := h'
  · exact .inl (h.trans h')
  · exact .inr ⟨v, e, ret, h.trans hv, hmay, hentry⟩

theorem Confined.nextIn {s t : State} {o : Host.Outcome State Fault Refusal} (h : Confined s t)
    (ho : NextIn (Isolated t) o) : NextIn (Isolated s) o :=
  ho.mono fun _ => h.isolated

/-- Events, then what is isolated. -/
theorem AfterGaps.nextIn {gaps : Gaps} {s t : State} {o : Host.Outcome State Fault Refusal}
    (h : AfterGaps gaps Confined s t) (ho : NextIn (Isolated t) o) :
    NextIn (AfterGaps gaps Isolated s) o :=
  ho.mono fun _ hu => h.mono fun _ hr => hr.isolated hu

theorem exceptionEntry_isolated {s : State} {e : Exc} (ret : Word) (h : s.mayEnter e) :
    NextIn (Isolated s) (exceptionEntry e ret s) :=
  nextIn_iff.mpr fun _ ht => .inr ⟨s, e, ret, .refl s, h, ht⟩

theorem mayEnter_of_best {s : State} {e : Exc} (h : s.best = some e) : s.mayEnter e :=
  .inr (.inr (highest_holds h))

theorem raiseHardFault_isolated (c : FaultCause) (s : State) :
    NextIn (Isolated s) (raiseHardFault c s) := by
  unfold raiseHardFault
  split
  · exact .inl (confined_enterLockup s)
  · exact exceptionEntry_isolated s.pc (.inr (.inl rfl))

theorem advance_isolated {s t : State} (len : Nat) (h : Confined s t) :
    NextIn (Isolated s) (advance len t) := by
  refine nextIn_iff.mpr fun u hu => ?_
  obtain ⟨_, rfl⟩ := advance_next hu
  exact .inl (h.trans (confined_setPc t _))

theorem finishAt_isolated {gaps : Gaps} {s : State} {e : Eff Unit} (len : Nat)
    (h : e.Ends (AfterGaps gaps Confined s)) : NextIn (AfterGaps gaps Isolated s) (e.finishAt len) := by
  cases e with
  | ok _ t => exact AfterGaps.nextIn h (advance_isolated len (.refl t))
  | hardFault c t => exact AfterGaps.nextIn h (raiseHardFault_isolated c t)
  | refuse r => trivial

theorem access_isolated {s : State} {e : Eff Unit} (len : Nat) (h : e.Ends (Confined s)) :
    NextIn (Isolated s) (e.finishAt len) :=
  (finishAt_isolated (gaps := []) len (h.mono fun _ => AfterGaps.of_none)).mono fun _ =>
    afterGaps_nil.mp

/-! ## The multiple transfers (R310 to R312) -/

theorem storeWords_within (gaps : Gaps) (n : Nat) (vs : List Word) (a : Word) {s t : State}
    (h : Confined s t) :
    (storeWords false (gapsWithin gaps n) vs a t).Ends (AfterGaps gaps Confined s) :=
  (storeWords_confined ..).mono fun _ hu => (hu.before h fun _ _ => .trans).within

theorem readWords_within (gaps : Gaps) (m n : Nat) (a : Word) (s : State) :
    (readWords false (gapsWithin gaps m) n a s).2.Ends (AfterGaps gaps Confined s) :=
  (readWords_confined ..).mono fun _ => AfterGaps.within

/-- A transfer, then what is confined. -/
theorem AfterGaps.confined {gaps : Gaps} {s t u : State} (h : AfterGaps gaps Confined s t)
    (htu : Confined t u) : AfterGaps gaps Confined s u :=
  h.mono fun _ hr => hr.trans htu

theorem confined_stmDrawn (s : State) (rn : LowReg) (list : BitVec 8) :
    Confined s (s.stmDrawn rn list) := by
  unfold State.stmDrawn
  split
  · exact confined_setFree s _
  · exact .refl s

theorem confined_ldmLoaded (s : State) (rn : LowReg) (list : BitVec 8) (base : Word)
    (vs : List Word) : Confined s (s.ldmLoaded rn list base vs) := by
  rw [ldmLoaded_eq]
  exact {}

/-- Thread mode returns from no exception (R43). -/
theorem bxWritePc_isolated {s : State} (h : s.privileged = false) (a : Word) :
    NextIn (Isolated s) (bxWritePc a s) := by
  rw [State.privileged, Bool.or_eq_false_iff] at h
  rw [bxWritePc, h.1, Bool.false_and, if_neg Bool.false_ne_true]
  exact .inl (confined_exchangeTo s a)

section Transfers

variable {s : State} (h : s.privileged = false)
include h

theorem stmAmid_isolated (gaps : Gaps) (rn : LowReg) (list : BitVec 8) :
    NextIn (AfterGaps gaps Isolated s) (stmAmid gaps rn list s) := by
  unfold stmAmid
  rw [h]
  split
  · trivial
  · split
    · exact (raiseHardFault_isolated _ s).mono fun _ => AfterGaps.of_none
    · split
      · trivial
      · exact finishAt_isolated 2 <|
          (storeWords_within gaps _ _ _ (confined_stmDrawn s rn list)).andThen fun _ t ht =>
            AfterGaps.confined ht (confined_setLow t _ _)

theorem ldmAmid_isolated (gaps : Gaps) (rn : LowReg) (list : BitVec 8) :
    NextIn (AfterGaps gaps Isolated s) (ldmAmid gaps rn list s) := by
  have hr := readWords_within gaps (listRegs list).length (listRegs list).length (s.low rn) s
  unfold ldmAmid
  rw [h]
  split
  · trivial
  · split
    · exact (raiseHardFault_isolated _ s).mono fun _ => AfterGaps.of_none
    · split
      · trivial
      · split
        · next heq =>
          rw [heq] at hr
          exact AfterGaps.nextIn hr (advance_isolated 2 (confined_ldmLoaded ..))
        · next heq =>
          rw [heq] at hr
          exact (AfterGaps.confined hr (confined_setSomeLows ..)).nextIn (raiseHardFault_isolated ..)
        · trivial

theorem pushAmid_isolated (gaps : Gaps) (m : Bool) (list : BitVec 8) :
    NextIn (AfterGaps gaps Isolated s) (pushAmid gaps m list s) := by
  unfold pushAmid
  rw [h]
  split
  · trivial
  · split
    · trivial
    · exact finishAt_isolated 2 <|
        (storeWords_within gaps _ _ _ (.refl s)).andThen fun _ t ht =>
          AfterGaps.confined ht (confined_setSp (ht.privileged.trans h) _)

theorem popAmid_isolated (gaps : Gaps) (p : Bool) (list : BitVec 8) :
    NextIn (AfterGaps gaps Isolated s) (popAmid gaps p list s) := by
  have hr := readWords_within gaps (stackCount p list) (stackCount p list) s.sp s
  unfold popAmid
  rw [h]
  split
  · trivial
  · split
    · trivial
    · split
      · next vs _ s1 heq =>
        rw [heq] at hr
        have hlows : AfterGaps gaps Confined s (s1.setLows ((listRegs list).zip vs)) :=
          AfterGaps.confined hr (confined_setLows ..)
        have hsp := hlows.confined
          (confined_setSp (hlows.privileged.trans h) (pastWords s.sp (stackCount p list)))
        split
        · exact hsp.nextIn (bxWritePc_isolated (hsp.privileged.trans h) _)
        · exact hsp.nextIn (advance_isolated 2 (.refl _))
      · next heq =>
        rw [heq] at hr
        exact (AfterGaps.confined hr (confined_setSomeLows ..)).nextIn (raiseHardFault_isolated ..)
      · trivial

theorem abandonLoad_confined (base : Option LowReg) (list : BitVec 8) (gaps : Gaps) (n : Nat)
    (a : Word) :
    (abandonLoad base list (gapsWithin gaps n) a s).Ends (AfterGaps gaps Confined s) := by
  have hr := readWords_within gaps n (gapsWithin gaps n).length a s
  unfold abandonLoad
  rw [h]
  split
  · next heq =>
    rw [heq] at hr
    exact AfterGaps.confined hr (confined_setSomeLows ..)
  · next heq =>
    rw [heq] at hr
    exact AfterGaps.confined hr (confined_setSomeLows ..)
  · trivial

theorem abandonStore_confined (gaps : Gaps) (n : Nat) (ws : List Word) (a : Word) {t : State}
    (ht : Confined s t) :
    (abandonStore (gapsWithin gaps n) ws a t).Ends (AfterGaps gaps Confined s) := by
  rw [abandonStore, ht.privileged, h]
  exact storeWords_within gaps n _ a ht

theorem abandoned_confined {i : Instr} {gaps : Gaps} {e : Eff Unit}
    (ha : abandoned i gaps s = some e) : e.Ends (AfterGaps gaps Confined s) := by
  unfold abandoned at ha
  split at ha
  · cases ha
    exact AfterGaps.of_none (.refl s)
  · split at ha
    · cases ha
    · cases ha
      exact abandonStore_confined h _ _ _ _ (confined_stmDrawn ..)
  · split at ha
    · cases ha
    · cases ha
      exact abandonStore_confined h _ _ _ _ (.refl s)
  · split at ha
    · cases ha
    · cases ha
      exact abandonLoad_confined h ..
  · split at ha
    · cases ha
    · cases ha
      exact abandonLoad_confined h ..
  · cases ha

end Transfers

/-! ## The instructions -/

section Instructions

variable {s : State}

theorem execCmpHi_isolated (rn rm : RegNum) : NextIn (Isolated s) (execCmpHi rn rm s) := by
  unfold execCmpHi
  split
  · trivial
  · split
    · trivial
    · exact advance_isolated 2 (confined_setFlags s _)

theorem execBlx_isolated (rm : RegNum) (sbz : BitVec 3) :
    NextIn (Isolated s) (execBlx rm sbz s) := by
  unfold execBlx
  split
  · trivial
  · exact .inl ((confined_setLr s _).trans (confined_exchangeTo _ _))

theorem execBCond_isolated (c : Cond) (imm8 : BitVec 8) :
    NextIn (Isolated s) (execBCond c imm8 s) := by
  unfold execBCond
  split
  · exact .inl (confined_branchTo s _)
  · exact advance_isolated 2 (.refl s)

/-- SVC enters SVCall, or HardFault where its priority does not suffice (R423). -/
theorem execSvc_isolated (imm8 : BitVec 8) : NextIn (Isolated s) (execSvc imm8 s) := by
  unfold execSvc
  split
  · exact exceptionEntry_isolated _ (.inl rfl)
  · exact raiseHardFault_isolated _ s

theorem execWfe_isolated : NextIn (Isolated s) (execWfe s) := by
  unfold execWfe
  split
  · exact advance_isolated 2 {}
  · exact advance_isolated 2 {}

theorem barrier_isolated {t : State} (wrong : Bool) (ht : Confined s t) :
    NextIn (Isolated s) (if wrong then .refused .unpredictableEncoding else advance 4 t) := by
  split
  · trivial
  · exact advance_isolated 4 ht

variable (h : s.privileged = false)
include h

theorem storeReg_isolated (w : Width) (a v : Word) : NextIn (Isolated s) (storeReg w a v s) := by
  rw [storeReg, h]
  exact access_isolated 2 (memWrite_confined w a v s)

theorem loadReg_isolated (w : Width) (ext : Word → Word) (rt : LowReg) (a : Word) :
    NextIn (Isolated s) (loadReg w ext rt a s) := by
  rw [loadReg, h]
  refine access_isolated 2 ((memRead_confined w a s).andThen fun v t ht => ?_)
  exact Confined.trans ht (confined_setLow t _ _)

theorem putHigh_isolated (rd : RegNum) (v : Word) : NextIn (Isolated s) (s.putHigh rd v) := by
  unfold State.putHigh
  split
  · exact .inl (confined_branchTo s v)
  · exact advance_isolated 2 (confined_setReg h rd v)

theorem execAddHi_isolated (rdn rm : RegNum) : NextIn (Isolated s) (execAddHi rdn rm s) := by
  unfold execAddHi
  split
  · trivial
  · exact putHigh_isolated h rdn _

theorem execBx_isolated (rm : RegNum) (sbz : BitVec 3) : NextIn (Isolated s) (execBx rm sbz s) := by
  unfold execBx
  split
  · trivial
  · exact bxWritePc_isolated h _

/-- CPS of unprivileged code changes nothing (R289). -/
theorem execCps_isolated (im : Bool) (sb : BitVec 4) : NextIn (Isolated s) (execCps im sb s) := by
  unfold execCps
  rw [h]
  split
  · trivial
  · exact advance_isolated 2 (.refl s)

theorem execMsr_isolated (sbz4 : BitVec 1) (rn : RegNum) (sbz13 : BitVec 1) (sb1000 : BitVec 4)
    (sysm : BitVec 8) : NextIn (Isolated s) (execMsr sbz4 rn sbz13 sb1000 sysm s) := by
  unfold execMsr
  split
  · trivial
  · split
    · trivial
    · split
      · exact advance_isolated 4 (confined_writeSpecial h sysm _)
      · trivial

theorem execMrs_isolated (sbz4 : BitVec 1) (sbo : BitVec 4) (sbz13 : BitVec 1) (rd : RegNum)
    (sysm : BitVec 8) : NextIn (Isolated s) (execMrs sbz4 sbo sbz13 rd sysm s) := by
  unfold execMrs
  split
  · trivial
  · split
    · trivial
    · split
      · exact advance_isolated 4 (confined_setReg h rd _)
      · trivial

/-- Every instruction of unprivileged code, the events of `gaps` between its accesses. -/
theorem execAmid_isolated (gaps : Gaps) (i : Instr) :
    NextIn (AfterGaps gaps Isolated s) (execAmid gaps i s) := by
  have single {o : Host.Outcome State Fault Refusal} (ho : NextIn (Isolated s) o) :
      NextIn (AfterGaps gaps Isolated s) o := ho.mono fun _ => AfterGaps.of_none
  cases i with
  | push m list => exact pushAmid_isolated h gaps m list
  | pop p list => exact popAmid_isolated h gaps p list
  | stm rn list => exact stmAmid_isolated h gaps rn list
  | ldm rn list => exact ldmAmid_isolated h gaps rn list
  | lslsImm | lsrsImm | asrsImm | lslsReg | lsrsReg | asrsReg | rors | addsReg | subsReg | addsImm3
  | subsImm3 | addsImm8 | subsImm8 | adcs | sbcs | rsbs | movsImm | movsReg | ands | eors | orrs
  | muls | bics | mvns =>
    exact single (advance_isolated 2 ((confined_setLow s _ _).trans (confined_setFlags _ _)))
  | cmpImm | cmpReg | cmn | tst => exact single (advance_isolated 2 (confined_setFlags s _))
  | adr | addSpImm | sxth | sxtb | uxth | uxtb | rev | rev16 | revsh =>
    exact single (advance_isolated 2 (confined_setLow s _ _))
  | addSp | subSp => exact single (advance_isolated 2 (confined_setSp h _))
  | addHi rdn rm => exact single (execAddHi_isolated h rdn rm)
  | cmpHi rn rm => exact single (execCmpHi_isolated rn rm)
  | movHi rd rm => exact single (putHigh_isolated h rd _)
  | bx rm sbz => exact single (execBx_isolated h rm sbz)
  | blx rm sbz => exact single (execBlx_isolated rm sbz)
  | ldrLit | ldrsbReg | ldrReg | ldrhReg | ldrbReg | ldrshReg | ldrImm | ldrbImm | ldrhImm | ldrSp =>
    exact single (loadReg_isolated h _ _ _ _)
  | strReg | strhReg | strbReg | strImm | strbImm | strhImm | strSp =>
    exact single (storeReg_isolated h _ _ _)
  | cps im sb => exact single (execCps_isolated h im sb)
  | bkpt => exact single (raiseHardFault_isolated .breakpoint s)
  | udf | udfW => exact single (raiseHardFault_isolated .undefinedInstruction s)
  | nop | yield | hintNop => exact single (advance_isolated 2 (.refl s))
  | wfe => exact single execWfe_isolated
  | wfi => exact single (advance_isolated 2 (confined_waitForInterrupt s))
  | sev => exact single (advance_isolated 2 {})
  | bCond c imm8 => exact single (execBCond_isolated c imm8)
  | b imm11 => exact single (.inl (confined_branchTo s _))
  | svc imm8 => exact single (execSvc_isolated imm8)
  | bl => exact single (.inl ((confined_setLr s _).trans (confined_branchTo _ _)))
  | msr => exact single (execMsr_isolated h ..)
  | mrs => exact single (execMrs_isolated h ..)
  | dsb | dmb => exact single (barrier_isolated _ (.refl s))
  | isb => exact single (barrier_isolated _ (confined_synchronise s))

theorem exec_isolated (i : Instr) : NextIn (Isolated s) (exec i s) := by
  rw [← execAmid_nil]
  exact (execAmid_isolated h [] i).mono fun _ => afterGaps_nil.mp

end Instructions

/-! ## The core's step (R46, R312, R428, R480) -/

section Steps

variable {s : State}

/-- NMI, the one exception that Lockup is left for, is takeable there (R428). -/
theorem lockupStep_isolated (c : Choice) : NextIn (Isolated s) (lockupStep c s) := by
  unfold lockupStep
  split
  · next hnmi =>
    obtain ⟨hreq, hprio⟩ := Bool.and_eq_true_iff.mp hnmi
    split
    · exact .inl (.refl s)
    · refine exceptionEntry_isolated _ (.inr (.inr ?_))
      have hlt : s.prio .nmi < s.executionPriority := by
        rw [eq_of_beq hprio]
        exact (by decide : (-2 : Int) < -1)
      rw [State.takeable, State.takeableWith, hreq, Bool.true_and]
      exact decide_eq_true hlt
  · split
    · exact .inl (.refl s)
    · trivial

theorem sleepStep_isolated (c : Choice) : NextIn (Isolated s) (sleepStep c s) := by
  unfold sleepStep
  split
  · next e he => exact exceptionEntry_isolated _ (mayEnter_of_best he)
  · split
    · exact .inl {}
    · exact .inl (.refl s)

variable (h : s.privileged = false)
include h

theorem runInstruction_isolated : NextIn (Isolated s) (runInstruction s) := by
  have hf := fetchInstr_confined s
  unfold runInstruction
  cases heq : fetchInstr s with
  | hardFault c t => rw [heq] at hf; exact Confined.nextIn hf (raiseHardFault_isolated c t)
  | refuse r => trivial
  | ok d t =>
    rw [heq] at hf
    cases d with
    | instr i | unpredictable i =>
      exact Confined.nextIn hf (exec_isolated ((Confined.privileged hf).trans h) i)
    | undefined16 | undefined32 | truncated =>
      exact Confined.nextIn hf (raiseHardFault_isolated _ t)

theorem boundaryStep_isolated : NextIn (Isolated s) (boundaryStep s) := by
  unfold boundaryStep
  split
  · next e he => exact exceptionEntry_isolated _ (mayEnter_of_best he)
  · exact runInstruction_isolated h

/-- The instruction fetched from `s` to `t` is isolated as it is from `t`. -/
theorem fetched_isolated {t : State} (ht : Confined s t) (gaps : Gaps) (i : Instr) :
    NextIn (AfterGaps gaps Isolated s) (execAmid gaps i t) :=
  (execAmid_isolated (ht.privileged.trans h) gaps i).mono fun _ hu =>
    hu.before ht fun _ _ => Confined.isolated

theorem amidStep_isolated (gaps : Gaps) : NextIn (AfterGaps gaps Isolated s) (amidStep gaps s) := by
  have hf := fetchInstr_confined s
  unfold amidStep
  split
  · next heq =>
    rw [heq] at hf
    exact fetched_isolated h hf gaps _
  · exact (runInstruction_isolated h).mono fun _ => AfterGaps.of_none

theorem abandonStep_isolated (hin : s.resetIn = none) (gaps : Gaps) :
    NextIn (AfterGaps gaps Isolated s) (abandonStep gaps s) := by
  have hf := fetchInstr_confined s
  have hboundary : NextIn (AfterGaps gaps Isolated s) (boundaryStep s) :=
    (boundaryStep_isolated h).mono fun _ => AfterGaps.of_none
  unfold abandonStep
  split
  · next i s1 heq =>
    rw [heq] at hf
    have cut {e : Eff Unit} (ha : abandoned i gaps s1 = some e) :
        e.Ends (AfterGaps gaps Confined s) :=
      (abandoned_confined ((Confined.privileged hf).trans h) ha).mono fun _ hu =>
        hu.before hf fun _ _ => .trans
    split
    · exact hboundary
    · next s2 ha =>
      split
      · next e he =>
        exact AfterGaps.nextIn (cut ha) (exceptionEntry_isolated _ (mayEnter_of_best he))
      · have hin2 : s2.resetIn = none := AfterGaps.resetIn (cut ha) hin
        rw [hin2]
        exact fetched_isolated h hf gaps i
    · next c s2 ha => exact AfterGaps.nextIn (cut ha) (raiseHardFault_isolated c s2)
    · trivial
  · exact hboundary

/-- The occasions for events that a choice gives (R312). -/
def Choice.gaps : Choice → Gaps
  | .run => []
  | .delay => []
  | .amid gaps => gaps
  | .abandon gaps => gaps

theorem coreStep_isolated (hin : s.resetIn = none) (c : Choice) :
    NextIn (AfterGaps c.gaps Isolated s) (coreStep c s) := by
  have single {o : Host.Outcome State Fault Refusal} (ho : NextIn (Isolated s) o) :
      NextIn (AfterGaps c.gaps Isolated s) o := ho.mono fun _ => AfterGaps.of_none
  unfold coreStep
  split
  · exact single (lockupStep_isolated c)
  · split
    · exact single (sleepStep_isolated c)
    · split
      · exact single (boundaryStep_isolated h)
      · cases c with
        | run => exact single (boundaryStep_isolated h)
        | delay => exact single (runInstruction_isolated h)
        | amid gaps => exact amidStep_isolated h gaps
        | abandon gaps => exact abandonStep_isolated h hin gaps

end Steps

end Sys2Proof.Machine
end

section
/-! PROOFS. Unprivileged code changes nothing that only privileged code may change (`60_exceptions.md` R431,
R432). -/

namespace Sys2Proof.Machine

open Sys2Proof

/-! ## The entry of an exception from unprivileged code (R410, R411) -/

/-- What is left of the privileged state of `s` after the entry of `e`. -/
structure EntryKeeps (s t : State) (e : Exc) : Prop where
  ipsr : t.ipsr = BitVec.ofNat 6 e.number
  active : t.active = s.active.set e true
  pending : t.pending = s.pending.set e false
  primask : t.primask = s.primask
  npriv : t.npriv = s.npriv
  enabled : t.enabled = s.enabled
  pri : t.pri = s.pri
  scr : t.scr = s.scr
  vtor : t.vtor = s.vtor
  resetRequest : t.resetRequest = s.resetRequest
  syst : t.syst = { s.syst with countFlag := t.syst.countFlag }

theorem EntryKeeps.of_confined {s u t : State} {e : Exc} (hu : Confined s u) (h : EntryKeeps u t e) :
    EntryKeeps s t e where
  ipsr := h.ipsr
  active := by rw [h.active, hu.active]
  pending := by rw [h.pending, hu.pending]
  primask := h.primask.trans hu.primask
  npriv := h.npriv.trans hu.npriv
  enabled := h.enabled.trans hu.enabled
  pri := h.pri.trans hu.pri
  scr := h.scr.trans hu.scr
  vtor := h.vtor.trans hu.vtor
  resetRequest := h.resetRequest.trans hu.resetRequest
  syst := by rw [h.syst, hu.syst]

/-- A read changes COUNTFLAG at most (R471). -/
theorem memRead_syst {priv : Bool} {w : Width} {a v : Word} {s t : State}
    (h : memRead priv w a s = .ok v t) : t.syst = { s.syst with countFlag := t.syst.countFlag } := by
  obtain ⟨_, ⟨rfl, _⟩ | ⟨_, _, rfl⟩ | ⟨_, _, reg, _, _, rfl⟩⟩ := memRead_ok h
  · rfl
  · rfl
  · cases reg with
    | systCsr =>
      rw [readSys]
      split
      · rfl
      · rfl
    | _ => rfl

theorem exceptionTaken_entryKeeps {e : Exc} {s t : State} (h : exceptionTaken e s = .ok () t) :
    EntryKeeps s t e := by
  obtain ⟨v, s1, hread, hset⟩ := Eff.andThen_eq_ok h
  have hsyst := memRead_syst hread
  have hfrom : ReadFrom s s1 := memRead_readFrom hread
  rw [ReadFrom] at hfrom
  cases hset
  rw [hfrom]
  exact ⟨rfl, rfl, rfl, rfl, rfl, rfl, rfl, rfl, rfl, rfl, hsyst⟩

/-- The frame is stacked with the privilege of the interrupted code (R410). -/
theorem pushStack_confined {s : State} (h : s.privileged = false) (ret : Word) :
    (pushStack ret s).Ends (Confined s) := by
  unfold pushStack
  rw [h]
  split
  · trivial
  · refine ((storeWords_confined [] _ _ s).mono fun _ => afterGaps_nil.mp).andThen fun _ t ht => ?_
    exact (Confined.trans ht (confined_setSp (ht.privileged.trans h) _)).trans (confined_setLr _ _)

theorem exceptionEntry_entryKeeps {e : Exc} {ret : Word} {s t : State} (h : s.privileged = false)
    (hin : s.resetIn = none) (hentry : exceptionEntry e ret s = .next t) : EntryKeeps s t e := by
  obtain ⟨s1, hpush, htaken⟩ := exceptionEntry_next hin hentry
  have hs : Confined s s1 := by
    have := pushStack_confined h ret
    rw [hpush] at this
    exact this
  exact (exceptionTaken_entryKeeps htaken).of_confined hs

/-! ## The step -/

/-- A core step, asleep, awake or in Lockup, is made as the next input says. -/
theorem step_eq_coreStep {s : State} (hcore : startsWithCore s.inputs = true)
    (hreset : s.inputs = [] → s.resetRequest = false) :
    step s = coreStep s.nextChoice s.afterInput := by
  cases hin : s.inputs with
  | nil => rw [step_of_nil hin, hreset hin, State.nextChoice, hin]; rfl
  | cons i rest =>
    rw [hin] at hcore
    cases i with
    | core c => rw [step_of_cons hin, State.nextChoice, hin]; rfl
    | outside | reset | resetDuring => cases hcore

theorem nextGaps_eq (s : State) : s.nextGaps = s.nextChoice.gaps := by
  unfold State.nextGaps State.nextChoice
  cases s.inputs with
  | nil => rfl
  | cons i rest =>
    cases i with
    | core c => cases c <;> rfl
    | outside | reset | resetDuring => rfl

/-- A step of unprivileged code is isolated from what the first of its events leave. -/
theorem step_isolated {s : State} (hpriv : s.privileged = false) (hin : s.resetIn = none)
    (hcore : startsWithCore s.inputs = true) (hreset : s.inputs = [] → s.resetRequest = false) :
    NextIn (AfterGaps s.nextGaps Isolated s) (step s) := by
  rw [step_eq_coreStep hcore hreset, nextGaps_eq]
  have hinput : Confined s s.afterInput := {}
  exact (coreStep_isolated (s := s.afterInput) hpriv hin s.nextChoice).mono fun _ ht =>
    ht.before hinput fun _ _ => Confined.isolated

/-- Settles O60: what every operation of unprivileged code does is confined or an entry (`step_isolated`),
and an entry keeps what is left of the privileged state (`exceptionEntry_entryKeeps`). -/
theorem unprivilegedIsolation : Obligations.UnprivilegedIsolation := by
  intro s t hpriv hcore hreset hin hstep
  obtain ⟨n, hiso⟩ := nextIn_iff.mp (step_isolated hpriv hin hcore hreset) t hstep
  refine ⟨n, _, rfl, ?_⟩
  obtain ht | ⟨u, e, ret, hu, hmay, hentry⟩ := hiso
  · exact .inl ht.sameSystem
  · have huevents : AfterGaps s.nextGaps Confined s u := ⟨n, hu⟩
    have hk := (exceptionEntry_entryKeeps (huevents.privileged.trans hpriv) (huevents.resetIn hin)
      hentry).of_confined hu
    exact .inr ⟨u, e, ret, hu.sameSystem, hentry, hu.takeable ▸ hmay, hk.ipsr,
      by simpa using hk.active, hk.pending, by simpa using hk.primask, by simpa using hk.npriv,
      by simpa using hk.enabled, by simpa using hk.pri, by simpa using hk.scr, by simpa using hk.vtor,
      by simpa using hk.resetRequest, hk.syst⟩

end Sys2Proof.Machine
end

section
/-! PROOFS. A fetch of what a store wrote, before and after the next synchronisation (`20_memory.md` R126,
D24). -/

namespace Sys2Proof.Machine

open Sys2Proof

theorem touchesDirty_eq (dirty : List Host.Cell) (a : Nat) :
    touchesDirty dirty a =
      ((dirty.any fun cell => cell.1 == a) || dirty.any fun cell => cell.1 == a + 1) := by
  induction dirty with
  | nil => rfl
  | cons cell rest ih =>
    rw [touchesDirty] at ih
    simp only [touchesDirty, List.any_cons, ih]
    ac_rfl

section Stored

variable {s : State} (hdirty : s.dirty = []) (w : Width) (x : Nat) (v : Word) (a : Nat)
include hdirty

/-- Dirty are the bytes of the first store since the synchronisation. -/
theorem touchesDirty_storeAt : touchesDirty (s.storeAt w x v).dirty a =
    decide (a < x + w.bytes ∧ x < a + 2) := by
  have hnoted (b : Nat) := (storesNoted_storeAt s w x v b).1
  simp only [hdirty, List.any_nil, Bool.false_or] at hnoted
  have hpos : 0 < w.bytes := by cases w <;> decide
  rw [touchesDirty_eq, hnoted, hnoted, ← Bool.decide_or]
  exact decide_eq_decide.mpr (by omega)

theorem oldHalf_storeAt : (s.storeAt w x v).oldHalf a = s.newHalf a := by
  have hold (b : Nat) := (storesNoted_storeAt s w x v b).2
  rw [State.oldHalf, State.newHalf, hold, hold, hdirty]
  rfl

end Stored

theorem newHalf_storeAt_apart (s : State) {w : Width} {x : Nat} (v : Word) {a : Nat}
    (h : x + w.bytes ≤ a ∨ a + 2 ≤ x) : (s.storeAt w x v).newHalf a = s.newHalf a := by
  rw [State.newHalf, State.newHalf, State.storeAt_mem, Memory.read_store, Memory.read_store,
    if_neg (by omega), if_neg (by omega)]

theorem fetchHalf_touched {s : State} {a : Word} (hxn : executeNever a = false)
    (htarget : s.cfg.target .fetch s.privileged .half a.toNat = some .ram ∨
      s.cfg.target .fetch s.privileged .half a.toNat = some .rom)
    (htouched : touchesDirty s.dirty a.toNat = true) :
    fetchHalf a s = .ok (if Config.freeBit s.free then s.newHalf a.toNat else s.oldHalf a.toNat)
      { s with free := s.free + 1 } := by
  obtain htarget | htarget := htarget <;> simp [fetchHalf, hxn, htarget, htouched]

/-- Settles O9: what the store wrote is Dirty until the synchronisation, with what was there before
(`touchesDirty_storeAt`, `oldHalf_storeAt`). -/
theorem fetchAfterStore : Obligations.FetchAfterStore := by
  rintro s t w x v a hdirty ⟨hxn, htarget, hclean⟩ rfl
  have htouched := touchesDirty_storeAt hdirty w x v a.toNat
  refine ⟨fun hend hstart => ?_, fun happart => ?_, ?_⟩
  · have hyes := htouched.trans (decide_eq_true ⟨hend, hstart⟩)
    rw [fetchHalf_touched (s := s.storeAt w x v) hxn htarget hyes, oldHalf_storeAt hdirty]
    rfl
  · have hfetchable : (s.storeAt w x v).fetchable a :=
      ⟨hxn, htarget, htouched.trans (decide_eq_false (by omega))⟩
    rw [fetchHalf_fetchable hfetchable, newHalf_storeAt_apart s v happart]
  · exact fetchHalf_fetchable (s := (s.storeAt w x v).synchronise) ⟨hxn, htarget, rfl⟩

end Sys2Proof.Machine
end

section
/-! SUPPORT. One load or store of one register: where it reaches memory, where it faults and where it is
refused (`20_memory.md` R95, R96, R100, R101, R111 to R114, R461). -/

namespace Sys2Proof.Machine

open Sys2Proof

/-! ## The bytes of a stored value (R91, R92, R95) -/

theorem Memory.read_store_little (w : Width) (m : Memory) (a : Nat) (v : Word) {k : Nat}
    (hk : k < w.bytes) : (m.store false w a v).read (a + k) = v.extractLsb' (8 * k) 8 := by
  rw [Memory.read_store, if_pos (by omega), Nat.add_sub_cancel_left]
  rfl

theorem Memory.read_store_big (w : Width) (m : Memory) (a : Nat) (v : Word) {k : Nat}
    (hk : k < w.bytes) :
    (m.store true w a v).read (a + (w.bytes - 1) - k) = v.extractLsb' (8 * k) 8 := by
  have hindex : w.bytes - 1 - (a + (w.bytes - 1) - k - a) = k := by omega
  rw [Memory.read_store, if_pos (by omega), byteOf, if_pos rfl, hindex]

/-- The two bytes of a halfword make it. -/
theorem append_bytes_half (v : Word) :
    v.extractLsb' 8 8 ++ v.extractLsb' 0 8 = v.setWidth 16 := by
  rw [BitVec.extractLsb'_append_extractLsb'_eq_extractLsb' (by omega),
    BitVec.setWidth_eq_extractLsb' (by omega)]

/-- A halfword read where it was stored. -/
theorem Memory.value_store_half (big : Bool) (m : Memory) (a : Nat) (v : Word) :
    (m.store big .half a v).value big .half a = (v.setWidth 16).setWidth 32 := by
  rw [← append_bytes_half]
  cases big with
  | false => simp [Memory.value, Memory.read_store, byteOf, Width.bytes]
  | true => simp [Memory.value, Memory.read_store, byteOf, Width.bytes]

/-- A byte read where it was stored. -/
theorem Memory.value_store_byte (big : Bool) (m : Memory) (a : Nat) (v : Word) :
    (m.store big .byte a v).value big .byte a = (v.setWidth 8).setWidth 32 := by
  rw [BitVec.setWidth_eq_extractLsb' (w := 8) (by omega)]
  simp [Memory.value, Memory.read_store, byteOf, Width.bytes]

/-! ## Accesses that reach memory -/

theorem memWrite_rom {priv : Bool} {w : Width} {a : Word} {s : State} (v : Word)
    (haligned : a.toNat % w.bytes = 0) (hppb : inPpb a = false)
    (htarget : s.cfg.target .write priv w a.toNat = some .rom) : memWrite priv w a v s = .ok () s := by
  simp [memWrite, haligned, hppb, htarget]

theorem setWidth_extract_low {k : Nat} (hk : k ≤ 32) (x : BitVec k) :
    ((x.setWidth 32).extractLsb' 0 k).setWidth 32 = x.setWidth 32 := by
  rw [BitVec.extractLsb'_setWidth_of_le (by omega), BitVec.extractLsb'_eq_self]

/-- A value in memory has no bits beyond its width. -/
theorem widthLow_value (big : Bool) (w : Width) (m : Memory) (a : Nat) :
    widthLow w (m.value big w a) = m.value big w a := by
  cases w with
  | byte => exact setWidth_extract_low (by decide) (m.read a)
  | half =>
    rw [Memory.value]
    split
    · exact setWidth_extract_low (k := 8 + 8) (by decide) _
    · exact setWidth_extract_low (k := 8 + 8) (by decide) _
  | word => rfl

theorem loadReg_readable {s : State} {w : Width} {a : Word} (ext : Word → Word) (rt : LowReg)
    (hroom : s.roomFor 2) (h : s.readable s.privileged w a) :
    loadReg w ext rt a s =
      .next { s.setLow rt (ext (s.mem.value s.cfg.bigEndian w a.toNat)) with pc := s.pc + 2#32 } := by
  rw [loadReg, memRead_readable h]
  exact advance_room (s := s.setLow rt _) hroom

theorem storeReg_writable {s : State} {w : Width} {a : Word} (v : Word) (hroom : s.roomFor 2)
    (h : s.writable s.privileged w a) :
    storeReg w a v s = .next { s.storeAt w a.toNat v with pc := s.pc + 2#32 } := by
  rw [storeReg, memWrite_writable v h]
  exact advance_room (s := s.storeAt w a.toNat v) hroom

/-! ## Accesses that fault or are refused -/

theorem loadReg_hardFault {s : State} {w : Width} {a : Word} (ext : Word → Word) (rt : LowReg)
    (h : a.toNat % w.bytes ≠ 0 ∨ s.busErrorAt .read w a) :
    loadReg w ext rt a s = exec (.udf 0#8) s := by
  obtain ⟨c, hc⟩ := memRead_busError (s := s) (h.imp_right And.right)
  rw [loadReg, hc]
  rfl

theorem storeReg_hardFault {s : State} {w : Width} {a : Word} (v : Word)
    (h : a.toNat % w.bytes ≠ 0 ∨ s.busErrorAt .write w a) :
    storeReg w a v s = exec (.udf 0#8) s := by
  obtain ⟨c, hc⟩ := memWrite_busError (s := s) v (h.imp_right And.right)
  rw [storeReg, hc]
  rfl

/-- The System Control Space lies in the Private Peripheral Bus (R111). -/
theorem inPpb_of_inScs {a : Word} (h : inScs a = true) : inPpb a = true := by
  have hscs : a.toNat / 2 ^ 12 % 2 ^ 20 = 0xE000E := by
    simpa [Nat.shiftRight_eq_div_pow] using congrArg BitVec.toNat (eq_of_beq h)
  refine beq_iff_eq.mpr (BitVec.eq_of_toNat_eq ?_)
  rw [BitVec.extractLsb'_toNat, Nat.shiftRight_eq_div_pow, BitVec.toNat_ofNat]
  omega

/-- A privileged byte or halfword access to the System Control Space is refused (R461), as is a privileged
access to an address of the PPB that holds no register (R111, R460). -/
theorem memRead_refused {w : Width} {a : Word} {s : State} (haligned : a.toNat % w.bytes = 0) :
    (inScs a = true → w ≠ .word → memRead true w a s = .refuse .scsWidth) ∧
      (inPpb a = true → inScs a = false ∨ w = .word → sysRegAt a = none →
        memRead true w a s = .refuse .reservedPpb) := by
  refine ⟨fun hscs hw => ?_, fun hppb hwidth hreg => ?_⟩
  · simp [memRead, haligned, inPpb_of_inScs hscs, hscs, hw]
  · have hallowed : (inScs a && w != .word) = false := by
      obtain h | h := hwidth <;> simp [h]
    simp [memRead, haligned, hppb, hallowed, hreg]

theorem memWrite_refused {w : Width} {a : Word} {s : State} (v : Word)
    (haligned : a.toNat % w.bytes = 0) :
    (inScs a = true → w ≠ .word → memWrite true w a v s = .refuse .scsWidth) ∧
      (inPpb a = true → inScs a = false ∨ w = .word → sysRegAt a = none →
        memWrite true w a v s = .refuse .reservedPpb) := by
  refine ⟨fun hscs hw => ?_, fun hppb hwidth hreg => ?_⟩
  · simp [memWrite, haligned, inPpb_of_inScs hscs, hscs, hw]
  · have hallowed : (inScs a && w != .word) = false := by
      obtain h | h := hwidth <;> simp [h]
    simp [memWrite, haligned, hppb, hallowed, hreg]

/-! ## Transfers that cross the top (R104) -/

theorem length_listRegs_le (list : BitVec 8) : (listRegs list).length ≤ 8 :=
  (List.length_filter_le ..).trans_eq List.length_finRange

theorem crossesTop_of_lt {a : Word} {n : Nat} (h : 2 ^ 32 < a.toNat + 4 * n) :
    crossesTop a n = true := decide_eq_true h

/-- PUSH from a stack pointer so low that its words begin below the top of memory. -/
theorem crossesTop_pushBase {s : State} {m : Bool} {list : BitVec 8} (hsp : s.sp ≠ 0#32)
    (hlow : s.sp.toNat < 4 * stackCount m list) :
    crossesTop (s.pushBase m list) (stackCount m list) = true := by
  have hpos : s.sp.toNat ≠ 0 := fun h => hsp (BitVec.eq_of_toNat_eq h)
  have hcount : stackCount m list ≤ 9 := by
    have := length_listRegs_le list
    have := m.toNat_le
    rw [stackCount_eq]
    omega
  refine crossesTop_of_lt ?_
  rw [State.pushBase, BitVec.toNat_sub, BitVec.toNat_ofNat]
  omega

end Sys2Proof.Machine
end

section
/-! PROOFS. Loads and stores of one register (`43_load_store_single.md`), and mixed-width accesses
(`20_memory.md` R95). -/

namespace Sys2Proof.Machine

open Sys2Proof

/-- Settles O21: the access is one read of memory, and the extension that of the claim. -/
theorem loadInstructions : Obligations.LoadInstructions := by
  intro s rm rn rt imm5 imm8 hroom f hf hread
  obtain ⟨ext, hexec, hext⟩ := exec_loadForm f hf
  have hvalue := hext (s.mem.value s.cfg.bigEndian f.width f.address.toNat)
  rw [widthLow_value] at hvalue
  rw [hexec, loadReg_readable ext rt hroom hread, hvalue]
  rfl

/-- Settles O22: the access is one store (`Memory.read_store`), noted in Dirty (`storesNoted_storeAt`). -/
theorem storeInstructions : Obligations.StoreInstructions := by
  intro s rm rn rt imm5 imm8 hroom f hf
  rw [exec_storeForm f hf]
  refine ⟨fun hwrite => ⟨_, storeReg_writable _ hroom hwrite, rfl, ?_, fun x => ?_⟩,
    fun haligned hppb hrom => ?_⟩
  · exact storesNoted_storeAt s f.width f.address.toNat (s.low rt)
  · exact Memory.read_store ..
  · rw [storeReg, memWrite_rom _ haligned hppb hrom]
    exact advance_room hroom

/-- Settles O23: the access answers the HardFault that UDF raises. -/
theorem faultingAccesses : Obligations.FaultingAccesses := by
  intro s rm rn rt imm5 imm8 list
  refine ⟨fun f hf h => ?_, fun f hf h => ?_, fun hmisaligned hlist => ⟨?_, ?_⟩⟩
  · rw [exec_storeForm f hf, storeReg_hardFault _ h]
  · obtain ⟨ext, hexec, _⟩ := exec_loadForm f hf
    rw [hexec, loadReg_hardFault ext rt h]
  · change ldmAmid [] rn list s = _
    rw [ldmAmid, if_neg hlist, if_pos hmisaligned]
    rfl
  · change stmAmid [] rn list s = _
    rw [stmAmid, if_neg hlist, if_pos hmisaligned]
    rfl

/-- Settles O24: the access, or the check before a multiple transfer, refuses. -/
theorem accessStops : Obligations.AccessStops := by
  intro s rm rn rt imm5 imm8 list x n
  refine ⟨fun f hf haligned => ?_, fun f hf haligned => ?_, ?_⟩
  · obtain ⟨hscs, hreserved⟩ := memWrite_refused (s := s) (s.low rt) haligned
    rw [exec_storeForm f hf, storeReg]
    refine ⟨fun hpriv hin hw => ?_, fun hpriv hppb hwidth hreg => ?_⟩
    · rw [hpriv, hscs hin hw, Eff.finishAt_refuse]
    · rw [hpriv, hreserved hppb hwidth hreg, Eff.finishAt_refuse]
  · obtain ⟨ext, hexec, _⟩ := exec_loadForm f hf
    obtain ⟨hscs, hreserved⟩ := memRead_refused (s := s) haligned
    rw [hexec, loadReg]
    refine ⟨fun hpriv hin hw => ?_, fun hpriv hppb hwidth hreg => ?_⟩
    · rw [hpriv, hscs hin hw, Eff.andThen_refuse, Eff.finishAt_refuse]
    · rw [hpriv, hreserved hppb hwidth hreg, Eff.andThen_refuse, Eff.finishAt_refuse]
  · rintro hn
    obtain rfl : n = (listRegs list).length := hn
    refine ⟨fun hlist haligned htop => ⟨?_, ?_⟩, fun hlist => ?_⟩
    · change ldmAmid [] rn list s = _
      rw [ldmAmid, if_neg hlist, if_neg (not_not.mpr haligned), crossesTop_of_lt htop, if_pos rfl]
    · change stmAmid [] rn list s = _
      rw [stmAmid, if_neg hlist, if_neg (not_not.mpr haligned), crossesTop_of_lt htop, if_pos rfl]
    · have hformed : ¬((!x && list == 0#8) = true) := by
        obtain h | h := hlist <;> simp [h]
      rw [← stackCount_eq]
      refine ⟨fun htop => ?_, fun hsp hlow => ?_⟩
      · change popAmid [] x list s = _
        rw [popAmid, if_neg hformed, crossesTop_of_lt htop, if_pos rfl]
      · change pushAmid [] x list s = _
        rw [pushAmid, if_neg hformed, crossesTop_pushBase hsp hlow, if_pos rfl]

/-- Settles O26: a store is the writes of its bytes, and a value read back is made of them. -/
theorem mixedWidthAccess : Obligations.MixedWidthAccess := by
  intro m a v b hb
  obtain rfl : b = fun k => v.extractLsb' (8 * k) 8 := funext hb
  refine ⟨fun k hk => ⟨?_, ?_⟩, fun k hk => ⟨?_, ?_⟩, rfl, rfl, rfl, rfl, rfl, rfl, rfl, rfl,
    fun big => ⟨Memory.value_store_word big m a v, Memory.value_store_half big m a v,
      Memory.value_store_byte big m a v⟩⟩
  · exact Memory.read_store_little .word m a v hk
  · exact Memory.read_store_big .word m a v hk
  · exact Memory.read_store_little .half m a v hk
  · exact Memory.read_store_big .half m a v hk

end Sys2Proof.Machine
end

section
/-! SUPPORT. The formats of `30_encoding.md` read both ways: the halfword of a format is `w` exactly
when the fields of `w` are the operands. -/

namespace Sys2Proof

/-! ## Fields -/

/-- Two adjacent fields read as one. -/
theorem field_append_iff {w : Half} {b : Nat} (n m : Nat) {x : BitVec n} {y : BitVec m} :
    w.extractLsb' b (n + m) = x ++ y ↔ w.extractLsb' (b + m) n = x ∧ w.extractLsb' b m = y := by
  rw [← BitVec.extractLsb'_append_extractLsb'_eq_extractLsb' rfl]
  refine ⟨fun h => ⟨?_, ?_⟩, fun ⟨hx, hy⟩ => by rw [hx, hy]⟩
  · simpa only [BitVec.extractLsb'_append_eq_left] using congrArg (BitVec.extractLsb' m n) h
  · simpa only [BitVec.extractLsb'_append_eq_right] using congrArg (BitVec.extractLsb' 0 m) h

/-- A field inside a known field. -/
theorem field_within {w : Half} {a k : Nat} {op : BitVec k} (h : w.extractLsb' a k = op) (s l : Nat)
    (hs : a ≤ s := by decide) (hl : s + l ≤ a + k := by decide) :
    w.extractLsb' s l = op.extractLsb' (s - a) l := by
  subst h
  ext i hi
  have hlow : s - a + i < k := by omega
  have hsum : a + (s - a + i) = s + i := by omega
  simp [hlow, hsum]

theorem singleton_eq_iff {w x : Half} : [x] = [w] ↔ w.extractLsb' 0 16 = x := by
  rw [BitVec.extractLsb'_eq_self, List.singleton_inj, eq_comm]

theorem pair_eq_iff {w1 w2 x1 x2 : Half} :
    [x1, x2] = [w1, w2] ↔ w1.extractLsb' 0 16 = x1 ∧ w2.extractLsb' 0 16 = x2 := by
  rw [List.cons_eq_cons, singleton_eq_iff, BitVec.extractLsb'_eq_self (x := w1), eq_comm (a := x1)]

theorem lowBits_eq_iff {w : Half} {lo : Nat} {r : LowReg} :
    w.extractLsb' lo 3 = lowBits r ↔ lowField w lo = r :=
  ⟨congrArg BitVec.toFin, congrArg BitVec.ofFin⟩

theorem regBits_eq_iff {w : Half} {lo : Nat} {r : RegNum} :
    w.extractLsb' lo 4 = regBits r ↔ regField w lo = r :=
  ⟨congrArg BitVec.toFin, congrArg BitVec.ofFin⟩

theorem boolBits_eq_iff {w : Half} {i : Nat} {b : Bool} :
    w.extractLsb' i 1 = boolBits b ↔ bitField w i = b := by
  rw [bitField]
  obtain h | h := BitVec.eq_zero_or_eq_one (w.extractLsb' i 1) <;> rw [h] <;> cases b <;> decide

/-- The register number split over DN and Rdn (R149). -/
theorem splitField_eq_iff {w : Half} {r : RegNum} :
    splitField w = r ↔
      w.extractLsb' 7 1 = (regBits r).extractLsb' 3 1 ∧
        w.extractLsb' 0 3 = (regBits r).extractLsb' 0 3 := by
  constructor
  · rintro rfl
    exact ⟨BitVec.extractLsb'_append_eq_left.symm, BitVec.extractLsb'_append_eq_right.symm⟩
  · rintro ⟨hhigh, hlow⟩
    rw [splitField, hhigh, hlow]
    exact congrArg BitVec.toFin
      ((BitVec.extractLsb'_append_extractLsb'_eq_extractLsb' rfl).trans BitVec.extractLsb'_eq_self)

/-! ## Formats of one halfword -/

section Formats

variable {w : Half}

/-- Formats SHIFT_IMM and LS_IMM5 (R145, R152). -/
theorem encodeImm5_eq_iff {op imm5 : BitVec 5} {m d : LowReg} :
    encodeImm5 op imm5 m d = [w] ↔
      w.extractLsb' 11 5 = op ∧ w.extractLsb' 6 5 = imm5 ∧ lowField w 3 = m ∧ lowField w 0 = d := by
  rw [encodeImm5, singleton_eq_iff, field_append_iff 13 3, field_append_iff 10 3,
    field_append_iff 5 5, lowBits_eq_iff, lowBits_eq_iff, and_assoc, and_assoc]

/-- Formats ADDSUB_IMM3, ADDSUB_REG and LS_REG (R146, R151). -/
theorem encodeThree_eq_iff {op : BitVec 7} {m : BitVec 3} {n d : LowReg} :
    encodeThree op m n d = [w] ↔
      w.extractLsb' 9 7 = op ∧ w.extractLsb' 6 3 = m ∧ lowField w 3 = n ∧ lowField w 0 = d := by
  rw [encodeThree, singleton_eq_iff, field_append_iff 13 3, field_append_iff 10 3,
    field_append_iff 7 3, lowBits_eq_iff, lowBits_eq_iff, and_assoc, and_assoc]

theorem encodeThreeReg_eq_iff {op : BitVec 7} {m n d : LowReg} :
    encodeThree op (lowBits m) n d = [w] ↔
      w.extractLsb' 9 7 = op ∧ lowField w 6 = m ∧ lowField w 3 = n ∧ lowField w 0 = d := by
  rw [encodeThree_eq_iff, lowBits_eq_iff]

/-- Formats IMM8 and LDMSTM (R147, R158). -/
theorem encodeImm8_eq_iff {op : BitVec 5} {d : LowReg} {imm8 : BitVec 8} :
    encodeImm8 op d imm8 = [w] ↔
      w.extractLsb' 11 5 = op ∧ lowField w 8 = d ∧ w.extractLsb' 0 8 = imm8 := by
  rw [encodeImm8, singleton_eq_iff, field_append_iff 8 8, field_append_iff 5 3, lowBits_eq_iff,
    and_assoc]

/-- Format DP (R148). -/
theorem encodeDp_eq_iff {op : BitVec 10} {m d : LowReg} :
    encodeDp op m d = [w] ↔ w.extractLsb' 6 10 = op ∧ lowField w 3 = m ∧ lowField w 0 = d := by
  rw [encodeDp, singleton_eq_iff, field_append_iff 13 3, field_append_iff 10 3, lowBits_eq_iff,
    lowBits_eq_iff, and_assoc]

/-- Format HIREG (R149). -/
theorem hireg_eq_iff {op : BitVec 8} {d m : RegNum} :
    [op ++ splitBits d m] = [w] ↔
      w.extractLsb' 8 8 = op ∧ splitField w = d ∧ regField w 3 = m := by
  rw [splitBits, singleton_eq_iff, field_append_iff 8 8, field_append_iff 5 3, field_append_iff 1 4,
    regBits_eq_iff, splitField_eq_iff]
  tauto

/-- Format BX (R150). -/
theorem bx_eq_iff {op : BitVec 9} {m : RegNum} {sbz : BitVec 3} :
    [op ++ regBits m ++ sbz] = [w] ↔
      w.extractLsb' 7 9 = op ∧ regField w 3 = m ∧ w.extractLsb' 0 3 = sbz := by
  rw [singleton_eq_iff, field_append_iff 13 3, field_append_iff 9 4, regBits_eq_iff, and_assoc]

/-- Format SP_IMM7 (R153). -/
theorem imm7_eq_iff {op : BitVec 9} {imm7 : BitVec 7} :
    [op ++ imm7] = [w] ↔ w.extractLsb' 7 9 = op ∧ w.extractLsb' 0 7 = imm7 :=
  singleton_eq_iff.trans (field_append_iff 9 7)

/-- Formats PUSHPOP, IMM8_ONLY and BCOND, the bit M or P and the condition taken into the opcode (R154,
R156, R159). -/
theorem imm8_eq_iff {op imm8 : BitVec 8} :
    [op ++ imm8] = [w] ↔ w.extractLsb' 8 8 = op ∧ w.extractLsb' 0 8 = imm8 :=
  singleton_eq_iff.trans (field_append_iff 8 8)

/-- Format B (R160). -/
theorem imm11_eq_iff {op : BitVec 5} {imm11 : BitVec 11} :
    [op ++ imm11] = [w] ↔ w.extractLsb' 11 5 = op ∧ w.extractLsb' 0 11 = imm11 :=
  singleton_eq_iff.trans (field_append_iff 5 11)

/-- Format CPS (R155). -/
theorem cps_eq_iff {op : BitVec 11} {im : Bool} {sb : BitVec 4} :
    [op ++ boolBits im ++ sb] = [w] ↔
      w.extractLsb' 5 11 = op ∧ bitField w 4 = im ∧ w.extractLsb' 0 4 = sb := by
  rw [singleton_eq_iff, field_append_iff 12 4, field_append_iff 11 1, boolBits_eq_iff, and_assoc]

/-- Format HINT (R157). -/
theorem hint_eq_iff {op : BitVec 8} {opA opB : BitVec 4} :
    [op ++ opA ++ opB] = [w] ↔
      w.extractLsb' 8 8 = op ∧ w.extractLsb' 4 4 = opA ∧ w.extractLsb' 0 4 = opB := by
  rw [singleton_eq_iff, field_append_iff 12 4, field_append_iff 8 4, and_assoc]

end Formats

/-! ## Formats of two halfwords (R171 to R174) -/

section WideFormats

variable {hw1 hw2 : Half}

/-- The second halfword of MSR, MRS and the barriers (R172, R173). -/
theorem systemHw2_iff {sbz13 : BitVec 1} {f : BitVec 4} {low : BitVec 8} :
    hw2.extractLsb' 0 16 = 0b10#2 ++ sbz13 ++ 0b0#1 ++ f ++ low ↔
      (hw2.extractLsb' 15 1 = 1#1 ∧ hw2.extractLsb' 14 1 = 0#1 ∧ hw2.extractLsb' 12 1 = 0#1) ∧
        hw2.extractLsb' 13 1 = sbz13 ∧ hw2.extractLsb' 8 4 = f ∧ hw2.extractLsb' 0 8 = low := by
  rw [field_append_iff 8 8, field_append_iff 4 4, field_append_iff 3 1, field_append_iff 2 1,
    show 0b10#2 = 1#1 ++ 0#1 from rfl, field_append_iff 1 1]
  tauto

/-- The second halfword of BL (R171). -/
theorem blHw2_iff {j1 j2 : BitVec 1} {imm11 : BitVec 11} :
    hw2.extractLsb' 0 16 = 0b11#2 ++ j1 ++ 0b1#1 ++ j2 ++ imm11 ↔
      (hw2.extractLsb' 15 1 = 1#1 ∧ hw2.extractLsb' 14 1 = 1#1 ∧ hw2.extractLsb' 12 1 = 1#1) ∧
        hw2.extractLsb' 13 1 = j1 ∧ hw2.extractLsb' 11 1 = j2 ∧ hw2.extractLsb' 0 11 = imm11 := by
  rw [field_append_iff 5 11, field_append_iff 4 1, field_append_iff 3 1, field_append_iff 2 1,
    show 0b11#2 = 1#1 ++ 1#1 from rfl, field_append_iff 1 1]
  tauto

/-- The second halfword of UDF.W (R174). -/
theorem udfWHw2_iff {imm12 : BitVec 12} :
    hw2.extractLsb' 0 16 = 0b1010#4 ++ imm12 ↔
      (hw2.extractLsb' 15 1 = 1#1 ∧ hw2.extractLsb' 14 1 = 0#1 ∧ hw2.extractLsb' 12 1 = 0#1) ∧
        hw2.extractLsb' 13 1 = 1#1 ∧ hw2.extractLsb' 0 12 = imm12 := by
  rw [field_append_iff 4 12, show 0b1010#4 = 1#1 ++ 0#1 ++ 1#1 ++ 0#1 from rfl,
    field_append_iff 3 1, field_append_iff 2 1, field_append_iff 1 1]
  tauto

theorem bl_eq_iff {sgn : BitVec 1} {imm10 : BitVec 10} {j1 j2 : BitVec 1} {imm11 : BitVec 11} :
    encode (.bl sgn imm10 j1 j2 imm11) = [hw1, hw2] ↔
      (hw1.extractLsb' 11 5 = 0b11110#5 ∧ hw1.extractLsb' 10 1 = sgn ∧
        hw1.extractLsb' 0 10 = imm10) ∧
      (hw2.extractLsb' 15 1 = 1#1 ∧ hw2.extractLsb' 14 1 = 1#1 ∧ hw2.extractLsb' 12 1 = 1#1) ∧
        hw2.extractLsb' 13 1 = j1 ∧ hw2.extractLsb' 11 1 = j2 ∧ hw2.extractLsb' 0 11 = imm11 := by
  rw [encode, pair_eq_iff, blHw2_iff, field_append_iff 6 10, field_append_iff 5 1]
  exact and_congr_left' and_assoc

theorem msr_eq_iff {sbz4 : BitVec 1} {rn : RegNum} {sbz13 : BitVec 1} {sb1000 : BitVec 4}
    {sysm : BitVec 8} :
    encode (.msr sbz4 rn sbz13 sb1000 sysm) = [hw1, hw2] ↔
      (hw1.extractLsb' 5 11 = 0b11110011100#11 ∧ hw1.extractLsb' 4 1 = sbz4 ∧
        regField hw1 0 = rn) ∧
      (hw2.extractLsb' 15 1 = 1#1 ∧ hw2.extractLsb' 14 1 = 0#1 ∧ hw2.extractLsb' 12 1 = 0#1) ∧
        hw2.extractLsb' 13 1 = sbz13 ∧ hw2.extractLsb' 8 4 = sb1000 ∧
          hw2.extractLsb' 0 8 = sysm := by
  rw [encode, pair_eq_iff, systemHw2_iff, field_append_iff 12 4, field_append_iff 11 1,
    regBits_eq_iff]
  exact and_congr_left' and_assoc

theorem mrs_eq_iff {sbz4 : BitVec 1} {sbo : BitVec 4} {sbz13 : BitVec 1} {rd : RegNum}
    {sysm : BitVec 8} :
    encode (.mrs sbz4 sbo sbz13 rd sysm) = [hw1, hw2] ↔
      (hw1.extractLsb' 5 11 = 0b11110011111#11 ∧ hw1.extractLsb' 4 1 = sbz4 ∧
        hw1.extractLsb' 0 4 = sbo) ∧
      (hw2.extractLsb' 15 1 = 1#1 ∧ hw2.extractLsb' 14 1 = 0#1 ∧ hw2.extractLsb' 12 1 = 0#1) ∧
        hw2.extractLsb' 13 1 = sbz13 ∧ regField hw2 8 = rd ∧ hw2.extractLsb' 0 8 = sysm := by
  rw [encode, pair_eq_iff, systemHw2_iff, field_append_iff 12 4, field_append_iff 11 1,
    regBits_eq_iff]
  exact and_congr_left' and_assoc

/-- The barriers, told apart by `op` (R173). -/
theorem encodeBarrier_eq_iff {op sbo1 : BitVec 4} {sbz13 : BitVec 1} {sbo2 option : BitVec 4} :
    encodeBarrier op sbo1 sbz13 sbo2 option = [hw1, hw2] ↔
      (hw1.extractLsb' 4 12 = 0b111100111011#12 ∧ hw1.extractLsb' 0 4 = sbo1) ∧
      (hw2.extractLsb' 15 1 = 1#1 ∧ hw2.extractLsb' 14 1 = 0#1 ∧ hw2.extractLsb' 12 1 = 0#1) ∧
        hw2.extractLsb' 13 1 = sbz13 ∧ hw2.extractLsb' 8 4 = sbo2 ∧
          hw2.extractLsb' 4 4 = op ∧ hw2.extractLsb' 0 4 = option := by
  have hlow : hw2.extractLsb' 0 16 = 0b10#2 ++ sbz13 ++ 0b0#1 ++ sbo2 ++ op ++ option ↔
      hw2.extractLsb' 0 16 = 0b10#2 ++ sbz13 ++ 0b0#1 ++ sbo2 ++ (op ++ option) := by
    rw [field_append_iff 12 4, field_append_iff 8 4, field_append_iff 8 8, field_append_iff 4 4,
      field_append_iff 4 4]
    exact and_assoc
  rw [encodeBarrier, pair_eq_iff, hlow, systemHw2_iff, field_append_iff 12 4, field_append_iff 4 4]

theorem udfW_eq_iff {imm4 : BitVec 4} {imm12 : BitVec 12} :
    encode (.udfW imm4 imm12) = [hw1, hw2] ↔
      (hw1.extractLsb' 4 12 = 0b111101111111#12 ∧ hw1.extractLsb' 0 4 = imm4) ∧
      (hw2.extractLsb' 15 1 = 1#1 ∧ hw2.extractLsb' 14 1 = 0#1 ∧ hw2.extractLsb' 12 1 = 0#1) ∧
        hw2.extractLsb' 13 1 = 1#1 ∧ hw2.extractLsb' 0 12 = imm12 := by
  rw [encode, pair_eq_iff, udfWHw2_iff, field_append_iff 12 4]

end WideFormats

end Sys2Proof
end

section
/-! SUPPORT. The tables of the decoder (`30_encoding.md` R144, R170): which bits of a halfword name its
table, and that each table gives back every bit. -/

namespace Sys2Proof

section Tables

variable {w : Half}

/-! ## The table a halfword is read in -/

theorem top_of_high4 {p : BitVec 4} (h : w.extractLsb' 12 4 = p) :
    w.extractLsb' 11 5 = p ++ 0#1 ∨ w.extractLsb' 11 5 = p ++ 1#1 :=
  (BitVec.eq_zero_or_eq_one (w.extractLsb' 11 1)).imp
    (fun hbit => (field_append_iff 4 1).mpr ⟨h, hbit⟩)
    fun hbit => (field_append_iff 4 1).mpr ⟨h, hbit⟩

theorem high4_of_top {t : Nat} (h : (w.extractLsb' 11 5).toNat = t) :
    w.extractLsb' 12 4 = BitVec.ofNat 4 (t / 2) := by
  subst h
  refine (field_within (a := 11) (k := 5) rfl 12 4).trans (BitVec.eq_of_toNat_eq ?_)
  rw [BitVec.extractLsb'_toNat, Nat.shiftRight_eq_div_pow, BitVec.toNat_ofNat]

theorem row16_addSub (h : w.extractLsb' 11 5 = 0b00011#5) : row16 w = some (rowAddSub w) := by
  rw [row16, h]
  rfl

theorem row16_dataProcessing (h : w.extractLsb' 10 6 = 0b010000#6) :
    row16 w = some (rowDataProcessing w) := by
  rw [row16, field_within h 11 5]
  exact if_pos (field_within h 10 1)

theorem row16_special (h : w.extractLsb' 10 6 = 0b010001#6) : row16 w = some (rowSpecial w) := by
  rw [row16, field_within h 11 5]
  exact if_neg (by rw [field_within h 10 1]; decide)

theorem row16_loadStoreReg (h : w.extractLsb' 12 4 = 0b0101#4) :
    row16 w = some (rowLoadStoreReg w) := by
  obtain htop | htop := top_of_high4 h <;> (rw [row16, htop]; rfl)

theorem row16_misc (h : w.extractLsb' 12 4 = 0b1011#4) : row16 w = rowMisc w := by
  obtain htop | htop := top_of_high4 h <;> (rw [row16, htop]; rfl)

/-! ## Each table gives back its halfword -/

theorem encode_rowAddSub (h : w.extractLsb' 11 5 = 0b00011#5) : encode (rowAddSub w) = [w] := by
  have hformat : encode (rowAddSub w) =
      encodeThree (0b00011#5 ++ w.extractLsb' 9 2) (w.extractLsb' 6 3) (lowField w 3)
        (lowField w 0) := by
    rw [rowAddSub]
    generalize w.extractLsb' 9 2 = op
    rcases op with ⟨op⟩
    fin_cases op <;> rfl
  exact hformat.trans
    (encodeThree_eq_iff.mpr ⟨(field_append_iff 5 2).mpr ⟨h, rfl⟩, rfl, rfl, rfl⟩)

theorem encode_rowDataProcessing (h : w.extractLsb' 10 6 = 0b010000#6) :
    encode (rowDataProcessing w) = [w] := by
  have hformat : encode (rowDataProcessing w) =
      encodeDp (0b010000#6 ++ w.extractLsb' 6 4) (lowField w 3) (lowField w 0) := by
    rw [rowDataProcessing]
    generalize w.extractLsb' 6 4 = op
    rcases op with ⟨op⟩
    fin_cases op <;> rfl
  exact hformat.trans (encodeDp_eq_iff.mpr ⟨(field_append_iff 6 4).mpr ⟨h, rfl⟩, rfl, rfl⟩)

theorem encode_rowLoadStoreReg (h : w.extractLsb' 12 4 = 0b0101#4) :
    encode (rowLoadStoreReg w) = [w] := by
  have hformat : encode (rowLoadStoreReg w) =
      encodeThree (0b0101#4 ++ w.extractLsb' 9 3) (lowBits (lowField w 6)) (lowField w 3)
        (lowField w 0) := by
    rw [rowLoadStoreReg]
    generalize w.extractLsb' 9 3 = op
    rcases op with ⟨op⟩
    fin_cases op <;> rfl
  exact hformat.trans
    (encodeThreeReg_eq_iff.mpr ⟨(field_append_iff 4 3).mpr ⟨h, rfl⟩, rfl, rfl, rfl⟩)

/-- A one-bit field that is not 0 is 1. -/
theorem field_eq_one {i : Nat} (h : ¬w.extractLsb' i 1 = 0#1) : w.extractLsb' i 1 = 1#1 :=
  (BitVec.eq_zero_or_eq_one _).resolve_left h

/-- The last of the four values of a two-bit field. -/
theorem eq_three_of_ne : ∀ {sel : BitVec 2}, ¬sel = 0b00#2 → ¬sel = 0b01#2 → ¬sel = 0b10#2 →
    sel = 0b11#2 := by decide

theorem encode_rowSpecial (h : w.extractLsb' 10 6 = 0b010001#6) : encode (rowSpecial w) = [w] := by
  have hop : ∀ {sel : BitVec 2}, w.extractLsb' 8 2 = sel → w.extractLsb' 8 8 = 0b010001#6 ++ sel :=
    fun hsel => (field_append_iff 6 2).mpr ⟨h, hsel⟩
  rw [rowSpecial]
  split_ifs with hadd hcmp hmov hbx
  · exact hireg_eq_iff.mpr ⟨hop hadd, rfl, rfl⟩
  · exact hireg_eq_iff.mpr ⟨hop hcmp, rfl, rfl⟩
  · exact hireg_eq_iff.mpr ⟨hop hmov, rfl, rfl⟩
  · have hop9 := (field_append_iff 8 1).mpr ⟨hop (eq_three_of_ne hadd hcmp hmov), hbx⟩
    exact bx_eq_iff.mpr ⟨hop9, rfl, rfl⟩
  · have hop9 := (field_append_iff 8 1).mpr
      ⟨hop (eq_three_of_ne hadd hcmp hmov), field_eq_one hbx⟩
    exact bx_eq_iff.mpr ⟨hop9, rfl, rfl⟩

theorem encode_rowHint (opA : BitVec 4) :
    encode (rowHint opA) = [0b10111111#8 ++ opA ++ 0b0000#4] := by
  rcases opA with ⟨opA⟩
  fin_cases opA <;> rfl

theorem encode_rowMisc {i : Instr} (h : w.extractLsb' 12 4 = 0b1011#4) (hrow : rowMisc w = some i) :
    encode i = [w] := by
  have hop : ∀ sel : BitVec 4, (w.extractLsb' 8 4).toNat = sel.toNat →
      w.extractLsb' 8 8 = 0b1011#4 ++ sel :=
    fun _ hsel => (field_append_iff 4 4).mpr ⟨h, BitVec.eq_of_toNat_eq hsel⟩
  rw [rowMisc] at hrow
  split at hrow
  next hsel => -- ADD and SUB of the stack pointer
    have hop8 := hop 0b0000#4 hsel
    split_ifs at hrow with hadd <;> cases hrow
    · exact imm7_eq_iff.mpr ⟨(field_append_iff 8 1).mpr ⟨hop8, hadd⟩, rfl⟩
    · exact imm7_eq_iff.mpr ⟨(field_append_iff 8 1).mpr ⟨hop8, field_eq_one hadd⟩, rfl⟩
  next hsel => -- the extensions
    have hdp : ∀ sel : BitVec 2, w.extractLsb' 6 2 = sel →
        encodeDp (0b10110010#8 ++ sel) (lowField w 3) (lowField w 0) = [w] := fun _ hext =>
      encodeDp_eq_iff.mpr ⟨(field_append_iff 8 2).mpr ⟨hop 0b0010#4 hsel, hext⟩, rfl, rfl⟩
    split_ifs at hrow with hsxth hsxtb huxth <;> cases hrow
    · exact hdp 0b00#2 hsxth
    · exact hdp 0b01#2 hsxtb
    · exact hdp 0b10#2 huxth
    · exact hdp 0b11#2 (eq_three_of_ne hsxth hsxtb huxth)
  next hsel => -- PUSH without LR
    cases hrow
    exact imm8_eq_iff.mpr ⟨hop 0b0100#4 hsel, rfl⟩
  next hsel => -- PUSH with LR
    cases hrow
    exact imm8_eq_iff.mpr ⟨hop 0b0101#4 hsel, rfl⟩
  next hsel => -- CPS
    split_ifs at hrow with hcps
    cases hrow
    exact cps_eq_iff.mpr ⟨(field_append_iff 8 3).mpr ⟨hop 0b0110#4 hsel, hcps⟩, rfl, rfl⟩
  next hsel => -- the reversals
    have hdp : ∀ sel : BitVec 2, w.extractLsb' 6 2 = sel →
        encodeDp (0b10111010#8 ++ sel) (lowField w 3) (lowField w 0) = [w] := fun _ hrev =>
      encodeDp_eq_iff.mpr ⟨(field_append_iff 8 2).mpr ⟨hop 0b1010#4 hsel, hrev⟩, rfl, rfl⟩
    split_ifs at hrow with hrev hrev16 hrevsh <;> cases hrow
    · exact hdp 0b00#2 hrev
    · exact hdp 0b01#2 hrev16
    · exact hdp 0b11#2 hrevsh
  next hsel => -- POP without PC
    cases hrow
    exact imm8_eq_iff.mpr ⟨hop 0b1100#4 hsel, rfl⟩
  next hsel => -- POP with PC
    cases hrow
    exact imm8_eq_iff.mpr ⟨hop 0b1101#4 hsel, rfl⟩
  next hsel => -- BKPT
    cases hrow
    exact imm8_eq_iff.mpr ⟨hop 0b1110#4 hsel, rfl⟩
  next hsel => -- the hints
    split_ifs at hrow with hopB
    cases hrow
    rw [encode_rowHint, hint_eq_iff]
    exact ⟨hop 0b1111#4 hsel, rfl, hopB⟩
  next => cases hrow

/-! ### Conditional branches -/

theorem condOfBits_condToBits (c : Cond) : condOfBits (condToBits c) = some c := by
  cases c <;> rfl

theorem condToBits_of_condOfBits {bits : BitVec 4} {c : Cond} :
    condOfBits bits = some c → condToBits c = bits := by
  revert bits c
  decide

theorem encode_rowCondBranch (h : w.extractLsb' 12 4 = 0b1101#4) :
    encode (rowCondBranch w) = [w] := by
  have hop : ∀ {sel : BitVec 4}, w.extractLsb' 8 4 = sel → w.extractLsb' 8 8 = 0b1101#4 ++ sel :=
    fun hsel => (field_append_iff 4 4).mpr ⟨h, hsel⟩
  rw [rowCondBranch]
  split
  next c hcond => exact imm8_eq_iff.mpr ⟨hop (condToBits_of_condOfBits hcond).symm, rfl⟩
  next hnone =>
    have hsel : ∀ bits : BitVec 4, condOfBits bits = none → ¬bits = 0b1110#4 → bits = 0b1111#4 := by
      decide
    split_ifs with hudf
    · exact imm8_eq_iff.mpr ⟨hop hudf, rfl⟩
    · exact imm8_eq_iff.mpr ⟨hop (hsel _ hnone hudf), rfl⟩

/-! ### All halfwords -/

theorem encode_of_row16 {i : Instr} (hrow : row16 w = some i) : encode i = [w] := by
  rw [row16] at hrow
  split at hrow
  case h_1 htop => -- MOVS register, LSLS immediate
    have htop : w.extractLsb' 11 5 = 0b00000#5 := BitVec.eq_of_toNat_eq htop
    split_ifs at hrow with himm <;> cases hrow
    · exact encodeDp_eq_iff.mpr ⟨(field_append_iff 5 5).mpr ⟨htop, himm⟩, rfl, rfl⟩
    · exact encodeImm5_eq_iff.mpr ⟨htop, rfl, rfl, rfl⟩
  case h_2 htop | h_3 htop | h_13 htop | h_14 htop | h_15 htop | h_16 htop | h_17 htop
    | h_18 htop => -- SHIFT_IMM and LS_IMM5
    cases hrow
    exact encodeImm5_eq_iff.mpr ⟨BitVec.eq_of_toNat_eq htop, rfl, rfl, rfl⟩
  case h_4 htop => -- ADDSUB_REG and ADDSUB_IMM3
    cases hrow
    exact encode_rowAddSub (BitVec.eq_of_toNat_eq htop)
  case h_5 htop | h_6 htop | h_7 htop | h_8 htop | h_10 htop | h_19 htop | h_20 htop | h_21 htop
    | h_22 htop | h_25 htop | h_26 htop => -- IMM8 and LDMSTM
    cases hrow
    exact encodeImm8_eq_iff.mpr ⟨BitVec.eq_of_toNat_eq htop, rfl, rfl⟩
  case h_9 htop => -- DP, HIREG and BX
    have htop : w.extractLsb' 11 5 = 0b01000#5 := BitVec.eq_of_toNat_eq htop
    split_ifs at hrow with hbit <;> cases hrow
    · exact encode_rowDataProcessing ((field_append_iff 5 1).mpr ⟨htop, hbit⟩)
    · exact encode_rowSpecial ((field_append_iff 5 1).mpr ⟨htop, field_eq_one hbit⟩)
  case h_11 htop | h_12 htop => -- LS_REG
    cases hrow
    exact encode_rowLoadStoreReg (high4_of_top htop)
  case h_23 htop | h_24 htop => -- the miscellaneous instructions
    exact encode_rowMisc (high4_of_top htop) hrow
  case h_27 htop | h_28 htop => -- BCOND, UDF and SVC
    cases hrow
    exact encode_rowCondBranch (high4_of_top htop)
  case h_29 htop => -- B
    cases hrow
    exact imm11_eq_iff.mpr ⟨BitVec.eq_of_toNat_eq htop, rfl⟩
  case h_30 => cases hrow

end Tables

theorem encode_of_row32 {hw1 hw2 : Half} {i : Instr} (hrow : row32 hw1 hw2 = some i) :
    encode i = [hw1, hw2] := by
  rw [row32] at hrow
  split_ifs at hrow with hwide hbl hsystem hmsr hmrs hbarrier hdsb hdmb hisb hudf <;> cases hrow
  all_goals obtain ⟨htop, h15⟩ := hwide
  · exact bl_eq_iff.mpr ⟨⟨htop, rfl, rfl⟩, ⟨h15, hbl⟩, rfl, rfl, rfl⟩
  · exact msr_eq_iff.mpr
      ⟨⟨(field_append_iff 5 6).mpr ⟨htop, hmsr⟩, rfl, rfl⟩, ⟨h15, hsystem⟩, rfl, rfl, rfl⟩
  · exact mrs_eq_iff.mpr
      ⟨⟨(field_append_iff 5 6).mpr ⟨htop, hmrs⟩, rfl, rfl⟩, ⟨h15, hsystem⟩, rfl, rfl, rfl⟩
  · exact encodeBarrier_eq_iff.mpr
      ⟨⟨(field_append_iff 5 7).mpr ⟨htop, hbarrier⟩, rfl⟩, ⟨h15, hsystem⟩, rfl, rfl, hdsb, rfl⟩
  · exact encodeBarrier_eq_iff.mpr
      ⟨⟨(field_append_iff 5 7).mpr ⟨htop, hbarrier⟩, rfl⟩, ⟨h15, hsystem⟩, rfl, rfl, hdmb, rfl⟩
  · exact encodeBarrier_eq_iff.mpr
      ⟨⟨(field_append_iff 5 7).mpr ⟨htop, hbarrier⟩, rfl⟩, ⟨h15, hsystem⟩, rfl, rfl, hisb, rfl⟩
  · obtain ⟨hop, h13⟩ := hudf
    exact udfW_eq_iff.mpr
      ⟨⟨(field_append_iff 5 7).mpr ⟨htop, hop⟩, rfl⟩, ⟨h15, hsystem⟩, h13, rfl⟩

/-- Settles O2: each table gives back its halfwords. -/
theorem encodeOfDecode : Obligations.EncodeOfDecode := by
  intro hw1 hw2 i hrow
  rw [decodeRow] at hrow
  split_ifs at hrow ⊢ with hwide
  · exact encode_of_row32 hrow
  · exact encode_of_row16 hrow

end Sys2Proof
end

section
/-! PROOFS. Decoding undoes encoding; the undefined halfwords, the length of an instruction and the
refused encodings (`30_encoding.md` R142, R170, R175, R178). -/

namespace Sys2Proof

theorem rowHint_of_le : ∀ opA : BitVec 4, 5 ≤ opA.toNat → rowHint opA = .hintNop opA := by
  decide

/-- The row of a halfword is that of the well-formed instruction it encodes. -/
theorem row16_of_encode {i : Instr} {w : Half} (hwf : i.wellFormed = true) (h : encode i = [w]) :
    row16 w = some i := by
  cases i with
  | lslsImm imm5 m d =>
    obtain ⟨htop, rfl, rfl, rfl⟩ := encodeImm5_eq_iff.mp h
    rw [row16, htop]
    exact if_neg (bne_iff_ne.mp hwf)
  | lsrsImm imm5 m d | asrsImm imm5 m d | strImm imm5 m d | ldrImm imm5 m d | strbImm imm5 m d
  | ldrbImm imm5 m d | strhImm imm5 m d | ldrhImm imm5 m d =>
    obtain ⟨htop, rfl, rfl, rfl⟩ := encodeImm5_eq_iff.mp h
    rw [row16, htop]
    rfl
  | addsReg m n d | subsReg m n d =>
    obtain ⟨hop, rfl, rfl, rfl⟩ := encodeThreeReg_eq_iff.mp h
    rw [row16_addSub (field_within hop 11 5), rowAddSub, field_within hop 9 2]
    rfl
  | addsImm3 imm3 n d | subsImm3 imm3 n d =>
    obtain ⟨hop, rfl, rfl, rfl⟩ := encodeThree_eq_iff.mp h
    rw [row16_addSub (field_within hop 11 5), rowAddSub, field_within hop 9 2]
    rfl
  | movsImm d imm8 | cmpImm d imm8 | addsImm8 d imm8 | subsImm8 d imm8 | ldrLit d imm8
  | strSp d imm8 | ldrSp d imm8 | adr d imm8 | addSpImm d imm8 | stm d imm8 | ldm d imm8 =>
    obtain ⟨htop, rfl, rfl⟩ := encodeImm8_eq_iff.mp h
    rw [row16, htop]
    rfl
  | movsReg m d =>
    obtain ⟨hop, rfl, rfl⟩ := encodeDp_eq_iff.mp h
    rw [row16, field_within hop 11 5]
    exact if_pos (field_within hop 6 5)
  | ands m d | eors m d | lslsReg m d | lsrsReg m d | asrsReg m d | adcs m d | sbcs m d | rors m d
  | tst m d | rsbs m d | cmpReg m d | cmn m d | orrs m d | muls m d | bics m d | mvns m d =>
    obtain ⟨hop, rfl, rfl⟩ := encodeDp_eq_iff.mp h
    rw [row16_dataProcessing (field_within hop 10 6), rowDataProcessing, field_within hop 6 4]
    rfl
  | addHi d m | cmpHi d m | movHi d m =>
    obtain ⟨hop, rfl, rfl⟩ := hireg_eq_iff.mp h
    rw [row16_special (field_within hop 10 6), rowSpecial, field_within hop 8 2]
    rfl
  | bx m sbz | blx m sbz =>
    obtain ⟨hop, rfl, rfl⟩ := bx_eq_iff.mp h
    rw [row16_special (field_within hop 10 6), rowSpecial, field_within hop 8 2,
      field_within hop 7 1]
    rfl
  | strReg m n d | strhReg m n d | strbReg m n d | ldrsbReg m n d | ldrReg m n d | ldrhReg m n d
  | ldrbReg m n d | ldrshReg m n d =>
    obtain ⟨hop, rfl, rfl, rfl⟩ := encodeThreeReg_eq_iff.mp h
    rw [row16_loadStoreReg (field_within hop 12 4), rowLoadStoreReg, field_within hop 9 3]
    rfl
  | addSp imm7 | subSp imm7 =>
    obtain ⟨hop, rfl⟩ := imm7_eq_iff.mp h
    rw [row16_misc (field_within hop 12 4), rowMisc, field_within hop 8 4, field_within hop 7 1]
    rfl
  | sxth m d | sxtb m d | uxth m d | uxtb m d | rev m d | rev16 m d | revsh m d =>
    obtain ⟨hop, rfl, rfl⟩ := encodeDp_eq_iff.mp h
    rw [row16_misc (field_within hop 12 4), rowMisc, field_within hop 8 4, field_within hop 6 2]
    rfl
  | push x list | pop x list =>
    obtain ⟨hop, rfl⟩ := imm8_eq_iff.mp h
    cases x <;> (rw [row16_misc (field_within hop 12 4), rowMisc, field_within hop 8 4]; rfl)
  | bkpt imm8 =>
    obtain ⟨hop, rfl⟩ := imm8_eq_iff.mp h
    rw [row16_misc (field_within hop 12 4), rowMisc, field_within hop 8 4]
    rfl
  | cps im sb =>
    obtain ⟨hop, rfl, rfl⟩ := cps_eq_iff.mp h
    rw [row16_misc (field_within hop 12 4), rowMisc, field_within hop 8 4, field_within hop 5 3]
    rfl
  | nop | yield | wfe | wfi | sev =>
    cases h
    decide
  | hintNop opA =>
    obtain ⟨hop, rfl, hopB⟩ := hint_eq_iff.mp h
    rw [row16_misc (field_within hop 12 4), rowMisc, field_within hop 8 4]
    exact (if_pos hopB).trans (congrArg some (rowHint_of_le _ (of_decide_eq_true hwf)))
  | bCond c imm8 =>
    cases h
    rw [Machine.row16_condBranch, Machine.rowCondBranch_some (condOfBits_condToBits c)]
  | udf imm8 =>
    cases h
    exact (Machine.row16_condBranch 0b1110#4 imm8).trans
      (congrArg some (Machine.rowCondBranch_none rfl imm8))
  | svc imm8 =>
    cases h
    exact (Machine.row16_condBranch 0b1111#4 imm8).trans
      (congrArg some (Machine.rowCondBranch_none rfl imm8))
  | b imm11 =>
    obtain ⟨htop, rfl⟩ := imm11_eq_iff.mp h
    rw [row16, htop]
    rfl
  | bl | msr | mrs | dsb | dmb | isb | udfW => cases h

theorem row32_of_encode {i : Instr} {hw1 hw2 : Half} (h : encode i = [hw1, hw2]) :
    row32 hw1 hw2 = some i := by
  cases i with
  | bl sgn imm10 j1 j2 imm11 =>
    obtain ⟨⟨htop, rfl, rfl⟩, ⟨h15, hbl⟩, rfl, rfl, rfl⟩ := bl_eq_iff.mp h
    rw [row32, if_pos ⟨htop, h15⟩, if_pos hbl]
  | msr sbz4 rn sbz13 sb1000 sysm =>
    obtain ⟨⟨hop, rfl, rfl⟩, ⟨h15, h14, h12⟩, rfl, rfl, rfl⟩ := msr_eq_iff.mp h
    rw [row32, if_pos ⟨field_within hop 11 5, h15⟩, h14, h12, field_within hop 5 6]
    rfl
  | mrs sbz4 sbo sbz13 rd sysm =>
    obtain ⟨⟨hop, rfl, rfl⟩, ⟨h15, h14, h12⟩, rfl, rfl, rfl⟩ := mrs_eq_iff.mp h
    rw [row32, if_pos ⟨field_within hop 11 5, h15⟩, h14, h12, field_within hop 5 6]
    rfl
  | dsb sbo1 sbz13 sbo2 option | dmb sbo1 sbz13 sbo2 option | isb sbo1 sbz13 sbo2 option =>
    obtain ⟨⟨hop, rfl⟩, ⟨h15, h14, h12⟩, rfl, rfl, hkind, rfl⟩ := encodeBarrier_eq_iff.mp h
    rw [row32, if_pos ⟨field_within hop 11 5, h15⟩, h14, h12, field_within hop 5 6,
      field_within hop 4 7, hkind]
    rfl
  | udfW imm4 imm12 =>
    obtain ⟨⟨hop, rfl⟩, ⟨h15, h14, h12⟩, h13, rfl⟩ := udfW_eq_iff.mp h
    rw [row32, if_pos ⟨field_within hop 11 5, h15⟩, h14, h12, field_within hop 5 6,
      field_within hop 4 7, h13]
    rfl
  | _ => cases h

/-! ## One halfword or two (R142) -/

theorem isWide_iff {w : Half} :
    isWide w = true ↔ w.extractLsb' 11 5 = 0b11101#5 ∨ w.extractLsb' 11 5 = 0b11110#5 ∨
      w.extractLsb' 11 5 = 0b11111#5 := by
  simp [isWide, or_assoc]

theorem row16_of_isWide {w : Half} (h : isWide w = true) : row16 w = none := by
  obtain htop | htop | htop := isWide_iff.mp h <;> (rw [row16, htop]; rfl)

theorem isWide_of_row32 {hw1 hw2 : Half} {i : Instr} (h : row32 hw1 hw2 = some i) :
    isWide hw1 = true := by
  by_contra hnarrow
  rw [row32, if_neg fun hwide => hnarrow (isWide_iff.mpr (.inr (.inl hwide.1)))] at h
  cases h

theorem encode_eq_one_or_two (i : Instr) :
    (∃ w, encode i = [w]) ∨ ∃ hw1 hw2, encode i = [hw1, hw2] := by
  cases i with
  | bl | msr | mrs | dsb | dmb | isb | udfW => exact .inr ⟨_, _, rfl⟩
  | _ => exact .inl ⟨_, rfl⟩

theorem decode_of_decodeRow {hw1 hw2 : Half} {i : Instr} (hrow : decodeRow hw1 hw2 = some i)
    (hwf : i.wellFormed = true) : decode hw1 hw2 = .instr i := by
  rw [decode, hrow]
  exact if_pos hwf

/-- Settles O1: the fields of the halfwords are the operands, and their opcode selects the row. -/
theorem decodeOfEncode : Obligations.DecodeOfEncode := by
  intro i hwf
  obtain ⟨w, h⟩ | ⟨hw1, hw2, h⟩ := encode_eq_one_or_two i <;> rw [h]
  · have hrow := row16_of_encode hwf h
    have hnarrow : ¬isWide w = true := fun hwide => by
      rw [row16_of_isWide hwide] at hrow
      cases hrow
    exact decode_of_decodeRow ((if_neg hnarrow).trans hrow) hwf
  · have hrow := row32_of_encode h
    exact decode_of_decodeRow ((if_pos (isWide_of_row32 hrow)).trans hrow) hwf

/-- Settles O3: the words are closed terms, and the decoder evaluates them. -/
theorem specWordsDecode : Obligations.SpecWordsDecode := by
  unfold Obligations.SpecWordsDecode
  decide

/-! ## The undefined halfwords (R175) -/

/-- The undefined encodings of the miscellaneous table, in the order of R175's list. -/
theorem rowMisc_eq_none_iff {w : Half} :
    rowMisc w = none ↔
      w.extractLsb' 8 4 = 0x1#4 ∨ w.extractLsb' 8 4 = 0x3#4 ∨ w.extractLsb' 8 4 = 0x9#4 ∨
        w.extractLsb' 8 4 = 0xB#4 ∨
        (w.extractLsb' 8 4 = 0x6#4 ∧ w.extractLsb' 5 3 ≠ 0b011#3) ∨
        w.extractLsb' 8 4 = 0x7#4 ∨ w.extractLsb' 8 4 = 0x8#4 ∨
        (w.extractLsb' 8 4 = 0xA#4 ∧ w.extractLsb' 6 2 = 0b10#2) ∨
        (w.extractLsb' 8 4 = 0xF#4 ∧ w.extractLsb' 0 4 ≠ 0#4) := by
  have hrev : ∀ sel : BitVec 2, ¬sel = 0#2 ∧ ¬sel = 1#2 ∧ ¬sel = 3#2 ↔ sel = 2#2 := by decide
  rw [rowMisc]
  generalize w.extractLsb' 8 4 = sel
  rcases sel with ⟨sel⟩
  fin_cases sel <;> simp [ite_eq_iff, hrev]

theorem row16_eq_none_iff {w : Half} :
    row16 w = none ↔ isWide w = true ∨ w.extractLsb' 12 4 = 0b1011#4 ∧ rowMisc w = none := by
  rw [row16, isWide, field_within (a := 11) (k := 5) rfl 12 4]
  generalize w.extractLsb' 11 5 = top
  rcases top with ⟨top⟩
  fin_cases top <;> simp [ite_eq_iff]

theorem decode_eq_undefined16_iff {hw1 hw2 : Half} :
    decode hw1 hw2 = .undefined16 ↔ isWide hw1 = false ∧ row16 hw1 = none := by
  rw [decode, decodeRow]
  cases isWide hw1 with
  | true => cases row32 hw1 hw2 <;> simp [ite_eq_iff]
  | false => cases row16 hw1 <;> simp [ite_eq_iff]

/-- The miscellaneous halfwords announce no second one. -/
theorem isWide_of_misc {w : Half} (h : w.extractLsb' 12 4 = 0b1011#4) : isWide w = false := by
  rw [isWide]
  obtain htop | htop := top_of_high4 h <;> (rw [htop]; rfl)

/-- Settles O4: no row but those of the miscellaneous table leaves an encoding undefined. -/
theorem undefinedHalfwords : Obligations.UndefinedHalfwords := by
  intro hw1 hw2
  have hbyte : ∀ (byte : BitVec 8) (sel : BitVec 4), byte = 0xB#4 ++ sel →
      (hw1.extractLsb' 8 8 = byte ↔ hw1.extractLsb' 12 4 = 0xB#4 ∧ hw1.extractLsb' 8 4 = sel) :=
    fun _ _ h => h ▸ field_append_iff 4 4
  have hrev : hw1.extractLsb' 6 10 = 0b1011101010#10 ↔
      hw1.extractLsb' 8 8 = 0xBA#8 ∧ hw1.extractLsb' 6 2 = 0b10#2 :=
    field_append_iff 8 2 (x := 0xBA#8) (y := 0b10#2)
  rw [decode_eq_undefined16_iff, row16_eq_none_iff, rowMisc_eq_none_iff, hrev,
    hbyte 0xB1#8 0x1#4 rfl, hbyte 0xB3#8 0x3#4 rfl, hbyte 0xB9#8 0x9#4 rfl, hbyte 0xBB#8 0xB#4 rfl,
    hbyte 0xB6#8 0x6#4 rfl, hbyte 0xB7#8 0x7#4 rfl, hbyte 0xB8#8 0x8#4 rfl, hbyte 0xBA#8 0xA#4 rfl,
    hbyte 0xBF#8 0xF#4 rfl]
  by_cases hmisc : hw1.extractLsb' 12 4 = 0xB#4
  · simp [hmisc, isWide_of_misc hmisc]
  · simp [hmisc]

/-! ## The bytes of an instruction (R142, R143) -/

theorem halfOfBytes_extract (w : Half) :
    halfOfBytes (w.extractLsb' 0 8) (w.extractLsb' 8 8) = w :=
  (BitVec.extractLsb'_append_extractLsb'_eq_extractLsb' rfl).trans BitVec.extractLsb'_eq_self

/-- Settles O5: the bytes make up the halfwords again, and `isWide` is R142's condition. -/
theorem instructionLength : Obligations.InstructionLength := by
  intro hw1 hw2 rest
  rw [decodeBytes, halfOfBytes_extract, halfOfBytes_extract]
  exact if_congr isWide_iff rfl rfl

/-! ## Refused encodings (R178) -/

namespace Machine

theorem specialDefined_iff {sysm : BitVec 8} :
    specialDefined sysm = true ↔ sysm.toNat ∈ [0, 1, 2, 3, 5, 6, 7, 8, 9, 16, 20] := by
  simp [specialDefined, ← BitVec.toNat_inj, or_assoc]

theorem barrierWrong_iff {sbo1 : BitVec 4} {sbz13 : BitVec 1} {sbo2 : BitVec 4} :
    barrierWrong sbo1 sbz13 sbo2 = true ↔ sbo1 ≠ 0b1111#4 ∨ sbz13 ≠ 0#1 ∨ sbo2 ≠ 0b1111#4 := by
  simp [barrierWrong, or_assoc]

theorem execCmpHi_refused {rn rm : RegNum} {s : State}
    (h : (rn.val < 8 ∧ rm.val < 8) ∨ rn = 15 ∨ rm = 15) :
    execCmpHi rn rm s = .refused .unpredictableEncoding := by
  by_cases hlow : rn.val < 8 ∧ rm.val < 8
  · exact if_pos hlow
  · exact (if_neg hlow).trans (if_pos (h.resolve_left hlow))

theorem execMsr_refused {z4 : BitVec 1} {rn : RegNum} {z13 : BitVec 1} {sb : BitVec 4}
    {sysm : BitVec 8} {s : State}
    (h : z4 ≠ 0#1 ∨ z13 ≠ 0#1 ∨ sb ≠ 0b1000#4 ∨ rn = 13 ∨ rn = 15 ∨
      sysm.toNat ∉ [0, 1, 2, 3, 5, 6, 7, 8, 9, 16, 20]) :
    execMsr z4 rn z13 sb sysm s = .refused .unpredictableEncoding := by
  rw [← specialDefined_iff] at h
  rw [execMsr]
  split_ifs with hbits hreg hsysm
  · rfl
  · rfl
  · tauto
  · rfl

theorem execMrs_refused {z4 : BitVec 1} {sbo : BitVec 4} {z13 : BitVec 1} {rd : RegNum}
    {sysm : BitVec 8} {s : State}
    (h : z4 ≠ 0#1 ∨ sbo ≠ 0b1111#4 ∨ z13 ≠ 0#1 ∨ rd = 13 ∨ rd = 15 ∨
      sysm.toNat ∉ [0, 1, 2, 3, 5, 6, 7, 8, 9, 16, 20]) :
    execMrs z4 sbo z13 rd sysm s = .refused .unpredictableEncoding := by
  rw [← specialDefined_iff] at h
  rw [execMrs]
  split_ifs with hbits hreg hsysm
  · rfl
  · rfl
  · tauto
  · rfl

/-- Settles O6: the check each instruction begins with refuses. -/
theorem unpredictableEncodingsRefused : Obligations.UnpredictableEncodingsRefused := by
  intro s
  refine ⟨fun rm z h => ⟨if_pos h, if_pos h⟩, fun im sb h => if_pos h,
    fun rn rm h => execCmpHi_refused h, rfl, rfl, rfl,
    fun rn => ⟨rfl, rfl⟩, fun z4 rn z13 sb sysm h => execMsr_refused h,
    fun z4 o z13 rd sysm h => execMrs_refused h, fun o1 z13 o2 option h => ?_⟩
  have hwrong := barrierWrong_iff.mpr h
  exact ⟨if_pos hwrong, if_pos hwrong, if_pos hwrong⟩

end Machine

end Sys2Proof
end

section
/-! PROOFS. What the conditions say after CMP of two low registers (`41_data_processing.md` R230, `00_scope.md`
R13): Z is equality, C the unsigned order, N = V the signed one. -/

namespace Sys2Proof.Machine

open Sys2Proof

section Difference

variable (x y : Word)

theorem differenceFlags_z_iff : (differenceFlags x y false).z = true ↔ x = y := by
  rw [differenceFlags, sub_carryWord_false, beq_iff_eq]
  exact sub_eq_zero

theorem differenceFlags_c_iff : (differenceFlags x y false).c = true ↔ y.toNat ≤ x.toNat :=
  decide_eq_true_iff

/-- The exact signed difference, at most one wrap of 2^32 from the word's, is negative exactly when N and V
differ. -/
theorem differenceFlags_n_eq_v_iff :
    (differenceFlags x y false).n = (differenceFlags x y false).v ↔ y.toInt ≤ x.toInt := by
  have hn : (differenceFlags x y false).n = true ↔ (x.toInt - y.toInt).bmod (2 ^ 32) < 0 := by
    rw [differenceFlags, sub_carryWord_false, BitVec.msb_eq_toInt, BitVec.toInt_sub, decide_eq_true_iff]
  have hv : (differenceFlags x y false).v = true ↔
      x.toInt - y.toInt < -2 ^ 31 ∨ 2 ^ 31 ≤ x.toInt - y.toInt := by
    simp [differenceFlags, outOfRange]
  have hx : -2 ^ 31 ≤ x.toInt ∧ x.toInt < 2 ^ 31 := ⟨x.le_toInt, x.toInt_lt⟩
  have hy : -2 ^ 31 ≤ y.toInt ∧ y.toInt < 2 ^ 31 := ⟨y.le_toInt, y.toInt_lt⟩
  rw [Bool.eq_iff_iff, hn, hv, Int.bmod_def]
  split <;> omega

theorem conditionPassed_eq_difference : conditionPassed .eq (differenceFlags x y false) = true ↔ x = y :=
  differenceFlags_z_iff x y

theorem conditionPassed_cs_difference :
    conditionPassed .cs (differenceFlags x y false) = true ↔ y.toNat ≤ x.toNat :=
  differenceFlags_c_iff x y

theorem conditionPassed_ge_difference :
    conditionPassed .ge (differenceFlags x y false) = true ↔ y.toInt ≤ x.toInt := by
  rw [← differenceFlags_n_eq_v_iff]
  exact beq_iff_eq

/-- HI is CS without EQ. -/
theorem conditionPassed_hi_difference :
    conditionPassed .hi (differenceFlags x y false) = true ↔ y.toNat < x.toNat := by
  have hsplit : conditionPassed .hi (differenceFlags x y false) = true ↔ y.toNat ≤ x.toNat ∧ x ≠ y := by
    simp [conditionPassed, differenceFlags_c_iff, ← differenceFlags_z_iff x y]
  rw [hsplit, ne_comm, ← BitVec.toNat_ne_iff_ne, lt_iff_le_and_ne]

/-- GT is GE without EQ. -/
theorem conditionPassed_gt_difference :
    conditionPassed .gt (differenceFlags x y false) = true ↔ y.toInt < x.toInt := by
  have hsplit : conditionPassed .gt (differenceFlags x y false) = true ↔ y.toInt ≤ x.toInt ∧ x ≠ y := by
    simp [conditionPassed, ← differenceFlags_n_eq_v_iff x y, ← differenceFlags_z_iff x y, and_comm]
  rw [hsplit, ne_comm, ← BitVec.toInt_ne, lt_iff_le_and_ne]

end Difference

/-- A CMP that completes leaves the flags of the exact difference (R236). -/
theorem flags_of_exec_cmpReg {s t : State} {rm rn : LowReg} (h : exec (.cmpReg rm rn) s = .next t) :
    t.flags = differenceFlags (s.low rn) (s.low rm) false := by
  obtain ⟨-, rfl⟩ := advance_next h
  exact (ofAdd_addWithCarry (s.low rn) (~~~(s.low rm)) true).trans (sumFlags_not _ _ false)

/-- Settles O14: each condition read off the flags of the difference. -/
theorem compareThenCondition : Obligations.CompareThenCondition := by
  intro s t rm rn h
  rw [flags_of_exec_cmpReg h]
  exact ⟨conditionPassed_eq_difference _ _, conditionPassed_cs_difference _ _,
    conditionPassed_hi_difference _ _, conditionPassed_ge_difference _ _,
    conditionPassed_gt_difference _ _⟩

end Sys2Proof.Machine
end

section
/-! PROOFS. MOV and ADD of 4-bit registers (`42_special_data_branch_exchange.md` R240, R242): a result goes to
a register, or register 15 is written as a branch (R42). -/

namespace Sys2Proof.Machine

open Sys2Proof

theorem putHigh_of_ne_pc {s : State} {rd : RegNum} (hrd : rd ≠ 15) (hroom : s.roomFor 2) (v : Word) :
    s.putHigh rd v = .next { s.setReg rd v with pc := s.pc + 2#32 } := by
  have hroom' : (s.setReg rd v).roomFor 2 := by rwa [State.roomFor, State.setReg_pc]
  rw [State.putHigh, if_neg hrd, advance_room hroom', State.setReg_pc]

theorem putHigh_pc (s : State) (v : Word) :
    s.putHigh 15 v = .next { s with pc := v &&& 0xFFFFFFFE#32 } := by
  rw [State.putHigh, if_pos rfl, State.branchTo, alignHalf_eq_and]

theorem exec_movHi (s : State) (rd rm : RegNum) : exec (.movHi rd rm) s = s.putHigh rd (s.reg rm) := rfl

/-- ADD PC, PC is the one pair refused (R178). -/
theorem exec_addHi {rd rm : RegNum} (s : State) (h : ¬(rd = 15 ∧ rm = 15)) :
    exec (.addHi rd rm) s = s.putHigh rd (s.reg rd + s.reg rm) :=
  if_neg h

/-- Settles O18: both instructions put a value in a register, and register 15 reads as pc + 4. -/
theorem highRegisterInstructions : Obligations.HighRegisterInstructions := by
  intro s rd rm
  refine ⟨fun hrd hroom => ⟨?mov, ?add⟩, ?movPc, fun hrm => ?addPc⟩
  case mov => rw [exec_movHi, putHigh_of_ne_pc hrd hroom]
  case add => rw [exec_addHi s fun h => hrd h.1, putHigh_of_ne_pc hrd hroom]
  case movPc => rw [exec_movHi, putHigh_pc]
  case addPc => rw [exec_addHi s fun h => hrm h.2, putHigh_pc, reg_pc]

end Sys2Proof.Machine
end

section
/-! SUPPORT. A low register or the stack pointer written and the pc advanced (`10_state.md` R32, R37, R39),
and what an exception entry leaves (`60_exceptions.md` R410 to R412). -/

namespace Sys2Proof.Machine

open Sys2Proof

/-! ## One register written (R31, R32) -/

theorem advance_setLow {s : State} (hroom : s.roomFor 2) (rd : LowReg) (v : Word) :
    advance 2 (s.setLow rd v) = .next { s with r := s.r.set rd.val v, pc := s.pc + 2#32 } :=
  advance_room (s := s.setLow rd v) hroom

/-- The write of the stack pointer in use, with the condition of R37 spelt out. -/
theorem setSp_eq (s : State) (v : Word) : s.setSp v = { s with
    spMain := if s.spsel = true ∧ s.ipsr = 0#6 then s.spMain else alignWord v
    spProcess := if s.spsel = true ∧ s.ipsr = 0#6 then alignWord v else s.spProcess } := by
  simp only [State.setSp, useProcess_iff]

theorem alignWord_of_aligned {v : Word} (h : v.toNat % 4 = 0) : alignWord v = v := by
  rw [alignWord, ← aligned_iff.mpr h]
  exact append_low (n := 2) (k := 30) v

/-- A stack pointer that is a multiple of 4 is written as it is (R32). -/
theorem setSp_aligned (s : State) {v : Word} (h : v.toNat % 4 = 0) : s.setSp v = { s with
    spMain := if s.spsel = true ∧ s.ipsr = 0#6 then s.spMain else v
    spProcess := if s.spsel = true ∧ s.ipsr = 0#6 then v else s.spProcess } := by
  rw [setSp_eq, alignWord_of_aligned h]

theorem advance_setSp {s : State} (hroom : s.roomFor 2) (v : Word) :
    advance 2 (s.setSp v) = .next { s with
      spMain := if s.spsel = true ∧ s.ipsr = 0#6 then s.spMain else v &&& 0xFFFFFFFC#32
      spProcess := if s.spsel = true ∧ s.ipsr = 0#6 then v &&& 0xFFFFFFFC#32 else s.spProcess
      pc := s.pc + 2#32 } := by
  rw [advance_room (s := s.setSp v) hroom, setSp_eq, alignWord_eq_and]

/-! ## The words PUSH and POP transfer (R288, R293) -/

theorem stackCount_pos {extra : Bool} {list : BitVec 8} (h : extra = true ∨ list ≠ 0#8) :
    0 < stackCount extra list := by
  rw [stackCount_eq]
  obtain rfl | h := h
  · exact Nat.succ_pos _
  · exact Nat.add_pos_left (length_listRegs_pos h) _

/-- Words that memory answers start at a multiple of 4. -/
theorem aligned_of_wordAt {a : Word} {n : Nat} (hn : 0 < n)
    (h : ∀ k < n, (wordAt a k).toNat % 4 = 0) : a.toNat % 4 = 0 := by
  simpa only [wordAt_zero] using h 0 hn

theorem aligned_wordAt {a : Word} (h : a.toNat % 4 = 0) (k : Nat) : (wordAt a k).toNat % 4 = 0 := by
  rw [wordAt, BitVec.toNat_add, BitVec.toNat_ofNat]
  omega

/-! ## Exception entry (R410 to R412) -/

theorem excReturn_eq (s : State) : s.excReturn =
    if s.ipsr ≠ 0#6 then 0xFFFFFFF1#32 else if s.spsel then 0xFFFFFFFD#32 else 0xFFFFFFF9#32 := by
  simp only [State.excReturn, State.handlerMode, bne_iff_ne]

theorem framePtr_aligned (s : State) : s.framePtr.toNat % 4 = 0 := by
  rw [← aligned_iff, State.framePtr, BitVec.extractLsb'_and]
  exact BitVec.and_zero

/-- R4 to R11 are as before when the handler starts (R411). -/
theorem scratchRegs_getElem (s : State) (i : Fin 13) (h4 : 4 ≤ i.val) (h11 : i.val ≤ 11) :
    s.scratchRegs[i.val] = s.r[i.val] := by
  have h0 : 0 ≠ i.val := by omega
  have h1 : 1 ≠ i.val := by omega
  have h2 : 2 ≠ i.val := by omega
  have h3 : 3 ≠ i.val := by omega
  have h12 : 12 ≠ i.val := by omega
  simp [State.scratchRegs, h0, h1, h2, h3, h12]

/-- What ExceptionTaken leaves where its vector `v` can be read (R411). -/
theorem exceptionTaken_ready {e : Exc} {s : State} {v : Word}
    (hread : s.readable true .word (s.vectorBase + BitVec.ofNat 32 (4 * e.number)))
    (hv : v = s.mem.value s.cfg.bigEndian .word
      (s.vectorBase + BitVec.ofNat 32 (4 * e.number)).toNat) :
    ∃ t, exceptionTaken e s = .ok () t ∧
      (∀ i : Fin 13, 4 ≤ i.val → i.val ≤ 11 → t.r[i.val] = s.r[i.val]) ∧
      t.pc = alignHalf v ∧ t.t = v.getLsbD 0 ∧
      t = { s with
        r := t.r
        flags := t.flags
        free := t.free
        pc := t.pc
        t := t.t
        dirty := []
        mustTake := t.best.isSome
        ipsr := BitVec.ofNat 6 e.number
        spsel := false
        active := s.active.set e true
        pending := s.pending.set e false
        event := true
        lockup := false
        sleep := .awake } := by
  subst hv
  exact ⟨_, congrArg (Eff.andThen · _) (memRead_readable hread), scratchRegs_getElem s, rfl, rfl, rfl⟩

/-- The state PushStack leaves, with the memory and the set Dirty that its stores leave (R410). -/
def State.stacked (s : State) (m : Memory) (d : List Host.Cell) : State :=
  { State.setSp { s with mem := m, dirty := d } s.framePtr with lr := s.excReturn }

theorem stacked_eq (s : State) (m : Memory) (d : List Host.Cell) : s.stacked m d = { s with
    mem := m
    dirty := d
    lr := if s.ipsr ≠ 0#6 then 0xFFFFFFF1#32 else if s.spsel then 0xFFFFFFFD#32 else 0xFFFFFFF9#32
    spMain := if s.spsel = true ∧ s.ipsr = 0#6 then s.spMain else s.framePtr
    spProcess := if s.spsel = true ∧ s.ipsr = 0#6 then s.framePtr else s.spProcess } := by
  rw [State.stacked, setSp_aligned _ (framePtr_aligned s), excReturn_eq]

/-- The entry of an exception whose accesses succeed stacks the frame and takes the vector. -/
theorem exceptionEntry_ready {e : Exc} {s : State} (ret : Word) (h : s.entryReady e) :
    ∃ t, exceptionEntry e ret s = .next t ∧ EnteredFrom s t e ret := by
  obtain ⟨hwhole, hframe, hread⟩ := h
  obtain ⟨m, d, hpush, hstored⟩ := pushStack_ready ret hframe
  obtain ⟨t, htaken, hregs, hpc, hthumb, ht⟩ := exceptionTaken_ready (s := s.stacked m d) hread rfl
  have hpush : pushStack ret s = .ok () (s.stacked m d) := hpush
  have hmem : t.mem = m := congrArg State.mem ht
  refine ⟨t, ?_, ?_, hregs, ?_, ?_, ?_⟩
  · simp only [exceptionEntry, hwhole, hpush, Eff.andThen_ok, htaken]
  · rw [hmem]; exact hstored
  · rw [hmem]; exact hpc
  · rw [hmem]; exact hthumb
  · rw [stacked_eq] at ht
    rw [hmem]; exact ht

end Sys2Proof.Machine
end

section
/-! SUPPORT. A word as its four bytes, and the extended and reversed words of `44_misc_16bit.md` R284 to R287
and R290 to R292 as the claims write them: by shifts and masks. -/

namespace Sys2Proof.Machine

open Sys2Proof

/-! ## The bytes of a word -/

theorem eq_bytes (v : Word) : v = byteAt v 3 ++ byteAt v 2 ++ byteAt v 1 ++ byteAt v 0 :=
  (append_bytes v).symm

theorem getLsbD_byteAt (v : Word) (k i : Nat) :
    (byteAt v k).getLsbD i = (decide (i < 8) && v.getLsbD (8 * k + i)) :=
  BitVec.getLsbD_extractLsb' ..

theorem byteAt_of_ge (v : Word) {k : Nat} (h : 4 ≤ k) : byteAt v k = 0#8 :=
  BitVec.eq_of_getLsbD_eq fun i _ => by
    rw [getLsbD_byteAt, BitVec.getLsbD_of_ge v _ (by omega), Bool.and_false, BitVec.getLsbD_zero]

theorem byteAt_or (x y : Word) (k : Nat) : byteAt (x ||| y) k = byteAt x k ||| byteAt y k :=
  BitVec.extractLsb'_or

theorem byteAt_and (x y : Word) (k : Nat) : byteAt (x &&& y) k = byteAt x k &&& byteAt y k :=
  BitVec.extractLsb'_and

/-- A left shift by `j` bytes moves each byte up by `j` places. -/
theorem byteAt_shiftLeft (v : Word) {n j : Nat} (hn : n = 8 * j) (k : Nat) :
    byteAt (v <<< n) k = if k < 4 ∧ j ≤ k then byteAt v (k - j) else 0#8 := by
  subst hn
  refine BitVec.eq_of_getLsbD_eq fun i hi => ?_
  rw [getLsbD_byteAt, BitVec.getLsbD_shiftLeft]
  split
  · next h =>
    have hin : 8 * k + i < 32 ∧ ¬8 * k + i < 8 * j := by omega
    have hsource : 8 * k + i - 8 * j = 8 * (k - j) + i := by omega
    simp [getLsbD_byteAt, hin, hsource]
  · next h =>
    have hout : ¬8 * k + i < 32 ∨ 8 * k + i < 8 * j := by omega
    obtain h | h := hout <;> simp [h]

/-- A right shift by `j` bytes moves each byte down by `j` places. -/
theorem byteAt_ushiftRight (v : Word) {n j : Nat} (hn : n = 8 * j) (k : Nat) :
    byteAt (v >>> n) k = byteAt v (j + k) := by
  subst hn
  exact BitVec.eq_of_getLsbD_eq fun i _ => by
    simp only [getLsbD_byteAt, BitVec.getLsbD_ushiftRight, Nat.mul_add, Nat.add_assoc]

/-! ## Reversed words (R290 to R292) -/

theorem byte_and_ones (x : Byte) : x &&& 0xFF#8 = x := BitVec.and_allOnes

theorem rev_eq (v : Word) : byteAt v 0 ++ byteAt v 1 ++ byteAt v 2 ++ byteAt v 3 =
    v <<< 24 ||| (v <<< 8 &&& 0x00FF0000#32) ||| (v >>> 8 &&& 0x0000FF00#32) ||| v >>> 24 := by
  have hend (k : Nat) (h : 4 ≤ k) := byteAt_of_ge v h
  have h24 : 24 = 8 * 3 := rfl
  have h8 : 8 = 8 * 1 := rfl
  rw [eq_bytes (_ ||| v >>> 24)]
  simp only [byteAt_or, byteAt_and, byteAt_shiftLeft v h24, byteAt_shiftLeft v h8,
    byteAt_ushiftRight v h24, byteAt_ushiftRight v h8]
  generalize byteAt v = b at hend
  simp [byteAt, byte_and_ones, hend]

theorem rev16_eq (v : Word) : byteAt v 2 ++ byteAt v 3 ++ byteAt v 0 ++ byteAt v 1 =
    (v <<< 8 &&& 0xFF00FF00#32) ||| (v >>> 8 &&& 0x00FF00FF#32) := by
  have hend (k : Nat) (h : 4 ≤ k) := byteAt_of_ge v h
  have h8 : 8 = 8 * 1 := rfl
  rw [eq_bytes (_ ||| _)]
  simp only [byteAt_or, byteAt_and, byteAt_shiftLeft v h8, byteAt_ushiftRight v h8]
  generalize byteAt v = b at hend
  simp [byteAt, byte_and_ones, hend]

/-- The two low bytes exchanged; the sign is bit 7 of the lower. -/
theorem revsh_eq (v : Word) : (byteAt v 0 ++ byteAt v 1).signExtend 32 =
    ((v <<< 24).sshiftRight 16) ||| (v >>> 8 &&& 0x000000FF#32) := by
  have hmask : 0x000000FF#32 = (BitVec.allOnes 8).setWidth 32 := rfl
  refine BitVec.eq_of_getLsbD_eq fun i hi => ?_
  rw [hmask]
  simp only [BitVec.getLsbD_or, BitVec.getLsbD_and, BitVec.getLsbD_signExtend,
    BitVec.getLsbD_append, BitVec.getLsbD_sshiftRight, getLsbD_byteAt, BitVec.getLsbD_shiftLeft,
    BitVec.getLsbD_ushiftRight, BitVec.getLsbD_setWidth, BitVec.getLsbD_allOnes,
    BitVec.msb_eq_getLsbD_last]
  have hbyte : i < 8 ∨ (8 ≤ i ∧ i < 16) ∨ 16 ≤ i := by omega
  obtain h | h | h := hbyte
  case inl => grind
  case inr.inl => grind
  case inr.inr => grind

/-! ## Extended words (R284 to R287) -/

theorem setWidth_low_eq_and (v : Word) {n : Nat} (hn : n ≤ 32) :
    (v.extractLsb' 0 n).setWidth 32 = v &&& BitVec.ofNat 32 (2 ^ n - 1) := by
  have hpow : 2 ^ n ≤ 2 ^ 32 := Nat.pow_le_pow_right (by decide) hn
  have hpos : 0 < 2 ^ n := Nat.two_pow_pos n
  apply BitVec.eq_of_toNat_eq
  rw [BitVec.toNat_and, BitVec.toNat_ofNat, Nat.mod_eq_of_lt (by omega),
    Nat.and_two_pow_sub_one_eq_mod, BitVec.toNat_setWidth, BitVec.extractLsb'_toNat, Nat.shiftRight_zero]
  exact Nat.mod_eq_of_lt (lt_of_lt_of_le (Nat.mod_lt _ hpos) hpow)

theorem zeroHalf_eq (v : Word) : zeroHalf v = v &&& 0x0000FFFF#32 :=
  setWidth_low_eq_and v (by decide)

theorem zeroByte_eq (v : Word) : zeroByte v = v &&& 0x000000FF#32 :=
  setWidth_low_eq_and v (by decide)

theorem signHalf_eq (v : Word) : signHalf v = (v.setWidth 16).signExtend 32 := by
  rw [signHalf, BitVec.setWidth_eq_extractLsb' (by omega)]

theorem signByte_eq (v : Word) : signByte v = (v.setWidth 8).signExtend 32 := by
  rw [signByte, BitVec.setWidth_eq_extractLsb' (by omega)]

end Sys2Proof.Machine
end

section
/-! PROOFS. Addresses, stack-pointer arithmetic, extends, reverses, PUSH, POP, hints and barriers
(`44_misc_16bit.md` R280 to R300, `47_system_32bit.md` R332, R333), sleep (`60_exceptions.md` R480, R481),
and the instructions that raise an exception (R420, R423). -/

namespace Sys2Proof.Machine

open Sys2Proof

/-- Settles O27: ADR and ADD Rd, SP write a low register, ADD SP and SUB SP the stack pointer in use. -/
theorem addressAndStackArithmetic : Obligations.AddressAndStackArithmetic := by
  intro s rd imm8 imm7 hroom
  simp only [List.forall_mem_cons, ← zeroExt4_eq_ofNat]
  refine ⟨?adr, advance_setLow hroom rd _, advance_setSp hroom _, advance_setSp hroom _, nofun⟩
  case adr =>
    rw [← align4_eq_and]
    exact advance_setLow hroom rd _

/-- Settles O28: each writes one low register; the words are those of `revsh_eq` and its neighbours. -/
theorem extendsAndReverses : Obligations.ExtendsAndReverses := by
  intro s rm rd v hroom hv
  subst hv
  simp only [List.forall_mem_cons, ← rev_eq, ← rev16_eq, ← revsh_eq]
  simp only [← signHalf_eq, ← signByte_eq, ← zeroHalf_eq, ← zeroByte_eq]
  have write := advance_setLow hroom rd
  exact ⟨write _, write _, write _, write _, write _, write _, write _, nofun⟩

/-! ## PUSH and POP (R288, R293) -/

/-- Settles O29: the words are stored from the lowest address up, then the stack pointer moves there. -/
theorem pushStores : Obligations.PushStores := by
  intro s m list ws base hlist hroom hws hbase hwritable
  obtain rfl : ws = s.pushWords m list := hws
  obtain rfl : base = s.pushBase m list := by rw [hbase, length_pushWords]; rfl
  obtain ⟨t, hstore, hframe, hstored⟩ := storeWords_writable hwritable
  have hnoted := storesNoted_storeWords hwritable hstore
  obtain ⟨htop, hwords⟩ := hwritable
  rw [length_pushWords] at htop hwords
  have haligned : (s.pushBase m list).toNat % 4 = 0 :=
    aligned_of_wordAt (stackCount_pos hlist) fun k hk => (hwords k hk).1
  have hroom' : (t.setSp (s.pushBase m list)).roomFor 2 := by rw [hframe]; exact hroom
  refine ⟨_, (exec_push_of_stored hlist htop hstore).trans (advance_room hroom'), hstored, hnoted, ?_⟩
  rw [setSp_aligned t haligned, hframe]

/-- Settles O30: the words are read, then the registers and the stack pointer are written
(`State.popLoaded`), then the pc. -/
theorem popLoads : Obligations.PopLoads := by
  intro s p list regs n vs sp last hlist hregs hn hreadable hvs hsp hlast
  obtain rfl : regs = listRegs list := hregs
  obtain rfl : n = stackCount p list := hn
  have hread := readWords_readable hreadable
  obtain ⟨htop, hwords⟩ := hreadable
  have haligned : s.sp.toNat % 4 = 0 :=
    aligned_of_wordAt (stackCount_pos hlist) fun k hk => (hwords k hk).1
  have hexec := exec_pop_of_read hlist htop hread
  rw [← hvs, show wordAt s.sp (stackCount p list) = sp from hsp.symm, ← hlast] at hexec
  have hlen : (listRegs list).length ≤ vs.length := by
    rw [hvs, length_wordsAt, stackCount_eq]
    exact Nat.le_add_right _ _
  have hspAligned : sp.toNat % 4 = 0 := hsp ▸ aligned_wordAt haligned _
  refine ⟨s.popLoaded list sp vs, popLoaded_low s sp hlen, fun i hi => popLoaded_other s sp vs hi,
    ?frame, ?advance, ?branch, ?exceptionReturn⟩
  case frame =>
    refine (popLoaded_eq s list sp vs).trans ?_
    rw [setReg_sp, setSp_aligned s hspAligned]
  case advance =>
    rintro rfl hroom
    exact hexec.trans (advance_popLoaded hroom)
  case branch =>
    rintro rfl hmode
    rw [← popLoaded_ipsr s list sp vs] at hmode
    rw [hexec, if_pos rfl, bxWritePc_branch hmode, exchangeTo_eq]
  case exceptionReturn =>
    rintro rfl hmode htop
    rw [← popLoaded_ipsr s list sp vs] at hmode
    rw [hexec, if_pos rfl, bxWritePc_return hmode htop]

/-! ## Hints, barriers and CPS (R289, R295 to R300, R332, R333) -/

theorem exec_cps (im : Bool) (s : State) : exec (.cps im 0b0010#4) s =
    advance 2 (if s.privileged then { s with primask := im } else s) := rfl

/-- Settles O31: all but CPS are the advance of the pc alone. -/
theorem hintsBarriersAndCps : Obligations.HintsBarriersAndCps := by
  intro s opA option im
  refine ⟨fun hroom => ?_, fun hroom => ⟨advance_room hroom, advance_room hroom⟩⟩
  have hnop := advance_room hroom
  refine ⟨hnop, hnop, hnop, fun hpriv => ?privileged, fun hpriv => ?unprivileged⟩
  case privileged =>
    rw [exec_cps, if_pos hpriv]
    exact advance_room (s := { s with primask := im }) hroom
  case unprivileged =>
    rw [exec_cps, if_neg (Bool.eq_false_iff.mp hpriv)]
    exact hnop

/-! ## Sleep (R297 to R299, R480, R481) -/

/-- The wake-up condition of WFI: an exception would be takeable were PRIMASK 0 (R480). -/
theorem wakesWfi_iff {s : State} :
    s.wakesWfi = true ↔ ∃ e, State.takeable { s with primask := false } e = true := by
  rw [State.wakesWfi, List.any_eq_true]
  exact exists_congr fun e => and_iff_right (Exc.mem_all e)

theorem waitForInterrupt_wakes {s : State}
    (h : ∃ e, State.takeable { s with primask := false } e = true) : s.waitForInterrupt = s :=
  if_pos (wakesWfi_iff.mpr h)

theorem waitForInterrupt_sleeps {s : State}
    (h : ∀ e, State.takeable { s with primask := false } e = false) :
    s.waitForInterrupt = { s with sleep := .waitInterrupt } := by
  refine if_neg fun hwakes => ?_
  obtain ⟨e, he⟩ := wakesWfi_iff.mp hwakes
  rw [h e] at he
  cases he

theorem exec_wfe (s : State) : exec .wfe s =
    if s.event then advance 2 { s with event := false }
    else advance 2 { s with sleep := .waitEvent } := rfl

theorem exec_wfi (s : State) : exec .wfi s = advance 2 s.waitForInterrupt := rfl

theorem step_asleep {s : State} (h : s.coreTurn) (hasleep : s.sleep ≠ .awake) :
    step s = sleepStep s.nextChoice s.afterInput := by
  have hlockup : s.lockup = false := h.1
  rw [step_coreTurn h]
  simp [coreStep, hlockup, hasleep]

theorem sleepStep_best {s : State} {e : Exc} (c : Choice) (h : s.best = some e) :
    sleepStep c s = exceptionEntry e s.pc s := by
  rw [sleepStep, h]

/-- With nothing takeable a sleeping core sleeps on or wakes. -/
theorem sleepStep_cases {s : State} (c : Choice) (h : s.best = none) :
    sleepStep c s = .next s ∨ sleepStep c s = .next { s with sleep := .awake } := by
  rw [sleepStep, h]
  dsimp only
  split
  · exact .inr rfl
  · exact .inl rfl

theorem sleepStep_mustWake {s : State} (c : Choice) (h : s.best = none) (hwake : s.mustWake = true) :
    sleepStep c s = .next { s with sleep := .awake } := by
  simp only [sleepStep, h, hwake, Bool.true_or, if_true]

theorem mustWake_event {s : State} (hasleep : s.sleep = .waitEvent) (h : s.event = true) :
    s.mustWake = true := by
  rw [State.mustWake, hasleep, State.wakesWfe, h]
  rfl

theorem mustWake_interrupt {s : State} (hasleep : s.sleep = .waitInterrupt)
    (h : ∃ e, State.takeable { s with primask := false } e = true) : s.mustWake = true := by
  rw [State.mustWake, hasleep]
  exact wakesWfi_iff.mpr h

/-- Settles O32: each instruction is an advance past one write, and a step asleep is `sleepStep`. -/
theorem sleepAndEvents : Obligations.SleepAndEvents := by
  intro s
  refine ⟨fun hroom => ⟨?sev, ?wfeSet, ?wfeClear, ?wfiWakes, ?wfiSleeps⟩,
    fun hasleep hturn => ?asleep⟩
  case sev => exact advance_room (s := { s with event := true }) hroom
  case wfeSet =>
    intro h
    rw [exec_wfe, if_pos h]
    exact advance_room (s := { s with event := false }) hroom
  case wfeClear =>
    intro h
    rw [exec_wfe, if_neg (Bool.eq_false_iff.mp h)]
    exact advance_room (s := { s with sleep := .waitEvent }) hroom
  case wfiWakes =>
    intro h
    rw [exec_wfi, waitForInterrupt_wakes h, advance_room hroom]
  case wfiSleeps =>
    intro h
    rw [exec_wfi, waitForInterrupt_sleeps h]
    exact advance_room (s := { s with sleep := .waitInterrupt }) hroom
  case asleep =>
    rw [step_asleep hturn hasleep]
    refine ⟨fun e hbest => sleepStep_best _ hbest, fun hbest => ⟨sleepStep_cases _ hbest, ?_, ?_⟩⟩
    · exact fun hwait hevent => sleepStep_mustWake _ hbest (mustWake_event hwait hevent)
    · exact fun hwait hwakes => sleepStep_mustWake _ hbest (mustWake_interrupt hwait hwakes)

/-! ## SVC, BKPT, UDF (R294, R322, R323, R335) -/

/-- HardFault is entered with the instruction's own address where the priority allows it (R420). -/
theorem raiseHardFault_enters {s : State} (c : FaultCause) (h : -1 < s.executionPriority) :
    raiseHardFault c s = exceptionEntry .hardFault s.pc s :=
  if_neg (Int.not_le.mpr h)

theorem exec_svc_enters {s : State} (imm8 : BitVec 8)
    (h : (s.pri.svcall.toNat : Int) < s.executionPriority) :
    exec (.svc imm8) s = exceptionEntry .svcall (s.pc + 2#32) s :=
  if_pos h

/-- SVC at too high an execution priority is a HardFault, which UDF raises too (R423). -/
theorem exec_svc_escalates {s : State} (imm8 : BitVec 8)
    (h : s.executionPriority ≤ (s.pri.svcall.toNat : Int)) :
    exec (.svc imm8) s = exec (.udf 0#8) s :=
  if_neg (Int.not_lt.mpr h)

/-- Settles O41: SVCall or HardFault is entered, and the entry completes (`exceptionEntry_ready`). -/
theorem synchronousExceptions : Obligations.SynchronousExceptions := by
  intro s imm8 imm4 imm12
  refine ⟨fun hprio hready => ?svc, exec_svc_escalates imm8, fun hprio hready => ?hardFault⟩
  case svc =>
    rw [exec_svc_enters imm8 hprio]
    exact exceptionEntry_ready _ hready
  case hardFault =>
    obtain ⟨t, hentry, ht⟩ := exceptionEntry_ready s.pc hready
    have raised (c : FaultCause) : raiseHardFault c s = .next t :=
      (raiseHardFault_enters c hprio).trans hentry
    exact ⟨t, ht, raised .breakpoint, raised .undefinedInstruction, raised .undefinedInstruction⟩

end Sys2Proof.Machine
end

section
/-! SUPPORT. Words at rising addresses with events between them, and up to a fault
(`45_load_store_multiple.md` R310 to R312, `60_exceptions.md` R400). -/

namespace Sys2Proof.Machine

open Sys2Proof

/-! ## Occasions for events (R400) -/

/-- Fewer occasions than accesses are all between accesses. -/
theorem gapsWithin_of_lt {gaps : Gaps} {n : Nat} (h : gaps.length < n) : gapsWithin gaps n = gaps :=
  List.take_of_length_le (by omega)

theorem afterEvents_flatten (s : State) (gaps : Gaps) :
    (s.afterEvents (gaps.headD [])).afterEvents gaps.tail.flatten = s.afterEvents gaps.flatten := by
  cases gaps with
  | nil => rfl
  | cons es gaps => exact List.foldl_append.symm

/-- What an event does depends neither on memory nor on Dirty, and changes neither. -/
theorem onlyMemory.afterEvent {s t : State} (h : onlyMemory s t) (e : Event) :
    onlyMemory (s.afterEvent e) (t.afterEvent e) := by
  rw [h]
  cases e with
  | irqLine n level =>
    simp only [onlyMemory, State.afterEvent, State.driveIrq]
    split
    · split <;> rfl
    · rfl
  | nmiLine level =>
    simp only [onlyMemory, State.afterEvent, State.driveNmi]
    split <;> rfl
  | tick =>
    simp only [onlyMemory, State.afterEvent, State.sysTickStep]
    split
    · split
      · rfl
      · split
        · split <;> rfl
        · rfl
    · rfl
  | rxev | deviceValue => rfl

theorem onlyMemory.afterEvents {s t : State} (h : onlyMemory s t) (es : List Event) :
    onlyMemory (s.afterEvents es) (t.afterEvents es) := by
  induction es generalizing s t with
  | nil => exact h
  | cons e es ih => exact ih (h.afterEvent e)

theorem onlyMemory.trans {s t u : State} (h : onlyMemory s t) (h' : onlyMemory t u) :
    onlyMemory s u := by
  rw [onlyMemory] at h' ⊢
  rw [h', h]

theorem privileged_afterEvents (s : State) (es : List Event) :
    (s.afterEvents es).privileged = s.privileged := by
  rw [State.privileged, State.handlerMode, State.afterEvents_ipsr, State.afterEvents_npriv]
  rfl

theorem sp_afterEvents (s : State) (es : List Event) : (s.afterEvents es).sp = s.sp := by
  rw [State.sp, State.useProcess, State.handlerMode, State.afterEvents_spsel, State.afterEvents_ipsr,
    State.afterEvents_spProcess, State.afterEvents_spMain]
  rfl

theorem low_afterEvents (s : State) (es : List Event) (i : LowReg) :
    (s.afterEvents es).low i = s.low i := by
  rw [State.low, State.afterEvents_r, State.low]

theorem wordsAt_afterEvents (s : State) (es : List Event) (a : Word) (n : Nat) :
    (s.afterEvents es).wordsAt a n = s.wordsAt a n := by
  rw [State.wordsAt, State.afterEvents_mem, State.afterEvents_cfg, State.wordsAt]

theorem readableWords_afterEvents {s : State} {es : List Event} {priv : Bool} {a : Word} {n : Nat} :
    (s.afterEvents es).readableWords priv a n ↔ s.readableWords priv a n := by
  simp only [State.readableWords, State.readable, State.afterEvents_cfg]

theorem writableWords_afterEvents {s : State} {es : List Event} {priv : Bool} {a : Word} {n : Nat} :
    (s.afterEvents es).writableWords priv a n ↔ s.writableWords priv a n := by
  simp only [State.writableWords, State.writable, State.afterEvents_cfg]

/-! ## Reads -/

theorem wordsAt_succ (s : State) {a : Word} {n : Nat} (h : a.toNat + 4 * (n + 1) ≤ 2 ^ 32) :
    s.wordsAt a (n + 1) =
      s.mem.value s.cfg.bigEndian .word a.toNat :: s.wordsAt (a + 4#32) n := by
  rw [State.wordsAt, List.range_succ_eq_map, List.map_cons, List.map_map, State.wordsAt]
  refine congrArg _ (List.map_congr_left fun k hk => ?_)
  rw [toNat_next_word h (Nat.ne_zero_of_lt (List.mem_range.mp hk)), Function.comp,
    Nat.add_assoc, Nat.mul_succ, Nat.add_comm 4]

theorem readableWords_next {s : State} {priv : Bool} {a : Word} {n : Nat}
    (h : s.readableWords priv a (n + 1)) :
    s.readable priv .word a ∧ s.readableWords priv (a + 4#32) n := by
  obtain ⟨hlen, hwords⟩ := h
  obtain ⟨hfirst, hrest⟩ := forall_next_words hwords
  refine ⟨hfirst, ?_, hrest⟩
  by_cases hn : n = 0
  · have := (a + 4#32).isLt
    omega
  · rw [toNat_next_word hlen hn]
    omega

/-- Words read from memory are what memory holds, whatever happens between the reads. -/
theorem readWords_amid {priv : Bool} {gaps : Gaps} {n : Nat} {a : Word} {s : State}
    (h : s.readableWords priv a n) (hgaps : gaps.length ≤ n) :
    readWords priv gaps n a s = (s.wordsAt a n, .ok () (s.afterEvents gaps.flatten)) := by
  induction n generalizing gaps a s with
  | zero =>
    obtain rfl := List.eq_nil_of_length_eq_zero (Nat.le_zero.mp hgaps)
    rfl
  | succ n ih =>
    obtain ⟨hfirst, hrest⟩ := readableWords_next h
    have htail : gaps.tail.length ≤ n := by
      rw [List.length_tail]
      omega
    rw [readWords, memRead_readable hfirst, wordsAt_succ s h.1]
    simp only [ih (readableWords_afterEvents.mpr hrest) htail, wordsAt_afterEvents,
      afterEvents_flatten]

/-- Reads up to a fault have read the words before it. -/
theorem readWords_fault {priv : Bool} {k n : Nat} {a : Word} {s : State} {c : FaultCause}
    (h : s.readableWords priv a k) (hk : k < n)
    (hfault : memRead priv .word (wordAt a k) s = .hardFault c s) :
    readWords priv [] n a s = (s.wordsAt a k, .hardFault c s) := by
  induction k generalizing n a with
  | zero =>
    obtain ⟨n, rfl⟩ := Nat.exists_eq_succ_of_ne_zero (Nat.ne_zero_of_lt hk)
    rw [wordAt_zero] at hfault
    rw [readWords, hfault]
    rfl
  | succ k ih =>
    obtain ⟨n, rfl⟩ := Nat.exists_eq_succ_of_ne_zero (Nat.ne_zero_of_lt hk)
    obtain ⟨hfirst, hrest⟩ := readableWords_next h
    rw [← wordAt_succ] at hfault
    rw [readWords, memRead_readable hfirst, wordsAt_succ s h.1]
    simp only [List.tail_nil, List.headD_nil, State.afterEvents_nil,
      ih hrest (Nat.lt_of_succ_lt_succ hk) hfault]

theorem length_readWords {priv : Bool} {gaps : Gaps} {n : Nat} {a : Word} {s t : State}
    {vs : List Word} (h : readWords priv gaps n a s = (vs, .ok () t)) : vs.length = n := by
  induction n generalizing gaps a s vs with
  | zero => cases h; rfl
  | succ n ih =>
    rw [readWords] at h
    cases hr : memRead priv .word a s with
    | ok v u =>
      rw [hr] at h
      obtain ⟨rfl, hok⟩ := Prod.mk.inj h
      exact congrArg Nat.succ (ih (Prod.ext rfl hok))
    | hardFault c u =>
      rw [hr] at h
      cases h
    | refuse r =>
      rw [hr] at h
      cases h

theorem memRead_pc {priv : Bool} {w : Width} {a v : Word} {s t : State}
    (h : memRead priv w a s = .ok v t) : t.pc = s.pc :=
  (congrArg State.pc (memRead_readFrom h) :)

theorem readWords_pc {priv : Bool} {gaps : Gaps} {n : Nat} {a : Word} {s t : State}
    {vs : List Word} (h : readWords priv gaps n a s = (vs, .ok () t)) : t.pc = s.pc := by
  induction n generalizing gaps a s vs with
  | zero => cases h; rfl
  | succ n ih =>
    rw [readWords] at h
    cases hr : memRead priv .word a s with
    | ok v u =>
      rw [hr] at h
      obtain ⟨_, hok⟩ := Prod.mk.inj h
      rw [ih (Prod.ext rfl hok), State.afterEvents_pc, memRead_pc hr]
    | hardFault c u =>
      rw [hr] at h
      cases h
    | refuse r =>
      rw [hr] at h
      cases h

/-! ## Writes -/

/-- Words stored to RAM are stored, whatever happens between the stores. -/
theorem storeWords_amid {priv : Bool} {gaps : Gaps} {vs : List Word} {a : Word} {s : State}
    (h : s.writableWords priv a vs.length) (hgaps : gaps.length ≤ vs.length) :
    ∃ t, storeWords priv gaps vs a s = .ok () t ∧ onlyMemory (s.afterEvents gaps.flatten) t ∧
      wordsStored s.cfg.bigEndian s.mem t.mem a vs := by
  induction vs generalizing gaps a s with
  | nil =>
    obtain rfl := List.eq_nil_of_length_eq_zero (Nat.le_zero.mp hgaps)
    exact ⟨s, rfl, rfl, wordsStored_nil _ _ _⟩
  | cons v vs ih =>
    obtain ⟨hfirst, hrest⟩ := writableWords_next h
    have htail : gaps.tail.length ≤ vs.length := by
      rw [List.length_tail]
      exact Nat.sub_le_of_le_add hgaps
    have hrest : (s.storeAt .word a.toNat v).writableWords priv (a + 4#32) vs.length := hrest
    obtain ⟨t, hstore, hframe, hstored⟩ :=
      ih (writableWords_afterEvents (es := gaps.headD []).mpr hrest) htail
    rw [afterEvents_flatten] at hframe
    rw [State.afterEvents_mem, State.afterEvents_cfg] at hstored
    have hstoreAt : onlyMemory s (s.storeAt .word a.toNat v) := rfl
    refine ⟨t, ?_, (hstoreAt.afterEvents _).trans hframe, wordsStored_cons h.1 hstored⟩
    rw [storeWords, memWrite_writable v hfirst]
    exact hstore

/-- Stores of words in two parts. -/
theorem storeWords_append (priv : Bool) (vs ws : List Word) (a : Word) (s : State) :
    storeWords priv [] (vs ++ ws) a s = (storeWords priv [] vs a s).andThen fun _ t =>
      storeWords priv [] ws (wordAt a vs.length) t := by
  induction vs generalizing a s with
  | nil => rw [List.nil_append, storeWords, List.length_nil, wordAt_zero, Eff.andThen_ok]
  | cons v vs ih =>
    rw [List.cons_append, storeWords, storeWords]
    cases hw : memWrite priv .word a v s with
    | ok u t => exact (ih ..).trans (by rw [wordAt_succ]; rfl)
    | hardFault c t => rfl
    | refuse r => rfl

/-- Stores up to a bus error have stored the words before it. -/
theorem storeWords_fault {vs : List Word} {a : Word} {s : State} {k : Nat}
    (h : s.writableWords s.privileged a k) (hk : k < vs.length)
    (hfault : s.busErrorAt .write .word (wordAt a k)) :
    ∃ c t, storeWords s.privileged [] vs a s = .hardFault c t ∧ onlyMemory s t ∧
      wordsStored s.cfg.bigEndian s.mem t.mem a (vs.take k) := by
  have hlen : (vs.take k).length = k := List.length_take_of_le hk.le
  obtain ⟨t, hstore, hframe, hstored⟩ := storeWords_writable (vs := vs.take k) (hlen.symm ▸ h)
  have hcfg : t.cfg = s.cfg := (congrArg State.cfg hframe :)
  obtain ⟨c, hc⟩ := memWrite_busError (s := t) (priv := s.privileged) vs[k]
    (.inr (hcfg.symm ▸ hfault.2))
  refine ⟨c, t, ?_, hframe, hstored⟩
  rw [← List.take_append_drop k vs, storeWords_append, hstore, hlen, List.drop_eq_getElem_cons hk,
    Eff.andThen_ok, storeWords, hc, Eff.andThen_hardFault]

theorem writePri_pc (s : State) (n : Fin 32) (v : Word) (j : Nat) : (s.writePri n v j).pc = s.pc := by
  unfold State.writePri
  split <;> rfl

/-- A write of a system register leaves the pc as it was. -/
theorem writeSys_pc {reg : SysReg} {v : Word} {s t : State} (h : writeSys reg v s = .ok () t) :
    t.pc = s.pc := by
  cases reg with
  | nvicIpr k => cases h; simp only [State.writeIpr, writePri_pc]
  | icsr =>
    simp only [writeSys, State.writeIcsr] at h
    split at h <;> cases h
    rfl
  | vtor =>
    simp only [writeSys, State.writeVtor] at h
    split at h
    · cases h; rfl
    · split at h <;> cases h
      rfl
  | aircr =>
    simp only [writeSys, State.writeAircr] at h
    split at h
    · cases h; rfl
    · split at h <;> cases h
      rfl
  | systCsr | systRvr | systCvr => cases h; split <;> rfl
  | mpuType => cases h
  | _ => cases h; rfl

theorem memWrite_pc {priv : Bool} {w : Width} {a v : Word} {s t : State}
    (h : memWrite priv w a v s = .ok () t) : t.pc = s.pc := by
  obtain ⟨_, ⟨rfl, _⟩ | ⟨rfl, _⟩ | ⟨_, rfl⟩ | ⟨_, _, reg, _, hw⟩⟩ := memWrite_ok h
  · rfl
  · rfl
  · rfl
  · exact writeSys_pc hw

theorem storeWords_pc {priv : Bool} {gaps : Gaps} {vs : List Word} {a : Word} {s t : State}
    (h : storeWords priv gaps vs a s = .ok () t) : t.pc = s.pc := by
  induction vs generalizing gaps a s with
  | nil => cases h; rfl
  | cons v vs ih =>
    obtain ⟨_, u, hw, hrest⟩ := Eff.andThen_eq_ok h
    rw [ih hrest, State.afterEvents_pc, memWrite_pc hw]

theorem storeWords_resetIn {priv : Bool} {gaps : Gaps} {vs : List Word} {a : Word} {s t : State}
    (h : storeWords priv gaps vs a s = .ok () t) (hs : s.resetIn = none) : t.resetIn = none := by
  have hkeeps := storeWords_keeps priv gaps vs a s
  rw [h] at hkeeps
  exact Keeps.resetIn hkeeps hs

/-- Stores that succeed start at a multiple of 4 (R96). -/
theorem aligned_of_storeWords {priv : Bool} {gaps : Gaps} {vs : List Word} {a : Word} {s t : State}
    (hvs : vs ≠ []) (h : storeWords priv gaps vs a s = .ok () t) : a.toNat % 4 = 0 := by
  cases vs with
  | nil => exact absurd rfl hvs
  | cons v vs =>
    obtain ⟨_, u, hw, _⟩ := Eff.andThen_eq_ok h
    exact (memWrite_ok hw).1

end Sys2Proof.Machine
end

section
/-! SUPPORT. The multiple transfers with their checks passed, and the registers of a load that a fault or an
abandonment cuts off (`45_load_store_multiple.md` R310 to R312, `44_misc_16bit.md` R288, R293). -/

namespace Sys2Proof.Machine

open Sys2Proof

/-! ## Lists that name a word to transfer -/

theorem ne_zero_of_listRegs {list : BitVec 8} (h : 0 < (listRegs list).length) : list ≠ 0#8 := by
  rintro rfl
  exact absurd h (by decide)

theorem formed_of_stackCount {extra : Bool} {list : BitVec 8} (h : 0 < stackCount extra list) :
    ¬((!extra && list == 0#8) = true) := by
  cases extra with
  | true => exact Bool.false_ne_true
  | false => simpa using ne_zero_of_listRegs h

theorem aligned_of_aligned_wordAt {a : Word} {k : Nat} (h : (wordAt a k).toNat % 4 = 0) :
    a.toNat % 4 = 0 := by
  rw [wordAt, BitVec.toNat_add, BitVec.toNat_ofNat] at h
  omega

/-! ## The transfers, once their checks are passed -/

section Transfers

variable {gaps : Gaps} {x : Bool} {rn : LowReg} {list : BitVec 8} {s u : State} {vs : List Word}
  {c : FaultCause}

theorem pushAmid_eq (htop : (s.pushBase x list).toNat + 4 * stackCount x list ≤ 2 ^ 32)
    (hgaps : gaps.length < stackCount x list) :
    pushAmid gaps x list s =
      ((storeWords s.privileged gaps (s.pushWords x list) (s.pushBase x list) s).andThen
        fun _ t => .ok () (t.setSp (s.pushBase x list))).finishAt 2 := by
  rw [pushAmid, if_neg (formed_of_stackCount (Nat.zero_lt_of_lt hgaps)), crossesTop_of_le htop,
    gapsWithin_of_lt hgaps]
  rfl

theorem stmAmid_eq (haligned : (s.low rn).toNat % 4 = 0)
    (htop : (s.low rn).toNat + 4 * (listRegs list).length ≤ 2 ^ 32)
    (hgaps : gaps.length < (listRegs list).length) :
    stmAmid gaps rn list s =
      ((storeWords s.privileged gaps (s.stmWords rn list) (s.low rn) (s.stmDrawn rn list)).andThen
        fun _ t => .ok () (t.setLow rn (wordAt (s.low rn) (listRegs list).length))).finishAt 2 := by
  rw [stmAmid, if_neg (ne_zero_of_listRegs (Nat.zero_lt_of_lt hgaps)),
    if_neg (not_not.mpr haligned), crossesTop_of_le htop, gapsWithin_of_lt hgaps]
  rfl

theorem ldmAmid_read (haligned : (s.low rn).toNat % 4 = 0)
    (htop : (s.low rn).toNat + 4 * (listRegs list).length ≤ 2 ^ 32)
    (hgaps : gaps.length < (listRegs list).length)
    (h : readWords s.privileged gaps (listRegs list).length (s.low rn) s = (vs, .ok () u)) :
    ldmAmid gaps rn list s = advance 2 (u.ldmLoaded rn list (s.low rn) vs) := by
  rw [ldmAmid, if_neg (ne_zero_of_listRegs (Nat.zero_lt_of_lt hgaps)),
    if_neg (not_not.mpr haligned), crossesTop_of_le htop, gapsWithin_of_lt hgaps, h]
  rfl

theorem ldmAmid_fault (haligned : (s.low rn).toNat % 4 = 0)
    (htop : (s.low rn).toNat + 4 * (listRegs list).length ≤ 2 ^ 32)
    (hgaps : gaps.length < (listRegs list).length)
    (h : readWords s.privileged gaps (listRegs list).length (s.low rn) s = (vs, .hardFault c u)) :
    ldmAmid gaps rn list s =
      raiseHardFault c (u.setSomeLows (some rn) ((listRegs list).zip vs)) := by
  rw [ldmAmid, if_neg (ne_zero_of_listRegs (Nat.zero_lt_of_lt hgaps)),
    if_neg (not_not.mpr haligned), crossesTop_of_le htop, gapsWithin_of_lt hgaps, h]
  rfl

theorem popAmid_read (htop : s.sp.toNat + 4 * stackCount x list ≤ 2 ^ 32)
    (hgaps : gaps.length < stackCount x list)
    (h : readWords s.privileged gaps (stackCount x list) s.sp s = (vs, .ok () u)) :
    popAmid gaps x list s =
      if x then bxWritePc (vs.getD (listRegs list).length 0#32)
        (u.popLoaded list (wordAt s.sp (stackCount x list)) vs)
      else advance 2 (u.popLoaded list (wordAt s.sp (stackCount x list)) vs) := by
  rw [popAmid, if_neg (formed_of_stackCount (Nat.zero_lt_of_lt hgaps)), crossesTop_of_le htop,
    gapsWithin_of_lt hgaps, h]
  rfl

theorem popAmid_fault (htop : s.sp.toNat + 4 * stackCount x list ≤ 2 ^ 32)
    (hgaps : gaps.length < stackCount x list)
    (h : readWords s.privileged gaps (stackCount x list) s.sp s = (vs, .hardFault c u)) :
    popAmid gaps x list s = raiseHardFault c (u.setSomeLows none ((listRegs list).zip vs)) := by
  rw [popAmid, if_neg (formed_of_stackCount (Nat.zero_lt_of_lt hgaps)), crossesTop_of_le htop,
    gapsWithin_of_lt hgaps, h]
  rfl

end Transfers

/-! ## The words STM stores (R310) -/

theorem length_stmWords (s : State) (rn : LowReg) (list : BitVec 8) :
    (s.stmWords rn list).length = (listRegs list).length := List.length_map _

/-- Every word but that of a base listed and not lowest is its register's. -/
theorem stmWords_getD (s : State) (rn : LowReg) (list : BitVec 8) {k : Nat}
    (hk : k < (listRegs list).length) (hknown : k = 0 ∨ (listRegs list)[k] ≠ rn) :
    (s.stmWords rn list).getD k 0#32 = s.low (listRegs list)[k] := by
  have hkept : ¬((stmBaseUnknown rn list && (listRegs list)[k] == rn) = true) := by
    rw [Bool.and_eq_true, beq_iff_eq]
    rintro ⟨hunknown, hbase⟩
    obtain rfl := hknown.resolve_right (not_not.mpr hbase)
    rw [stmBaseUnknown, List.head?_eq_getElem?, List.getElem?_eq_getElem hk, hbase] at hunknown
    simp at hunknown
  rw [List.getD_eq_getElem _ _ ((length_stmWords ..).symm ▸ hk)]
  simp only [State.stmWords, List.getElem_map]
  exact if_neg hkept

theorem stmDrawn_eq (s : State) (rn : LowReg) (list : BitVec 8) :
    s.stmDrawn rn list = { s with free := (s.stmDrawn rn list).free } := by
  unfold State.stmDrawn
  split <;> rfl

/-! ## The end of LDM (R311) -/

theorem advance_ldmLoaded {s : State} (rn : LowReg) (list : BitVec 8) (base : Word) (vs : List Word)
    (hroom : s.roomFor 2) : advance 2 (s.ldmLoaded rn list base vs) =
      .next { s with r := (s.ldmLoaded rn list base vs).r, pc := s.pc + 2#32 } := by
  rw [ldmLoaded_eq]
  exact advance_room (s := { s with r := _ }) hroom

/-! ## Loads cut off (R312 items 2 and 3) -/

/-- A register is as before, or it is not the base and has taken a word of the list. -/
theorem setSomeLows_getElem (s : State) (base : Option LowReg) (l : List (LowReg × Word))
    (q : Fin 13) : (s.setSomeLows base l).r[q.val] = s.r[q.val] ∨
      ∃ p ∈ l, base ≠ some p.1 ∧ p.1.val = q.val ∧ (s.setSomeLows base l).r[q.val] = p.2 := by
  induction l generalizing s with
  | nil => exact .inl rfl
  | cons p l ih =>
    obtain ⟨r, v⟩ := p
    have later (t : State) (ht : t.r[q.val] = s.r[q.val] ∨
        base ≠ some r ∧ r.val = q.val ∧ t.r[q.val] = v) :
        (t.setSomeLows base l).r[q.val] = s.r[q.val] ∨ ∃ p ∈ (r, v) :: l, base ≠ some p.1 ∧
          p.1.val = q.val ∧ (t.setSomeLows base l).r[q.val] = p.2 := by
      obtain hkept | ⟨p, hp, htaken⟩ := ih t
      · obtain hs | ⟨hbase, hr, hv⟩ := ht
        · exact .inl (hkept.trans hs)
        · exact .inr ⟨_, List.mem_cons_self, hbase, hr, hkept.trans hv⟩
      · exact .inr ⟨p, List.mem_cons_of_mem _ hp, htaken⟩
    rw [State.setSomeLows]
    split
    · exact later s (.inl rfl)
    · next hbase =>
      refine later _ ?_
      split
      · by_cases hr : r.val = q.val
        · refine .inr ⟨hbase, hr, ?_⟩
          simp [← hr]
        · exact .inl (setLow_other _ v hr)
      · exact .inl rfl

theorem setSomeLows_eq (s : State) (base : Option LowReg) (l : List (LowReg × Word)) :
    s.setSomeLows base l =
      { s with r := (s.setSomeLows base l).r, free := (s.setSomeLows base l).free } := by
  induction l generalizing s with
  | nil => rfl
  | cons p l ih =>
    obtain ⟨r, v⟩ := p
    rw [State.setSomeLows]
    split
    · exact ih s
    · rw [ih]
      split <;> rfl

/-- `u` is `s` after a load of `regs` that was cut off when it had read `vs`: each register whose word was
read holds its old or its loaded value, the base and everything else is as before. -/
structure PartlyLoaded (s u : State) (base : Option LowReg) (regs : List LowReg) (vs : List Word) :
    Prop where
  frame : u = { s with r := u.r, free := u.free }
  base : ∀ rn, base = some rn → u.low rn = s.low rn
  other : ∀ q : Fin 13, (∀ r ∈ regs.take vs.length, r.val ≠ q.val) → u.r[q.val] = s.r[q.val]
  loaded : ∀ j (h : j < regs.length), j < vs.length →
    u.low regs[j] = s.low regs[j] ∨ u.low regs[j] = vs.getD j 0#32

theorem PartlyLoaded.pc {s u : State} {base : Option LowReg} {regs : List LowReg} {vs : List Word}
    (h : PartlyLoaded s u base regs vs) : u.pc = s.pc := (congrArg State.pc h.frame :)

/-- Which exception is taken depends neither on the registers nor on the free values (R406). -/
theorem PartlyLoaded.best {s u : State} {base : Option LowReg} {regs : List LowReg} {vs : List Word}
    (h : PartlyLoaded s u base regs vs) : u.best = s.best := (congrArg State.best h.frame :)

theorem mem_zip_iff {regs : List LowReg} {vs : List Word} {p : LowReg × Word} :
    p ∈ regs.zip vs ↔ ∃ (k : Nat) (h : k < regs.length) (h' : k < vs.length), p = (regs[k], vs[k]) := by
  rw [List.mem_iff_getElem]
  simp only [List.length_zip, List.getElem_zip, Nat.lt_min]
  exact ⟨fun ⟨k, h, hp⟩ => ⟨k, h.1, h.2, hp.symm⟩, fun ⟨k, h, h', hp⟩ => ⟨k, ⟨h, h'⟩, hp.symm⟩⟩

theorem partlyLoaded_setSomeLows (s : State) (base : Option LowReg) {regs : List LowReg}
    (hnodup : regs.Nodup) (vs : List Word) :
    PartlyLoaded s (s.setSomeLows base (regs.zip vs)) base regs vs where
  frame := setSomeLows_eq ..
  base := by
    rintro rn rfl
    obtain hkept | ⟨p, _, hbase, hp, _⟩ :=
      setSomeLows_getElem s (some rn) (regs.zip vs) ⟨rn.val, by omega⟩
    · exact hkept
    · exact absurd (congrArg some (Fin.ext hp.symm)) hbase
  other := by
    intro q hq
    obtain hkept | ⟨p, hmem, _, hp, _⟩ := setSomeLows_getElem s base (regs.zip vs) q
    · exact hkept
    · obtain ⟨k, hk, hk', rfl⟩ := mem_zip_iff.mp hmem
      exact absurd hp (hq _ (List.mem_take_iff_getElem.mpr ⟨k, Nat.lt_min.mpr ⟨hk', hk⟩, rfl⟩))
  loaded := by
    intro j hj hj'
    obtain hkept | ⟨p, hmem, _, hp, htaken⟩ :=
      setSomeLows_getElem s base (regs.zip vs) ⟨regs[j].val, by omega⟩
    · exact .inl hkept
    · obtain ⟨k, hk, hk', rfl⟩ := mem_zip_iff.mp hmem
      obtain rfl : k = j := (hnodup.getElem_inj_iff).mp (Fin.ext hp)
      exact .inr (htaken.trans (List.getD_eq_getElem _ _ hk').symm)

end Sys2Proof.Machine
end

section
/-! PROOFS. LDM and STM, and bus errors in the middle of the multiple transfers
(`45_load_store_multiple.md` R310 to R312). -/

namespace Sys2Proof.Machine

open Sys2Proof

/-- Settles O33: the words are stored from the base up, then the base moves past them. -/
theorem storeMultiple : Obligations.StoreMultiple := by
  intro s rn list regs base hlist hroom hbase hregs hwritable
  obtain rfl : regs = listRegs list := hregs
  subst hbase
  obtain ⟨htop, hwords⟩ := id hwritable
  have haligned : (s.low rn).toNat % 4 = 0 :=
    aligned_of_wordAt (length_listRegs_pos hlist) fun k hk => (hwords k hk).1
  obtain ⟨n, hdrawn⟩ : ∃ n, s.stmDrawn rn list = { s with free := n } := ⟨_, stmDrawn_eq ..⟩
  have hwritable : State.writableWords { s with free := n } s.privileged (s.low rn)
      (s.stmWords rn list).length := by
    rw [length_stmWords]
    exact hwritable
  obtain ⟨u, hstore, hframe, hstored⟩ := storeWords_writable hwritable
  have hnoted := storesNoted_storeWords hwritable hstore
  rw [length_stmWords] at hnoted
  rw [← hdrawn] at hstore
  have hroom' : (u.setLow rn (wordAt (s.low rn) (listRegs list).length)).roomFor 2 := by
    rw [hframe]
    exact hroom
  refine ⟨_, s.stmWords rn list,
    (exec_stm_of_stored hlist haligned htop hstore).trans (advance_room hroom'), length_stmWords ..,
    hstored, hnoted, fun k hk hknown => stmWords_getD s rn list hk hknown, ?_⟩
  rw [hframe]
  rfl

/-- Settles O34: the words are read, then the registers are written (`State.ldmLoaded`). -/
theorem loadMultiple : Obligations.LoadMultiple := by
  intro s rn list regs base hlist hroom hbase hregs hreadable
  obtain rfl : regs = listRegs list := hregs
  subst hbase
  have hread := readWords_readable hreadable
  obtain ⟨htop, hwords⟩ := hreadable
  have haligned : (s.low rn).toNat % 4 = 0 :=
    aligned_of_wordAt (length_listRegs_pos hlist) fun k hk => (hwords k hk).1
  refine ⟨_, (exec_ldm_of_read hlist haligned htop hread).trans (advance_ldmLoaded _ _ _ _ hroom),
    ldmLoaded_low s rn _ (length_wordsAt ..).ge, ldmLoaded_base s _ _,
    fun i hrn hother => ldmLoaded_other s _ _ hrn hother, rfl⟩

/-- A load whose word `k` is answered with a bus error is cut off there, and HardFault raised. -/
theorem load_fault {s : State} {rn : LowReg} {x : Bool} {list : BitVec 8} {base : Word} {i : Instr}
    {k : Nat} (hi : (i = .ldm rn list ∧ x = false ∧ base = s.low rn) ∨ (i = .pop x list ∧ base = s.sp))
    (htop : base.toNat + 4 * stackCount x list ≤ 2 ^ 32) (hk : k < stackCount x list)
    (hreadable : s.readableWords s.privileged base k)
    (hfault : s.busErrorAt .read .word (wordAt base k)) :
    ∃ b u, (i = .ldm rn list → b = some rn) ∧ exec i s = exec (.udf 0#8) u ∧
      PartlyLoaded s u b (listRegs list) (s.wordsAt base k) := by
  obtain ⟨c, hc⟩ := memRead_busError (s := s) (.inr hfault.2)
  have hread := readWords_fault hreadable hk hc
  have hpos : 0 < stackCount x list := Nat.zero_lt_of_lt hk
  have hpart (b : Option LowReg) :=
    partlyLoaded_setSomeLows s b (nodup_listRegs list) (s.wordsAt base k)
  obtain ⟨rfl, rfl, rfl⟩ | ⟨rfl, rfl⟩ := hi
  · exact ⟨some rn, _, fun _ => rfl,
      ldmAmid_fault (aligned_of_aligned_wordAt hfault.1) htop hpos hread, hpart _⟩
  · exact ⟨none, _, nofun, popAmid_fault htop hpos hread, hpart _⟩

/-- Settles O35: the accesses before word `k` are made, and HardFault is raised in the state they leave. -/
theorem multipleTransferFaults : Obligations.MultipleTransferFaults := by
  intro s rn x list regs base ws k hlist hregs hws htop hk
  obtain rfl : regs = listRegs list := hregs
  obtain rfl : ws = s.pushWords x list := hws
  rw [length_pushWords] at htop hk ⊢
  have hbefore : base.toNat + 4 * k ≤ 2 ^ 32 := by omega
  refine ⟨fun hreadable hfault i hi => ?load, fun hwritable hfault => ⟨?stm, ?push⟩⟩
  case load =>
    obtain ⟨b, u, hb, hexec, hpart⟩ := load_fault hi htop hk ⟨hbefore, hreadable⟩ hfault
    refine ⟨u, hexec, hpart.frame, fun hldm => ?_, ?_, ?_⟩
    · obtain ⟨_, _, rfl⟩ | ⟨rfl, _⟩ := hi
      · exact hpart.base rn (hb hldm)
      · cases hldm
    · simpa only [length_wordsAt] using hpart.other
    · simpa only [length_wordsAt] using hpart.loaded
  case stm =>
    rintro rfl rfl
    have haligned := aligned_of_aligned_wordAt hfault.1
    obtain ⟨n, hdrawn⟩ : ∃ n, s.stmDrawn rn list = { s with free := n } := ⟨_, stmDrawn_eq ..⟩
    have hk' : k < (s.stmWords rn list).length := (length_stmWords ..).symm ▸ hk
    obtain ⟨c, u, hstore, hframe, hstored⟩ :=
      storeWords_fault (s := { s with free := n }) ⟨hbefore, hwritable⟩ hk' hfault
    have hstore : storeWords s.privileged [] (s.stmWords rn list) (s.low rn) (s.stmDrawn rn list) =
        .hardFault c u := by
      rw [hdrawn]
      exact hstore
    have hexec : exec (.stm rn list) s = exec (.udf 0#8) u := by
      change stmAmid [] rn list s = _
      rw [stmAmid_eq (gaps := []) haligned htop (Nat.zero_lt_of_lt hk), hstore]
      rfl
    refine ⟨u, (s.stmWords rn list).take k, hexec, List.length_take_of_le hk'.le, ?_, hstored, ?_⟩
    · rw [hframe]
    · intro j hj hjk hknown
      rw [← stmWords_getD s rn list hj hknown]
      simp [List.getD_eq_getElem?_getD, List.getElem?_take_of_lt hjk]
  case push =>
    intro hbase
    obtain rfl : base = s.pushBase x list := hbase
    have hk' : k < (s.pushWords x list).length := (length_pushWords ..).symm ▸ hk
    obtain ⟨c, u, hstore, hframe, hstored⟩ := storeWords_fault ⟨hbefore, hwritable⟩ hk' hfault
    refine ⟨u, ?_, hframe, hstored⟩
    change pushAmid [] x list s = _
    rw [pushAmid_eq (gaps := []) htop (Nat.zero_lt_of_lt hk), hstore]
    rfl

end Sys2Proof.Machine
end

section
/-! SUPPORT. A step that starts the instruction at the pc with events between its accesses, and what the
multiple transfers do in it (`45_load_store_multiple.md` R312, `60_exceptions.md` R400). -/

namespace Sys2Proof.Machine

open Sys2Proof

/-! ## The step -/

/-- The next step is one of the core, which may defer what is takeable, and `i` is what it fetches. -/
structure State.Starts (s : State) (i : Instr) : Prop where
  next : s.coreNext
  mayDefer : s.mustTake = true → s.best = none
  resetIn : s.resetIn = none
  fetch : fetchInstr s.afterInput = .ok (.instr i) s.afterInput

section Step

variable {s u : State} {i : Instr} {gaps : Gaps} {rest : List Input} {e : Exc}

theorem State.Starts.notForced (h : s.Starts i) :
    (s.afterInput.mustTake && s.afterInput.best.isSome) = false := by
  refine Bool.and_eq_false_imp.mpr fun hmust => ?_
  rw [show s.afterInput.best = none from h.mayDefer hmust, Option.isSome_none]

theorem coreStep_abandon (hlockup : s.lockup = false) (hawake : s.sleep = .awake)
    (hfree : (s.mustTake && s.best.isSome) = false) :
    coreStep (.abandon gaps) s = abandonStep gaps s := by
  unfold coreStep
  rw [hlockup, hawake, hfree]
  rfl

theorem coreStep_amid (hlockup : s.lockup = false) (hawake : s.sleep = .awake)
    (hfree : (s.mustTake && s.best.isSome) = false) :
    coreStep (.amid gaps) s = amidStep gaps s := by
  unfold coreStep
  rw [hlockup, hawake, hfree]
  rfl

theorem State.Starts.step_abandon (h : s.Starts i)
    (hin : s.inputs = .core (.abandon gaps) :: rest) : step s = abandonStep gaps s.afterInput := by
  obtain ⟨hturn, hawake⟩ := h.next
  rw [step_of_cons hin]
  exact coreStep_abandon (s := s.afterInput) hturn.1 hawake h.notForced

theorem State.Starts.step_amid (h : s.Starts i)
    (hin : s.inputs = .core (.amid gaps) :: rest) : step s = amidStep gaps s.afterInput := by
  obtain ⟨hturn, hawake⟩ := h.next
  rw [step_of_cons hin]
  exact coreStep_amid (s := s.afterInput) hturn.1 hawake h.notForced

/-- What is takeable after the accesses made is entered, with the instruction's own address (R312). -/
theorem State.Starts.enters (h : s.Starts i) (hin : s.inputs = .core (.abandon gaps) :: rest)
    (hcut : abandoned i gaps s.afterInput = some (.ok () u)) (hpc : u.pc = s.pc)
    (hbest : u.best = some e) : step s = exceptionEntry e s.pc u := by
  rw [h.step_abandon hin, ← hpc]
  simp only [abandonStep, h.fetch, hcut, hbest]

/-- The instruction completes where the step does not abandon, or has nothing to abandon for (R312 item
5). -/
theorem State.Starts.completes (h : s.Starts i)
    (hin : s.inputs = .core (.amid gaps) :: rest ∨ (s.inputs = .core (.abandon gaps) :: rest ∧
      ∃ u, abandoned i gaps s.afterInput = some (.ok () u) ∧ u.resetIn = none ∧ u.best = none)) :
    step s = execAmid gaps i s.afterInput := by
  obtain hin | ⟨hin, u, hcut, hreset, hbest⟩ := hin
  · rw [h.step_amid hin]
    simp only [amidStep, h.fetch]
  · rw [h.step_abandon hin]
    simp [abandonStep, h.fetch, hcut, hbest, hreset]

end Step

/-! ## Stores -/

section Stores

variable {gaps : Gaps} {x : Bool} {rn : LowReg} {list : BitVec 8} {s v : State}

theorem abandoned_push (htop : (s.pushBase x list).toNat + 4 * stackCount x list ≤ 2 ^ 32)
    (hgaps : gaps.length < stackCount x list) :
    abandoned (.push x list) gaps s = some (storeWords s.privileged gaps
      ((s.pushWords x list).take gaps.length) (s.pushBase x list) s) := by
  simp only [abandoned, crossesTop_of_le htop, gapsWithin_of_lt hgaps]
  rfl

theorem abandoned_stm (hknown : list.getLsbD rn.val = true → (listRegs list).head? = some rn)
    (htop : (s.low rn).toNat + 4 * (listRegs list).length ≤ 2 ^ 32)
    (hgaps : gaps.length < (listRegs list).length) :
    abandoned (.stm rn list) gaps s = some (storeWords s.privileged gaps
      (((listRegs list).map s.low).take gaps.length) (s.low rn) s) := by
  obtain ⟨hwords, hdrawn⟩ := stm_known hknown s
  simp only [abandoned, crossesTop_of_le htop, gapsWithin_of_lt hgaps, hwords, hdrawn]
  rfl

theorem pushAmid_stored (hroom : s.roomFor 2)
    (htop : (s.pushBase x list).toNat + 4 * stackCount x list ≤ 2 ^ 32)
    (hgaps : gaps.length < stackCount x list)
    (h : storeWords s.privileged gaps (s.pushWords x list) (s.pushBase x list) s = .ok () v) :
    pushAmid gaps x list s =
      .next { v.setReg 13 (s.pushBase x list) with pc := s.pc + 2#32 } := by
  have hpc : v.pc = s.pc := storeWords_pc h
  rw [pushAmid_eq htop hgaps, h, ← hpc]
  refine advance_room (s := v.setSp (s.pushBase x list)) ?_
  rw [State.roomFor, State.setSp_pc, hpc]
  exact hroom

theorem stmAmid_stored (hroom : s.roomFor 2)
    (hknown : list.getLsbD rn.val = true → (listRegs list).head? = some rn)
    (htop : (s.low rn).toNat + 4 * (listRegs list).length ≤ 2 ^ 32)
    (hgaps : gaps.length < (listRegs list).length)
    (h : storeWords s.privileged gaps ((listRegs list).map s.low) (s.low rn) s = .ok () v) :
    stmAmid gaps rn list s = .next { v with
      r := v.r.set rn.val (wordAt (s.low rn) (listRegs list).length), pc := s.pc + 2#32 } := by
  obtain ⟨hwords, hdrawn⟩ := stm_known hknown s
  have hne : (listRegs list).map s.low ≠ [] :=
    List.ne_nil_of_length_pos (by rw [List.length_map]; exact Nat.zero_lt_of_lt hgaps)
  have hpc : v.pc = s.pc := storeWords_pc h
  rw [stmAmid_eq (aligned_of_storeWords hne h) htop hgaps, hwords, hdrawn, h, ← hpc]
  exact advance_setLow (by rw [State.roomFor, hpc]; exact hroom) rn _

/-- PUSH and STM, cut off, have made the stores so far. -/
theorem abandoned_store {i : Instr} {ws : List Word} {base : Word}
    (hi : (i = .push x list ∧ ws = s.pushWords x list ∧
        base = s.sp - BitVec.ofNat 32 (4 * ws.length)) ∨
      (i = .stm rn list ∧ base = s.low rn ∧
        (list.getLsbD rn.val = true → (listRegs list).head? = some rn) ∧
        ws = (listRegs list).map s.low))
    (htop : base.toNat + 4 * ws.length ≤ 2 ^ 32) (hgaps : gaps.length < ws.length) :
    abandoned i gaps s = some (storeWords s.privileged gaps (ws.take gaps.length) base s) := by
  obtain ⟨rfl, rfl, hbase⟩ | ⟨rfl, rfl, hknown, rfl⟩ := hi
  · rw [length_pushWords] at hbase htop hgaps
    obtain rfl : base = s.pushBase x list := hbase
    exact abandoned_push htop hgaps
  · rw [List.length_map] at htop hgaps
    exact abandoned_stm hknown htop hgaps

end Stores

/-! ## Loads -/

section Loads

variable {gaps : Gaps} {x : Bool} {rn : LowReg} {list : BitVec 8} {base : Word} {i : Instr}
  {s : State}

/-- LDM and POP of memory, cut off, have read the words so far, the events done too. -/
theorem abandoned_load
    (hi : (i = .ldm rn list ∧ base = s.low rn ∧ x = false) ∨ (i = .pop x list ∧ base = s.sp))
    (hgaps : gaps.length < stackCount x list)
    (hreadable : s.readableWords s.privileged base (stackCount x list)) :
    ∃ b u, (i = .ldm rn list → b = some rn) ∧ abandoned i gaps s = some (.ok () u) ∧
      PartlyLoaded (s.afterEvents gaps.flatten) u b (listRegs list) (s.wordsAt base gaps.length) := by
  obtain ⟨htop, hwords⟩ := hreadable
  have hfirst : s.readableWords s.privileged base gaps.length :=
    ⟨by omega, fun k hk => hwords k (hk.trans hgaps)⟩
  have hread := readWords_amid hfirst le_rfl
  obtain ⟨rfl, rfl, rfl⟩ | ⟨rfl, rfl⟩ := hi
  · rw [stackCount_eq, Bool.toNat_false, Nat.add_zero] at htop hgaps
    refine ⟨some rn, _, fun _ => rfl, ?_, partlyLoaded_setSomeLows _ _ (nodup_listRegs list) _⟩
    simp only [abandoned, crossesTop_of_le htop, gapsWithin_of_lt hgaps, abandonLoad, hread]
    rfl
  · refine ⟨none, _, nofun, ?_, partlyLoaded_setSomeLows _ _ (nodup_listRegs list) _⟩
    simp only [abandoned, crossesTop_of_le htop, gapsWithin_of_lt hgaps, abandonLoad, hread]
    rfl

/-- LDM and POP of memory complete as after the events. -/
theorem execAmid_load
    (hi : (i = .ldm rn list ∧ base = s.low rn ∧ x = false) ∨ (i = .pop x list ∧ base = s.sp))
    (hgaps : gaps.length < stackCount x list)
    (hreadable : s.readableWords s.privileged base (stackCount x list)) :
    execAmid gaps i s = exec i (s.afterEvents gaps.flatten) := by
  have hpos : 0 < stackCount x list := Nat.zero_lt_of_lt hgaps
  have hread := readWords_amid hreadable hgaps.le
  have hlater := readWords_readable (readableWords_afterEvents (es := gaps.flatten).mpr hreadable)
  rw [wordsAt_afterEvents, ← privileged_afterEvents s gaps.flatten] at hlater
  obtain ⟨htop, hwords⟩ := hreadable
  have haligned : base.toNat % 4 = 0 := aligned_of_wordAt hpos fun k hk => (hwords k hk).1
  obtain ⟨rfl, rfl, rfl⟩ | ⟨rfl, rfl⟩ := hi
  · rw [← low_afterEvents s gaps.flatten] at hlater
    have hlow := low_afterEvents s gaps.flatten rn
    change ldmAmid gaps rn list s = ldmAmid [] rn list _
    rw [ldmAmid_read haligned htop hgaps hread,
      ldmAmid_read (by rwa [hlow]) (by rwa [hlow]) (gaps := []) hpos hlater, hlow]
  · rw [← sp_afterEvents s gaps.flatten] at hlater
    have hsp := sp_afterEvents s gaps.flatten
    change popAmid gaps x list s = popAmid [] x list _
    rw [popAmid_read htop hgaps hread, popAmid_read (by rwa [hsp]) (gaps := []) hpos hlater, hsp]

end Loads

end Sys2Proof.Machine
end

section
/-! PROOFS. Instructions with events between their accesses, abandoned for an exception or completed
(`45_load_store_multiple.md` R312). -/

namespace Sys2Proof.Machine

open Sys2Proof

/-- The stores of a transfer to RAM, all of them or those before an abandonment, are made as without the
events. -/
theorem storeWords_amid_part {s : State} {gaps : Gaps} {ws vs : List Word} {base : Word}
    (h : s.writableWords s.privileged base ws.length) (hgaps : gaps.length < ws.length)
    (hvs : vs = ws ∨ vs = ws.take gaps.length) :
    ∃ u, storeWords s.privileged gaps vs base s = .ok () u ∧
      onlyMemory (s.afterEvents gaps.flatten) u ∧
      wordsStored s.cfg.bigEndian s.mem u.mem base vs := by
  obtain rfl | rfl := hvs
  · exact storeWords_amid h hgaps.le
  · obtain ⟨htop, hwords⟩ := h
    have hlen : (ws.take gaps.length).length = gaps.length := List.length_take_of_le hgaps.le
    exact storeWords_amid (hlen.symm ▸ ⟨by omega, fun k hk => hwords k (hk.trans hgaps)⟩) hlen.ge

/-- Settles O36: the step runs or cuts off the instruction (`State.Starts`), whose accesses so far are made
with the events between them (`storeWords_amid`, `readWords_amid`). -/
theorem abandonedTransfers : Obligations.AbandonedTransfers := by
  intro s rn rd x list regs base ws gaps rest hw1 hw2 i hnext hdefer hreset hroom hfetches hdecode
    hregs
  obtain rfl : regs = listRegs list := hregs
  have hstarts : s.Starts i := ⟨hnext, hdefer, hreset, by
    rw [fetchInstr_fetches (s := s.afterInput) hfetches, hdecode]⟩
  refine ⟨?muls, fun htop hgaps hi => ⟨?storesCut, ?storesDone, fun hwritable vs => ?stored⟩,
    fun hi hgaps => ⟨fun hreadable => ⟨?loadsCut, ?loadsDone⟩, ?loadsAmid⟩⟩
  case muls =>
    rintro e hin hbest rfl
    exact hstarts.enters hin rfl rfl hbest
  case storesCut =>
    intro u e hin hstore hbest
    have hcut := abandoned_store (s := s.afterInput) hi htop hgaps
    exact hstarts.enters hin (hcut.trans (congrArg some hstore))
      (storeWords_pc (s := s.afterInput) hstore) hbest
  case storesDone =>
    intro v hin hstore
    have hcut := abandoned_store (s := s.afterInput) hi htop hgaps
    have hstep : step s = execAmid gaps i s.afterInput :=
      hstarts.completes <| hin.imp_right fun ⟨hin, u, hpart, hbest⟩ =>
        ⟨hin, u, hcut.trans (congrArg some hpart), storeWords_resetIn hpart hreset, hbest⟩
    obtain ⟨rfl, hws, hbase⟩ | ⟨rfl, rfl, hknown, rfl⟩ := hi
    · obtain rfl : ws = s.pushWords x list := hws
      rw [length_pushWords] at hbase htop hgaps
      obtain rfl : base = s.pushBase x list := hbase
      exact ⟨fun _ => hstep.trans (pushAmid_stored (s := s.afterInput) hroom htop hgaps hstore), nofun⟩
    · rw [List.length_map] at htop hgaps ⊢
      exact ⟨nofun, fun _ => hstep.trans
        (stmAmid_stored (s := s.afterInput) hroom hknown htop hgaps hstore)⟩
  case stored => exact storeWords_amid_part (s := s.afterInput) hwritable hgaps
  case loadsCut =>
    intro e hin hbest
    obtain ⟨b, u, hb, hcut, hpart⟩ := abandoned_load (s := s.afterInput) hi hgaps hreadable
    have hpc : u.pc = s.pc := hpart.pc.trans (State.afterEvents_pc ..)
    have hlow (r : LowReg) : (s.afterInput.afterEvents gaps.flatten).low r = s.low r :=
      low_afterEvents ..
    refine ⟨u, hstarts.enters hin hcut hpc (hpart.best.trans hbest), hpart.frame, fun hldm => ?_,
      fun q hq => ?_, fun j hj hjk => ?_⟩
    · obtain ⟨_, rfl, _⟩ | ⟨rfl, _⟩ := hi
      · exact (hpart.base rn (hb hldm)).trans (hlow rn)
      · cases hldm
    · rw [hpart.other q (by rwa [length_wordsAt]), State.afterEvents_r]
    · rw [← hlow]
      exact hpart.loaded j hj (by rwa [length_wordsAt])
  case loadsDone =>
    exact fun hin => (hstarts.completes (.inl hin)).trans
      (execAmid_load (s := s.afterInput) hi hgaps hreadable)
  case loadsAmid =>
    rintro v vs hin rfl haligned htop hread
    obtain ⟨_, rfl, rfl⟩ | ⟨hpop, _⟩ := hi
    · have hvpc : v.pc = s.pc := readWords_pc (s := s.afterInput) hread
      have hvroom : v.roomFor 2 := by
        rw [State.roomFor, hvpc]
        exact hroom
      refine ⟨_, (hstarts.completes (.inl hin)).trans
        ((ldmAmid_read (s := s.afterInput) haligned htop hgaps hread).trans
          (advance_ldmLoaded rn list _ vs hvroom)), by rw [hvpc], ?_⟩
      exact ldmLoaded_low v rn _ (length_readWords hread).ge
    · cases hpop

end Sys2Proof.Machine
end

section
/-! PROOFS. Branch offsets as signed numbers of halfwords, and the branches by them (`46_branch_svc.md` R320,
R321, R324). -/

namespace Sys2Proof.Machine

open Sys2Proof

/-- `sext_32(imm : '0')` is twice the sign-extended immediate. -/
theorem signExt2_eq_mul {w : Nat} (v : BitVec w) : signExt2 v = v.signExtend 32 * 2#32 := by
  have hsign : (v ++ 0#1).msb = v.msb := by
    rw [BitVec.msb_append]
    split
    · next hw => subst hw; rw [BitVec.eq_nil v]; rfl
    · rfl
  calc signExt2 v
      = v.signExtend 32 <<< 1 := by
        ext k hk
        cases k with
        | zero => simp [signExt2, BitVec.getElem_signExtend, BitVec.getElem_append]
        | succ k => simp [signExt2, BitVec.getElem_signExtend, BitVec.getElem_append, hsign]
    _ = v.signExtend 32 * 2#32 := (BitVec.mul_twoPow_eq_shiftLeft _ 1).symm

/-- J1 and J2 give back I1 and I2 (R324). -/
theorem not_xor_cancel {w : Nat} (i s : BitVec w) : ~~~((~~~i ^^^ s) ^^^ s) = i := by
  rw [BitVec.xor_assoc, BitVec.xor_self, BitVec.xor_zero, BitVec.not_not]

/-- The offset of BL is its 24-bit number, doubled. -/
theorem blOffset_eq_mul (d : BitVec 24) :
    blOffset (d.extractLsb' 23 1) (d.extractLsb' 11 10)
      (~~~(d.extractLsb' 22 1) ^^^ d.extractLsb' 23 1)
      (~~~(d.extractLsb' 21 1) ^^^ d.extractLsb' 23 1) (d.extractLsb' 0 11) =
      d.signExtend 32 * 2#32 := by
  have hfields : d.extractLsb' 23 1 ++ d.extractLsb' 22 1 ++ d.extractLsb' 21 1 ++
      d.extractLsb' 11 10 ++ d.extractLsb' 0 11 = d := by
    rw [BitVec.extractLsb'_append_extractLsb'_eq_extractLsb' (by omega),
      BitVec.extractLsb'_append_extractLsb'_eq_extractLsb' (by omega),
      BitVec.extractLsb'_append_extractLsb'_eq_extractLsb' (by omega)]
    exact append_low (n := 11) (k := 13) d
  rw [blOffset, not_xor_cancel, not_xor_cancel, hfields]
  exact signExt2_eq_mul d

/-- Settles O19: each is a branch to pc + 4 plus an offset (`signExt2_eq_mul`, `blOffset_eq_mul`), or an
advance of the pc. -/
theorem branches : Obligations.Branches := by
  intro s cond imm8 imm11 d
  simp only [← alignHalf_eq_and, ← withBit0_eq_or, ← signExt2_eq_mul imm8,
    ← signExt2_eq_mul imm11, ← blOffset_eq_mul]
  refine ⟨rfl, fun htaken => if_pos htaken, fun hfails hroom => ?_, rfl⟩
  have hadvances : exec (.bCond cond imm8) s = advance 2 s := if_neg (ne_true_of_eq_false hfails)
  exact hadvances.trans (advance_room hroom)

end Sys2Proof.Machine
end

section
/-! PROOFS. MSR and MRS as one write or read of a special register (`47_system_32bit.md` R330, R331), and ISB
with the exception entry it leads to (R334, `60_exceptions.md` R407). -/

namespace Sys2Proof.Machine

open Sys2Proof

/-! ## What MSR writes (R330) -/

theorem exec_msr {s : State} {rn : RegNum} {m : BitVec 8} (hroom : s.roomFor 4) (hsp : rn ≠ 13)
    (hpc : rn ≠ 15) (hm : specialDefined m = true) : exec (.msr 0#1 rn 0#1 8#4 m) s =
      .next { s.writeSpecial m (s.reg rn) with pc := s.pc + 4#32 } := by
  have hreg : ¬(rn = 13 ∨ rn = 15) := not_or.mpr ⟨hsp, hpc⟩
  have hroom' : (s.writeSpecial m (s.reg rn)).roomFor 4 := by
    rwa [State.roomFor, State.writeSpecial_pc]
  change execMsr 0#1 rn 0#1 8#4 m s = _
  rw [execMsr, if_neg (by decide), if_neg hreg, if_pos hm, advance_room hroom', State.writeSpecial_pc]

/-- A number with the flags in its group writes the flags, at any privilege. -/
theorem writeSpecial_flags (s : State) {m : BitVec 8} (hpsr : m.extractLsb' 3 5 = 0#5)
    (hflags : m.getLsbD 2 = false) (v : Word) : s.writeSpecial m v = s.setFlags (Flags.ofWord v) := by
  rw [State.writeSpecial, if_pos hpsr, if_neg (Bool.eq_false_iff.mp hflags)]

theorem writeSpecial_noFlags (s : State) {m : BitVec 8} (hpsr : m.extractLsb' 3 5 = 0#5)
    (hflags : m.getLsbD 2 = true) (v : Word) : s.writeSpecial m v = s := by
  rw [State.writeSpecial, if_pos hpsr, if_pos hflags]

theorem writeSpecial_unprivileged {s : State} (h : s.privileged = false) {m : BitVec 8}
    (hpsr : m.extractLsb' 3 5 ≠ 0#5) (v : Word) : s.writeSpecial m v = s := by
  rw [State.writeSpecial, if_neg hpsr, h, Bool.not_false, if_pos rfl]

/-- Beyond the xPSR group privileged code writes the register that the number names. -/
theorem writeSpecial_privileged {s : State} (h : s.privileged = true) (v : Word) :
    s.writeSpecial 8#8 v = { s with spMain := v &&& 0xFFFFFFFC#32 } ∧
      s.writeSpecial 9#8 v = { s with spProcess := v &&& 0xFFFFFFFC#32 } ∧
      s.writeSpecial 16#8 v = { s with primask := v.getLsbD 0 } ∧
      s.writeSpecial 20#8 v = { s with
        npriv := v.getLsbD 0
        spsel := if s.ipsr = 0#6 then v.getLsbD 1 else s.spsel } := by
  rw [← alignWord_eq_and]
  simp [State.writeSpecial, h, State.handlerMode]

/-- Settles O37: MSR is one write of a special register, and the number alone says which case it is. -/
theorem moveToSpecial : Obligations.MoveToSpecial := by
  rintro s rn v hroom hsp hpc rfl
  have writes {m : BitVec 8} := exec_msr (m := m) hroom hsp hpc
  refine ⟨?flags, ?noFlags, fun hpriv => ?unprivileged, fun hpriv => ?privileged⟩
  case flags =>
    intro m hm
    have hgroup : ∀ m ∈ [0#8, 1#8, 2#8, 3#8], specialDefined m = true ∧
        m.extractLsb' 3 5 = 0#5 ∧ m.getLsbD 2 = false := by decide
    obtain ⟨hdefined, hpsr, hflags⟩ := hgroup m hm
    rw [writes hdefined, writeSpecial_flags s hpsr hflags]
    rfl
  case noFlags =>
    intro m hm
    have hgroup : ∀ m ∈ [5#8, 6#8, 7#8], specialDefined m = true ∧
        m.extractLsb' 3 5 = 0#5 ∧ m.getLsbD 2 = true := by decide
    obtain ⟨hdefined, hpsr, hflags⟩ := hgroup m hm
    rw [writes hdefined, writeSpecial_noFlags s hpsr hflags]
  case unprivileged =>
    intro m hm
    have hgroup : ∀ m ∈ [8#8, 9#8, 16#8, 20#8], specialDefined m = true ∧
        m.extractLsb' 3 5 ≠ 0#5 := by decide
    obtain ⟨hdefined, hpsr⟩ := hgroup m hm
    rw [writes hdefined, writeSpecial_unprivileged hpriv hpsr]
  case privileged =>
    obtain ⟨hmsp, hpsp, hprimask, hcontrol⟩ := writeSpecial_privileged hpriv (s.reg rn)
    rw [writes rfl, writes rfl, writes rfl, writes rfl, hmsp, hpsp, hprimask, hcontrol]
    exact ⟨rfl, rfl, rfl, rfl⟩

/-! ## What MRS reads (R331) -/

theorem exec_mrs {s : State} {rd : RegNum} {m : BitVec 8} (hroom : s.roomFor 4) (hsp : rd ≠ 13)
    (hpc : rd ≠ 15) (hm : specialDefined m = true) : exec (.mrs 0#1 0b1111#4 0#1 rd m) s =
      .next { s.setReg rd (s.readSpecial m) with pc := s.pc + 4#32 } := by
  have hreg : ¬(rd = 13 ∨ rd = 15) := not_or.mpr ⟨hsp, hpc⟩
  have hroom' : (s.setReg rd (s.readSpecial m)).roomFor 4 := by rwa [State.roomFor, State.setReg_pc]
  change execMrs 0#1 0b1111#4 0#1 rd m s = _
  rw [execMrs, if_neg (by decide), if_neg hreg, if_pos hm, advance_room hroom', State.setReg_pc]

/-- The word of the flags alone is the sum of their weights. -/
theorem flagsWord_eq (f : Flags) : f.bits ++ 0#28 = BitVec.ofNat 32 (2 ^ 31 * f.n.toNat
    + 2 ^ 30 * f.z.toNat + 2 ^ 29 * f.c.toNat + 2 ^ 28 * f.v.toNat) := by
  obtain ⟨n, z, c, v⟩ := f
  revert n z c v
  decide

/-- The fields of the xPSR group do not overlap: a word of both is their sum. -/
theorem psrWord_eq (f : BitVec 4) (x : BitVec 6) :
    f ++ 0#22 ++ x = (f ++ 0#28) + BitVec.ofNat 32 x.toNat := by
  have hx := x.isLt
  apply BitVec.eq_of_toNat_eq
  simp only [BitVec.toNat_append, BitVec.toNat_add, BitVec.toNat_ofNat, Nat.or_zero, Nat.zero_mod]
  rw [← Nat.shiftLeft_add_eq_or_of_lt hx]
  simp only [Nat.shiftLeft_eq]
  have := f.isLt
  omega

/-- A read of the xPSR group is the sum of the flags and the IPSR, each if SYSm picks it. -/
theorem readSpecial_psr (s : State) {m : BitVec 8} (hpsr : m.extractLsb' 3 5 = 0#5) :
    s.readSpecial m = ((if m.getLsbD 2 then 0#4 else s.flags.bits) ++ 0#28) +
      BitVec.ofNat 32 (if m.getLsbD 0 then s.ipsr else 0#6).toNat := by
  rw [State.readSpecial, if_pos hpsr, State.readPsr, psrWord_eq]

theorem readSpecial_primask (s : State) : s.readSpecial 16#8 =
    if s.privileged = true ∧ s.primask = true then 1#32 else 0#32 := by
  change (if s.privileged then (BitVec.ofBool s.primask).setWidth 32 else 0#32) = _
  cases s.privileged <;> cases s.primask <;> rfl

theorem readSpecial_control (s : State) : s.readSpecial 20#8 =
    BitVec.ofNat 32 (2 * s.spsel.toNat + s.npriv.toNat) := by
  change (BitVec.ofBool s.spsel ++ BitVec.ofBool s.npriv).setWidth 32 = _
  cases s.spsel <;> cases s.npriv <;> rfl

/-- Settles O38: MRS is one read of a special register, and each number is an equation of
`State.readSpecial`. -/
theorem moveFromSpecial : Obligations.MoveFromSpecial := by
  rintro s rd apsr ipsr hroom hsp hpc hapsr rfl
  rw [← flagsWord_eq] at hapsr
  subst hapsr
  have reads {m : BitVec 8} {v : Word} (hm : specialDefined m = true) (hv : s.readSpecial m = v) :
      exec (.mrs 0#1 0b1111#4 0#1 rd m) s = .next { s.setReg rd v with pc := s.pc + 4#32 } :=
    hv ▸ exec_mrs hroom hsp hpc hm
  simp only [List.forall_mem_cons]
  refine ⟨reads rfl ?apsr, reads rfl ?iapsr, reads rfl ?eapsr, reads rfl ?xpsr, reads rfl ?ipsr,
    reads rfl ?epsr, reads rfl ?iepsr, reads rfl rfl, reads rfl rfl,
    reads rfl (readSpecial_primask s), reads rfl (readSpecial_control s), nofun⟩
  case apsr | iapsr | eapsr | xpsr | ipsr | epsr | iepsr =>
    rw [readSpecial_psr s rfl]
    simp

/-! ## ISB (R334, R407) -/

theorem exec_isb {s : State} (hroom : s.roomFor 4) (option : BitVec 4) :
    exec (.isb 0b1111#4 0#1 0b1111#4 option) s =
      .next { s with dirty := [], mustTake := s.best.isSome, pc := s.pc + 4#32 } :=
  advance_room (s := s.synchronise) hroom

/-- Settles O39: with an exception takeable ISB sets `mustTake`, and then the next core step is an entry
(`asynchronousEntry`). -/
theorem instructionBarrier : Obligations.InstructionBarrier := by
  intro s option hroom
  refine ⟨exec_isb hroom option, fun t e hexec hnext hbest => ?_⟩
  obtain rfl : { s with dirty := [], mustTake := s.best.isSome, pc := s.pc + 4#32 } = t :=
    Host.Outcome.next.inj ((exec_isb hroom option).symm.trans hexec)
  have hmust : s.best.isSome = true := by rw [hbest]; rfl
  exact asynchronousEntry _ e hnext hbest (.inr (.inr hmust))

end Sys2Proof.Machine
end

section
/-! PROOFS. ExecutionPriority() as a least value, and Takeable() and Best() (`60_exceptions.md` R403 to
R406). -/

namespace Sys2Proof.Machine

open Sys2Proof

/-! ## The least of a list of values (R404) -/

theorem le_foldr_min_iff {α : Type} (f : α → Int) (b k : Int) (l : List α) :
    k ≤ l.foldr (fun a p => min (f a) p) b ↔ k ≤ b ∧ ∀ a ∈ l, k ≤ f a := by
  induction l with
  | nil => simp
  | cons a l ih =>
    rw [List.foldr_cons, le_min_iff, ih, List.forall_mem_cons]
    exact and_left_comm

theorem foldr_min_attained {α : Type} (f : α → Int) (b : Int) (l : List α) :
    l.foldr (fun a p => min (f a) p) b = b ∨
      ∃ a ∈ l, l.foldr (fun a p => min (f a) p) b = f a := by
  induction l with
  | nil => exact .inl rfl
  | cons a l ih =>
    rw [List.foldr_cons]
    obtain h | h := min_choice (f a) (l.foldr (fun a p => min (f a) p) b)
    · exact .inr ⟨a, List.mem_cons_self, h⟩
    · rw [h]
      exact ih.imp_right fun ⟨c, hc, heq⟩ => ⟨c, List.mem_cons_of_mem a hc, heq⟩

/-! ## ExecutionPriority() (R404) -/

/-- What is a lower bound of the execution priority. -/
theorem le_executionPriority_iff {s : State} {k : Int} :
    k ≤ s.executionPriority ↔
      k ≤ 4 ∧ (∀ e, s.active.get e = true → k ≤ s.prio e) ∧ (s.primask = true → k ≤ 0) := by
  have hactive : k ≤ (Exc.all.filter s.active.get).foldr (fun e p => min (s.prio e) p) 4 ↔
      k ≤ 4 ∧ ∀ e, s.active.get e = true → k ≤ s.prio e := by
    simp [le_foldr_min_iff, Exc.mem_all]
  rw [State.executionPriority, State.executionPriorityWith]
  split
  · next hmask => rw [le_min_iff, hactive, and_assoc]; simp [hmask]
  · next hmask => rw [hactive]; simp [hmask]

/-- The execution priority is one of the values it is the least of. -/
theorem executionPriority_attained (s : State) :
    s.executionPriority = 4 ∨ (∃ e, s.active.get e = true ∧ s.executionPriority = s.prio e) ∨
      (s.primask = true ∧ s.executionPriority = 0) := by
  have hactive := foldr_min_attained s.prio 4 (Exc.all.filter s.active.get)
  simp only [List.mem_filter, Exc.mem_all, true_and] at hactive
  rw [State.executionPriority, State.executionPriorityWith]
  split
  · next hmask =>
    obtain h | h := min_choice ((Exc.all.filter s.active.get).foldr (fun e p => min (s.prio e) p) 4) 0
    · rw [h]
      exact hactive.imp_right .inl
    · exact .inr (.inr ⟨hmask, h⟩)
  · exact hactive.imp_right .inl

/-! ## Takeable() and the exception of highest priority (R406) -/

theorem takeable_iff {s : State} {e : Exc} :
    s.takeable e = true ↔ s.requested e = true ∧ s.prio e < s.executionPriority := by
  rw [State.takeable, State.takeableWith, Bool.and_eq_true, decide_eq_true_iff]
  rfl

theorem requested_iff {s : State} {e : Exc} :
    s.requested e = true ↔ s.hasExc e = true ∧ s.pending.get e = true ∧ s.isEnabled e = true := by
  rw [State.requested, Bool.and_eq_true, Bool.and_eq_true, and_assoc]

/-- `Exc.all` is in the order of the numbers. -/
theorem sorted_all : Exc.all.Pairwise fun a b => a.number < b.number := by decide

/-- `best` is what R406 takes of the exceptions in `l` that `p` holds of. -/
def IsHighestOf (s : State) (l : List Exc) (p : Exc → Bool) (best : Option Exc) : Prop :=
  (best = none ↔ ∀ e ∈ l, p e = false) ∧
    ∀ b, best = some b → b ∈ l ∧ p b = true ∧
      ∀ e ∈ l, p e = true → s.prio b < s.prio e ∨ (s.prio b = s.prio e ∧ b.number ≤ e.number)

/-- One step of the fold in `State.highest`. -/
def State.better (s : State) (p : Exc → Bool) (best : Option Exc) (e : Exc) : Option Exc :=
  if p e then
    match best with
    | none => some e
    | some b => if s.prio e < s.prio b then some e else some b
  else best

theorem highest_eq_foldl (s : State) (p : Exc → Bool) :
    s.highest p = Exc.all.foldl (s.better p) none := rfl

/-- The choice between what is best so far and one more exception, of a larger number. -/
theorem IsHighestOf.concat {s : State} {l : List Exc} {p : Exc → Bool} {best : Option Exc} {e : Exc}
    (h : IsHighestOf s l p best) (hlast : ∀ a ∈ l, a.number < e.number) :
    IsHighestOf s (l ++ [e]) p (s.better p best e) := by
  obtain ⟨hnone, hsome⟩ := h
  unfold State.better
  by_cases hp : p e = true
  · rw [if_pos hp]
    cases best with
    | none =>
      have hfree := hnone.mp rfl
      refine ⟨by simp [hp], fun b hb => ?_⟩
      cases hb
      exact ⟨by simp, hp, List.forall_mem_append.mpr
        ⟨fun a ha hpa => by simp [hfree a ha] at hpa, by simp⟩⟩
    | some b =>
      obtain ⟨hbl, hpb, hleast⟩ := hsome b rfl
      dsimp only
      split
      · next hlt =>
        refine ⟨by simp [hp], fun c hc => ?_⟩
        cases hc
        refine ⟨by simp, hp, List.forall_mem_append.mpr ⟨fun a ha hpa => ?_, by simp⟩⟩
        have := hleast a ha hpa
        exact .inl (by omega)
      · next hge =>
        have hbe := hlast b hbl
        refine ⟨by simp [hp], fun c hc => ?_⟩
        cases hc
        refine ⟨by simp [hbl], hpb, List.forall_mem_append.mpr
          ⟨hleast, List.forall_mem_singleton.mpr fun _ => ?_⟩⟩
        omega
  · rw [if_neg hp]
    refine ⟨by simp [hnone, or_imp, forall_and, hp], fun b hb => ?_⟩
    obtain ⟨hbl, hpb, hleast⟩ := hsome b hb
    exact ⟨by simp [hbl], hpb, List.forall_mem_append.mpr ⟨hleast, by simp [hp]⟩⟩

/-- The fold of `State.highest` over exceptions in the order of their numbers. -/
theorem isHighestOf_foldl (s : State) (p : Exc → Bool) (l : List Exc)
    (hsorted : l.Pairwise fun a b => a.number < b.number) :
    IsHighestOf s l p (l.foldl (s.better p) none) := by
  induction l using List.reverseRecOn with
  | nil => exact ⟨by simp, nofun⟩
  | append_singleton l e ih =>
    rw [List.foldl_concat]
    obtain ⟨hl, _, hlast⟩ := List.pairwise_append.mp hsorted
    exact (ih hl).concat fun a ha => hlast a ha e List.mem_cons_self

theorem isHighest_highest (s : State) (p : Exc → Bool) :
    IsHighest s (fun e => p e = true) (s.highest p) := by
  rw [highest_eq_foldl]
  obtain ⟨hnone, hsome⟩ := isHighestOf_foldl s p Exc.all sorted_all
  refine ⟨hnone.trans (by simp [Exc.mem_all]), fun b hb => ?_⟩
  obtain ⟨_, hp, hleast⟩ := hsome b hb
  exact ⟨hp, fun e he => hleast e e.mem_all he⟩

/-! ## The obligations -/

/-- Settles O46: each bound is `le_executionPriority_iff`, and no exception of an active one's
priority is below it. -/
theorem executionPriorityIsLeast : Obligations.ExecutionPriorityIsLeast := by
  intro s
  obtain ⟨hfour, hactive, hmask⟩ := le_executionPriority_iff.mp (le_refl s.executionPriority)
  refine ⟨rfl, rfl, rfl, rfl, rfl, fun _ => rfl, hfour, hactive, hmask, executionPriority_attained s,
    fun e he => takeable_iff.trans (and_iff_right he), fun e a ha hprio => ?_⟩
  rw [← Bool.not_eq_true, takeable_iff]
  rintro ⟨_, hlt⟩
  have := hactive a ha
  omega

/-- Settles O47: Best() is the highest of what is takeable (`isHighest_highest`). -/
theorem bestIsLeast : Obligations.BestIsLeast := by
  intro s
  obtain ⟨hnone, hsome⟩ := isHighest_highest s s.takeable
  refine ⟨fun e => ?_, hnone.trans (by simp), hsome⟩
  rw [takeable_iff, requested_iff, and_assoc, and_assoc]

end Sys2Proof.Machine
end

section
/-! SUPPORT. An exception return once its frame can be read (`60_exceptions.md` R414 to R416). -/

namespace Sys2Proof.Machine

open Sys2Proof

/-! ## EXC_RETURN values (R414) -/

/-- Of the values with top bits all ones the three of R414 are those that name a destination. -/
theorem mem_of_returnTo {v : Word} {dest : ReturnTo} (htop : v.extractLsb' 28 4 = 0xF#4)
    (h : returnTo v = some dest) : (v, dest) ∈ [(0xFFFFFFF1#32, ReturnTo.handler),
      (0xFFFFFFF9#32, .threadMain), (0xFFFFFFFD#32, .threadProcess)] := by
  have hlow : v.extractLsb' 4 28 ++ v.extractLsb' 0 4 = v := append_low (n := 4) (k := 28) v
  have hhigh : v.extractLsb' 28 4 ++ v.extractLsb' 4 24 = v.extractLsb' 4 28 :=
    BitVec.extractLsb'_append_extractLsb'_eq_extractLsb' (by omega)
  rw [← hlow, ← hhigh, htop]
  unfold returnTo at h
  split at h
  · cases h
  · next hones =>
    rw [not_not.mp hones]
    split at h
    · next hbits => cases h; rw [hbits]; decide
    · split at h
      · next hbits => cases h; rw [hbits]; decide
      · split at h
        · next hbits => cases h; rw [hbits]; decide
        · cases h

theorem returnTo_of_mem {v : Word} {dest : ReturnTo} (h : (v, dest) ∈
      [(0xFFFFFFF1#32, ReturnTo.handler), (0xFFFFFFF9#32, .threadMain),
        (0xFFFFFFFD#32, .threadProcess)]) :
    returnTo v = some dest ∧ v.extractLsb' 28 4 = 0xF#4 := by
  simp only [List.mem_cons, Prod.mk.injEq, List.not_mem_nil, or_false] at h
  obtain ⟨rfl, rfl⟩ | ⟨rfl, rfl⟩ | ⟨rfl, rfl⟩ := h
  · exact ⟨rfl, rfl⟩
  · exact ⟨rfl, rfl⟩
  · exact ⟨rfl, rfl⟩

/-! ## The checks of R415 -/

theorem mayReturn_iff {s : State} {dest : ReturnTo} {r : Exc} : s.mayReturn dest r = true ↔
    s.active.get r = true ∧ (s.active.count = 1 ↔ dest ≠ .handler) := by
  rw [State.mayReturn, Bool.and_eq_true, beq_iff_eq]
  refine and_congr_right fun _ => ?_
  rw [Bool.eq_iff_iff, beq_iff_eq, bne_iff_ne]

theorem numberReturnable_iff {s : State} {dest : ReturnTo} {n : BitVec 6} :
    s.numberReturnable dest n = true ↔
      (dest = .handler → ∃ e, excOfNumber n = some e ∧ s.hasExc e = true) ∧
        (dest ≠ .handler → n = 0#6) := by
  cases dest <;> simp [State.numberReturnable, Option.any_eq_true]

theorem frameReturnable_iff {s : State} {dest : ReturnTo} {ra psr : Word} :
    s.frameReturnable dest ra psr = true ↔ ra.getLsbD 0 = false ∧
      s.numberReturnable dest (psr.extractLsb' 0 6) = true := by
  rw [State.frameReturnable, Bool.and_eq_true, Bool.not_eq_true']

/-! ## The frame (R415, R416) -/

/-- The state after the words of the frame in memory are loaded. -/
def State.returned (s : State) (dest : ReturnTo) (r : Exc) : State :=
  s.unstacked dest r (s.returnFrame dest) (s.frameWord dest 0) (s.frameWord dest 1)
    (s.frameWord dest 2) (s.frameWord dest 3) (s.frameWord dest 4) (s.frameWord dest 5)
    (s.frameWord dest 6) (s.frameWord dest 7)

/-- A return whose frame can be read makes one check of it. -/
theorem popStack_readable {s : State} {dest : ReturnTo} (r : Exc) (h : s.frameReadable dest) :
    popStack dest r s = if s.frameReturnable dest (s.frameWord dest 6) (s.frameWord dest 7) then
      .next (s.returned dest r) else .refused .unpredictableReturn := by
  have hread : readWords (s.returnPrivilege dest) [] 8 (s.returnFrame dest) s =
      (s.wordsAt (s.returnFrame dest) 8, .ok () s) := readWords_readable h
  obtain ⟨htop, -⟩ := h
  have hcross : crossesTop (s.returnFrame dest) 8 = false := crossesTop_of_le htop
  rw [popStack, hcross, hread]
  rfl

theorem afterFrame_eq (s : State) (dest : ReturnTo) :
    s.afterFrame dest = poppedSp (s.returnFrame dest) (s.frameWord dest 7) := by
  rw [poppedSp, State.afterFrame]
  cases (s.frameWord dest 7).getLsbD 9 <;> rfl

/-- Sleep-on-exit (R482) changes how the core sleeps and nothing else. -/
theorem waitForInterrupt_eq (s : State) : s.waitForInterrupt = { s with
    sleep := if ∀ e ∈ Exc.all, State.takeable { s with primask := false } e = false
      then .waitInterrupt else s.sleep } := by
  by_cases h : ∀ e ∈ Exc.all, State.takeable { s with primask := false } e = false
  · rw [if_pos h, waitForInterrupt_sleeps fun e => h e e.mem_all]
  · rw [if_neg h]
    refine waitForInterrupt_wakes ?_
    simpa [Exc.mem_all] using h

/-- The state a return leaves is the one the claims describe: the frame loaded, and Sleeping as R482 has
it. -/
theorem returnedFrom_returned (s : State) (dest : ReturnTo) (r : Exc) :
    ReturnedFrom s (s.returned dest r) dest r := by
  unfold State.returned State.unstacked
  extract_lets s1 s2
  have hsleep : (if dest != .handler && s2.scr.sleepOnExit then s2.waitForInterrupt else s2) =
      { s2 with sleep := if dest ≠ .handler ∧ s.scr.sleepOnExit = true ∧
          ∀ e ∈ Exc.all, State.takeable { s2 with primask := false } e = false
        then .waitInterrupt else s.sleep } := by
    have hcond : (dest != .handler && s2.scr.sleepOnExit) = true ↔
        dest ≠ .handler ∧ s.scr.sleepOnExit = true := by
      rw [Bool.and_eq_true, bne_iff_ne]
      rfl
    by_cases hexit : dest ≠ .handler ∧ s.scr.sleepOnExit = true
    · rw [if_pos (hcond.mpr hexit), waitForInterrupt_eq]
      obtain ⟨hthread, hsleep⟩ := hexit
      simp only [hthread, hsleep, ne_eq, not_false_eq_true, true_and]
      rfl
    · rw [if_neg (mt hcond.mp hexit), if_neg fun ⟨hthread, hsleep, _⟩ => hexit ⟨hthread, hsleep⟩]
      rfl
  rw [hsleep, ReturnedFrom, afterFrame_eq]
  cases dest <;> rfl

/-! ## The return as an instruction (R43, R415) -/

/-- A return from an active exception to the mode it goes to makes the checks of its frame. -/
theorem exceptionReturn_readable {s : State} {v : Word} {dest : ReturnTo} {r : Exc}
    (hdest : returnTo v = some dest) (hr : excOfNumber s.ipsr = some r)
    (hmay : s.mayReturn dest r = true) (h : s.frameReadable dest) :
    exceptionReturn v s = if s.frameReturnable dest (s.frameWord dest 6) (s.frameWord dest 7) then
      .next (s.returned dest r) else .refused .unpredictableReturn := by
  rw [exceptionReturn, hdest, hr]
  dsimp only
  rw [if_pos hmay, popStack_readable r h]

theorem exceptionReturn_refused {s : State} {v : Word} {r : Exc} (hr : excOfNumber s.ipsr = some r)
    (h : ∀ dest, returnTo v = some dest → s.mayReturn dest r = false) :
    exceptionReturn v s = .refused .unpredictableReturn := by
  rw [exceptionReturn, hr]
  cases hdest : returnTo v with
  | none => rfl
  | some dest =>
    dsimp only
    rw [if_neg (Bool.eq_false_iff.mp (h dest hdest))]

/-- In a handler BX of a value with top bits all ones is an exception return. -/
theorem exec_bx_return {s : State} {v : Word} {r : Exc} {rm : RegNum} (hrm : rm ≠ 15)
    (hr : excOfNumber s.ipsr = some r) (htop : v.extractLsb' 28 4 = 0xF#4) (hv : s.reg rm = v) :
    exec (.bx rm 0#3) s = exceptionReturn v s := by
  have hformed : ¬(rm = 15 ∨ (0#3 : BitVec 3) ≠ 0#3) := by simp [hrm]
  have hmode : s.ipsr ≠ 0#6 := fun h => by rw [h, excOfNumber_zero] at hr; cases hr
  change execBx rm 0#3 s = _
  rw [execBx, if_neg hformed, hv, bxWritePc_return hmode htop]

end Sys2Proof.Machine
end

section
/-! PROOFS. Exception returns, consistent and not (`60_exceptions.md` R414 to R416). -/

namespace Sys2Proof.Machine

open Sys2Proof

/-- Settles O44: the checks of R415 and of the frame are passed, and the state left is `State.returned`. -/
theorem exceptionReturnState : Obligations.ExceptionReturnState := by
  rintro s v dest r n hv hr hactive hcount hframe heven rfl hhandler hthread
  obtain ⟨hdest, htop⟩ := returnTo_of_mem hv
  have hmay := mayReturn_iff.mpr ⟨hactive, hcount⟩
  have hpass := frameReturnable_iff.mpr ⟨heven, numberReturnable_iff.mpr ⟨hhandler, hthread⟩⟩
  have hreturn := exceptionReturn_readable hdest hr hmay hframe
  rw [if_pos hpass] at hreturn
  exact ⟨_, hreturn, returnedFrom_returned s dest r, fun rm hrm hreg =>
    (exec_bx_return hrm hr htop hreg).trans hreturn⟩

/-- Settles O45: the value names no destination, or a check of R415 or of the frame fails. -/
theorem inconsistentReturnsRefused : Obligations.InconsistentReturnsRefused := by
  intro s v r htop hr
  refine ⟨fun hbad => ?_, fun rm hrm hreg => exec_bx_return hrm hr htop hreg⟩
  have refusedUnless (h : ∀ dest, returnTo v = some dest → s.active.get r = true →
      (s.active.count = 1 ↔ dest ≠ .handler) → False) :
      exceptionReturn v s = .refused .unpredictableReturn :=
    exceptionReturn_refused hr fun dest hdest => Bool.eq_false_iff.mpr fun hmay => by
      obtain ⟨hactive, hcount⟩ := mayReturn_iff.mp hmay
      exact h dest hdest hactive hcount
  have values {dest : ReturnTo} (hdest : returnTo v = some dest) := mem_of_returnTo htop hdest
  simp only [List.mem_cons, Prod.mk.injEq, List.not_mem_nil, or_false] at values
  obtain hvalue | hinactive | ⟨hhandler, hlast⟩ | ⟨hthread, hmore⟩ | ⟨dest, hv, hframe, hbad⟩ := hbad
  case inl =>
    refine refusedUnless fun dest hdest _ _ => ?_
    obtain ⟨hnot1, hnot9, hnotD⟩ := hvalue
    simpa [hnot1, hnot9, hnotD] using values hdest
  case inr.inl =>
    exact refusedUnless fun dest _ hactive _ => by rw [hinactive] at hactive; cases hactive
  case inr.inr.inl =>
    subst hhandler
    exact refusedUnless fun dest hdest _ hcount => hcount.mp hlast (Option.some.inj hdest).symm
  case inr.inr.inr.inl =>
    refine refusedUnless fun dest hdest _ hcount => hmore (hcount.mpr fun hd => ?_)
    subst hd
    simpa [hthread] using values hdest
  case inr.inr.inr.inr =>
    obtain ⟨hdest, _⟩ := returnTo_of_mem hv
    by_cases hmay : s.mayReturn dest r = true
    · rw [exceptionReturn_readable hdest hr hmay hframe, if_neg]
      rw [frameReturnable_iff, numberReturnable_iff]
      rintro ⟨heven, hhandler, hthread⟩
      obtain hodd | ⟨hd, hnone⟩ | ⟨hd, hnonzero⟩ := hbad
      · rw [heven] at hodd
        cases hodd
      · obtain ⟨e, he, hexc⟩ := hhandler hd
        rw [hnone e he] at hexc
        cases hexc
      · exact hnonzero (hthread hd)
    · refine exceptionReturn_refused hr fun d hd => ?_
      rw [hdest] at hd
      cases hd
      exact Bool.eq_false_iff.mpr hmay

end Sys2Proof.Machine
end

section
/-! SUPPORT. What the frame of an exception entry holds (`60_exceptions.md` R410, R412), in the terms of the
return that removes it (R414 to R416). -/

namespace Sys2Proof.Machine

open Sys2Proof

/-! ## The stacked xPSR (R54, R412) -/

theorem xpsr_number (s : State) (align : Bool) : (s.xpsr align).extractLsb' 0 6 = s.ipsr :=
  BitVec.extractLsb'_append_eq_right

theorem xpsr_thumb (s : State) (align : Bool) : (s.xpsr align).getLsbD 24 = s.t := by
  rw [State.xpsr]
  repeat rw [BitVec.getLsbD_append]
  simp

theorem xpsr_align (s : State) (align : Bool) : (s.xpsr align).getLsbD 9 = align := by
  rw [State.xpsr]
  repeat rw [BitVec.getLsbD_append]
  simp

theorem xpsr_flags (s : State) (align : Bool) : (⟨(s.xpsr align).getLsbD 31, (s.xpsr align).getLsbD 30,
    (s.xpsr align).getLsbD 29, (s.xpsr align).getLsbD 28⟩ : Flags) = s.flags := by
  rw [State.xpsr, Flags.bits]
  repeat rw [BitVec.getLsbD_append]
  simp

/-! ## The stack pointer past the frame (R410, R416) -/

/-- A word with its `n` low bits cleared. -/
theorem and_high {n k : Nat} (v : BitVec (k + n)) :
    v &&& (BitVec.allOnes k ++ 0#n) = v.extractLsb' n k ++ 0#n := by
  have hv := append_low (n := n) (k := k) v
  calc v &&& (BitVec.allOnes k ++ 0#n)
      = (v.extractLsb' n k ++ v.extractLsb' 0 n) &&& (BitVec.allOnes k ++ 0#n) := by rw [hv]
    _ = (v.extractLsb' n k &&& BitVec.allOnes k) ++ (v.extractLsb' 0 n &&& 0#n) := BitVec.and_append
    _ = v.extractLsb' n k ++ 0#n := by rw [BitVec.and_allOnes, BitVec.and_zero]

/-- The frame removed and its padding with it, the stack pointer is what it was before the entry. -/
theorem framePtr_removed {s : State} (h : s.sp.extractLsb' 0 2 = 0#2) :
    (s.framePtr + 0x20#32) ||| (if s.sp.getLsbD 2 then 4#32 else 0#32) = s.sp := by
  have hsp := s.sp.isLt
  rw [aligned_iff] at h
  have hbit : s.sp.getLsbD 2 = decide (s.sp.toNat % 8 = 4) := by
    rw [BitVec.getLsbD, Nat.testBit_eq_decide_div_mod_eq]
    exact decide_eq_decide.mpr (by omega)
  have hframe : (s.framePtr + 0x20#32).toNat = (s.sp.toNat / 8) <<< 3 := by
    have hhigh : s.framePtr = (s.sp - 0x20#32).extractLsb' 3 29 ++ 0#3 :=
      and_high (n := 3) (k := 29) (s.sp - 0x20#32)
    rw [hhigh]
    simp only [BitVec.toNat_add, BitVec.toNat_append, BitVec.extractLsb'_toNat, BitVec.toNat_sub,
      Nat.shiftRight_eq_div_pow, Nat.shiftLeft_eq, BitVec.toNat_ofNat, Nat.zero_mod, Nat.or_zero]
    omega
  apply BitVec.eq_of_toNat_eq
  rw [BitVec.toNat_or, hframe, hbit]
  split
  · next h4 =>
    rw [← Nat.shiftLeft_add_eq_or_of_lt (by decide), Nat.shiftLeft_eq]
    have := of_decide_eq_true h4
    simp; omega
  · next h4 =>
    have : ¬_ := fun h => h4 (decide_eq_true h)
    simp [Nat.shiftLeft_eq]; omega

/-! ## Where an entry returns to (R410, R414) -/

/-- Where the return from a handler entered in this state goes. -/
def State.entryReturn (s : State) : ReturnTo :=
  if s.ipsr ≠ 0#6 then .handler else if s.spsel then .threadProcess else .threadMain

theorem entryReturn_handler_iff {s : State} : s.entryReturn = .handler ↔ s.ipsr ≠ 0#6 := by
  unfold State.entryReturn
  split
  · next h => simp [h]
  · next h => cases s.spsel <;> simp [h]

/-- In Thread mode with SPSEL set the frame is on the process stack. -/
theorem entryReturn_process_iff {s : State} :
    s.entryReturn = .threadProcess ↔ s.spsel = true ∧ s.ipsr = 0#6 := by
  unfold State.entryReturn
  split
  · next h => simp [h]
  · next h =>
    rw [ne_eq, not_not] at h
    cases s.spsel <;> simp [h]

/-- The fields of `EnteredFrom` that a return depends on, one by one. -/
structure EntryFields (s t : State) (e : Exc) : Prop where
  cfg : t.cfg = s.cfg
  lr : t.lr = if s.ipsr ≠ 0#6 then 0xFFFFFFF1#32 else if s.spsel then 0xFFFFFFFD#32 else 0xFFFFFFF9#32
  spMain : t.spMain = if s.spsel = true ∧ s.ipsr = 0#6 then s.spMain else s.framePtr
  spProcess : t.spProcess = if s.spsel = true ∧ s.ipsr = 0#6 then s.framePtr else s.spProcess
  ipsr : t.ipsr = BitVec.ofNat 6 e.number
  spsel : t.spsel = false
  active : t.active = s.active.set e true
  npriv : t.npriv = s.npriv
  primask : t.primask = s.primask

section Entered

variable {s t : State} {e : Exc} {ret : Word}

theorem EnteredFrom.fields (h : EnteredFrom s t e ret) : EntryFields s t e := by
  obtain ⟨-, -, -, -, ht⟩ := h
  rw [ht]
  exact ⟨rfl, rfl, rfl, rfl, rfl, rfl, rfl, rfl, rfl⟩

/-- LR holds the EXC_RETURN value of that destination. -/
theorem EntryFields.lr_mem (h : EntryFields s t e) : (t.lr, s.entryReturn) ∈
    [(0xFFFFFFF1#32, ReturnTo.handler), (0xFFFFFFF9#32, .threadMain),
      (0xFFFFFFFD#32, .threadProcess)] := by
  rw [h.lr, State.entryReturn]
  split
  · decide
  · split <;> decide

/-- The return finds the frame where the entry put it. -/
theorem EntryFields.frame (h : EntryFields s t e) :
    (if s.entryReturn = .threadProcess then t.spProcess else t.spMain) = s.framePtr := by
  simp only [h.spMain, h.spProcess, entryReturn_process_iff]
  split <;> rfl

/-- The return loads the words the entry stored. -/
theorem EnteredFrom.frameWords (h : EnteredFrom s t e ret) :
    t.frameWord s.entryReturn 0 = s.r[0] ∧ t.frameWord s.entryReturn 1 = s.r[1] ∧
      t.frameWord s.entryReturn 2 = s.r[2] ∧ t.frameWord s.entryReturn 3 = s.r[3] ∧
      t.frameWord s.entryReturn 4 = s.r[12] ∧ t.frameWord s.entryReturn 5 = s.lr ∧
      t.frameWord s.entryReturn 6 = ret ∧
      t.frameWord s.entryReturn 7 = s.xpsr (s.sp.getLsbD 2) := by
  have hword {k : Nat} (hk : k < 8) :
      t.frameWord s.entryReturn k = (s.frameWords ret).getD k 0#32 := by
    have hfields := h.fields
    obtain ⟨hstored, -⟩ := h
    rw [State.frameWord, hfields.frame, hfields.cfg]
    exact value_of_wordsStored hstored hk
  exact ⟨hword (by decide), hword (by decide), hword (by decide), hword (by decide),
    hword (by decide), hword (by decide), hword (by decide), hword (by decide)⟩

/-- The return reads with the privilege the entry stored with (R410, R415). -/
theorem EntryFields.frameReadable (h : EntryFields s t e)
    (hread : s.readableWords s.privileged s.framePtr 8) : t.frameReadable s.entryReturn := by
  have hpriv : (s.entryReturn == .handler || !t.npriv) = s.privileged := by
    rw [h.npriv, State.privileged, State.handlerMode]
    congr 1
    rw [Bool.eq_iff_iff, beq_iff_eq, bne_iff_ne, entryReturn_handler_iff]
  rw [State.frameReadable, hpriv, h.frame, State.readableWords]
  simpa only [State.readable, h.cfg] using hread

end Entered

/-! ## The active exceptions (R411, R415) -/

theorem ExcBits.clear_set {b : ExcBits} {e : Exc} (h : b.get e = false) :
    (b.set e true).set e false = b := by
  refine ExcBits.ext_get fun f => ?_
  rw [ExcBits.get_set, ExcBits.get_set]
  split
  · next hf => rw [hf, h]
  · rfl

/-- The handler is the only active exception exactly when it interrupted Thread mode (R52, R417). -/
theorem EntryFields.count_eq_one_iff {s t : State} {e : Exc} (h : EntryFields s t e) (hinv : s.Settled)
    (he : s.active.get e = false) : t.active.count = 1 ↔ s.entryReturn ≠ .handler := by
  have hset : (s.active.set e true).get e = true := by rw [ExcBits.get_set, if_pos rfl]
  rw [h.active, ExcBits.count_eq_one_iff hset, ExcBits.clear_set he, ← hinv.thread, ne_eq,
    entryReturn_handler_iff, not_not]

/-- The stack pointer in use before the entry is a multiple of 4 (R32). -/
theorem sp_aligned {s : State} (h : s.Settled) : s.sp.extractLsb' 0 2 = 0#2 := by
  unfold State.sp
  split
  · exact h.spProcess
  · exact h.spMain

/-- SP_main after the return: the stack pointer in use before the entry, or untouched by both. -/
theorem EntryFields.spMain_restored {s t : State} {e : Exc} (h : EntryFields s t e) :
    (if s.entryReturn = .threadProcess then t.spMain else s.sp) = s.spMain := by
  rw [h.spMain]
  by_cases hproc : s.spsel = true ∧ s.ipsr = 0#6
  · rw [if_pos (entryReturn_process_iff.mpr hproc), if_pos hproc]
  · rw [if_neg (mt entryReturn_process_iff.mp hproc), sp_main (mt useProcess_iff.mp hproc)]

theorem EntryFields.spProcess_restored {s t : State} {e : Exc} (h : EntryFields s t e) :
    (if s.entryReturn = .threadProcess then s.sp else t.spProcess) = s.spProcess := by
  rw [h.spProcess]
  by_cases hproc : s.spsel = true ∧ s.ipsr = 0#6
  · rw [if_pos (entryReturn_process_iff.mpr hproc), sp_process (useProcess_iff.mpr hproc)]
  · rw [if_neg (mt entryReturn_process_iff.mp hproc), if_neg hproc]

/-- SPSEL after the return: 0 in Handler mode (R37), else as the EXC_RETURN value has it. -/
theorem EntryFields.spsel_restored {s t : State} {e : Exc} (h : EntryFields s t e)
    (hsettled : s.Settled) : (if s.entryReturn = .handler then t.spsel
      else s.entryReturn == .threadProcess) = s.spsel := by
  by_cases hmode : s.ipsr = 0#6
  · rw [if_neg (not_not.mpr hmode ∘ entryReturn_handler_iff.mp), Bool.eq_iff_iff, beq_iff_eq,
      entryReturn_process_iff]
    exact and_iff_left hmode
  · rw [if_pos (entryReturn_handler_iff.mpr hmode), h.spsel]
    exact (Bool.eq_false_iff.mpr (mt hsettled.spsel hmode)).symm

/-- R0 to R12 as the frame and the handler give them back. -/
theorem registers_restored {s t : State}
    (h : ∀ i : Fin 13, 4 ≤ i.val → i.val ≤ 11 → t.r[i.val] = s.r[i.val]) :
    ((((t.r.set 0 s.r[0]).set 1 s.r[1]).set 2 s.r[2]).set 3 s.r[3]).set 12 s.r[12] = s.r := by
  ext i hi
  have hkept : 4 ≤ i → i ≤ 11 → t.r[i] = s.r[i] := h ⟨i, hi⟩
  simp only [Vector.getElem_set]
  grind

end Sys2Proof.Machine
end

section
/-! PROOFS. Exception entry, Lockup, and the return that undoes an entry (`60_exceptions.md` R410 to R416,
R428). -/

namespace Sys2Proof.Machine

open Sys2Proof

/-- Settles O40: the frame is stacked and the vector taken (`exceptionEntry_ready`). -/
theorem exceptionEntryState : Obligations.ExceptionEntryState :=
  fun _ _ ret hready => exceptionEntry_ready ret hready

/-! ## Lockup (R428) -/

/-- A fault where HardFault cannot be entered is Lockup (R420). -/
theorem raiseHardFault_lockup {s : State} (c : FaultCause) (h : s.executionPriority ≤ -1) :
    raiseHardFault c s = .next s.enterLockup := if_pos h

/-- A step of the core in Lockup, whatever it would defer. -/
theorem step_lockup {s : State} (h : s.lockup = true) (hcore : startsWithCore s.inputs = true)
    (hreset : s.inputs = [] → s.resetRequest = false) :
    step s = lockupStep s.nextChoice s.afterInput := by
  rw [step_eq_coreStep hcore hreset]
  exact if_pos h

theorem requested_nmi (s : State) : s.requested .nmi = s.pending.nmi := by
  simp [State.requested, State.hasExc, State.isEnabled, ExcBits.get]

/-- NMI leaves Lockup where it is pending and the priority is -1. -/
theorem lockupStep_eq (c : Choice) (s : State) : lockupStep c s =
    if s.pending.nmi = true ∧ s.executionPriority = -1 then
      if c = .delay then .next s else exceptionEntry .nmi 0xFFFFFFFE#32 s
    else if s.resetRequest then .next s else .fault .lockup := by
  rw [lockupStep, requested_nmi]
  simp only [Bool.and_eq_true, beq_iff_eq]

theorem nextChoice_delay_iff {s : State} :
    s.nextChoice = .delay ↔ s.inputs.head? = some (.core .delay) := by
  refine ⟨fun h => ?_, nextChoice_of_head⟩
  unfold State.nextChoice at h
  split at h
  · next hin => rw [hin, h]; rfl
  · cases h

/-- Settles O42: the entry of Lockup is `State.enterLockup`, and a step in it `lockupStep`. -/
theorem lockup : Obligations.Lockup := by
  intro s imm8
  refine ⟨fun hprio => ?enters, fun hlocked hcore hreset => ?_⟩
  case enters =>
    have hudf (imm8 : BitVec 8) : exec (.udf imm8) s = .next s.enterLockup :=
      raiseHardFault_lockup .undefinedInstruction hprio
    have hsvc : s.executionPriority ≤ (s.pri.svcall.toNat : Int) := by omega
    exact ⟨hudf imm8, raiseHardFault_lockup .breakpoint hprio,
      (exec_svc_escalates imm8 hsvc).trans (hudf 0#8)⟩
  rw [step_lockup hlocked hcore hreset, lockupStep_eq]
  refine ⟨fun hstays => if_neg ?_, fun hnmi hprio => ?leaves⟩
  · rintro ⟨hnmi, hprio⟩
    obtain h | h := hstays
    · cases hnmi.symm.trans h
    · exact h hprio
  case leaves =>
    rw [if_pos ⟨hnmi, hprio⟩]
    simp only [nextChoice_delay_iff]

/-! ## Entry and return -/

/-- The return from the handler to the code it interrupted is consistent, so that it completes. -/
theorem EnteredFrom.return_completes {s t : State} {e : Exc} {ret : Word} (h : EnteredFrom s t e ret)
    (hsettled : s.Settled) (hinactive : s.active.get e = false) (heven : ret.getLsbD 0 = false)
    (hread : s.readableWords s.privileged s.framePtr 8) :
    ∃ u, ReturnedFrom t u s.entryReturn e ∧
      ∀ rm : RegNum, rm ≠ 15 → t.reg rm = t.lr → exec (.bx rm 0#3) t = .next u := by
  have hfields := h.fields
  obtain ⟨-, -, -, -, -, -, hra, hpsr⟩ := h.frameWords
  have hactive : t.active.get e = true := by rw [hfields.active, ExcBits.get_set, if_pos rfl]
  have hnumber : s.ipsr = (t.frameWord s.entryReturn 7).extractLsb' 0 6 := by
    rw [hpsr, xpsr_number]
  have hhandler (h : s.entryReturn = .handler) :
      ∃ e, excOfNumber s.ipsr = some e ∧ t.hasExc e = true := by
    have hexists := hsettled.number.resolve_left (entryReturn_handler_iff.mp h)
    simpa only [Option.any_eq_true, hasExc_congr hfields.cfg] using hexists
  have hthread (h : s.entryReturn ≠ .handler) : s.ipsr = 0#6 :=
    not_not.mp (mt entryReturn_handler_iff.mpr h)
  obtain ⟨u, -, hu, hbx⟩ := exceptionReturnState t t.lr s.entryReturn e s.ipsr hfields.lr_mem
    (by rw [hfields.ipsr, excOfNumber_number]) hactive (hfields.count_eq_one_iff hsettled hinactive)
    (hfields.frameReadable hread) (by rw [hra]; exact heven) hnumber hhandler hthread
  exact ⟨u, hu, hbx⟩

/-- Settles O43: the return completes (`EnteredFrom.return_completes`), and loads the frame the entry stored
(`EnteredFrom.frameWords`). -/
theorem entryThenReturnRestores : Obligations.EntryThenReturnRestores := by
  intro s t e ret rm hinv hinactive heven hready hread hentry hrm hreg
  obtain ⟨hsound, -⟩ := inv_iff_sound.mp hinv
  have hsettled := hsound.toSettled
  obtain ⟨t', hentry', hentered⟩ := exceptionEntry_ready ret hready
  obtain rfl : t = t' := Host.Outcome.next.inj (hentry.symm.trans hentry')
  obtain ⟨u, hu, hbx⟩ := hentered.return_completes hsettled hinactive heven hread
  have hfields := hentered.fields
  obtain ⟨h0, h1, h2, h3, h12, hlr, hra, hpsr⟩ := hentered.frameWords
  obtain ⟨-, hkept, -⟩ := hentered
  have hsp : t.afterFrame s.entryReturn = s.sp := by
    rw [State.afterFrame, hfields.frame, hpsr, xpsr_align]
    exact framePtr_removed (sp_aligned hsettled)
  have hcleared : t.active.set e false = s.active := by
    rw [hfields.active, ExcBits.clear_set hinactive]
  rw [ReturnedFrom, h0, h1, h2, h3, h12, hlr, hra, hpsr, hsp, xpsr_flags, xpsr_thumb, xpsr_number] at hu
  exact ⟨u, hbx rm hrm hreg,
    (congrArg State.r hu).trans (registers_restored hkept),
    (congrArg State.lr hu :),
    (congrArg State.spMain hu).trans hfields.spMain_restored,
    (congrArg State.spProcess hu).trans hfields.spProcess_restored,
    (congrArg State.pc hu :),
    (congrArg State.flags hu :),
    (congrArg State.t hu :),
    (congrArg State.ipsr hu :),
    (congrArg State.spsel hu).trans (hfields.spsel_restored hsettled),
    (congrArg State.npriv hu).trans hfields.npriv,
    (congrArg State.primask hu).trans hfields.primask,
    (congrArg State.active hu).trans hcleared,
    (congrArg State.event hu :),
    (congrArg State.mem hu :)⟩

end Sys2Proof.Machine
end

section
/-! SUPPORT. The pending logic bit by bit (`60_exceptions.md` R425, R440, R455). -/

namespace Sys2Proof.Machine

open Sys2Proof

/-! ## Bits that go from clear to set (R455) -/

theorem ne_zero_iff_getLsbD {w : Nat} {x : BitVec w} : x ≠ 0#w ↔ ∃ n < w, x.getLsbD n = true := by
  constructor
  · intro h
    by_contra hnone
    refine h (BitVec.eq_of_getLsbD_eq fun n hn => ?_)
    rw [BitVec.getLsbD_zero, ← Bool.not_eq_true]
    exact fun hset => hnone ⟨n, hn, hset⟩
  · rintro ⟨n, -, hset⟩ rfl
    rw [BitVec.getLsbD_zero] at hset
    cases hset

theorem exists_exc_iff {P : Exc → Prop} : (∃ e, P e) ↔
    P .nmi ∨ P .hardFault ∨ P .svcall ∨ P .pendsv ∨ P .systick ∨ ∃ n, P (.irq n) := by
  constructor
  · rintro ⟨e, he⟩
    cases e <;> grind
  · rintro (h | h | h | h | h | ⟨n, h⟩) <;> exact ⟨_, h⟩

theorem ExcBits.anyNew_iff {old new : ExcBits} :
    ExcBits.anyNew old new = true ↔ ∃ e, new.get e = true ∧ old.get e = false := by
  have hirq : ((new.irq &&& ~~~old.irq) != 0#32) = true ↔
      ∃ n : Fin 32, new.irq.getLsbD n.val = true ∧ old.irq.getLsbD n.val = false := by
    rw [bne_iff_ne, ne_zero_iff_getLsbD, Fin.exists_iff]
    refine exists_congr fun n => ?_
    rw [← exists_prop]
    refine exists_congr fun hn => ?_
    simp [hn]
  rw [exists_exc_iff, ExcBits.anyNew, Bool.or_eq_true, hirq]
  simp only [Bool.or_eq_true, Bool.and_eq_true, Bool.not_eq_true', or_assoc]
  rfl

/-- Where only the interrupts' bits differ, the new ones are among them. -/
theorem ExcBits.anyNew_irq {b : ExcBits} {x : BitVec 32} :
    ExcBits.anyNew b { b with irq := x } = true ↔
      ∃ n < 32, x.getLsbD n = true ∧ b.irq.getLsbD n = false := by
  rw [ExcBits.anyNew_iff]
  constructor
  · rintro ⟨e, hnew, hold⟩
    cases e with
    | irq n => exact ⟨n.val, n.isLt, hnew, hold⟩
    | nmi | hardFault | svcall | pendsv | systick => cases hold.symm.trans hnew
  · rintro ⟨n, hn, h⟩
    exact ⟨.irq ⟨n, hn⟩, h⟩

theorem ExcBits.anyNew_set (b : ExcBits) (e : Exc) : ExcBits.anyNew b (b.set e true) = !b.get e := by
  rw [Bool.eq_iff_iff, ExcBits.anyNew_iff, Bool.not_eq_true']
  simp only [ExcBits.get_set]
  constructor
  · rintro ⟨f, hnew, hold⟩
    split at hnew
    · next hf => rwa [hf] at hold
    · cases hold.symm.trans hnew
  · exact fun h => ⟨e, if_pos rfl, h⟩

theorem ExcBits.anyNew_self (b : ExcBits) : ExcBits.anyNew b b = false := by
  rw [← Bool.not_eq_true, ExcBits.anyNew_iff]
  rintro ⟨e, hnew, hold⟩
  cases hold.symm.trans hnew

/-! ## A sample of the lines (R440 item 2, R425) -/

theorem withPending_self (s : State) : s.withPending s.pending = s := by
  rw [State.withPending, ExcBits.anyNew_self, Bool.and_false, Bool.or_false]

/-- An exception made pending sets the event register with SEVONPEND where it was not (R455). -/
theorem withPending_set (s : State) (e : Exc) : s.withPending (s.pending.set e true) = { s with
    pending := s.pending.set e true
    event := s.event || (s.scr.sevOnPend && !s.pending.get e) } := by
  rw [State.withPending, ExcBits.anyNew_set]

/-- Once the high lines have pended their exceptions a sample changes nothing. -/
theorem resample_eq_self {s : State} (h : s.linesPending) : s.resample = s := by
  have hpending : s.resample.pending = s.pending := by
    refine ExcBits.ext_get fun e => ?_
    rw [resample_pending_get, Bool.eq_iff_iff, Bool.or_eq_true]
    refine ⟨fun hset => hset.elim id fun hline => ?_, .inl⟩
    simp only [Bool.and_eq_true, Bool.not_eq_true'] at hline
    obtain ⟨⟨hhigh, hexc⟩, hactive⟩ := hline
    exact linesPending_iff.mp h e hhigh hexc hactive
  calc s.resample = s.withPending s.resample.pending := rfl
    _ = s := by rw [hpending, withPending_self]

/-! ## The lines driven (R425, R440) -/

theorem lineHigh_setIrq (s : State) (n : Fin 32) (level : Bool) (e : Exc) :
    State.lineHigh { s with irqLine := setBit s.irqLine n level } e =
      if e = .irq n then level else s.lineHigh e := by
  cases e with
  | irq m => simp only [State.lineHigh, getLsbD_setBit, Exc.irq.injEq]
  | nmi | hardFault | svcall | pendsv | systick => rfl

theorem lineHigh_setNmi (s : State) (level : Bool) (e : Exc) :
    State.lineHigh { s with nmiLine := level } e = if e = .nmi then level else s.lineHigh e := by
  cases e <;> rfl

/-- A rising edge: the exception is pended, and its line is then high. -/
theorem linesPending_rising {s t : State} {e : Exc} (h : s.linesPending) (hcfg : t.cfg = s.cfg)
    (hactive : t.active = s.active) (hpending : t.pending = s.pending.set e true)
    (hline : ∀ f, f ≠ e → t.lineHigh f = s.lineHigh f) : t.linesPending := by
  rw [linesPending_iff, hasExc_congr hcfg, hactive, hpending]
  intro f hhigh hexc hinactive
  rw [ExcBits.get_set]
  split
  · rfl
  · next hne =>
    rw [hline f hne] at hhigh
    exact linesPending_iff.mp h f hhigh hexc hinactive

/-- No edge: no line is high that was not. -/
theorem linesPending_level {s t : State} (h : s.linesPending) (hcfg : t.cfg = s.cfg)
    (hactive : t.active = s.active) (hpending : t.pending = s.pending)
    (hline : ∀ f, t.lineHigh f = true → s.lineHigh f = true) : t.linesPending := by
  rw [linesPending_iff, hasExc_congr hcfg, hactive, hpending]
  exact fun f hhigh => linesPending_iff.mp h f (hline f hhigh)

theorem driveIrq_rising {s : State} {n : Fin 32} (h : s.linesPending) (hn : n.val < s.cfg.numIrq.toNat)
    (hlow : s.irqLine.getLsbD n.val = false) : s.driveIrq n true = { s with
      pending := s.pending.set (.irq n) true
      event := s.event || (s.scr.sevOnPend && !s.pending.irq.getLsbD n.val)
      irqLine := setBit s.irqLine n true } := by
  rw [State.driveIrq, if_pos hn, hlow]
  change State.resample { s.withPending (s.pending.set (.irq n) true) with
    irqLine := setBit s.irqLine n true } = _
  rw [withPending_set]
  exact resample_eq_self (linesPending_rising (e := .irq n) h rfl rfl rfl fun f hf =>
    (lineHigh_setIrq s n true f).trans (if_neg hf))

theorem driveIrq_level {s : State} {n : Fin 32} {level : Bool} (h : s.linesPending)
    (hn : n.val < s.cfg.numIrq.toNat) (hlevel : ¬(level = true ∧ s.irqLine.getLsbD n.val = false)) :
    s.driveIrq n level = { s with irqLine := setBit s.irqLine n level } := by
  have hedge : ¬(level && !s.irqLine.getLsbD n.val) = true := by simpa using hlevel
  rw [State.driveIrq, if_pos hn, if_neg hedge]
  refine resample_eq_self (linesPending_level h rfl rfl rfl fun f hf => ?_)
  rw [lineHigh_setIrq] at hf
  split at hf
  · next hfn =>
    rw [hfn, State.lineHigh]
    simpa [hf] using hlevel
  · exact hf

theorem driveNmi_rising {s : State} (h : s.linesPending) (hlow : s.nmiLine = false) :
    s.driveNmi true = { s with
      pending := { s.pending with nmi := true }
      event := s.event || (s.scr.sevOnPend && !s.pending.nmi)
      nmiLine := true } := by
  rw [State.driveNmi, hlow]
  change State.resample { s.withPending (s.pending.set .nmi true) with nmiLine := true } = _
  rw [withPending_set]
  exact resample_eq_self (linesPending_rising (e := .nmi) h rfl rfl rfl fun f hf =>
    (lineHigh_setNmi s true f).trans (if_neg hf))

theorem driveNmi_level {s : State} {level : Bool} (h : s.linesPending)
    (hlevel : ¬(level = true ∧ s.nmiLine = false)) :
    s.driveNmi level = { s with nmiLine := level } := by
  have hedge : ¬(level && !s.nmiLine) = true := by simpa using hlevel
  rw [State.driveNmi, if_neg hedge]
  refine resample_eq_self (linesPending_level h rfl rfl rfl fun f hf => ?_)
  rw [lineHigh_setNmi] at hf
  split at hf
  · next hfn =>
    rw [hfn, State.lineHigh]
    simpa [hf] using hlevel
  · exact hf

end Sys2Proof.Machine
end

section
/-! PROOFS. The interrupt lines, and the NVIC's set and clear registers (`60_exceptions.md` R425, R440 to R444,
R455, R481). -/

namespace Sys2Proof.Machine

open Sys2Proof

/-! ## The lines (R425, R440, R481) -/

/-- A step that takes an event of the environment. -/
theorem step_event {s : State} {ev : Event} {rest : List Input} (h : s.inputs = .outside ev :: rest) :
    step s = .next (State.afterEvent { s with inputs := rest } ev) := by
  rw [step_of_cons h, State.afterInput, h]
  rfl

theorem driveIrq_irqLine {s : State} {n : Fin 32} (hn : n.val < s.cfg.numIrq.toNat) (level : Bool) :
    (s.driveIrq n level).irqLine = setBit s.irqLine n level := by
  rw [State.driveIrq, if_pos hn]
  rfl

theorem linesPending_of_inv {s : State} (h : s.Inv) : s.linesPending :=
  linesPending_iff.mpr (inv_iff_sound.mp h).1.lines

/-- Settles O49: a rising edge pends (`driveIrq_rising`), any other level changes the line alone
(`driveIrq_level`). -/
theorem interruptLines : Obligations.InterruptLines := by
  intro s n rest level hinv
  have hlines : State.linesPending { s with inputs := rest } := linesPending_of_inv hinv
  refine ⟨fun hin hn => ?irq, fun hin hn => ?absent, fun hin => ?nmi, fun hin => step_event hin⟩
  case irq =>
    have hline : (State.afterEvent { s with inputs := rest } (.irqLine n level)).irqLine =
        setBit s.irqLine n level :=
      driveIrq_irqLine (s := { s with inputs := rest }) hn level
    refine ⟨_, step_event hin, fun k hk => ?_, ?_⟩
    · rw [hline, show k = (⟨k, hk⟩ : Fin 32).val from rfl, getLsbD_setBit]
      simp only [Fin.ext_iff]
    · rw [hline]
      split
      · next h =>
        obtain ⟨rfl, hlow⟩ := h
        exact driveIrq_rising hlines hn hlow
      · next h => exact driveIrq_level hlines hn h
  case absent =>
    rw [step_event hin]
    exact congrArg _ (if_neg (Nat.not_lt.mpr hn))
  case nmi =>
    rw [step_event hin]
    split
    · next h =>
      obtain ⟨rfl, hlow⟩ := h
      exact congrArg _ (driveNmi_rising hlines hlow)
    · next h => exact congrArg _ (driveNmi_level hlines h)

/-! ## The set and clear registers (R441 to R444) -/

/-- The mask of the interrupts that exist, bit by bit (D1). -/
theorem getLsbD_irqMask_lt (s : State) {n : Nat} (hn : n < 32) :
    s.irqMask.getLsbD n = decide (n < s.cfg.numIrq.toNat) := getLsbD_irqMask s ⟨n, hn⟩

/-- What a write of NVIC_ICPR leaves before the lines are sampled again (R444). -/
def State.irqsCleared (s : State) (v : Word) : State :=
  { s with pending := { s.pending with irq := s.pending.irq &&& ~~~(v &&& s.irqMask) } }

theorem writeSys_nvicIcpr (s : State) (v : Word) :
    writeSys .nvicIcpr v s = .ok () (s.irqsCleared v).resample := rfl

theorem getLsbD_irqsCleared (s : State) (v : Word) {n : Nat} (hn : n < 32) :
    (s.irqsCleared v).pending.irq.getLsbD n =
      (s.pending.irq.getLsbD n && !(v.getLsbD n && decide (n < s.cfg.numIrq.toNat))) := by
  simp only [State.irqsCleared, BitVec.getLsbD_and, BitVec.getLsbD_not, hn, decide_true,
    Bool.true_and, getLsbD_irqMask_lt s hn]

/-- A high line has pended its interrupt, so that a sample can only undo the clearing. -/
theorem pending_of_high {s : State} (h : s.linesPending) {n : Nat} (hn : n < 32)
    (hline : s.irqLine.getLsbD n = true) (hexists : n < s.cfg.numIrq.toNat)
    (hactive : s.active.irq.getLsbD n = false) : s.pending.irq.getLsbD n = true :=
  linesPending_iff.mp h (.irq ⟨n, hn⟩) hline (decide_eq_true hexists) hactive

/-- A sample after the clearing sets again the bits it cleared of lines that are high and not active. -/
theorem getLsbD_icpr {s : State} (h : s.linesPending) (v : Word) {n : Nat} (hn : n < 32) :
    (s.irqsCleared v).resample.pending.irq.getLsbD n =
      (s.pending.irq.getLsbD n && !(v.getLsbD n && decide (n < s.cfg.numIrq.toNat)
        && !(s.irqLine.getLsbD n && !s.active.irq.getLsbD n))) := by
  have hhigh := pending_of_high h hn
  have hsample : (s.irqsCleared v).resample.pending.irq.getLsbD n =
      ((s.irqsCleared v).pending.irq.getLsbD n || (s.irqLine.getLsbD n &&
        decide (n < s.cfg.numIrq.toNat) && !s.active.irq.getLsbD n)) :=
    resample_pending_get (s.irqsCleared v) (.irq ⟨n, hn⟩)
  rw [hsample, getLsbD_irqsCleared s v hn]
  grind

/-- No other bit is cleared or set. -/
theorem pending_icpr {s : State} (h : s.linesPending) (v : Word) :
    (s.irqsCleared v).resample.pending =
      { (s.irqsCleared v).pending with irq := (s.irqsCleared v).resample.pending.irq } := by
  have hnmi : (s.pending.nmi || (s.nmiLine && !s.active.nmi)) = s.pending.nmi := by
    obtain ⟨hline, -⟩ := h
    grind
  rw [ExcBits.mk.injEq]
  exact ⟨hnmi, rfl, rfl, rfl, rfl, rfl⟩

/-- The bits that the sample sets again. -/
theorem anyNew_icpr {s : State} (h : s.linesPending) (v : Word) :
    ExcBits.anyNew (s.irqsCleared v).pending (s.irqsCleared v).resample.pending = true ↔
      ∃ n < 32, v.getLsbD n = true ∧ n < s.cfg.numIrq.toNat ∧ s.irqLine.getLsbD n = true ∧
        s.active.irq.getLsbD n = false := by
  rw [pending_icpr h, ExcBits.anyNew_irq]
  refine exists_congr fun n => and_congr_right fun hn => ?_
  have hhigh := pending_of_high h hn
  rw [getLsbD_icpr h v hn, getLsbD_irqsCleared s v hn]
  grind

/-- An interrupt that does not exist is not pending (R401). -/
theorem pendingIrq_exists {s : State} (h : s.onlyExisting) {n : Nat} (hn : n < 32) :
    s.pending.irq.getLsbD n = (s.pending.irq.getLsbD n && decide (n < s.cfg.numIrq.toNat)) := by
  by_cases hexists : n < s.cfg.numIrq.toNat
  · simp [hexists]
  · obtain ⟨hpending, -⟩ := h (.irq ⟨n, hn⟩) (Exc.mem_all _) (decide_eq_false hexists)
    have hclear : s.pending.irq.getLsbD n = false := hpending
    rw [hclear, Bool.false_and]

/-- Settles O51: each write is a mask of bits that exist; NVIC_ICPR samples the lines again
(`getLsbD_icpr`). -/
theorem nvicSetAndClear : Obligations.NvicSetAndClear := by
  intro s v hinv
  have hlines := linesPending_of_inv hinv
  obtain ⟨-, -, -, -, -, -, -, hexisting, -, -⟩ := hinv
  have masked {n : Nat} (hn : n < 32) (x : Word) : (x &&& s.irqMask).getLsbD n =
      (x.getLsbD n && decide (n < s.cfg.numIrq.toNat)) := by
    rw [BitVec.getLsbD_and, getLsbD_irqMask_lt s hn]
  refine ⟨⟨_, rfl, rfl, fun n hn => ?iser⟩, ⟨_, rfl, rfl, fun n hn => ?icer⟩,
    ⟨_, rfl, rfl, ?isprEvent, fun n hn => ?ispr⟩,
    ⟨_, writeSys_nvicIcpr s v, ?icprFrame, ?icprEvent, fun n hn => getLsbD_icpr hlines v hn⟩,
    ?readEnabled, ?readPending⟩
  case iser => rw [BitVec.getLsbD_or, masked hn]
  case icer =>
    rw [BitVec.getLsbD_and, BitVec.getLsbD_not, masked hn, decide_eq_true hn, Bool.true_and]
  case isprEvent =>
    rw [State.withPending_event, Bool.or_eq_true, Bool.and_eq_true, ExcBits.anyNew_irq]
    rfl
  case ispr => exact (BitVec.getLsbD_or ..).trans (by rw [masked hn])
  case icprFrame =>
    exact congrArg (fun p => { s with pending := p, event := (s.irqsCleared v).resample.event })
      (pending_icpr hlines v)
  case icprEvent =>
    have hevent : (s.irqsCleared v).resample.event = (s.event || (s.scr.sevOnPend &&
      ExcBits.anyNew (s.irqsCleared v).pending (s.irqsCleared v).resample.pending)) := rfl
    rw [hevent, Bool.or_eq_true, Bool.and_eq_true, anyNew_icpr hlines]
  case readEnabled =>
    simp only [List.forall_mem_cons]
    exact ⟨⟨rfl, fun n hn => masked hn _⟩, ⟨rfl, fun n hn => masked hn _⟩, nofun⟩
  case readPending =>
    have hpending {n : Nat} (hn : n < 32) :=
      (masked hn s.pending.irq).trans (pendingIrq_exists hexisting hn).symm
    simp only [List.forall_mem_cons]
    exact ⟨⟨rfl, fun n hn => hpending hn⟩, ⟨rfl, fun n hn => hpending hn⟩, nofun⟩

end Sys2Proof.Machine
end

section
/-! PROOFS. Loads and stores of the system registers (`20_memory.md` R100, R101, R461), and the priority
registers (`60_exceptions.md` R445, R457, R458). -/

namespace Sys2Proof.Machine

open Sys2Proof

/-! ## One access to a system register (R100, R101, R461) -/

theorem of_ite_eq_some {α : Type} {c P : Prop} [Decidable c] {x r : α} {o : Option α}
    (h : (if c then some x else o) = some r) (hc : c → P) (ho : o = some r → P) : P := by
  by_cases hcase : c
  · exact hc hcase
  · exact ho (by rwa [if_neg hcase] at h)

/-- The registers lie at multiples of 4 in the Private Peripheral Bus (R111). -/
theorem address_of_sysRegAt {a : Word} {reg : SysReg} (h : sysRegAt a = some reg) :
    a.toNat % 4 = 0 ∧ inPpb a = true := by
  rw [sysRegAt] at h
  iterate 9 refine of_ite_eq_some h (fun ha => by subst ha; exact ⟨rfl, rfl⟩) fun h => ?_
  refine of_ite_eq_some h (fun ⟨hpage, hlow⟩ => ?priorities) fun h => ?_
  case priorities =>
    have hpage : a.toNat / 2 ^ 5 % 2 ^ 27 = 0x7000720 := by
      simpa [Nat.shiftRight_eq_div_pow] using congrArg BitVec.toNat hpage
    refine ⟨aligned_iff.mp hlow, beq_iff_eq.mpr (BitVec.eq_of_toNat_eq ?_)⟩
    rw [BitVec.extractLsb'_toNat, Nat.shiftRight_eq_div_pow, BitVec.toNat_ofNat]
    omega
  iterate 9 refine of_ite_eq_some h (fun ha => by subst ha; exact ⟨rfl, rfl⟩) fun h => ?_
  cases h

theorem memRead_sysReg {s : State} {a : Word} {reg : SysReg} (h : sysRegAt a = some reg) :
    memRead true .word a s = .ok (readSys reg s).1 (readSys reg s).2 := by
  obtain ⟨haligned, hppb⟩ := address_of_sysRegAt h
  simp [memRead, Width.bytes, haligned, hppb, h]

theorem memWrite_sysReg {s : State} {a : Word} {reg : SysReg} (v : Word)
    (h : sysRegAt a = some reg) : memWrite true .word a v s = writeSys reg v s := by
  obtain ⟨haligned, hppb⟩ := address_of_sysRegAt h
  simp [memWrite, Width.bytes, haligned, hppb, h]

/-- A write of a system register has an effect or is refused. -/
theorem writeSys_cases (reg : SysReg) (v : Word) (s : State) :
    (∃ u, writeSys reg v s = .ok () u) ∨ ∃ r, writeSys reg v s = .refuse r := by
  cases h : writeSys reg v s with
  | ok _ u => exact .inl ⟨u, rfl⟩
  | hardFault c u => exact absurd h writeSys_no_hardFault
  | refuse r => exact .inr ⟨r, rfl⟩

/-- A word form of a load takes the word as it is. -/
theorem extend_of_word {s : State} {rm rn rt : LowReg} {imm5 : BitVec 5} {imm8 : BitVec 8} :
    ∀ f ∈ s.loadForms rm rn rt imm5 imm8, f.width = .word → f.extend = id := by
  simp [State.loadForms]

/-- Settles O50: the access is the register's read or write, and the pc advances past it. -/
theorem systemRegisterAccess : Obligations.SystemRegisterAccess := by
  intro s rm rn rt imm5 imm8 reg hpriv hroom
  refine ⟨fun f hf hwidth hreg => ?store, fun f hf hwidth hreg => ?load⟩
  case store =>
    rw [exec_storeForm f hf, storeReg, hwidth, hpriv, memWrite_sysReg _ hreg]
    obtain ⟨u, hu⟩ | ⟨r, hr⟩ := writeSys_cases reg (s.low rt) s
    · have hpc := writeSys_pc hu
      have hroom' : u.roomFor 2 := by rwa [State.roomFor, hpc]
      refine .inl ⟨u, hu, ?_⟩
      rw [hu, Eff.finishAt_ok, advance_room hroom', hpc]
    · exact .inr ⟨r, hr, by rw [hr, Eff.finishAt_refuse]⟩
  case load =>
    obtain ⟨ext, hexec, hext⟩ := exec_loadForm f hf
    rw [extend_of_word f hf hwidth, hwidth] at hext
    have hframe := readSys_readFrom reg s
    have hr : (readSys reg s).2.r = s.r := (congrArg State.r hframe :)
    have hpc : (readSys reg s).2.pc = s.pc := (congrArg State.pc hframe :)
    have hroom' : (readSys reg s).2.roomFor 2 := by rwa [State.roomFor, hpc]
    rw [hexec, loadReg, hwidth, hpriv, memRead_sysReg hreg, Eff.andThen_ok, Eff.finishAt_ok,
      advance_setLow hroom', hr, hpc]
    exact congrArg (fun v => Host.Outcome.next { (readSys reg s).2 with
      r := s.r.set rt.val v, pc := s.pc + 2#32 }) (hext _)

/-! ## The priority registers (R445, R457, R458) -/

/-- A write of one priority changes no other field. -/
theorem writePri_eq (s : State) (n : Fin 32) (v : Word) (j : Nat) :
    s.writePri n v j = { s with pri := { s.pri with irq := (s.writePri n v j).pri.irq } } := by
  unfold State.writePri
  split <;> rfl

theorem writePri_cfg (s : State) (n : Fin 32) (v : Word) (j : Nat) :
    (s.writePri n v j).cfg = s.cfg := by rw [writePri_eq]

theorem writePri_getElem (s : State) (n m : Fin 32) (v : Word) (j : Nat) :
    (s.writePri n v j).pri.irq[m.val] =
      if m = n ∧ m.val < s.cfg.numIrq.toNat then v.extractLsb' (8 * j + 6) 2
      else s.pri.irq[m.val] := by
  unfold State.writePri
  split
  · next hn =>
    rw [Vector.getElem_set]
    by_cases hmn : m = n
    · subst hmn
      simp [hn]
    · have hval : n.val ≠ m.val := fun h => hmn (Fin.ext h.symm)
      simp [hmn, hval]
  · next hn => exact (if_neg fun ⟨hmn, hm⟩ => hn (hmn ▸ hm)).symm

theorem writeIpr_eq (s : State) (k : Fin 8) (v : Word) :
    s.writeIpr k v = { s with pri := { s.pri with irq := (s.writeIpr k v).pri.irq } } := by
  rw [State.writeIpr, writePri_eq, writePri_eq (s := State.writePri _ _ _ 1),
    writePri_eq (s := State.writePri _ _ _ 0), writePri_eq (s := s)]

/-- Byte `j` of NVIC_IPRk is that of IRQ 4k + j (R445). -/
theorem writeIpr_getElem (s : State) (k : Fin 8) (v : Word) (n : Fin 32) :
    (s.writeIpr k v).pri.irq[n.val] =
      if n.val / 4 = k.val ∧ n.val < s.cfg.numIrq.toNat then v.extractLsb' (8 * (n.val % 4) + 6) 2
      else s.pri.irq[n.val] := by
  simp only [State.writeIpr, writePri_getElem, writePri_cfg, Fin.ext_iff]
  grind

theorem bytes_of_append (a b c d : Byte) : (a ++ b ++ c ++ d).extractLsb' 0 8 = d ∧
    (a ++ b ++ c ++ d).extractLsb' 8 8 = c ∧ (a ++ b ++ c ++ d).extractLsb' 16 8 = b ∧
    (a ++ b ++ c ++ d).extractLsb' 24 8 = a := by
  refine ⟨BitVec.extractLsb'_append_eq_right, ?_, ?_, ?_⟩
  · rw [BitVec.extractLsb'_append_eq_of_le (by omega)]
    exact BitVec.extractLsb'_append_eq_right
  · rw [BitVec.extractLsb'_append_eq_of_le (by omega), BitVec.extractLsb'_append_eq_of_le (by omega)]
    exact BitVec.extractLsb'_append_eq_right
  · rw [BitVec.extractLsb'_append_eq_of_le (by omega), BitVec.extractLsb'_append_eq_of_le (by omega),
      BitVec.extractLsb'_append_eq_of_le (by omega)]
    exact BitVec.extractLsb'_eq_self

/-- Byte `j` of a read of NVIC_IPRk is the priority byte of IRQ 4k + j (R445). -/
theorem readIpr_byte (s : State) (k : Fin 8) {n : Fin 32} (h : n.val / 4 = k.val) :
    (s.readIpr k).extractLsb' (8 * (n.val % 4)) 8 = s.priByte n := by
  obtain ⟨h0, h1, h2, h3⟩ := bytes_of_append (s.priByte ⟨4 * k.val + 3, by omega⟩)
    (s.priByte ⟨4 * k.val + 2, by omega⟩) (s.priByte ⟨4 * k.val + 1, by omega⟩)
    (s.priByte ⟨4 * k.val, by omega⟩)
  have place (j : Nat) (hj : n.val % 4 = j) (hlt : 4 * k.val + j < 32) :
      (⟨4 * k.val + j, hlt⟩ : Fin 32) = n := Fin.ext (by dsimp only; omega)
  have hj : n.val % 4 = 0 ∨ n.val % 4 = 1 ∨ n.val % 4 = 2 ∨ n.val % 4 = 3 := by omega
  obtain hj | hj | hj | hj := hj
  · rw [hj, ← place 0 hj (by omega)]
    exact h0
  · rw [hj, ← place 1 hj (by omega)]
    exact h1
  · rw [hj, ← place 2 hj (by omega)]
    exact h2
  · rw [hj, ← place 3 hj (by omega)]
    exact h3

/-- SHPR3's two fields do not overlap, and the rest reads as 0. -/
theorem shpr3_fields (x y : BitVec 2) : (x ++ 0#6 ++ y ++ 0#22 : Word) &&& 0x3F3FFFFF#32 = 0#32 ∧
    (x ++ 0#6 ++ y ++ 0#22 : Word).extractLsb' 22 2 = y ∧
    (x ++ 0#6 ++ y ++ 0#22 : Word).extractLsb' 30 2 = x := by
  revert x y
  decide

/-- Settles O52: each byte of a register is one priority (`writeIpr_getElem`, `readIpr_byte`). -/
theorem priorityRegisters : Obligations.PriorityRegisters := by
  intro s k v
  exact ⟨⟨_, rfl, writeIpr_eq s k v, writeIpr_getElem s k v⟩,
    ⟨rfl, fun n hn => readIpr_byte s k hn⟩, rfl, rfl, rfl, _, rfl, shpr3_fields _ _⟩

end Sys2Proof.Machine
end

section
/-! PROOFS. SysTick: its registers and its period (`60_exceptions.md` R470 to R475). -/

namespace Sys2Proof.Machine

open Sys2Proof

/-! ## The registers (R471 to R474) -/

/-- The four bits of SYST_CSR as a sum of their weights (R471). -/
theorem systCsrWord_eq (count clk int en : Bool) :
    (0#15 ++ BitVec.ofBool count ++ 0#13 ++ BitVec.ofBool clk ++ BitVec.ofBool int ++
      BitVec.ofBool en : Word) =
      BitVec.ofNat 32 (65536 * count.toNat + 4 * clk.toNat + 2 * int.toNat + en.toNat) := by
  revert count clk int en
  decide

theorem readSystCsr_eq (s : State) : s.readSystCsr = BitVec.ofNat 32 (65536 * s.syst.countFlag.toNat
    + 4 * (s.syst.clkSource || s.cfg.systCalib.getLsbD 31).toNat
    + 2 * s.syst.tickInt.toNat + s.syst.enable.toNat) := by
  rw [State.readSystCsr, systCsrWord_eq, BitVec.msb_eq_getLsbD_last]

/-- A counter of 24 bits reads as its number. -/
theorem toNat_counter (x : BitVec 24) : (x.setWidth 32 : Word).toNat = x.toNat :=
  BitVec.toNat_setWidth_of_le (by decide)

/-- Settles O54: each register is one branch of `readSys` and of `writeSys`. -/
theorem sysTickRegisters : Obligations.SysTickRegisters := by
  intro s v
  refine ⟨fun hpresent => ?present, fun habsent => ?absent⟩
  case present =>
    simp only [writeSys, readSys, hpresent, if_true, readSystCsr_eq]
    refine ⟨⟨_, rfl, rfl, ?_⟩, trivial, trivial, ⟨_, rfl, toNat_counter _⟩, trivial,
      ⟨_, rfl, toNat_counter _⟩, trivial, trivial⟩
    rw [State.writeSystCsr, BitVec.msb_eq_getLsbD_last]
  case absent =>
    simp [writeSys, readSys, habsent]

/-! ## One tick (R475) -/

section Ticking

variable {s : State} (hpresent : s.cfg.hasSysTick = true) (henable : s.syst.enable = true)
include hpresent henable

theorem sysTickStep_reload (hzero : s.syst.current = 0#24) :
    s.sysTickStep = { s with syst := { s.syst with current := s.syst.reload } } := by
  simp [State.sysTickStep, hpresent, henable, hzero]

theorem sysTickStep_count (hnonzero : s.syst.current ≠ 0#24) (hmore : s.syst.current - 1#24 ≠ 0#24) :
    s.sysTickStep = { s with syst := { s.syst with current := s.syst.current - 1#24 } } := by
  simp only [State.sysTickStep, hpresent, henable, Bool.and_self, if_true, if_neg hnonzero,
    if_neg hmore]

/-- The tick that reaches 0 sets COUNTFLAG, and pends SysTick with TICKINT. -/
theorem sysTickStep_end (hnonzero : s.syst.current ≠ 0#24) (hend : s.syst.current - 1#24 = 0#24)
    (hclear : s.pending.systick = false) : s.sysTickStep = { s with
      syst := { s.syst with current := 0#24, countFlag := true }
      pending := { s.pending with systick := s.syst.tickInt }
      event := s.event || (s.scr.sevOnPend && s.syst.tickInt) } := by
  simp only [State.sysTickStep, hpresent, henable, Bool.and_self, if_true, if_neg hnonzero, hend]
  have hget : s.pending.get .systick = false := hclear
  cases hint : s.syst.tickInt with
  | true =>
    rw [if_pos rfl, withPending_set]
    dsimp only
    rw [hget]
    rfl
  | false =>
    rw [if_neg Bool.false_ne_true, Bool.and_false, Bool.or_false, ← hclear]

end Ticking

/-! ## A period (R472) -/

/-- What `k + 1` ticks leave of a state with CURRENT 0, `k` up to RELOAD. -/
def State.ticked (s : State) (k : Nat) (rest : List Input) : State := { s with
  syst := { s.syst with
    current := s.syst.reload - BitVec.ofNat 24 k
    countFlag := decide (k = s.syst.reload.toNat) }
  pending := { s.pending with systick := s.syst.tickInt && decide (k = s.syst.reload.toNat) }
  event := s.event || (s.scr.sevOnPend && s.syst.tickInt && decide (k = s.syst.reload.toNat))
  inputs := rest }

theorem ticked_current {s : State} {k : Nat} (rest : List Input) (hk : k ≤ s.syst.reload.toNat) :
    (s.ticked k rest).syst.current.toNat = s.syst.reload.toNat - k := by
  have hreload := s.syst.reload.isLt
  rw [State.ticked]
  dsimp only
  rw [BitVec.toNat_sub, BitVec.toNat_ofNat]
  omega

section Period

variable {s : State} (hpresent : s.cfg.hasSysTick = true) (henable : s.syst.enable = true)
include hpresent henable

/-- The first tick reloads the counter. -/
theorem sysTickStep_first (rest : List Input) (hzero : s.syst.current = 0#24)
    (hreload : s.syst.reload ≠ 0#24) (hcount : s.syst.countFlag = false)
    (hclear : s.pending.systick = false) :
    State.sysTickStep { s with inputs := rest } = s.ticked 0 rest := by
  have hnotYet : decide (0 = s.syst.reload.toNat) = false :=
    decide_eq_false fun h => hreload (BitVec.eq_of_toNat_eq h.symm)
  rw [sysTickStep_reload (s := { s with inputs := rest }) hpresent henable hzero, State.ticked, hnotYet]
  have hpending : ({ s.pending with systick := false } : ExcBits) = s.pending := by rw [← hclear]
  have hsyst : ({ s.syst with current := s.syst.reload, countFlag := false } : SysTick) =
      { s.syst with current := s.syst.reload } := by rw [← hcount]
  simp only [Bool.and_false, Bool.or_false, BitVec.sub_zero, hpending, hsyst]

/-- Each later tick counts down. -/
theorem sysTickStep_ticked {k : Nat} (rest : List Input) (hk : k < s.syst.reload.toNat) :
    State.sysTickStep (s.ticked k rest) = s.ticked (k + 1) rest := by
  have hcurrent := ticked_current rest hk.le
  have hnext : (s.ticked k rest).syst.current - 1#24 = s.syst.reload - BitVec.ofNat 24 (k + 1) := by
    rw [State.ticked, BitVec.ofNat_add]
    ring
  have hnonzero : (s.ticked k rest).syst.current ≠ 0#24 := fun h => by
    rw [h] at hcurrent
    simp at hcurrent
    omega
  have hlast : s.syst.reload - BitVec.ofNat 24 (k + 1) = 0#24 ↔ k + 1 = s.syst.reload.toNat := by
    have hcurrent' := ticked_current rest (s := s) (k := k + 1) hk
    rw [← BitVec.toNat_inj, show (s.syst.reload - BitVec.ofNat 24 (k + 1)).toNat = _ from hcurrent',
      BitVec.toNat_zero]
    omega
  have hearly : decide (k = s.syst.reload.toNat) = false := decide_eq_false hk.ne
  by_cases hend : k + 1 = s.syst.reload.toNat
  · have hzero := hlast.mpr hend
    rw [sysTickStep_end (s := s.ticked k rest) hpresent henable hnonzero (hnext.trans hzero)
      (by simp [State.ticked, hearly])]
    simp only [State.ticked, hearly, hzero, decide_eq_true hend, Bool.and_true, Bool.and_false,
      Bool.or_false]
  · have hmore := mt hlast.mp hend
    rw [sysTickStep_count (s := s.ticked k rest) hpresent henable hnonzero (hnext ▸ hmore), hnext]
    simp only [State.ticked, hearly, decide_eq_false hend]

end Period

/-! ## The ticks as steps (R400) -/

theorem run_succ_of_next {M : Host.Core} {s t : M.State} (n : Nat) (h : M.step s = .next t) :
    M.run (n + 1) s = M.run n t := by
  simp only [Host.Core.run, h]

theorem run_succ_of_run {M : Host.Core} {n : Nat} {s t : M.State} (h : M.run n s = .next t) :
    M.run (n + 1) s = M.run 1 t := by
  induction n generalizing s with
  | zero => cases h; rfl
  | succ n ih =>
    cases hstep : M.step s with
    | next u =>
      rw [run_succ_of_next n hstep] at h
      rw [run_succ_of_next (n + 1) hstep, ih h]
    | fault r => simp [Host.Core.run, hstep] at h
    | refused r => simp [Host.Core.run, hstep] at h

/-- A step that takes a tick. -/
theorem run_tick {s : State} {rest : List Input} (h : s.inputs = .outside .tick :: rest) :
    Sys2Proof.core.run 1 s = .next (State.sysTickStep { s with inputs := rest }) :=
  run_succ_of_next (M := Sys2Proof.core) 0 (step_event h)

theorem run_ticks {s : State} (hpresent : s.cfg.hasSysTick = true) (henable : s.syst.enable = true)
    (hzero : s.syst.current = 0#24) (hreload : s.syst.reload ≠ 0#24)
    (hcount : s.syst.countFlag = false) (hclear : s.pending.systick = false) {k : Nat}
    (hk : k ≤ s.syst.reload.toNat) {rest : List Input}
    (hin : s.inputs = List.replicate (k + 1) (.outside .tick) ++ rest) :
    Sys2Proof.core.run (k + 1) s = .next (s.ticked k rest) := by
  induction k generalizing rest with
  | zero =>
    rw [run_tick hin]
    exact congrArg _ (sysTickStep_first hpresent henable rest hzero hreload hcount hclear)
  | succ k ih =>
    rw [List.replicate_succ', List.append_assoc] at hin
    have htick := run_tick (s := s.ticked k (.outside .tick :: rest)) rfl
    rw [run_succ_of_run (ih (by omega) hin)]
    exact htick.trans (congrArg _ (sysTickStep_ticked hpresent henable rest hk))

/-- Settles O55: the first tick reloads and each later one counts down (`run_ticks`). -/
theorem sysTickPeriod : Obligations.SysTickPeriod := by
  intro s k rest hpresent henable hzero hreload hcount hclear hk hin
  exact ⟨s.ticked k rest, run_ticks hpresent henable hzero hreload hcount hclear hk hin, rfl,
    ticked_current rest hk, rfl⟩

end Sys2Proof.Machine
end

section
/-! PROOFS. The system control block: ICSR, VTOR, AIRCR, SCR and CPUID (`60_exceptions.md` R451 to R455). -/

namespace Sys2Proof.Machine

open Sys2Proof

/-! ## ICSR (R452) -/

/-- The fields of ICSR, each at its place, and 0 between them. -/
theorem icsr_fields (nmi pendsv systick : Bool) (unknown : BitVec 2) (vect number : BitVec 6) (x : Word)
    (hx : x = BitVec.ofBool nmi ++ 0#2 ++ BitVec.ofBool pendsv ++ 0#1 ++ BitVec.ofBool systick ++ 0#2 ++
      unknown ++ 0#4 ++ vect ++ 0#6 ++ number) :
    x.getLsbD 31 = nmi ∧ x.getLsbD 28 = pendsv ∧ x.getLsbD 26 = systick ∧ x.extractLsb' 0 6 = number ∧
      x &&& 0x6B3C0FC0#32 = 0#32 ∧ x.extractLsb' 12 6 = vect := by
  have hmask : (0x6B3C0FC0#32 : Word) = 0#1 ++ 3#2 ++ 0#1 ++ 1#1 ++ 0#1 ++ 3#2 ++ 0#2 ++ 0xF#4 ++ 0#6 ++
      0x3F#6 ++ 0#6 := rfl
  subst hx
  refine ⟨?_, ?_, ?_, BitVec.extractLsb'_append_eq_right, ?_, ?_⟩
  · repeat rw [BitVec.getLsbD_append]
    simp
  · repeat rw [BitVec.getLsbD_append]
    simp
  · repeat rw [BitVec.getLsbD_append]
    simp
  · rw [hmask]
    repeat rw [BitVec.and_append]
    simp only [BitVec.and_zero, BitVec.zero_and]
    rfl
  · rw [BitVec.extractLsb'_append_eq_of_le (by omega), BitVec.extractLsb'_append_eq_of_le (by omega)]
    exact BitVec.extractLsb'_append_eq_right

/-- VECTPENDING names what is highest among the pending and enabled exceptions (R452). -/
theorem vectPending_eq (s : State) :
    s.vectPending = BitVec.ofNat 6 (((s.highest s.requested).map Exc.number).getD 0) := by
  unfold State.vectPending
  cases s.highest s.requested <;> rfl

/-- The pairs of bits that ICSR may not have both 1 (U15). -/
def State.icsrConflict (s : State) (v : Word) : Prop :=
  (v.getLsbD 28 = true ∧ v.getLsbD 27 = true) ∨
    (s.cfg.hasSysTick = true ∧ v.getLsbD 26 = true ∧ v.getLsbD 25 = true)

theorem writeIcsr_refused {s : State} {v : Word} (h : s.icsrConflict v) :
    writeSys .icsr v s = .refuse .unpredictableSysWrite := by
  refine if_pos ?_
  simpa [State.icsrConflict, and_assoc] using h

theorem writeIcsr_ok {s : State} {v : Word} (h : ¬s.icsrConflict v) :
    writeSys .icsr v s = .ok () (s.withPending (s.icsrPending v)) := by
  refine if_neg ?_
  simpa [State.icsrConflict, and_assoc] using h

/-- The bits that a write of ICSR pends anew. -/
theorem anyNew_icsrPending {s : State} {v : Word} (h : ¬s.icsrConflict v) :
    ExcBits.anyNew s.pending (s.icsrPending v) = true ↔
      (v.getLsbD 31 = true ∧ s.pending.nmi = false) ∨
        (v.getLsbD 28 = true ∧ s.pending.pendsv = false) ∨
          (s.cfg.hasSysTick = true ∧ v.getLsbD 26 = true ∧ s.pending.systick = false) := by
  rw [State.icsrConflict, not_or] at h
  obtain ⟨hpendsv, hsystick⟩ := h
  simp only [ExcBits.anyNew, State.icsrPending, BitVec.and_not_self]
  grind

/-! ## AIRCR and SCR (R454, R455) -/

theorem aircr_fields (unknown : BitVec 16) (big : Bool) (x : Word)
    (hx : x = unknown ++ BitVec.ofBool big ++ 0#15) :
    x.getLsbD 15 = big ∧ x &&& 0x00007FFF#32 = 0#32 := by
  have hmask : (0x00007FFF#32 : Word) = 0#16 ++ 0#1 ++ 0x7FFF#15 := rfl
  subst hx
  refine ⟨?_, ?_⟩
  · repeat rw [BitVec.getLsbD_append]
    simp
  · rw [hmask, BitVec.and_append, BitVec.and_append, BitVec.and_zero, BitVec.and_zero, BitVec.zero_and]
    rfl

theorem writeAircr_key {s : State} {v : Word} (hkey : v.extractLsb' 16 16 = 0x05FA#16) :
    writeSys .aircr v s = if v.getLsbD 1 then .refuse .unpredictableSysWrite
      else .ok () { s with resetRequest := s.resetRequest || v.getLsbD 2 } :=
  if_neg (not_not.mpr hkey)

/-- SCR holds bits 4, 2 and 1 of what is written to it. -/
theorem readScr_writeScr (s : State) (v : Word) : (s.writeScr v).readScr = v &&& 0x00000016#32 := by
  have hmask : (0x00000016#32 : Word) =
      BitVec.twoPow 32 4 ||| BitVec.twoPow 32 2 ||| BitVec.twoPow 32 1 := rfl
  rw [hmask, BitVec.and_or_distrib_left, BitVec.and_or_distrib_left]
  simp only [BitVec.and_twoPow, State.readScr, State.writeScr]
  generalize v.getLsbD 4 = x
  generalize v.getLsbD 2 = y
  generalize v.getLsbD 1 = z
  revert x y z
  decide

/-! ## VTOR (R453) -/

/-- The alignment of a base is the number of its low bits that are 0: bit 7 counts with more than 16
interrupts. -/
theorem tableAlign_dvd_iff {s : State} {v : Word} :
    128 * (v.toNat / 128) % s.tableAlign = 0 ↔
      s.cfg.numIrq.toNat ≤ 16 ∨ v.getLsbD 7 = false := by
  have hbit : v.getLsbD 7 = decide (v.toNat / 128 % 2 = 1) := Nat.testBit_eq_decide_div_mod_eq
  rw [hbit, State.tableAlign, decide_eq_false_iff_not]
  split <;> omega

theorem writeVtor_present {s : State} (h : s.cfg.hasVtor = true) (v : Word) :
    writeSys .vtor v s = if s.cfg.numIrq.toNat ≤ 16 ∨ v.getLsbD 7 = false then
      .ok () { s with vtor := v.extractLsb' 7 25 } else .refuse .unpredictableSysWrite := by
  change s.writeVtor v = _
  simp only [State.writeVtor, h, ← tableAlign_dvd_iff, ne_eq, ite_not, Bool.not_true, Bool.false_eq_true,
    if_false]

theorem readVtor_present {s : State} (h : s.cfg.hasVtor = true) :
    readSys .vtor s = (s.vtor ++ 0#7, s) := by
  rw [readSys, State.vectorBase, if_pos h]

theorem vtor_absent {s : State} (h : s.cfg.hasVtor = false) (v : Word) :
    writeSys .vtor v s = .ok () s ∧ readSys .vtor s = (0#32, s) := by
  simp [writeSys, State.writeVtor, readSys, State.vectorBase, h]

/-- Settles O53: each register's write is one of the lemmas above, and its read a word of fields. -/
theorem systemControlBlock : Obligations.SystemControlBlock := by
  intro s v
  refine ⟨fun hpendsv hsystick => ?icsr, writeIcsr_refused, ?icsrRead, fun hkey => if_pos hkey,
    fun hkey hclear => (writeAircr_key hkey).trans (if_pos hclear),
    fun hkey hclear => (writeAircr_key hkey).trans (if_neg (Bool.eq_false_iff.mp hclear)), ?aircrRead,
    ⟨_, rfl, ?scr, rfl⟩, fun hvtor haligned => ?vtor, fun hvtor hmany hbit => ?vtorRefused,
    fun hvtor => vtor_absent hvtor v, rfl⟩
  case icsr =>
    have hfree : ¬s.icsrConflict v := not_or.mpr ⟨hpendsv, hsystick⟩
    refine ⟨_, writeIcsr_ok hfree, rfl, ?_, ?_, ?_, rfl, rfl, rfl, ?_⟩
    · simp [State.icsrPending]
    · simp only [State.withPending_pending, State.icsrPending]
      grind
    · simp only [State.withPending_pending, State.icsrPending]
      grind
    · rw [State.withPending_event, Bool.or_eq_true, Bool.and_eq_true, anyNew_icsrPending hfree]
  case icsrRead =>
    obtain ⟨hnmi, hpendsv, hsystick, hnumber, hzero, hvect⟩ := icsr_fields _ _ _ _ _ _ _ rfl
    exact ⟨_, rfl, hnmi, hpendsv, hsystick, hnumber, hzero, _, isHighest_highest s s.requested,
      hvect.trans (vectPending_eq s)⟩
  case aircrRead =>
    obtain ⟨hbig, hzero⟩ := aircr_fields _ _ _ rfl
    exact ⟨_, rfl, hbig, hzero⟩
  case scr => rw [readSys, readScr_writeScr]
  case vtor =>
    refine ⟨_, (writeVtor_present hvtor v).trans (if_pos haligned), rfl, ?_⟩
    rw [readVtor_present (s := { s with vtor := v.extractLsb' 7 25 }) hvtor]
    exact congrArg (·, _) (and_high (n := 7) (k := 25) v).symm
  case vtorRefused =>
    refine (writeVtor_present hvtor v).trans (if_neg ?_)
    rintro (hfew | hzero)
    · omega
    · cases hbit.symm.trans hzero

end Sys2Proof.Machine
end
